-- ==== Sys2Proof/Word.lean ====
section
/-! DEFINITION. The words of the HF24: bytes and the fixed widths the manual gives to what it adds, compares or sends
as bits (00, Units; R205). -/

namespace Sys2Proof

/-- A byte of a record on the cable or the host port (R205). -/
abbrev Byte := BitVec 8

/-- A block timestamp, an arrival time or a hold-off deadline: rack ticks modulo 2^48 (00, Units). -/
abbrev Ticks48 := BitVec 48

/-- The low 32 bits of an epoch number, as the cable and the host port carry it (00, Units). -/
abbrev Epoch32 := BitVec 32

/-- A slot count modulo 2^38 (00, Units; R171). -/
abbrev Slot38 := BitVec 38

/-- A 16-bit sequence number, counted modulo 2^16 (00, Units). -/
abbrev Seq := BitVec 16

end Sys2Proof
end

