-- ==== Sys2Proof/Syntax.lean ====
section
/-! DEFINITION. The commands of the HF24: one constructor for each row of spec/opcode_table.json, in the table's order
(the five rows the table adds at its end stand at the end).

The operands are what crosses the port concerned: a request carries the bytes of its record's body (R211), a received
burst its bytes without start bit and fill bits (R208) and whether its reception ends, its hand-over comes, or both
(R53), a marker its 64-bit word (R206), a strobe its tag and word (R107). A row that names a unit (an engine, a generator, a compare, a subscription) carries its number. -/

namespace Sys2Proof

/-- The input pins that are levels (00, Pins). -/
structure Pins where
  /-- ADDR4..ADDR0 -/
  addr : BitVec 5
  /-- REFCLASS1..REFCLASS0 -/
  refclass : BitVec 2
  elig : Bool
  prefer : Bool
  term : Bool
  refok : Bool
  sense : Bool
deriving DecidableEq, Repr

/-- The two ways a marker clash is detected (R33). -/
inductive ClashCause where
  /-- detail 1: during its own edge or word the level read back differs from the level driven -/
  | readBack
  /-- detail 2: with the pair released, a marker edge this station did not send -/
  | foreignEdge
deriving DecidableEq, Repr

/-- What a GOOD_BURST_RECEIVED row tells of: the end of the burst's reception, its hand-over to its owner, or both, which
R53 lets lie apart. DESIGN CHOICE, notes/assumptions/48.md. -/
inductive HandOver where
  /-- the reception ends, and the burst is handed over at once -/
  | atEnd
  /-- the reception ends, and the burst waits in its receive buffer -/
  | waits
  /-- the burst that waits in a receive buffer is handed over -/
  | later
deriving DecidableEq, Repr

/-- The two ways in which a record is discarded (R190). -/
inductive DiscardCause where
  /-- SSN rises before the record is complete -/
  | cut
  /-- the record is completed while the port already holds two requests -/
  | third
deriving DecidableEq, Repr

/-- The commands. -/
inductive Instr where
  /-- POWER_ON_RESET (R63): RESETN low and its release, with the levels of the pins and of SSN (R203) at the release;
  SSN is high unless the row says otherwise -/
  | powerOnReset (pins : Pins) (ssn : Bool := true)
  /-- SLOT_TICK (R3) -/
  | slotTick
  /-- EPOCH_BOUNDARY (R3); `rosterFirst` says which of R98's two orders this boundary takes -/
  | epochBoundary (rosterFirst : Bool)
  /-- MARKER_WINDOW_END (R9) -/
  | markerWindowEnd
  /-- ACQUISITION_ABANDONED (R14) -/
  | acquisitionAbandoned
  /-- TIMEBASE_HOLDOVER (R18) -/
  | timebaseHoldover
  /-- MARKER_CAPTURE (R6) -/
  | markerCapture
  /-- VALID_MARKER (R7): the 64 bits received after the edge (R206) -/
  | validMarker (word : BitVec 64)
  /-- MARKER_NOT_RECEIVED (R207) -/
  | markerNotReceived
  /-- ACQUISITION_COMPLETE (R13) -/
  | acquisitionComplete
  /-- LOCK_ACHIEVED (R17) -/
  | lockAchieved
  /-- REFOK_CHANGE (R26): the new level of the pin -/
  | refokChange (level : Bool)
  /-- CLAIM_EXPIRY (R31) -/
  | claimExpiry
  /-- MARKER_CLASH (R33) -/
  | markerClash (cause : ClashCause)
  /-- HANDOVER_COMPLETE (R36) -/
  | handoverComplete
  /-- HANDOVER_TAKEOVER (R37) -/
  | handoverTakeover
  /-- GUARD_COMPLETE (R43) -/
  | guardComplete
  /-- CLAIM_START (R45) -/
  | claimStart
  /-- CLAIM_LOST (R46): the line bit after the start bit, 0 the first sent, that was driven 1 and read 0; the claim field
  has 8 bits, and 9 line bits where a fill bit stands in it (R42) -/
  | claimLost (bit : Fin 9)
  /-- BURST_START (R48) -/
  | burstStart
  /-- BURST_SENT (R58) -/
  | burstSent
  /-- TX_FAULT (R59) -/
  | txFault
  /-- ABORT_PATTERN_END (R59) -/
  | abortPatternEnd
  /-- HOLD_OFF_EXPIRY (R60) -/
  | holdOffExpiry
  /-- GOOD_BURST_RECEIVED (R52): claim field, body and check, fill bits removed; and whether its reception ends with the
  row, its hand-over comes with it, or both (R53). DESIGN CHOICE, notes/assumptions/48.md -/
  | goodBurstReceived (burst : List Byte) (hand : HandOver := .atEnd)
  /-- RECOVERY_COMPLETE (R83) -/
  | recoveryComplete
  /-- FAILED_CHECK_RECEIVED (R51) -/
  | failedCheckReceived
  /-- ABORTED_BURST_RECEIVED (R51) -/
  | abortedBurstReceived
  /-- SENSE_RISE (R68) -/
  | senseRise
  /-- SENSE_DROP (R68) -/
  | senseDrop
  /-- SETTLE_COMPLETE (R69) -/
  | settleComplete
  /-- LISTEN_COMPLETE (R70) -/
  | listenComplete
  /-- RETIRE_TIMEOUT (R77) -/
  | retireTimeout
  /-- SERVICE_LAPSED (R84) -/
  | serviceLapsed
  /-- STALE_TIMEOUT (R139) -/
  | staleTimeout (sub : Fin 32)
  /-- PULL_DEADLINE (R141) -/
  | pullDeadline (sub : Fin 32)
  /-- SAMPLE_STROBE (R107) -/
  | sampleStrobe (tag : BitVec 4) (word : BitVec 16)
  /-- DRAIN_SAMPLE (R109) -/
  | drainSample
  /-- SCHEDULE_EMIT (R148) -/
  | scheduleEmit (engine : Fin 4)
  /-- SCHEDULE_HOLD (R149) -/
  | scheduleHold (engine : Fin 4)
  /-- HOLD_END (R149) -/
  | holdEnd (engine : Fin 4)
  /-- SCHEDULE_REPEAT (R150) -/
  | scheduleRepeat (engine : Fin 4)
  /-- SCHEDULE_LOOP (R151) -/
  | scheduleLoop (engine : Fin 4)
  /-- SCHEDULE_NOTIFY (R152) -/
  | scheduleNotify (engine : Fin 4)
  /-- SCHEDULE_ALIGN (R153) -/
  | scheduleAlign (engine : Fin 4)
  /-- ALIGN_COMPLETE (R153) -/
  | alignComplete (engine : Fin 4)
  /-- SCHEDULE_HALT (R154) -/
  | scheduleHalt (engine : Fin 4)
  /-- GENERATOR_WRAP (R164) -/
  | generatorWrap (gen : Fin 2)
  /-- GENERATOR_START (R167) -/
  | generatorStart (gen : Fin 2)
  /-- COMPARE_FIRED (R173) -/
  | compareFired (cmp : Fin 4)
  /-- RECORD_DISCARDED (R190); a cut record unless the row says otherwise -/
  | recordDiscarded (cause : DiscardCause := .cut)
  /-- RESPONSE_ABANDONED (R192): SSN rises when `sent` bytes have been sent from the start byte A5 on; 0 before it. The
  table has no row for SSN alone: with every byte of the response sent it is the regular end of the transaction (R189,
  notes/assumptions/32.md) -/
  | responseAbandoned (sent : Nat := 0)
  /-- SETUP (R196) -/
  | setup (body : List Byte)
  /-- JOIN (R67) -/
  | join (body : List Byte)
  /-- RETIRE (R75) -/
  | retire (body : List Byte)
  /-- RESTART (R85) -/
  | restart (body : List Byte)
  /-- SERVICE (R84) -/
  | service (body : List Byte)
  /-- STATUS (R197) -/
  | status (body : List Byte)
  /-- PUBLISH (R105) -/
  | publish (body : List Byte)
  /-- UNPUBLISH (R106) -/
  | unpublish (body : List Byte)
  /-- HOLD (R119) -/
  | hold (body : List Byte)
  /-- RELEASE (R120) -/
  | release (body : List Byte)
  /-- FILL (R111) -/
  | fill (body : List Byte)
  /-- COMMIT (R115) -/
  | commit (body : List Byte)
  /-- READ_PUBLICATION (R123) -/
  | readPublication (body : List Byte)
  /-- SUBSCRIBE (R125) -/
  | subscribe (body : List Byte)
  /-- UNSUBSCRIBE (R126) -/
  | unsubscribe (body : List Byte)
  /-- TAKE (R134) -/
  | take (body : List Byte)
  /-- PULL (R140) -/
  | pull (body : List Byte)
  /-- READ_SUBSCRIPTION (R142) -/
  | readSubscription (body : List Byte)
  /-- LOAD_LIST (R160) -/
  | loadList (body : List Byte)
  /-- ENGINE_START (R156) -/
  | engineStart (body : List Byte)
  /-- ENGINE_STOP (R155) -/
  | engineStop (body : List Byte)
  /-- ENGINE_POINT (R158) -/
  | enginePoint (body : List Byte)
  /-- ENGINE_PRESCALE (R159) -/
  | enginePrescale (body : List Byte)
  /-- CLOCK_SET (R165) -/
  | clockSet (body : List Byte)
  /-- CLOCK_ARM (R166) -/
  | clockArm (body : List Byte)
  /-- CLOCK_OFF (R169) -/
  | clockOff (body : List Byte)
  /-- COMPARE_SET (R171) -/
  | compareSet (body : List Byte)
  /-- COMPARE_CANCEL (R175) -/
  | compareCancel (body : List Byte)
  /-- MONITOR_SET (R186) -/
  | monitorSet (body : List Byte)
  /-- MONITOR_READ (R187) -/
  | monitorRead (body : List Byte)
  /-- MARK (R179) -/
  | mark (body : List Byte)
  /-- READ_ROSTER (R100) -/
  | readRoster (body : List Byte)
  /-- READ_TIMEBASE (R25) -/
  | readTimebase (body : List Byte)
  /-- READ_EVENTS (R201) -/
  | readEvents (body : List Byte)
  /-- START_BIT_SEEN (R45) -/
  | startBitSeen
  /-- GUARD_RESTART (R43) -/
  | guardRestart
  /-- HIGH_TIME_END (R163) -/
  | highTimeEnd (gen : Fin 2)
  /-- MARKER_WORD_SENT (R32) -/
  | markerWordSent
  /-- UNKNOWN_REQUEST (R193): the kind and the body of the record -/
  | unknownRequest (kind : Byte) (body : List Byte)
deriving DecidableEq, Repr

end Sys2Proof
end

