-- ==== Sys2Proof/Decode.lean ====
section
/-! DEFINITION. How commands are spelled. The opcode table gives bits to none of its 91 rows ("fields" is empty in each,
spec/98_reader.md), so no word spells a command (notes/assumptions/21.md). The requests of the host port are spelled by
the request records of 12.4: a transaction's bytes read as a command, and the record of a request. -/

namespace Sys2Proof

/-- The command that the bits of the opcode table read from a word: none, since the table gives no row any bits. -/
def decodeTableWord (_nbits _w : Nat) : Option Instr := none

/-! ### Request records (R189, R190, R193, R211) -/

/-- The request of a kind, with the kinds coded 01 to 22 in hexadecimal in the order of the request map (12.4); a kind
that is none of these is an unknown request (R193). -/
def requestOfKind (kind : Byte) (body : List Byte) : Instr :=
  match kind.toNat with
  | 1 => .setup body
  | 2 => .join body
  | 3 => .retire body
  | 4 => .restart body
  | 5 => .service body
  | 6 => .status body
  | 7 => .publish body
  | 8 => .unpublish body
  | 9 => .hold body
  | 10 => .release body
  | 11 => .fill body
  | 12 => .commit body
  | 13 => .readPublication body
  | 14 => .subscribe body
  | 15 => .unsubscribe body
  | 16 => .take body
  | 17 => .pull body
  | 18 => .readSubscription body
  | 19 => .loadList body
  | 20 => .engineStart body
  | 21 => .engineStop body
  | 22 => .enginePoint body
  | 23 => .enginePrescale body
  | 24 => .clockSet body
  | 25 => .clockArm body
  | 26 => .clockOff body
  | 27 => .compareSet body
  | 28 => .compareCancel body
  | 29 => .monitorSet body
  | 30 => .monitorRead body
  | 31 => .mark body
  | 32 => .readRoster body
  | 33 => .readTimebase body
  | 34 => .readEvents body
  | _ => .unknownRequest kind body

/-- The command that the bytes of one transaction give (R189, R190): the request of its record, whose bytes beyond the
stated body length are ignored; a transaction that ends before its record is complete gives RECORD_DISCARDED. -/
def commandOfTransaction (bytes : List Byte) : Instr :=
  match bytes with
  | kind :: hi :: lo :: rest =>
    let n := hi.toNat * 256 + lo.toNat
    if n ≤ rest.length then requestOfKind kind (rest.take n) else .recordDiscarded .cut
  | _ => .recordDiscarded .cut

/-- The request record of a kind and a body: kind, body length in two bytes, body (12.4). -/
def recordBytes (kind : Byte) (body : List Byte) : List Byte :=
  kind :: BitVec.ofNat 8 (body.length / 256) :: BitVec.ofNat 8 body.length :: body

/-- The request record of a command; none for a command that is no request. -/
def Instr.record : Instr → Option (List Byte)
  | .setup b => some (recordBytes 1 b)
  | .join b => some (recordBytes 2 b)
  | .retire b => some (recordBytes 3 b)
  | .restart b => some (recordBytes 4 b)
  | .service b => some (recordBytes 5 b)
  | .status b => some (recordBytes 6 b)
  | .publish b => some (recordBytes 7 b)
  | .unpublish b => some (recordBytes 8 b)
  | .hold b => some (recordBytes 9 b)
  | .release b => some (recordBytes 10 b)
  | .fill b => some (recordBytes 11 b)
  | .commit b => some (recordBytes 12 b)
  | .readPublication b => some (recordBytes 13 b)
  | .subscribe b => some (recordBytes 14 b)
  | .unsubscribe b => some (recordBytes 15 b)
  | .take b => some (recordBytes 16 b)
  | .pull b => some (recordBytes 17 b)
  | .readSubscription b => some (recordBytes 18 b)
  | .loadList b => some (recordBytes 19 b)
  | .engineStart b => some (recordBytes 20 b)
  | .engineStop b => some (recordBytes 21 b)
  | .enginePoint b => some (recordBytes 22 b)
  | .enginePrescale b => some (recordBytes 23 b)
  | .clockSet b => some (recordBytes 24 b)
  | .clockArm b => some (recordBytes 25 b)
  | .clockOff b => some (recordBytes 26 b)
  | .compareSet b => some (recordBytes 27 b)
  | .compareCancel b => some (recordBytes 28 b)
  | .monitorSet b => some (recordBytes 29 b)
  | .monitorRead b => some (recordBytes 30 b)
  | .mark b => some (recordBytes 31 b)
  | .readRoster b => some (recordBytes 32 b)
  | .readTimebase b => some (recordBytes 33 b)
  | .readEvents b => some (recordBytes 34 b)
  | .unknownRequest kind b => some (recordBytes kind b)
  | .powerOnReset _ _ | .slotTick | .epochBoundary _ | .markerWindowEnd | .acquisitionAbandoned | .timebaseHoldover
  | .markerCapture | .validMarker _ | .markerNotReceived | .acquisitionComplete | .lockAchieved | .refokChange _
  | .claimExpiry | .markerClash _ | .handoverComplete | .handoverTakeover | .guardComplete | .claimStart
  | .claimLost _ | .burstStart | .burstSent | .txFault | .abortPatternEnd | .holdOffExpiry | .goodBurstReceived _ _
  | .recoveryComplete | .failedCheckReceived | .abortedBurstReceived | .senseRise | .senseDrop | .settleComplete
  | .listenComplete | .retireTimeout | .serviceLapsed | .staleTimeout _ | .pullDeadline _ | .sampleStrobe _ _
  | .drainSample | .scheduleEmit _ | .scheduleHold _ | .holdEnd _ | .scheduleRepeat _ | .scheduleLoop _
  | .scheduleNotify _ | .scheduleAlign _ | .alignComplete _ | .scheduleHalt _ | .generatorWrap _ | .generatorStart _
  | .compareFired _ | .recordDiscarded _ | .responseAbandoned _ | .startBitSeen | .guardRestart | .highTimeEnd _
  | .markerWordSent => none

end Sys2Proof
end

