-- ==== Sys2Proof/Config.lean ====
section
/-! DEFINITION. What the spec leaves open: constants with no body, so that no proof can see a value. -/

namespace Sys2Proof

/-- The free choices of the model: which of several orders the part takes where the spec says that either may come
(R98, R146, R173, R199). It is applied to `State.freeCount`, a plain counter. DESIGN CHOICE, notes/assumptions/5.md. -/
opaque Config.freePick : Nat → Nat

/-- Whether the body of a COMMIT response is the flag "pending" (true) or the flag "made" (false): R115 and R213 do
not say which. notes/assumptions/11.md. -/
opaque Config.commitFlagMeansPending : Bool

/-- Whether the body of a PULL response is the flag "already pending" (true) or the flag "begun" (false): R140 and
R213 do not say which. notes/assumptions/11.md. -/
opaque Config.pullFlagMeansPending : Bool

end Sys2Proof
end

