-- ==== Sys2Proof/Machine/Straps.lean ====
section
/-! DEFINITION. What the straps and REFOK make of a station (R26, R63). -/

namespace Sys2Proof.Machine

/-- The base grade of a reference class (R26). -/
def baseGrade (refclass : BitVec 2) (refok : Bool) : Nat :=
  match refclass.toNat with
  | 0 => 2
  | 1 => 3
  | 2 => 5
  | _ => if refok then 6 else 4

/-- The grade of R26: the base grade, plus 1 when PREFER is high, limited to 7; 0 when ELIG is low. -/
def gradeOf (refclass : BitVec 2) (elig prefer refok : Bool) : Nat :=
  if elig then min 7 (baseGrade refclass refok + if prefer then 1 else 0) else 0

/-- An ADDR value of 1..24 is an own address (R63). -/
def addrInRange (addr : BitVec 5) : Bool := decide (1 ≤ addr.toNat ∧ addr.toNat ≤ 24)

/-- The own address: ADDR when in range, otherwise 0 (R63). -/
def ownAddress (addr : BitVec 5) : Nat := if addrInRange addr then addr.toNat else 0

end Sys2Proof.Machine
end

