-- ==== Sys2Proof/Machine/State.lean ====
section
/-! DEFINITION. The state of the HF24, block by block as the manual's block diagram gives it (00), with the values of
power-on reset, and the two ways in which a step could stop. Every field is plain data. -/

namespace Sys2Proof.Machine

/-! ### Enumerations (R205) -/

/-- The station states (04, 4.2). -/
inductive StationState where
  | offline | isolated | settling | listen | joined | retiring | detached | duplicate | silenced
deriving DecidableEq, Repr

/-- The cable interface states (03, 3.2). -/
inductive CableState where
  | off | guard | idle | receiving | claiming | sending | aborting
deriving DecidableEq, Repr

/-- The timebase states (R4). -/
inductive TimebaseState where
  | free | acquire | track | locked | holdover | source
deriving DecidableEq, Repr, Inhabited

/-- The states of a roster entry (05, 5.1). -/
inductive PeerState where
  | absent | seen | present | silent | retired
deriving DecidableEq, Repr

/-- The states of a publication (06, 6.2). -/
inductive PubState where
  | unused | active | held
deriving DecidableEq, Repr

/-- Where a publication's samples come from (06, 6.2). -/
inductive Feed where
  | portFed | requestFed
deriving DecidableEq, Repr

/-- The size of one sample (06, 6.2). -/
inductive Width where
  | w16 | w24 | w32
deriving DecidableEq, Repr

/-- Whether a block already sent is sent again by an EMIT (R118). -/
inductive EmitPolicy where
  | freshOnly | repeatLast
deriving DecidableEq, Repr

/-- The states of a subscription (07, 7.1). -/
inductive SubState where
  | unused | waiting | live | stale
deriving DecidableEq, Repr

/-- Which block is lost when a ring is full (R132). -/
inductive RingMode where
  | keepOldest | keepNewest
deriving DecidableEq, Repr

/-- The run states of a schedule engine (08, 8.2). -/
inductive RunState where
  | stopped | run | holding | aligning
deriving DecidableEq, Repr

/-- The states of a module clock generator (09, 9.1). -/
inductive GenState where
  | off | armed | running
deriving DecidableEq, Repr

/-- The states of an epoch compare (09, 9.2). -/
inductive CmpState where
  | idle | armed | fired
deriving DecidableEq, Repr

/-- What a firing compare does (R173). -/
inductive CmpAction where
  | notify
  | start (engine : Fin 4)
deriving DecidableEq, Repr

/-- The 27 kinds of events (R199), in the order of its table. -/
inductive EventKind where
  | startFault | stationState | timebaseState | phaseStep | phaseAlarm | markerClash | handoverStart | handoverFail
  | peerNew | peerFresh | peerSilent | peerGone | peerRetired | peerHostSilent | cautionOn | cautionOff
  | serviceLapsed | sourceGap | subLive | subStale | ringReady | ringOverrun | pullFailed | scheduleNote
  | scheduleHalted | compareFired | monitorOverflow
deriving DecidableEq, Repr

/-- The occurrences the health monitor can count (R177); selection 0, NONE, is no occurrence. -/
inductive OccKind where
  | slotTick | burstSent | burstReceived | claimLost | txFault | rxCheckFault | blockAccepted | blockDuplicate
  | blockMissed | blockLate | ringOverrun | emitSkipped | emitMerged | markerMissed | phaseStep
deriving DecidableEq, Repr

/-- The subject of an occurrence (R177). -/
inductive Subject where
  | none
  | peer (address : Nat)
  | publication (index : Fin 16)
  | subscription (number : Fin 32)
deriving DecidableEq, Repr

/-- The kind and subject of a transmit queue entry (R54). -/
inductive EntryKind where
  | presence
  | retire
  | pull (number : Fin 32)
  | block (index : Fin 16)
deriving DecidableEq, Repr

/-! ### Timebase unit (01) -/

/-- The six timebase settings (R5); `step` is in ticks, `trim` in fine units. -/
structure Settings where
  p : Nat
  i : Nat
  lock : Nat
  alarm : Nat
  step : Nat
  trim : Int
deriving DecidableEq, Repr

/-- The timebase unit (01, 1.2). -/
structure Timebase where
  state : TimebaseState
  /-- rack time, integer part (R1) -/
  ticks : BitVec 64
  /-- rack time, fraction of a tick in units of 2^-32 (R1) -/
  frac : BitVec 32
  /-- the rate adjust A (R2) -/
  rate : Int
  /-- the integral I (R2) -/
  integral : Int
  /-- the phase error e of the last valid marker, fine units (R8) -/
  phaseError : Int
  /-- the search step s (R13) -/
  searchStep : Nat
  decisions : Nat
  lockRun : Nat
  missCount : Nat
  /-- believed source, 0 for none (R7) -/
  believed : Nat
  /-- epoch (47 bits), target and countdown of the last valid marker (R7) -/
  lastEpoch : Nat
  lastTarget : Nat
  lastCountdown : Nat
  /-- handover expectation (R21), an epoch number of 47 bits -/
  expectation : Option Nat
  /-- a valid marker has been taken in the current window (R9) -/
  windowMark : Bool
  /-- the window in progress is not judged at its end (R9) -/
  windowSkip : Bool
  /-- the held capture of the last marker edge, fine units (R6) -/
  capture : Option Nat
  settings : Settings
deriving DecidableEq, Repr

/-- The defaults of the timebase settings (R5). -/
def Settings.default : Settings := { p := 2, i := 6, lock := 16384, alarm := 262144, step := 256, trim := 0 }

/-- R4. -/
def Timebase.reset : Timebase :=
  { state := .free, ticks := 0, frac := 0, rate := 0, integral := 0, phaseError := 0, searchStep := 0,
    decisions := 0, lockRun := 0, missCount := 0, believed := 0, lastEpoch := 0, lastTarget := 0, lastCountdown := 0,
    expectation := none, windowMark := false, windowSkip := false, capture := none, settings := Settings.default }

/-! ### Source selector (02) -/

/-- A handover under way: its target and its epoch E, an epoch number of 47 bits (R34). -/
structure Handover where
  target : Nat
  epoch : Nat
deriving DecidableEq, Repr

/-- The marker word being driven and the local clock periods until its 65 bit times are over (R32, R206). -/
structure Driving where
  word : BitVec 64
  left : Nat
deriving DecidableEq, Repr

/-- The source selector (02, 2.1). -/
structure Selector where
  grade : Nat
  eligible : Bool
  countdown : Option Nat
  record : Option Handover
  release : Bool
  firstDrive : Option Nat
  driving : Option Driving
deriving DecidableEq, Repr

/-- R28: grade and eligibility from the straps, the rest none or clear. -/
def Selector.reset (p : Pins) : Selector :=
  { grade := gradeOf p.refclass p.elig p.prefer p.refok, eligible := p.elig, countdown := none, record := none,
    release := false, firstDrive := none, driving := none }

/-! ### Cable interface and transmit queue (03) -/

/-- A transmit queue entry (R54). -/
structure TxEntry where
  kind : EntryKind
  cls : Nat
deriving DecidableEq, Repr

/-- The claimed entry (R45); `withdrawn` is set when the entry has left the queue during the claim (R47). -/
structure Claim where
  entry : TxEntry
  withdrawn : Bool
deriving DecidableEq, Repr

/-- A burst in flight: its entry, whether that entry has left the queue (R57), whether it is a PRESENCE that carries
FRESH (R48), and the claim field, body and check it sends (R208). -/
structure Flight where
  entry : TxEntry
  withdrawn : Bool
  fresh : Bool
  claimByte : Byte
  body : List Byte
  check : BitVec 32
deriving DecidableEq, Repr

/-- The end of a burst's reception, the moment the last bit of its check was received (R127): the own rack time integer
and the own timebase state of that moment. -/
structure BurstEnd where
  ticks : BitVec 64
  state : TimebaseState
deriving DecidableEq, Repr, Inhabited

/-- A receive buffer (R53). -/
inductive RxBuffer where
  /-- free -/
  | empty
  /-- a reception in progress: the bits received so far that the rows tell of -/
  | receiving (bits : List Bool)
  /-- a good burst that waits for its owner to take it, and the end of its reception -/
  | waiting (burst : List Byte) (ended : BurstEnd)
deriving DecidableEq, Repr

/-- The cable interface (03, 3.2). -/
structure Cable where
  state : CableState
  guardCount : Nat
  claim : Option Claim
  flight : Option Flight
  /-- the publication whose ready buffer is in flight (R50, R116) -/
  binding : Option (Fin 16)
  holdOff : Bool
  holdOffDeadline : Ticks48
  /-- the two receive buffers (R53) -/
  rx0 : RxBuffer
  rx1 : RxBuffer
deriving DecidableEq, Repr

/-- R44. -/
def Cable.reset : Cable :=
  { state := .off, guardCount := 0, claim := none, flight := none, binding := none, holdOff := false,
    holdOffDeadline := 0, rx0 := .empty, rx1 := .empty }

/-! ### Station controller (04) -/

/-- The straps as sampled (R63). -/
structure Straps where
  addr : BitVec 5
  refclass : BitVec 2
  elig : Bool
  prefer : Bool
deriving DecidableEq, Repr

/-- The station controller (04, 4.2). -/
structure Station where
  state : StationState
  startFault : Bool
  own : Nat
  straps : Straps
  faultScore : Nat
  caution : Bool
  settle : Nat
  listen : Nat
  retireTimer : Nat
  retireSent : Bool
  clash : Nat
  recovery : Nat
  freshPending : Bool
  hostAlive : Bool
  lapse : Nat
  /-- the service interval V (R84) -/
  interval : Nat
deriving DecidableEq, Repr

/-- R63, R64. -/
def Station.reset (p : Pins) : Station :=
  { state := .offline, startFault := !addrInRange p.addr, own := ownAddress p.addr,
    straps := { addr := p.addr, refclass := p.refclass, elig := p.elig, prefer := p.prefer },
    faultScore := 0, caution := false, settle := 0, listen := 0, retireTimer := 0, retireSent := false, clash := 0,
    recovery := 0, freshPending := false, hostAlive := true, lapse := 0, interval := 0 }

/-! ### Peer roster (05) -/

/-- One item of a presence's publication list (R48). -/
structure Announcement where
  index : Fin 16
  width : Width
  samples : Nat
  urgent : Bool
  held : Bool
deriving DecidableEq, Repr

/-- A roster entry (05, 5.1). -/
structure RosterEntry where
  state : PeerState
  grade : Nat
  eligible : Bool
  timebase : TimebaseState
  believed : Nat
  hostAlive : Bool
  pubs : List Announcement
  missed : Nat
  heard : Bool
  lastPresence : Epoch32
  marked : Bool
deriving DecidableEq, Repr

/-- A cleared entry (R87); clearing keeps MARKED. -/
def RosterEntry.cleared (marked : Bool) : RosterEntry :=
  { state := .absent, grade := 0, eligible := false, timebase := .free, believed := 0, hostAlive := true, pubs := [],
    missed := 0, heard := false, lastPresence := 0, marked := marked }

/-! ### Publications and the sample port (06) -/

/-- When a word was strobed: rack time modulo 2^48 and the timebase state (R107). -/
structure Stamp where
  time : Ticks48
  capture : TimebaseState
deriving DecidableEq, Repr

/-- The header of a committed block (R113). -/
structure Block where
  seq : Seq
  time : Ticks48
  capture : TimebaseState
  count : Nat
  gap : Option Nat
  hostSilent : Bool
deriving DecidableEq, Repr

/-- A publication entry (06, 6.2). -/
structure Publication where
  state : PubState
  feed : Feed
  width : Width
  samples : Nat
  urgent : Bool
  policy : EmitPolicy
  readySlot : Nat
  fillSlot : Nat
  ready : Option Block
  fillCount : Nat
  fillTime : Ticks48
  fillCapture : TimebaseState
  nextSeq : Seq
  isNew : Bool
  fillOpen : Bool
  commitPending : Bool
  gap : Nat
  pullPending : Bool
  marked : Bool
deriving DecidableEq, Repr

/-- A cleared publication entry k (R104); clearing keeps MARKED. -/
def Publication.cleared (k : Nat) (marked : Bool) : Publication :=
  { state := .unused, feed := .portFed, width := .w16, samples := 1, urgent := false, policy := .freshOnly,
    readySlot := 2 * k, fillSlot := 2 * k + 1, ready := none, fillCount := 0, fillTime := 0, fillCapture := .free,
    nextSeq := 0, isNew := false, fillOpen := false, commitPending := false, gap := 0, pullPending := false,
    marked := marked }

/-- The port partial state of an index (R107): the held high word with its stamp, and the void-low flag. -/
structure Partial where
  high : Option (BitVec 16 × Stamp)
  voidLow : Bool
deriving DecidableEq, Repr

/-- R104, R107. -/
def Partial.cleared : Partial := { high := none, voidLow := false }

/-- A sample item of the input FIFO (R108). -/
structure FifoItem where
  tag : Fin 16
  first : BitVec 16
  second : Option (BitVec 16)
  stamp : Stamp
deriving DecidableEq, Repr

/-! ### Subscriptions (07) -/

/-- The flags of a block as sent (R50, R208). -/
structure BlockFlags where
  isRepeat : Bool
  gap : Option Nat
  hostSilent : Bool
  capture : TimebaseState
deriving DecidableEq, Repr

/-- A received block in a ring (07, 7.1); `slot` is 0..3 within the subscription's four slots. -/
structure RingEntry where
  slot : Nat
  seq : Seq
  time : Ticks48
  width : Width
  count : Nat
  flags : BlockFlags
  arrival : Ticks48
  missed : Nat
  late : Bool
deriving DecidableEq, Repr

/-- A pull that is PENDING (R140). -/
structure Pull where
  tries : Nat
  deadline : Epoch32
deriving DecidableEq, Repr

/-- A subscription entry (07, 7.1). -/
structure Subscription where
  state : SubState
  publisher : Nat
  index : Fin 16
  mode : RingMode
  ring : List RingEntry
  last : Option Seq
  overruns : Nat
  duplicates : Nat
  lates : Nat
  lateThreshold : Nat
  staleTimeout : Nat
  lastBlock : Epoch32
  overrunReported : Bool
  /-- none is IDLE -/
  pull : Option Pull
  marked : Bool
deriving DecidableEq, Repr

/-- A cleared subscription entry (R124); clearing keeps MARKED. -/
def Subscription.cleared (marked : Bool) : Subscription :=
  { state := .unused, publisher := 0, index := 0, mode := .keepOldest, ring := [], last := none, overruns := 0,
    duplicates := 0, lates := 0, lateThreshold := 0, staleTimeout := 32, lastBlock := 0, overrunReported := false,
    pull := none, marked := marked }

/-! ### Schedule engines (08) -/

/-- An entry of schedule memory (R144). -/
inductive SchedEntry where
  | emit (index : Fin 16)
  | hold (n : BitVec 16)
  | repeat_ (n : BitVec 12)
  | loop
  | notify (code : BitVec 16)
  | align
  | halt
deriving DecidableEq, Repr

/-- A schedule engine (08, 8.2). -/
structure Engine where
  run : RunState
  resume : RunState
  pointer : BitVec 8
  loopStart : Option (BitVec 8)
  loopCount : Nat
  hold : Nat
  prescale : Nat
  prescaleCount : Nat
deriving DecidableEq, Repr

/-- R145. -/
def Engine.reset : Engine :=
  { run := .stopped, resume := .run, pointer := 0, loopStart := none, loopCount := 0, hold := 0, prescale := 0,
    prescaleCount := 0 }

/-! ### Module clocks and compares (09) -/

/-- A module clock generator (09, 9.1); `out` is the level of its MCLK output (R163). -/
structure Generator where
  state : GenState
  period : Nat
  high : Nat
  stagedPeriod : Nat
  stagedHigh : Nat
  wrapBase : BitVec 64
  armEpoch : Epoch32
  out : Bool
deriving DecidableEq, Repr

/-- R162. -/
def Generator.reset : Generator :=
  { state := .off, period := 2, high := 1, stagedPeriod := 2, stagedHigh := 1, wrapBase := 0, armEpoch := 0,
    out := false }

/-- An epoch compare (09, 9.2). -/
structure Compare where
  state : CmpState
  target : Slot38
  action : CmpAction
deriving DecidableEq, Repr

/-- R170. -/
def Compare.reset : Compare := { state := .idle, target := 0, action := .notify }

/-! ### Health monitor (10) -/

/-- A counter of the monitor (10, 10.1); `gateOpen` is the gate of counters 1..3. -/
structure Counter where
  value : Nat
  selection : Nat
  notify : Bool
  await0 : Bool
  gateOpen : Bool
deriving DecidableEq, Repr

/-- R176. -/
def Counter.reset : Counter := { value := 0, selection := 0, notify := false, await0 := false, gateOpen := false }

/-- The overflow snapshot (R184). -/
structure Snapshot where
  counter : Fin 4
  epoch : Epoch32
  tick : Nat
  selection : Nat
  subject : Subject
deriving DecidableEq, Repr

/-- The health monitor (10, 10.1); `marked` is the qualifier, ALL when clear. -/
structure Monitor where
  counters : Vector Counter 4
  marked : Bool
  freeze : Bool
  frozen : Bool
  snapshot : Option Snapshot
  further : Nat
deriving DecidableEq, Repr

/-- R176. -/
def Monitor.reset : Monitor :=
  { counters := Vector.replicate 4 Counter.reset, marked := false, freeze := false, frozen := false,
    snapshot := none, further := 0 }

/-! ### Host port (11) -/

/-- An event record (R199). -/
structure Event where
  kind : EventKind
  epoch : Epoch32
  tick : Nat
  subject : Option Nat
  detail : BitVec 16
deriving DecidableEq, Repr

/-- The port's transaction (R189): what the part sends in it, from the completion of its record on. -/
inductive Transaction where
  /-- SSN is high and SDO at high impedance; `sent` is what the transaction before it sent from its start byte A5 on, when
  SSN rose (R192) -/
  | closed (sent : List Byte)
  /-- SSN has been low since the release of reset: SCK and SDI are ignored until it has risen and fallen (R203) -/
  | ignored
  /-- the record was discarded with two requests held: FF until SSN rises (R190) -/
  | filler
  /-- the record is complete and its request, the newest one held, is not yet handled: FF meanwhile (R189, R191) -/
  | waiting
  /-- the response is ready: A5, the response record, and FF until SSN rises (R189) -/
  | responding (record : List Byte)
deriving DecidableEq, Repr

/-- The host port (11): the event queue, events-lost, the transaction, and the two request holders of R191, oldest
first; a request is held across commands only while it, or the one before it, waits for the block store. -/
structure HostPort where
  events : List Event
  lost : Bool
  transaction : Transaction
  held : List Instr
deriving DecidableEq, Repr

/-- R203; START_FAULT is the first event when the ADDR strap is out of range (R63). `ssn` is the level of SSN at the
release. -/
def HostPort.reset (p : Pins) (ssn : Bool) : HostPort :=
  { events := if addrInRange p.addr then []
      else [{ kind := .startFault, epoch := 0, tick := 0, subject := none, detail := p.addr.setWidth 16 }]
    lost := false, transaction := if ssn then .closed [] else .ignored, held := [] }

/-! ### The steps of one moment -/

/-- A step of the part that has fallen due at the present moment: each is a row of the opcode table that tells of no
input from outside (notes/assumptions/2.md). `engine e` is engine e's act at the slot tick: one of the seven
SCHEDULE rows, or ALIGN_COMPLETE. -/
inductive Due where
  | settleComplete
  | markerWordSent
  | holdOffExpiry
  | generatorWrap (g : Fin 2)
  | highTimeEnd (g : Fin 2)
  | markerWindowEnd
  | acquisitionAbandoned
  | timebaseHoldover
  | acquisitionComplete
  | lockAchieved
  | recoveryComplete
  | slotTick
  | compareFired (k : Fin 4)
  | engine (e : Fin 4)
  | holdEnd (e : Fin 4)
  | epochBoundary
  | handoverComplete
  | handoverTakeover
  | claimExpiry
  | listenComplete
  | retireTimeout
  | serviceLapsed
  | staleTimeout (j : Fin 32)
  | pullDeadline (j : Fin 32)
  | generatorStart (g : Fin 2)
deriving DecidableEq, Repr

/-! ### The machine -/

/-- The state of the HF24. -/
structure State where
  pins : Pins
  timebase : Timebase
  selector : Selector
  cable : Cable
  txQueue : List TxEntry
  station : Station
  roster : Vector RosterEntry 24
  pubs : Vector Publication 16
  partials : Vector Partial 16
  fifo : List FifoItem
  portRejects : Nat
  unknownPulls : Nat
  /-- the block store: byte 1024 * slot + position, sorted, an unlisted byte is 0 (R102) -/
  store : List Host.Cell
  subs : Vector Subscription 32
  /-- schedule memory, sorted by address, an unlisted entry is HALT (R144) -/
  schedule : List (Nat × SchedEntry)
  engines : Vector Engine 4
  gens : Vector Generator 2
  compares : Vector Compare 4
  monitor : Monitor
  port : HostPort
  /-- the model's own: the steps of this moment that are not yet taken (notes/assumptions/2.md) -/
  due : List Due
  /-- the model's own: how many free choices have been drawn (notes/assumptions/5.md, 48.md) -/
  freeCount : Nat
  /-- the commands waiting, first in first out -/
  pending : List Instr
deriving DecidableEq, Repr

/-- Why a step could stop with a fault: the HF24 has none. Every error the manual describes leads to a state, a count,
an event or a refusal status of the part. -/
inductive Fault where
deriving DecidableEq, Repr

/-- Why a step could have no meaning. -/
inductive Refusal where
  /-- Raised by an arm of `exec` whose row has no meaning yet: safe, since nothing can be proved of a next state. -/
  | notModelled (mnemonic : String)
deriving DecidableEq, Repr

/-- The part right after power-on reset with these levels on its pins and SSN (R4, R28, R44, R63, R64, R87, R102, R104, R124,
R144, R145, R162, R170, R176, R203). -/
def State.powerOn (p : Pins) (ssn : Bool) : State :=
  { pins := p, timebase := Timebase.reset, selector := Selector.reset p, cable := Cable.reset, txQueue := [],
    station := Station.reset p, roster := Vector.replicate 24 (RosterEntry.cleared false),
    pubs := Vector.ofFn fun k => Publication.cleared k.val false, partials := Vector.replicate 16 Partial.cleared,
    fifo := [], portRejects := 0, unknownPulls := 0, store := [],
    subs := Vector.replicate 32 (Subscription.cleared false), schedule := [],
    engines := Vector.replicate 4 Engine.reset, gens := Vector.replicate 2 Generator.reset,
    compares := Vector.replicate 4 Compare.reset, monitor := Monitor.reset, port := HostPort.reset p ssn, due := [],
    freeCount := 0, pending := [] }

/-- The levels the pins are taken to have at `State.reset`: address 1, every other level low; SSN is taken as high, no
transaction being open. DESIGN CHOICE, notes/assumptions/6.md. -/
def Pins.atReset : Pins :=
  { addr := 1, refclass := 0, elig := false, prefer := false, term := false, refok := false, sense := false }

/-- The machine right after power-on reset. -/
def State.reset : State := State.powerOn Pins.atReset true

end Sys2Proof.Machine
end

