-- ==== Sys2Proof/Machine/Operands.lean ====
section
/-! DEFINITION. The operand forms: how fields stand in bytes (R205), the codes of enumerated values (R205, R212), the
numbers that name units, and the limits the rules set. -/

namespace Sys2Proof.Machine

/-! ### Fields in bytes (R205): most significant byte first -/

/-- The value of a field of bytes, most significant first. -/
def beNat (bs : List Byte) : Nat := bs.foldl (fun acc b => acc * 256 + b.toNat) 0

/-- A field of `n` bytes that holds the low `8 * n` bits of a value. -/
def beBytes : Nat → Nat → List Byte
  | 0, _ => []
  | n + 1, v => BitVec.ofNat 8 (v / 256 ^ n) :: beBytes n v

/-- A signed field of `n` bytes: two's complement at the field's width. -/
def beSigned (n : Nat) (v : Int) : List Byte := beBytes n (v % (256 ^ n : Nat)).toNat

/-- The value of a 4-byte signed field. -/
def signed32 (bs : List Byte) : Int := (BitVec.ofNat 32 (beNat bs)).toInt

/-- Bytes `start .. start + n - 1` of a record. -/
def fieldBytes (bs : List Byte) (start n : Nat) : List Byte := (bs.drop start).take n

/-- An unsigned field of a record. -/
def field (bs : List Byte) (start n : Nat) : Nat := beNat (fieldBytes bs start n)

/-- Byte `i` of a record, 0 beyond its end. -/
def byteAt (bs : List Byte) (i : Nat) : Byte := bs.getD i 0

/-- A flag the part sends in a byte of its own (R205). -/
def flagByte (b : Bool) : Byte := if b then 1 else 0

/-- A one-byte flag in a request is read from its bit 0 (R205). -/
def readFlag (b : Byte) : Bool := b.getLsbD 0

/-- An item that may be absent: one presence byte, then its fields, all 0 when absent (R213). -/
def optBytes (size : Nat) (item : Option (List Byte)) : List Byte :=
  match item with
  | some bs => 1 :: bs
  | none => 0 :: List.replicate size 0

/-! ### Limits -/

/-- "x limited to lo..hi" (00, Conventions). -/
def limitNat (x lo hi : Nat) : Nat := if x < lo then lo else if hi < x then hi else x

/-- "x limited to lo..hi" for signed values (00, Conventions). -/
def limitInt (x lo hi : Int) : Int := if x < lo then lo else if hi < x then hi else x

/-- A rise of a saturating count. -/
def satAdd (x amount limit : Nat) : Nat := min limit (x + amount)

/-! ### Numbers that name units -/

/-- The number of one of `n` like units, when the byte is below `n`. -/
def unitIx (n : Nat) (v : Nat) : Option (Fin n) := if h : v < n then some ⟨v, h⟩ else none

/-- The roster index of a station address 1..24. -/
def peerIx (a : Nat) : Option (Fin 24) := if h : 1 ≤ a ∧ a ≤ 24 then some ⟨a - 1, by omega⟩ else none

/-- The station address of a roster index. -/
def peerAddress (i : Fin 24) : Nat := i.val + 1

/-! ### Codes (R205) -/

/-- Station state codes. -/
def StationState.code : StationState → Nat
  | .offline => 0 | .isolated => 1 | .settling => 2 | .listen => 3 | .joined => 4 | .retiring => 5 | .detached => 6
  | .duplicate => 7 | .silenced => 8

/-- Timebase state codes. -/
def TimebaseState.code : TimebaseState → Nat
  | .free => 0 | .acquire => 1 | .track => 2 | .locked => 3 | .holdover => 4 | .source => 5

/-- The timebase state of a code. -/
def timebaseOfCode : Nat → Option TimebaseState
  | 0 => some .free | 1 => some .acquire | 2 => some .track | 3 => some .locked | 4 => some .holdover
  | 5 => some .source | _ => none

/-- Roster entry state codes. -/
def PeerState.code : PeerState → Nat
  | .absent => 0 | .seen => 1 | .present => 2 | .silent => 3 | .retired => 4

/-- Publication state codes. -/
def PubState.code : PubState → Nat
  | .unused => 0 | .active => 1 | .held => 2

/-- Subscription state codes. -/
def SubState.code : SubState → Nat
  | .unused => 0 | .waiting => 1 | .live => 2 | .stale => 3

/-- Engine run and resume state codes. -/
def RunState.code : RunState → Nat
  | .stopped => 0 | .run => 1 | .holding => 2 | .aligning => 3

/-- Generator state codes. -/
def GenState.code : GenState → Nat
  | .off => 0 | .armed => 1 | .running => 2

/-- Compare state codes. -/
def CmpState.code : CmpState → Nat
  | .idle => 0 | .armed => 1 | .fired => 2

/-- Cable interface state codes. -/
def CableState.code : CableState → Nat
  | .off => 0 | .guard => 1 | .idle => 2 | .receiving => 3 | .claiming => 4 | .sending => 5 | .aborting => 6

/-- Transmit queue entry kind codes. -/
def EntryKind.code : EntryKind → Nat
  | .presence => 0 | .retire => 1 | .pull _ => 2 | .block _ => 3

/-- Width codes. -/
def Width.code : Width → Nat
  | .w16 => 0 | .w24 => 1 | .w32 => 2

/-- The width of a code; code 3 and above are not defined. -/
def widthOfCode : Nat → Option Width
  | 0 => some .w16 | 1 => some .w24 | 2 => some .w32 | _ => none

/-- Bytes of one sample (R102). -/
def Width.bytes : Width → Nat
  | .w16 => 2 | .w24 => 3 | .w32 => 4

/-- The samples-per-block limit of a width (R105). -/
def Width.limit : Width → Nat
  | .w16 => 512 | .w24 => 341 | .w32 => 256

/-- Feed codes. -/
def Feed.code : Feed → Nat
  | .portFed => 0 | .requestFed => 1

/-- The feed of a code. -/
def feedOfCode : Nat → Option Feed
  | 0 => some .portFed | 1 => some .requestFed | _ => none

/-- Emit policy codes. -/
def EmitPolicy.code : EmitPolicy → Nat
  | .freshOnly => 0 | .repeatLast => 1

/-- The emit policy of a code. -/
def policyOfCode : Nat → Option EmitPolicy
  | 0 => some .freshOnly | 1 => some .repeatLast | _ => none

/-- Ring mode codes. -/
def RingMode.code : RingMode → Nat
  | .keepOldest => 0 | .keepNewest => 1

/-- The ring mode of a code. -/
def ringModeOfCode : Nat → Option RingMode
  | 0 => some .keepOldest | 1 => some .keepNewest | _ => none

/-- The selection code of an occurrence (R177). -/
def OccKind.code : OccKind → Nat
  | .slotTick => 1 | .burstSent => 2 | .burstReceived => 3 | .claimLost => 4 | .txFault => 5 | .rxCheckFault => 6
  | .blockAccepted => 7 | .blockDuplicate => 8 | .blockMissed => 9 | .blockLate => 10 | .ringOverrun => 11
  | .emitSkipped => 12 | .emitMerged => 13 | .markerMissed => 14 | .phaseStep => 15

/-- Event kind codes: 01 to 1B in hexadecimal, in the order of R199 (R212). -/
def EventKind.code : EventKind → Nat
  | .startFault => 1 | .stationState => 2 | .timebaseState => 3 | .phaseStep => 4 | .phaseAlarm => 5
  | .markerClash => 6 | .handoverStart => 7 | .handoverFail => 8 | .peerNew => 9 | .peerFresh => 10
  | .peerSilent => 11 | .peerGone => 12 | .peerRetired => 13 | .peerHostSilent => 14 | .cautionOn => 15
  | .cautionOff => 16 | .serviceLapsed => 17 | .sourceGap => 18 | .subLive => 19 | .subStale => 20
  | .ringReady => 21 | .ringOverrun => 22 | .pullFailed => 23 | .scheduleNote => 24 | .scheduleHalted => 25
  | .compareFired => 26 | .monitorOverflow => 27

/-- Response statuses (R194, R212). -/
inductive Status where
  | ok | state | range | busy | empty | full | exists_ | unused | unknown
deriving DecidableEq, Repr

/-- Status codes (R212). -/
def Status.code : Status → Nat
  | .ok => 0 | .state => 1 | .range => 2 | .busy => 3 | .empty => 4 | .full => 5 | .exists_ => 6 | .unused => 7
  | .unknown => 8

end Sys2Proof.Machine
end

