-- ==== Sys2Proof/Machine/Flags.lean ====
section
/-! DEFINITION. The flag bytes and the checks: the flags of a BLOCK (R208), the details of events that pack several
fields (R212), the CRC-8 of a marker word (R207), the CRC-32 of a burst (R209), fill bits (R42). -/

namespace Sys2Proof.Machine

/-! ### Bits -/

/-- The bits of a byte, most significant first (R205). -/
def byteBits (b : Byte) : List Bool := (List.range 8).map fun i => b.getLsbD (7 - i)

/-- The bits of a string of bytes in the order sent (R205). -/
def bitsOf (bs : List Byte) : List Bool := bs.flatMap byteBits

/-- One step of a check register: shifted toward its most significant end, and combined with the generator when the
bit shifted out differs from the data bit (R207, R209). -/
def crcStep {w : Nat} (generator : BitVec w) (reg : BitVec w) (bit : Bool) : BitVec w :=
  if reg.msb != bit then (reg <<< 1) ^^^ generator else reg <<< 1

/-- The CRC-8 of a marker word: generator 1D, register all ones at the start, uninverted (R207). -/
def crc8 (bits : List Bool) : BitVec 8 := bits.foldl (crcStep 0x1D#8) 0xFF#8

/-- The CRC-32 of a burst: generator 04C11DB7, register all ones at the start, inverted at the end (R209). -/
def crc32 (bits : List Bool) : BitVec 32 := ~~~ (bits.foldl (crcStep 0x04C11DB7#32) 0xFFFFFFFF#32)

/-- Fill bits: after every run of 7 equal line bits a bit of the opposite level is inserted, and the run is counted
with fill bits included (R42); none follows the last bit of the check (R43, R58). `level` and `run` are the last line bit and the length of its run. -/
def insertFill : List Bool → Bool → Nat → List Bool
  | [], _, _ => []
  | b :: rest, level, run =>
    if run = 7 then
      (!level) :: b :: (if b = !level then insertFill rest b 2 else insertFill rest b 1)
    else b :: (if b = level then insertFill rest b (run + 1) else insertFill rest b 1)

/-- A received string of line bits without its fill bits; none at a run of more than 7 equal levels (R42, R51). -/
def removeFill : List Bool → Bool → Nat → Option (List Bool)
  | [], _, _ => some []
  | b :: rest, level, run =>
    if run = 7 then
      if b = level then none else removeFill rest b 1
    else
      (removeFill rest b (if b = level then run + 1 else 1)).map (b :: ·)

/-- The line bits of a whole burst: a dominant start bit, then claim field, body and check with fill bits (R43). -/
def lineBits (claimByte : Byte) (body : List Byte) (check : BitVec 32) : List Bool :=
  false :: insertFill (bitsOf (claimByte :: body) ++ (List.range 32).map fun i => check.getLsbD (31 - i)) false 1

/-! ### The flags of a BLOCK (R208) -/

/-- Bits 6..4 capture state, bit 2 HOST_SILENT, bit 1 SOURCE_GAP, bit 0 REPEAT; the others reserved, sent as 0. -/
def BlockFlags.byte (f : BlockFlags) : Byte :=
  BitVec.ofNat 8 (f.capture.code * 16 + (if f.hostSilent then 4 else 0) + (if f.gap.isSome then 2 else 0)
    + (if f.isRepeat then 1 else 0))

/-- The capture state field of a flags byte. -/
def captureField (b : Byte) : Nat := b.toNat / 16 % 8

/-! ### Details of events (R212) -/

/-- STATION_STATE: previous state in bits 15..12, new state in bits 11..8, cause in bits 7..0. -/
def stationDetail (old new : StationState) (cause : Nat) : BitVec 16 :=
  BitVec.ofNat 16 (old.code * 4096 + new.code * 256 + cause)

/-- TIMEBASE_STATE: previous state in bits 15..8, new state in bits 7..0. -/
def timebaseDetail (old new : TimebaseState) : BitVec 16 := BitVec.ofNat 16 (old.code * 256 + new.code)

/-- PHASE_STEP: the step in whole ticks, rounded down, limited to -32,767..+32,767, signed (R10). -/
def stepDetail (e : Int) : BitVec 16 := BitVec.ofInt 16 (limitInt (e / 65536) (-32767) 32767)

/-- PHASE_ALARM: |e| in whole ticks, rounded down, limited to 65,535 (R17). -/
def alarmDetail (e : Int) : BitVec 16 := BitVec.ofNat 16 (min 65535 (e.natAbs / 65536))

/-- PULL_FAILED: publisher in bits 15..8, index in bits 7..0. -/
def pullDetail (publisher : Nat) (index : Nat) : BitVec 16 := BitVec.ofNat 16 (publisher * 256 + index)

/-- MONITOR_OVERFLOW: bit 15 set when the snapshot already held another overflow, selection in bits 3..0. -/
def overflowDetail (held : Bool) (selection : Nat) : BitVec 16 :=
  BitVec.ofNat 16 ((if held then 32768 else 0) + selection)

end Sys2Proof.Machine
end

