-- ==== Sys2Proof/Machine/Ops.lean ====
section
/-! DEFINITION. The named operations every family shares: the two memories, the tables, rack time as it is read, events,
the health monitor's counting, and the transmit queue. -/

namespace Sys2Proof.Machine

/-! ### Memories: sorted lists of (address, value) with no entry at the value an unlisted address reads as -/

/-- What address `a` reads as; `d` where it is not listed. -/
def sparseRead {α : Type} (d : α) : List (Nat × α) → Nat → α
  | [], _ => d
  | (b, w) :: rest, a => if b = a then w else sparseRead d rest a

/-- Writing keeps the list sorted and lists no entry equal to `d`. -/
def sparseWrite {α : Type} [DecidableEq α] (d : α) : List (Nat × α) → Nat → α → List (Nat × α)
  | [], a, v => if v = d then [] else [(a, v)]
  | (b, w) :: rest, a, v =>
    if a < b then (if v = d then (b, w) :: rest else (a, v) :: (b, w) :: rest)
    else if a = b then (if v = d then rest else (a, v) :: rest)
    else (b, w) :: sparseWrite d rest a v

/-- The canonical form: addresses strictly rising, every one at or above `lo`, no entry equal to `d`. -/
def sparseWf {α : Type} [DecidableEq α] (d : α) : Nat → List (Nat × α) → Bool
  | _, [] => true
  | lo, (a, v) :: rest => decide (lo ≤ a) && decide (v ≠ d) && sparseWf d (a + 1) rest

/-- What an unlisted byte of the block store reads as: at power-on reset every slot holds zeros (R102). -/
def unlistedByte : Byte := 0

/-- The canonical form of the block store. -/
def Memory.wf (m : List Host.Cell) : Bool := sparseWf unlistedByte 0 m

/-- One byte of the block store. -/
def Memory.read (m : List Host.Cell) (a : Nat) : Byte := sparseRead unlistedByte m a

/-- One byte written to the block store. -/
def Memory.write (m : List Host.Cell) (a : Nat) (v : Byte) : List Host.Cell := sparseWrite unlistedByte m a v

/-- Bytes written from address `a` on. -/
def Memory.writeBytes (m : List Host.Cell) (a : Nat) : List Byte → List Host.Cell
  | [] => m
  | b :: rest => Memory.writeBytes (Memory.write m a b) (a + 1) rest

/-- `n` bytes read from address `a` on. -/
def Memory.readBytes (m : List Host.Cell) (a : Nat) : Nat → List Byte
  | 0 => []
  | n + 1 => Memory.read m a :: Memory.readBytes m (a + 1) n

/-- The first byte of a slot (R102). -/
def slotAddr (slot : Nat) : Nat := 1024 * slot

/-- The entry of schedule memory at an address; power-on reset sets every entry to HALT (R144). -/
def schedRead (m : List (Nat × SchedEntry)) (a : Nat) : SchedEntry := sparseRead .halt m a

/-- Entries written to consecutive addresses (R160). -/
def schedWrite (m : List (Nat × SchedEntry)) (a : Nat) : List SchedEntry → List (Nat × SchedEntry)
  | [] => m
  | e :: rest => schedWrite (sparseWrite .halt m a e) (a + 1) rest

/-! ### Tables -/

/-- One element of a table changed. -/
def upd {α : Type} {n : Nat} (v : Vector α n) (i : Fin n) (f : α → α) : Vector α n := v.set i (f v[i])

/-- Every element of a table changed. -/
def updAll {α : Type} {n : Nat} (v : Vector α n) (f : α → α) : Vector α n := Vector.ofFn fun i => f v[i]

/-- One publication changed. -/
def updPub (k : Fin 16) (f : Publication → Publication) (s : State) : State := { s with pubs := upd s.pubs k f }

/-- One port partial state changed. -/
def updPartial (k : Fin 16) (f : Partial → Partial) (s : State) : State := { s with partials := upd s.partials k f }

/-- One subscription changed. -/
def updSub (j : Fin 32) (f : Subscription → Subscription) (s : State) : State := { s with subs := upd s.subs j f }

/-- One roster entry changed. -/
def updPeer (i : Fin 24) (f : RosterEntry → RosterEntry) (s : State) : State := { s with roster := upd s.roster i f }

/-- One engine changed. -/
def updEngine (e : Fin 4) (f : Engine → Engine) (s : State) : State := { s with engines := upd s.engines e f }

/-- One generator changed. -/
def updGen (g : Fin 2) (f : Generator → Generator) (s : State) : State := { s with gens := upd s.gens g f }

/-- One compare changed. -/
def updCompare (k : Fin 4) (f : Compare → Compare) (s : State) : State := { s with compares := upd s.compares k f }

/-- The station controller changed. -/
def updStation (f : Station → Station) (s : State) : State := { s with station := f s.station }

/-- The timebase unit changed. -/
def updTimebase (f : Timebase → Timebase) (s : State) : State := { s with timebase := f s.timebase }

/-- The source selector changed. -/
def updSelector (f : Selector → Selector) (s : State) : State := { s with selector := f s.selector }

/-- The cable interface changed. -/
def updCable (f : Cable → Cable) (s : State) : State := { s with cable := f s.cable }

/-- The monitor changed. -/
def updMonitor (f : Monitor → Monitor) (s : State) : State := { s with monitor := f s.monitor }

/-- The roster entry of a station address, when it is one of 1..24. -/
def peerEntry (s : State) (a : Nat) : Option RosterEntry := (peerIx a).map fun i => s.roster[i]

/-- A station address 1..24 other than the own one (R125, R179). -/
def otherStation (s : State) (a : Nat) : Option Nat := if 1 ≤ a ∧ a ≤ 24 ∧ a ≠ s.station.own then some a else none

/-! ### Rack time as it is read (R3) -/

/-- Rack time in units of 2^-32 tick. -/
def rackTotal (t : Timebase) : Nat := t.ticks.toNat * 4294967296 + t.frac.toNat

/-- Rack time in fine units: the integer part and the top 16 bits of the fraction (R6). -/
def rackFine (t : Timebase) : Nat := t.ticks.toNat * 65536 + t.frac.toNat / 65536

/-- The slot count (R3). -/
def slotCount (t : Timebase) : Nat := t.ticks.toNat / 2048

/-- The epoch number (R3). -/
def epochNumber (t : Timebase) : Nat := t.ticks.toNat / 131072

/-- An epoch number is 47 bits wide (00, Units); one that is kept is reduced. DEDUCED, notes/assumptions/44.md. -/
def epochModulus : Nat := 2 ^ 47

/-- The epoch number `k` epochs after epoch `n`, modulo 2^47 (00, Units). -/
def epochPlus (n k : Nat) : Nat := (n + k) % epochModulus

/-- The slot within the epoch (R3). -/
def slotInEpoch (t : Timebase) : Nat := slotCount t % 64

/-- The tick within the epoch (R199). -/
def tickInEpoch (t : Timebase) : Nat := t.ticks.toNat % 131072

/-- The low 32 bits of the epoch number (00, Units). -/
def epoch32 (t : Timebase) : Epoch32 := BitVec.ofNat 32 (epochNumber t)

/-- The slot count modulo 2^38 (00, Units). -/
def slot38 (t : Timebase) : Slot38 := BitVec.ofNat 38 (slotCount t)

/-- Rack time ticks modulo 2^48 (00, Units). -/
def ticks48 (t : Timebase) : Ticks48 := t.ticks.setWidth 48

/-- "At or after" for values that wrap: the difference lies in the lower half of its range (00, Conventions). -/
def atOrAfter {w : Nat} (a b : BitVec w) : Bool := !(a - b).msb

/-- The epoch `n` is at or after the epoch `e`, compared modulo 2^47 (00, Conventions). -/
def epochReached (n e : Nat) : Bool := atOrAfter (BitVec.ofNat 47 n) (BitVec.ofNat 47 e)

/-- The number of epochs from epoch `n` to epoch `e`, modulo 2^47. -/
def epochsUntil (n e : Nat) : Nat := (BitVec.ofNat 47 e - BitVec.ofNat 47 n).toNat

/-- The station states with receivers on (04, 4.2). -/
def receiversOn (st : StationState) : Bool :=
  match st with
  | .listen | .joined | .retiring | .duplicate | .silenced => true
  | .offline | .isolated | .settling | .detached => false

/-- The station states with data pair drivers on (04, 4.2). -/
def driversOn (st : StationState) : Bool :=
  match st with
  | .joined | .retiring => true
  | _ => false

/-! ### Steps that fall due -/

/-- A step falls due at this moment. -/
def mark (d : Due) (s : State) : State := if d ∈ s.due then s else { s with due := s.due ++ [d] }

/-- A step falls due when a condition holds. -/
def markIf (c : Bool) (d : Due) (s : State) : State := if c then mark d s else s

/-! ### Events (R198, R199) -/

/-- A block raises an event: it is appended while the queue holds fewer than 32, and otherwise dropped with events-lost
set (R198). Its rack time is that of the raising (R199). -/
def raise (kind : EventKind) (subject : Option Nat) (detail : BitVec 16) (s : State) : State :=
  if s.port.events.length < 32 then
    { s with port := { s.port with events := s.port.events ++
        [{ kind := kind, epoch := epoch32 s.timebase, tick := tickInEpoch s.timebase, subject := subject,
           detail := detail }] } }
  else { s with port := { s.port with lost := true } }

/-! ### The health monitor's counting (R178 to R185) -/

/-- The MARKED flag of a subject (R178). -/
def subjectMarked (s : State) : Subject → Bool
  | .none => false
  | .peer a => match peerEntry s a with
    | some e => e.marked
    | none => false
  | .publication k => s.pubs[k].marked
  | .subscription j => s.subs[j].marked

/-- Whether counter i counts an occurrence: tests 2 to 4 of R180 (the frozen condition is test 1). -/
def counts (s : State) (kind : OccKind) (subject : Subject) (i : Fin 4) : Bool :=
  let c := s.monitor.counters[i]
  c.selection == kind.code && (!s.monitor.marked || subjectMarked s subject)
    && (i.val == 0 || !c.await0 || c.gateOpen)

/-- One counter raised by the amount, limited to 2^32 - 1 (R180). -/
def countUp (amount : Nat) (i : Fin 4) (s : State) : State :=
  updMonitor (fun m => { m with counters := upd m.counters i fun c =>
    { c with value := satAdd c.value amount 4294967295 } }) s

/-- Step 1 of R181: an overflow of counter 0 opens the gates of counters 1..3 (R182). -/
def openGates (s : State) : State :=
  updMonitor (fun m => { m with counters := m.counters.mapFinIdx fun i c _ =>
    if i = 0 then c else { c with gateOpen := true } }) s

/-- Steps 2 and 3 of R181 for a notifying overflow: the snapshot (R184), MONITOR_OVERFLOW (R185), FREEZE (R183). -/
def notifyOverflow (i : Fin 4) (subject : Subject) (s : State) : State :=
  let sel := s.monitor.counters[i].selection
  let held := s.monitor.snapshot.isSome
  let snap : Snapshot :=
    { counter := i, epoch := epoch32 s.timebase, tick := tickInEpoch s.timebase, selection := sel, subject := subject }
  let s1 := updMonitor (fun m =>
    if held then { m with further := satAdd m.further 1 255 } else { m with snapshot := some snap }) s
  let s2 := raise .monitorOverflow (some i.val) (overflowDetail held sel) s1
  updMonitor (fun m => { m with frozen := m.frozen || m.freeze }) s2

/-- The three steps of R181 for one counter. -/
def overflow (i : Fin 4) (subject : Subject) (s : State) : State :=
  let s1 := if i.val = 0 then openGates s else s
  if s1.monitor.counters[i].notify then notifyOverflow i subject s1 else s1

/-- An occurrence is made (R180, R181): every counter's tests are made against the state before it; the counters that
count it rise; those taken across 2^31 overflow in ascending number. -/
def occur (kind : OccKind) (subject : Subject) (amount : Nat) (s : State) : State :=
  if s.monitor.frozen then s
  else
    let counting := (List.finRange 4).filter fun i => counts s kind subject i
    let raised := counting.foldl (fun t i => countUp amount i t) s
    let crossing := counting.filter fun i =>
      decide (s.monitor.counters[i].value < 2147483648 ∧ 2147483648 ≤ raised.monitor.counters[i].value)
    crossing.foldl (fun t i => overflow i subject t) raised

/-! ### The transmit queue (R54 to R57) -/

/-- The class of a new entry (03, 3.4): a BLOCK's from its publication's urgent flag (R55). -/
def entryClass (s : State) : EntryKind → Nat
  | .presence => 0
  | .retire => 1
  | .pull _ => 2
  | .block k => if s.pubs[k].urgent then 3 else 4

/-- Placed last among the entries of its class (R55). -/
def insertEntry (e : TxEntry) : List TxEntry → List TxEntry
  | [] => [e]
  | x :: rest => if e.cls < x.cls then e :: x :: rest else x :: insertEntry e rest

/-- Whether an enqueue of this kind is taken in this station state (R55). -/
def enqueueTaken (st : StationState) : EntryKind → Bool
  | .presence | .retire => driversOn st
  | .pull _ | .block _ => st == .joined

/-- Whether the queue holds an entry of this kind and subject. -/
def queued (s : State) (kind : EntryKind) : Bool := s.txQueue.any fun e => e.kind == kind

/-- An enqueue (R55): not taken, or a new entry, or merged into the one that waits; a BLOCK that merges counts
EMIT_MERGED. -/
def enqueue (kind : EntryKind) (s : State) : State :=
  if enqueueTaken s.station.state kind then
    if queued s kind then
      match kind with
      | .block k => occur .emitMerged (.publication k) 1 s
      | _ => s
    else { s with txQueue := insertEntry { kind := kind, cls := entryClass s kind } s.txQueue }
  else s

/-- An entry is removed from the queue; a claim or a burst in flight for it goes on without an entry (R57). -/
def removeEntry (kind : EntryKind) (s : State) : State :=
  let c := s.cable
  { s with
    txQueue := s.txQueue.filter fun e => !(e.kind == kind)
    cable := { c with
      claim := c.claim.map fun cl => if cl.entry.kind == kind then { cl with withdrawn := true } else cl
      flight := c.flight.map fun f => if f.entry.kind == kind then { f with withdrawn := true } else f } }

/-- Whether an entry is a BLOCK or a PULL: those CAUTION passes over (R56) and RETIRING purges (R57). -/
def EntryKind.isData : EntryKind → Bool
  | .pull _ | .block _ => true
  | .presence | .retire => false

/-- The head of the queue (R56): the entry in flight; otherwise the first entry, under CAUTION the first PRESENCE or
RETIRE. -/
def queueHead (s : State) : Option TxEntry :=
  match s.cable.flight with
  | some f => if f.withdrawn then s.txQueue.find? fun e => !(s.station.caution && e.kind.isData) else some f.entry
  | none => s.txQueue.find? fun e => !(s.station.caution && e.kind.isData)

/-- The subject of the occurrences of a burst (R62, R177). -/
def entrySubject : EntryKind → Subject
  | .presence | .retire => .none
  | .pull j => .subscription j
  | .block k => .publication k

end Sys2Proof.Machine
end

