-- ==== Sys2Proof/Machine/ClockOps.lean ====
section
/-! DEFINITION. The module clock generators and the epoch compares (09). -/

namespace Sys2Proof.Machine

/-- c = rack time integer - wrap base, as a signed value (R163). -/
def phaseIn (ticks wrapBase : BitVec 64) : Int := (ticks - wrapBase).toInt

/-- The high time that goes with a period: limited to 1..P - 1 (R164). -/
def effectiveHigh (period high : Nat) : Nat := limitNat high 1 (period - 1)

/-- The staged values become active (R164, R167). -/
def applyStaged (g : Generator) : Generator :=
  { g with period := g.stagedPeriod, high := effectiveHigh g.stagedPeriod g.stagedHigh }

/-- The output set from c (R163). -/
def setLevel (ticks : BitVec 64) (g : Generator) : Generator :=
  { g with out := decide (phaseIn ticks g.wrapBase < (g.high : Int)) }

/-- A generator wraps (R164). -/
def wrapGenerator (ticks : BitVec 64) (g : Generator) : Generator :=
  setLevel ticks (applyStaged { g with wrapBase := g.wrapBase + BitVec.ofNat 64 g.period })

/-- A RUNNING generator whose period has ended wraps (R164). -/
def takeWrap (i : Fin 2) (s : State) : State :=
  updGen i (fun g =>
    if g.state = .running ∧ (g.period : Int) ≤ phaseIn s.timebase.ticks g.wrapBase then
      wrapGenerator s.timebase.ticks g
    else g) s

/-- A RUNNING generator whose count has reached its high time falls low (R163). -/
def takeHighEnd (i : Fin 2) (s : State) : State :=
  updGen i (fun g =>
    if g.state = .running ∧ (g.high : Int) ≤ phaseIn s.timebase.ticks g.wrapBase then { g with out := false }
    else g) s

/-- An ARMED generator's arm epoch is at or before a boundary's epoch, modulo 2^32 (R167). -/
def armReached (t : Timebase) (g : Generator) : Bool := g.state == .armed && atOrAfter (epoch32 t) g.armEpoch

/-- The arm epoch extended to full width (R167 step 1). -/
def extendArm (epoch : Nat) (arm : Epoch32) : Nat :=
  let back := (BitVec.ofNat 32 epoch - arm).toNat
  if back ≤ epoch then epoch - back else arm.toNat

/-- An ARMED generator starts at a boundary, aligned to the grid of its arm epoch (R167). -/
def startGenerator (t : Timebase) (g : Generator) : Generator :=
  let anchor := extendArm (epochNumber t) g.armEpoch * 131072
  let g1 := applyStaged g
  let d : Int := (t.ticks.toNat : Int) - anchor
  setLevel t.ticks
    { g1 with wrapBase := BitVec.ofInt 64 (anchor + g1.period * (d / g1.period)), state := .running }

/-- The start of R167, when the generator is ARMED and its arm epoch reached. -/
def takeGeneratorStart (i : Fin 2) (s : State) : State :=
  updGen i (fun g => if armReached s.timebase g then startGenerator s.timebase g else g) s

/-- A RUNNING generator realigns on a phase step (R168). -/
def realign (ticks : BitVec 64) (g : Generator) : Generator :=
  if g.state = .running then
    setLevel ticks
      { g with wrapBase := g.wrapBase + BitVec.ofInt 64 (g.period * (phaseIn ticks g.wrapBase / g.period)) }
  else g

/-- Every generator is told of a phase step (R168). -/
def realignAll (s : State) : State := { s with gens := updAll s.gens (realign s.timebase.ticks) }

/-- What a generator meets at a local clock period (R163, R164): the wrap or the end of the high time falls due; a
level that belongs high is driven. -/
def clockGenerator (s : State) (i : Fin 2) : State :=
  let g := s.gens[i]
  if g.state = .running then
    let c := phaseIn s.timebase.ticks g.wrapBase
    if (g.period : Int) ≤ c then mark (.generatorWrap i) s
    else if c < (g.high : Int) then updGen i (fun g => { g with out := true }) s
    else markIf g.out (.highTimeEnd i) s
  else s

/-- A compare is reached at a slot tick (R172). -/
def compareReached (t : Timebase) (c : Compare) : Bool := c.state == .armed && atOrAfter (slot38 t) c.target

/-- The lateness of a firing in slots, limited to 65,535 (R173). -/
def lateness (t : Timebase) (c : Compare) : BitVec 16 := BitVec.ofNat 16 (min 65535 (slot38 t - c.target).toNat)

/-- A compare's start reaches an engine (R157): a STOPPED engine is set to RUN and takes its entry at this tick. -/
def deliverStart (e : Fin 4) (s : State) : State :=
  if s.engines[e].run = .stopped then
    mark (.engine e)
      (updEngine e (fun x => { x with hold := 0, prescaleCount := 0, run := .run, resume := .run }) s)
  else s

/-- A compare fires (R173). -/
def fireCompare (k : Fin 4) (s : State) : State :=
  let c := s.compares[k]
  let s1 := raise .compareFired (some k.val) (lateness s.timebase c)
    (updCompare k (fun x => { x with state := .fired }) s)
  match c.action with
  | .notify => s1
  | .start e => deliverStart e s1

/-- An ARMED compare that is reached fires (R172, R173). -/
def takeCompare (k : Fin 4) (s : State) : State :=
  if compareReached s.timebase s.compares[k] then fireCompare k s else s

end Sys2Proof.Machine
end

