-- ==== Sys2Proof/Machine/Formats.lean ====
section
/-! DEFINITION. The records of the cable: the marker word (R206, R207) and the four kinds of burst (R208 to R210), as
they are built and as they are read. -/

namespace Sys2Proof.Machine

/-! ### The marker word -/

/-- The fields of a marker word (R206). -/
structure MarkerFields where
  epoch : Epoch32
  source : Nat
  target : Nat
  countdown : Nat
deriving DecidableEq, Repr

/-- Bits 63..8 of a marker word in the order sent. -/
def markerBits (word : BitVec 64) : List Bool := (List.range 56).map fun i => word.getLsbD (63 - i)

/-- The marker word of these fields, with its check (R206, R207). -/
def markerWord (m : MarkerFields) : BitVec 64 :=
  let head := BitVec.ofNat 64
    (m.epoch.toNat * 4294967296 + m.source * 16777216 + m.target * 65536 + m.countdown * 256)
  head ||| (crc8 (markerBits head)).setWidth 64

/-- A marker word whose check is good and whose contents are valid (R207); none otherwise. -/
def readMarker (word : BitVec 64) : Option MarkerFields :=
  let m : MarkerFields :=
    { epoch := word.extractLsb' 32 32, source := (word.extractLsb' 24 8).toNat,
      target := (word.extractLsb' 16 8).toNat, countdown := (word.extractLsb' 8 8).toNat }
  if crc8 (markerBits word) = word.extractLsb' 0 8 ∧ 1 ≤ m.source ∧ m.source ≤ 24 ∧ m.target ≤ 24 ∧ m.countdown ≤ 16
      ∧ (m.target = 0 ↔ m.countdown = 0) then some m else none

/-- The levels of the marker pair while a word is driven: the start bit, then the 64 bits, idle shown as true (R206). A
1 bit is sent as the idle level and a 0 bit as the opposite one: R206 gives the levels of the idle pair and of the start
bit alone. DESIGN CHOICE, notes/assumptions/42.md. -/
def markerLevels (word : BitVec 64) : List Bool :=
  false :: (List.range 64).map fun i => word.getLsbD (63 - i)

/-! ### Bursts -/

/-- The contents of a PRESENCE (R48). -/
structure Presence where
  sender : Nat
  grade : Nat
  eligible : Bool
  timebase : TimebaseState
  believed : Nat
  hostAlive : Bool
  fresh : Bool
  pubs : List Announcement
deriving DecidableEq, Repr

/-- The contents of a BLOCK (R50). -/
structure BlockBurst where
  publisher : Nat
  index : Fin 16
  seq : Seq
  time : Ticks48
  width : Width
  count : Nat
  flags : BlockFlags
  payload : List Byte
deriving DecidableEq, Repr

/-- The contents of a burst (03, 3.4). -/
inductive Burst where
  | presence (p : Presence)
  | retire (sender successor : Nat)
  | pull (requester publisher : Nat) (index : Fin 16)
  | block (b : BlockBurst)
deriving DecidableEq, Repr

/-- The claim field: class in bits 7..5, address in bits 4..0 (R208). -/
def claimField (cls address : Nat) : Byte := BitVec.ofNat 8 (cls * 32 + address)

/-- The 4 bytes of an announcement (R208). -/
def announcementBytes (a : Announcement) : List Byte :=
  [BitVec.ofNat 8 a.index.val,
   BitVec.ofNat 8 ((if a.held then 128 else 0) + (if a.urgent then 64 else 0) + a.width.code)] ++ beBytes 2 a.samples

/-- The body of a PRESENCE (R208). -/
def presenceBody (p : Presence) : List Byte :=
  [BitVec.ofNat 8 p.sender, BitVec.ofNat 8 ((if p.eligible then 128 else 0) + p.grade),
   BitVec.ofNat 8 p.timebase.code, BitVec.ofNat 8 p.believed,
   BitVec.ofNat 8 ((if p.fresh then 2 else 0) + (if p.hostAlive then 1 else 0)), BitVec.ofNat 8 p.pubs.length]
    ++ p.pubs.flatMap announcementBytes

/-- The body of a RETIRE (R208). -/
def retireBody (sender successor : Nat) : List Byte := [BitVec.ofNat 8 sender, BitVec.ofNat 8 successor]

/-- The body of a PULL (R208). -/
def pullBody (requester publisher index : Nat) : List Byte :=
  [BitVec.ofNat 8 requester, BitVec.ofNat 8 publisher, BitVec.ofNat 8 index]

/-- The body of a BLOCK (R208). -/
def blockBody (b : BlockBurst) : List Byte :=
  [BitVec.ofNat 8 b.publisher, BitVec.ofNat 8 b.index.val] ++ beBytes 2 b.seq.toNat ++ beBytes 6 b.time.toNat
    ++ [BitVec.ofNat 8 b.width.code] ++ beBytes 2 b.count ++ [b.flags.byte] ++ beBytes 2 (b.flags.gap.getD 0)
    ++ b.payload

/-- The body of a burst. -/
def burstBody : Burst → List Byte
  | .presence p => presenceBody p
  | .retire a b => retireBody a b
  | .pull a b i => pullBody a b i.val
  | .block b => blockBody b

/-- The check of a burst: CRC-32 over the claim field and the body (R209). -/
def burstCheck (claimByte : Byte) (body : List Byte) : BitVec 32 := crc32 (bitsOf (claimByte :: body))

/-- One announcement read: index 0..15, width code 0..2, samples per block within the width's limit (R51, R210). -/
def readAnnouncement (bs : List Byte) : Option Announcement := do
  let index ← unitIx 16 (byteAt bs 0).toNat
  let width ← widthOfCode ((byteAt bs 1).toNat % 4)
  let samples := field bs 2 2
  if 1 ≤ samples ∧ samples ≤ width.limit then
    some { index := index, width := width, samples := samples, urgent := (byteAt bs 1).getLsbD 6,
           held := (byteAt bs 1).getLsbD 7 }
  else none

/-- `n` announcements read from a body's tail. -/
def readAnnouncements : Nat → List Byte → Option (List Announcement)
  | 0, _ => some []
  | n + 1, bs => do
    let a ← readAnnouncement (bs.take 4)
    let rest ← readAnnouncements n (bs.drop 4)
    some (a :: rest)

/-- Distinct indexes in ascending order (R51). -/
def ascending : List Announcement → Bool
  | a :: b :: rest => decide (a.index.val < b.index.val) && ascending (b :: rest)
  | _ => true

/-- A PRESENCE body, well formed (R51, R210). -/
def readPresence (address : Nat) (body : List Byte) : Option Presence := do
  let tb ← timebaseOfCode (byteAt body 2).toNat
  let n := (byteAt body 5).toNat
  let pubs ← readAnnouncements n (body.drop 6)
  if n ≤ 16 ∧ body.length = 6 + 4 * n ∧ (byteAt body 0).toNat = address ∧ (byteAt body 3).toNat ≤ 24
      ∧ ascending pubs = true then
    some { sender := address, grade := (byteAt body 1).toNat % 8, eligible := (byteAt body 1).getLsbD 7,
           timebase := tb, believed := (byteAt body 3).toNat, hostAlive := (byteAt body 4).getLsbD 0,
           fresh := (byteAt body 4).getLsbD 1, pubs := pubs }
  else none

/-- A RETIRE body, well formed (R51, R210). -/
def readRetire (address : Nat) (body : List Byte) : Option Burst :=
  if body.length = 2 ∧ (byteAt body 0).toNat = address ∧ (byteAt body 1).toNat ≤ 24
      ∧ (byteAt body 1).toNat ≠ address then some (.retire address (byteAt body 1).toNat)
  else none

/-- A PULL body, well formed (R51). -/
def readPull (address : Nat) (body : List Byte) : Option Burst := do
  let index ← unitIx 16 (byteAt body 2).toNat
  let publisher := (byteAt body 1).toNat
  if body.length = 3 ∧ (byteAt body 0).toNat = address ∧ 1 ≤ publisher ∧ publisher ≤ 24 then
    some (.pull address publisher index)
  else none

/-- A BLOCK body, well formed (R51, R210). -/
def readBlock (address : Nat) (body : List Byte) : Option BlockBurst := do
  let index ← unitIx 16 (byteAt body 1).toNat
  let width ← widthOfCode (byteAt body 10).toNat
  let capture ← timebaseOfCode (captureField (byteAt body 13))
  let count := field body 11 2
  let gap := field body 14 2
  let sourceGap := (byteAt body 13).getLsbD 1
  if (byteAt body 0).toNat = address ∧ 1 ≤ count ∧ count ≤ width.limit ∧ body.length = 16 + count * width.bytes
      ∧ (sourceGap = true ↔ gap ≠ 0) then
    some { publisher := address, index := index, seq := BitVec.ofNat 16 (field body 2 2),
           time := BitVec.ofNat 48 (field body 4 6), width := width, count := count,
           flags := { isRepeat := (byteAt body 13).getLsbD 0, gap := if sourceGap then some gap else none,
                      hostSilent := (byteAt body 13).getLsbD 2, capture := capture },
           payload := body.drop 16 }
  else none

/-- A good burst read from its bytes without fill bits: claim field, body, check. The class is 0..4, the claim address
1..24, the check good and the body well formed (R51, R209, R210). -/
def readBurst (bytes : List Byte) : Option Burst :=
  let claimByte := byteAt bytes 0
  let body := (bytes.drop 1).take (bytes.length - 5)
  let check := BitVec.ofNat 32 (beNat (bytes.drop (bytes.length - 4)))
  let cls := claimByte.toNat / 32
  let address := claimByte.toNat % 32
  if 5 ≤ bytes.length ∧ 1 ≤ address ∧ address ≤ 24 ∧ burstCheck claimByte body = check then
    match cls with
    | 0 => (readPresence address body).map .presence
    | 1 => readRetire address body
    | 2 => readPull address body
    | 3 | 4 => (readBlock address body).map .block
    | _ => none
  else none

/-- The station that sent a burst: its claim address (R52). -/
def Burst.sender : Burst → Nat
  | .presence p => p.sender
  | .retire a _ => a
  | .pull a _ _ => a
  | .block b => b.publisher

end Sys2Proof.Machine
end

