-- ==== Sys2Proof/Machine/PublicationOps.lean ====
section
/-! DEFINITION. The publication table, the sample port and their part of the block store (06). -/

namespace Sys2Proof.Machine

/-- Pull-pending is served: it is cleared and a BLOCK is enqueued, whether or not the enqueue is taken (R122). -/
def servePull (k : Fin 16) (s : State) : State :=
  if s.pubs[k].pullPending then enqueue (.block k) (updPub k (fun p => { p with pullPending := false }) s) else s

/-- The header of the block a commit of publication k makes now (R113 step 2). -/
def commitBlock (s : State) (k : Fin 16) : Block :=
  let p := s.pubs[k]
  { seq := p.nextSeq, time := p.fillTime, capture := p.fillCapture, count := p.fillCount,
    gap := if p.gap = 0 then none else some p.gap, hostSilent := !s.station.hostAlive }

/-- A commit is made (R113). -/
def makeCommit (k : Fin 16) (s : State) : State :=
  let block := commitBlock s k
  let s1 := updPub k (fun p =>
    { p with readySlot := p.fillSlot, fillSlot := p.readySlot, ready := some block, isNew := true,
             nextSeq := p.nextSeq + 1, fillCount := 0, gap := 0, fillOpen := false, commitPending := false }) s
  let s2 := match block.gap with
    | some g => raise .sourceGap (some k.val) (BitVec.ofNat 16 g) s1
    | none => s1
  if s2.pubs[k].state = .active then servePull k s2 else s2

/-- A commit is asked for (R112): made at once, or pending while the ready buffer is in flight. -/
def askCommit (k : Fin 16) (s : State) : State :=
  if s.cable.binding = some k then updPub k (fun p => { p with commitPending := true }) s else makeCommit k s

/-- A pending commit is made (R117). -/
def completeCommit (k : Fin 16) (s : State) : State := if s.pubs[k].commitPending then makeCommit k s else s

/-- The end of a bound burst is reported (R117): NEW cleared when sent and the entry is ACTIVE or HELD, the binding
released, a pending commit made. -/
def endBinding (sent : Bool) (s : State) : State :=
  match s.cable.binding with
  | none => s
  | some k =>
    let s1 := if sent ∧ s.pubs[k].state ≠ .unused then updPub k (fun p => { p with isNew := false }) s else s
    completeCommit k (updCable (fun c => { c with binding := none }) s1)

/-- The EMIT of R118 is skipped. -/
def skipEmit (k : Fin 16) (s : State) : State := occur .emitSkipped (.publication k) 1 s

/-- An EMIT offered to publication k (R118). -/
def offerEmit (k : Fin 16) (s : State) : State :=
  let p := s.pubs[k]
  if p.state ≠ .active then skipEmit k s
  else if s.station.state ≠ .joined then skipEmit k s
  else if p.ready.isNone then skipEmit k s
  else if p.isNew then enqueue (.block k) s
  else if p.policy = .freshOnly then skipEmit k s
  else enqueue (.block k) s

/-- A PULL that names this station as publisher (R121). -/
def pullArrives (k : Fin 16) (s : State) : State :=
  let p := s.pubs[k]
  if p.state = .unused then { s with unknownPulls := satAdd s.unknownPulls 1 65535 }
  else if s.station.state ≠ .joined then s
  else if p.state = .held ∨ p.ready.isNone then updPub k (fun p => { p with pullPending := true }) s
  else if s.cable.binding = some k then s
  else enqueue (.block k) s

/-- The gap count rises by 1, saturating (R108, R109, R115). -/
def countGap (k : Fin 16) (s : State) : State := updPub k (fun p => { p with gap := satAdd p.gap 1 65535 }) s

/-- The port reject count rises by 1, saturating (R108, R109). -/
def countReject (s : State) : State := { s with portRejects := satAdd s.portRejects 1 65535 }

/-! ### The sample port -/

/-- A tag is paired when its entry is ACTIVE or HELD, PORT-FED and of width 24 or 32 (R107). -/
def paired (p : Publication) : Bool :=
  p.state != .unused && p.feed == .portFed && p.width != .w16

/-- The words a FIFO item takes (R108). -/
def FifoItem.words (item : FifoItem) : Nat := if item.second.isSome then 2 else 1

/-- The words in the FIFO (R108). -/
def fifoWords (items : List FifoItem) : Nat := (items.map FifoItem.words).sum

/-- An item is offered to the FIFO of 64 words (R108). -/
def offerItem (item : FifoItem) (s : State) : State :=
  if fifoWords s.fifo + item.words ≤ 64 then { s with fifo := s.fifo ++ [item] }
  else
    let p := s.pubs[item.tag]
    if p.state ≠ .unused ∧ p.feed = .portFed then countGap item.tag s else countReject s

/-- A word is strobed (R107). -/
def strobe (k : Fin 16) (word : BitVec 16) (s : State) : State :=
  let stamp : Stamp := { time := ticks48 s.timebase, capture := s.timebase.state }
  let port := s.partials[k]
  if paired s.pubs[k] then
    if port.voidLow then updPartial k (fun q => { q with voidLow := false }) s
    else match port.high with
      | none => updPartial k (fun q => { q with high := some (word, stamp) }) s
      | some (high, st) =>
        offerItem { tag := k, first := high, second := some word, stamp := st }
          (updPartial k (fun q => { q with high := none }) s)
  else offerItem { tag := k, first := word, second := none, stamp := stamp } s

/-- The bytes of a sample in the packing of R102, from the words of 12.6. -/
def sampleBytes (width : Width) (item : FifoItem) : List Byte :=
  let low := item.second.getD 0
  match width with
  | .w16 => beBytes 2 item.first.toNat
  | .w24 => beBytes 2 item.first.toNat ++ [low.setWidth 8]
  | .w32 => beBytes 2 item.first.toNat ++ beBytes 2 low.toNat

/-- Where the next sample of publication k's fill is written (R102, R110). -/
def fillAddr (p : Publication) : Nat := slotAddr p.fillSlot + p.fillCount * p.width.bytes

/-- A sample is appended to the fill (R110); the append that reaches the samples per block asks for a commit. -/
def appendSample (k : Fin 16) (bytes : List Byte) (stamp : Stamp) (s : State) : State :=
  let p := s.pubs[k]
  let s1 := { s with store := Memory.writeBytes s.store (fillAddr p) bytes }
  let s2 := updPub k (fun p =>
    if p.fillCount = 0 then { p with fillCount := 1, fillTime := stamp.time, fillCapture := stamp.capture }
    else { p with fillCount := p.fillCount + 1 }) s1
  if p.samples ≤ p.fillCount + 1 then askCommit k s2 else s2

/-- An item reaches the drain (R109). -/
def judgeItem (item : FifoItem) (s : State) : State :=
  let p := s.pubs[item.tag]
  if p.state = .unused ∨ p.feed = .requestFed then countReject s
  else if (item.second.isNone ∧ p.width ≠ .w16) ∨ (item.second.isSome ∧ p.width = .w16) then countReject s
  else if p.commitPending then countGap item.tag s
  else appendSample item.tag (sampleBytes p.width item) item.stamp s

/-- The drain at a grant: the oldest item is taken and judged (R109). -/
def drainOne (s : State) : State :=
  match s.fifo with
  | [] => s
  | item :: rest => judgeItem item { s with fifo := rest }

/-- The drain asks for the store's port while the FIFO holds an item (R109), and the arbiter grants it before the host
port (R103): every waiting item is drained, oldest first. -/
def drainWaiting (s : State) : State := s.fifo.foldl (fun t _ => drainOne t) s

/-! ### Requests -/

/-- UNPUBLISH acts (R106). -/
def unpublishEntry (k : Fin 16) (s : State) : State :=
  updPartial k (fun _ => Partial.cleared)
    (updPub k (fun p => Publication.cleared k.val p.marked) (removeEntry (.block k) s))

/-- FILL appends samples up to the samples per block (R111); the number accepted, and the state. -/
def fillSamples (k : Fin 16) (bytes : List Byte) (s : State) : Nat × State :=
  let p := s.pubs[k]
  let n := min (p.samples - p.fillCount) (bytes.length / p.width.bytes)
  (n, updPub k (fun p => { p with fillCount := p.fillCount + n })
    { s with store := Memory.writeBytes s.store (fillAddr p) (bytes.take (n * p.width.bytes)) })

/-- The payload of a block of `count` samples in a slot (R102). -/
def payloadAt (s : State) (slot : Nat) (width : Width) (count : Nat) : List Byte :=
  Memory.readBytes s.store (slotAddr slot) (count * width.bytes)

/-- Clearing of the publication table and the sample port by RESTART (R104). -/
def restartPublications (s : State) : State :=
  { s with
    pubs := Vector.ofFn fun k => Publication.cleared k.val false
    partials := Vector.replicate 16 Partial.cleared
    fifo := [], portRejects := 0, unknownPulls := 0 }

end Sys2Proof.Machine
end

