-- ==== Sys2Proof/Machine/EngineOps.lean ====
section
/-! DEFINITION. The schedule engines at a slot tick (08). -/

namespace Sys2Proof.Machine

/-- The entry at an engine's pointer (R146). -/
def entryAt (s : State) (e : Fin 4) : SchedEntry := schedRead s.schedule s.engines[e].pointer.toNat

/-- The pointer moves to the next address; after 255 comes 0 (R146). -/
def advance (x : Engine) : Engine := { x with pointer := x.pointer + 1 }

/-- HOLD n (R149). -/
def engineHold (n : BitVec 16) (x : Engine) : Engine :=
  if n = 0 then advance x
  else advance { x with hold := n.toNat, prescaleCount := 0, run := .holding }

/-- REPEAT n (R150). -/
def engineRepeat (n : BitVec 12) (x : Engine) : Engine :=
  advance { x with loopStart := some (x.pointer + 1), loopCount := n.toNat }

/-- LOOP (R151). -/
def engineLoop (x : Engine) : Engine :=
  match x.loopStart with
  | none => advance x
  | some start =>
    if 0 < x.loopCount then { x with loopCount := x.loopCount - 1, pointer := start }
    else advance { x with loopStart := none }

/-- ALIGN (R153). -/
def engineAlign (x : Engine) : Engine := advance { x with run := .aligning }

/-- HALT (R154). -/
def engineHalt (x : Engine) : Engine := advance { x with run := .stopped, resume := .run }

/-- An engine takes the entry at its pointer (R146, R148 to R154). -/
def takeEntry (e : Fin 4) (s : State) : State :=
  match entryAt s e with
  | .emit k => offerEmit k (updEngine e advance s)
  | .hold n => updEngine e (engineHold n) s
  | .repeat_ n => updEngine e (engineRepeat n) s
  | .loop => updEngine e engineLoop s
  | .notify c => raise .scheduleNote (some e.val) c (updEngine e advance s)
  | .align => updEngine e engineAlign s
  | .halt =>
    raise .scheduleHalted (some e.val) (s.engines[e].pointer.setWidth 16) (updEngine e engineHalt s)

/-- An engine acts on the tick: in RUN it takes its entry; an ALIGNING engine at a tick in slot 0 returns to RUN and
takes its entry (R146, R153). -/
def engineTick (e : Fin 4) (s : State) : State :=
  match s.engines[e].run with
  | .run => takeEntry e s
  | .aligning => takeEntry e (updEngine e (fun x => { x with run := .run }) s)
  | .stopped | .holding => s

/-- A hold tick that ends a unit lowers hold remaining (R149). -/
def unitEnds (x : Engine) : Bool := decide (x.prescale < x.prescaleCount + 1)

/-- A hold tick (R149). -/
def countHold (x : Engine) : Engine :=
  if unitEnds x then { x with prescaleCount := 0, hold := x.hold - 1 }
  else { x with prescaleCount := x.prescaleCount + 1 }

/-- A hold tick at which hold remaining reaches 0 (R149). -/
def holdRunsOut (x : Engine) : Bool := unitEnds x && decide (x.hold ≤ 1)

/-- What a slot tick is to an engine (R146): a HOLDING engine counts it, and its hold's end may fall due; an engine in
RUN, or an ALIGNING one when the tick is in slot 0, has its act fall due. -/
def tickEngine (s : State) (e : Fin 4) : State :=
  let x := s.engines[e]
  match x.run with
  | .stopped => s
  | .run => mark (.engine e) s
  | .aligning => markIf (slotInEpoch s.timebase == 0) (.engine e) s
  | .holding => markIf (holdRunsOut x) (.holdEnd e) (updEngine e countHold s)

/-- Hold remaining has reached 0: the engine returns to RUN and takes no entry at this tick (R149). -/
def endHold (e : Fin 4) (s : State) : State :=
  updEngine e (fun x => if x.run = .holding ∧ x.hold = 0 then { x with run := .run } else x) s

/-- What a slot tick is to a compare (R172). -/
def tickCompare (s : State) (k : Fin 4) : State :=
  markIf (compareReached s.timebase s.compares[k]) (.compareFired k) s

/-- The slot tick (R3): counted by the monitor (R177), and seen by the compares and the engines. The monitor is told of
SLOT_TICK first, so its MONITOR_OVERFLOW and its FREEZE come before the events and occurrences of the compares and the
engines of the tick: R180 and R185 let either come first. DESIGN CHOICE, notes/assumptions/41.md. -/
def slotWork (s : State) : State :=
  let s1 := occur .slotTick .none 1 s
  let s2 := (List.finRange 4).foldl tickCompare s1
  (List.finRange 4).foldl tickEngine s2

end Sys2Proof.Machine
end

