-- ==== Sys2Proof/Machine/SubscriptionOps.lean ====
section
/-! DEFINITION. The subscription table and its rings (07). -/

namespace Sys2Proof.Machine

/-- The subscription, not UNUSED, that names this channel (R127); by R125 there is at most one. -/
def matchSub (s : State) (publisher : Nat) (index : Fin 16) : Option (Fin 32) :=
  (List.finRange 32).find? fun j =>
    s.subs[j].state != .unused && s.subs[j].publisher == publisher && s.subs[j].index == index

/-- The publisher's roster entry is PRESENT and its latest list contains the index (R136). -/
def announced (s : State) (publisher : Nat) (index : Fin 16) : Bool :=
  match peerEntry s publisher with
  | some e => e.state == .present && e.pubs.any fun a => a.index == index
  | none => false

/-- The LIVE test that ends every matching arrival (R136). -/
def liveTest (j : Fin 32) (s : State) : State :=
  let sub := s.subs[j]
  if (sub.state = .waiting ∨ sub.state = .stale) ∧ announced s sub.publisher sub.index then
    raise .subLive (some j.val) (BitVec.ofNat 16 sub.state.code) (updSub j (fun x => { x with state := .live }) s)
  else s

/-- One overrun: the count, and RING_OVERRUN when overrun reported is clear (R132). -/
def noteOverrun (j : Fin 32) (s : State) : State :=
  let s1 := updSub j (fun x => { x with overruns := satAdd x.overruns 1 65535 }) s
  if s1.subs[j].overrunReported then s1
  else
    raise .ringOverrun (some j.val) (BitVec.ofNat 16 s1.subs[j].overruns)
      (updSub j (fun x => { x with overrunReported := true }) s1)

/-- The lowest of the subscription's four slots that no entry of the ring holds (R131). DESIGN CHOICE among the free
slots, notes/assumptions/30.md. -/
def freeSlot (ring : List RingEntry) : Nat :=
  ((List.range 4).find? fun k => !(ring.any fun e => e.slot == k)).getD 0

/-- The block store slot of a ring slot (R102). -/
def ringSlot (j : Fin 32) (slot : Nat) : Nat := 32 + 4 * j.val + slot

/-- The arrival time of a block: the rack time integer modulo 2^48 at the end of its reception (R127). -/
def arrivalTicks (m : BurstEnd) : Ticks48 := m.ticks.setWidth 48

/-- The low 32 bits of the epoch number at the end of a reception (R3, R127). -/
def arrivalEpoch (m : BurstEnd) : Epoch32 := BitVec.ofNat 32 (m.ticks.toNat / 131072)

/-- A block is appended as the ring's newest entry, its payload written into a free slot, with the arrival time of the end
of its reception (R127, R131, R133). A ring whose only block R131 has just removed counts as empty before the append, so RING_READY is raised; R124 names no such emptying.
DESIGN CHOICE, notes/assumptions/46.md. -/
def appendBlock (m : BurstEnd) (j : Fin 32) (b : BlockBurst) (missed : Nat) (late : Bool) (s : State) : State :=
  let ring := s.subs[j].ring
  let slot := freeSlot ring
  let entry : RingEntry :=
    { slot := slot, seq := b.seq, time := b.time, width := b.width, count := b.count, flags := b.flags,
      arrival := arrivalTicks m, missed := missed, late := late }
  let s1 := updSub j (fun x => { x with ring := ring ++ [entry] })
    { s with store := Memory.writeBytes s.store (slotAddr (ringSlot j slot)) b.payload }
  if ring.isEmpty then raise .ringReady (some j.val) b.seq s1 else s1

/-- A synchronised timebase state (R130). -/
def synchronised (t : TimebaseState) : Bool :=
  match t with
  | .track | .locked | .source => true
  | .free | .acquire | .holdover => false

/-- The latency of a block: (arrival - timestamp) modulo 2^48, signed by half range, a negative one taken as 0
(R130). -/
def latency (arrival time : Ticks48) : Nat := if (arrival - time).msb then 0 else (arrival - time).toNat

/-- Whether an accepted block is LATE, its reception ended at `m` (R127, R130). -/
def isLate (m : BurstEnd) (sub : Subscription) (b : BlockBurst) : Bool :=
  sub.lateThreshold != 0 && synchronised b.flags.capture && synchronised m.state
    && decide (sub.lateThreshold < latency (arrivalTicks m) b.time)

/-- The MISSED value (R129). -/
def missedOf (last : Option Seq) (seq : Seq) : Nat :=
  match last with
  | some l => min 255 (seq - l - 1).toNat
  | none => 0

/-- An occurrence is made when a condition holds. -/
def occurIf (c : Bool) (kind : OccKind) (subject : Subject) (amount : Nat) (s : State) : State :=
  if c then occur kind subject amount s else s

/-- A block that is not a duplicate is accepted (R129 to R133, R136, R143). The occurrences are told to the monitor
after the events of the arrival (R185). -/
def acceptBlock (m : BurstEnd) (j : Fin 32) (b : BlockBurst) (s : State) : State :=
  let sub := s.subs[j]
  let missed := missedOf sub.last b.seq
  let late := isLate m sub b
  let again := sub.ring.any fun e => e.seq == b.seq
  let ring := sub.ring.filter fun e => !(e.seq == b.seq)
  let full := decide (4 ≤ ring.length)
  let s1 := updSub j (fun x =>
    { x with lates := if late then satAdd x.lates 1 65535 else x.lates, ring := ring }) s
  let s2 := if again then noteOverrun j s1 else s1
  let s3 := if full then noteOverrun j s2 else s2
  let s4 :=
    if full then
      match sub.mode with
      | .keepOldest => s3
      | .keepNewest => appendBlock m j b missed late (updSub j (fun x => { x with ring := x.ring.drop 1 }) s3)
    else appendBlock m j b missed late s3
  let s5 := updSub j (fun x => { x with last := some b.seq }) s4
  let s6 := liveTest j s5
  let subject := Subject.subscription j
  occurIf full .ringOverrun subject 1
    (occurIf again .ringOverrun subject 1
      (occurIf late .blockLate subject 1
        (occurIf (decide (0 < missed)) .blockMissed subject missed
          (occur .blockAccepted subject 1 s6))))

/-- A duplicate is discarded (R128). -/
def duplicateBlock (j : Fin 32) (s : State) : State :=
  occur .blockDuplicate (.subscription j) 1
    (liveTest j (updSub j (fun x => { x with duplicates := satAdd x.duplicates 1 65535 }) s))

/-- A BLOCK arrives whose reception ended at `m` (R127, R128). -/
def blockArrives (m : BurstEnd) (b : BlockBurst) (s : State) : State :=
  match matchSub s b.publisher b.index with
  | none => s
  | some j =>
    let s1 := updSub j (fun x => { x with lastBlock := arrivalEpoch m, pull := none }) s
    if s1.subs[j].last = some b.seq then duplicateBlock j s1 else acceptBlock m j b s1

/-! ### What the roster tells (R137, R138) -/

/-- A subscription becomes STALE with a cause (R138, R139). -/
def becomeStale (j : Fin 32) (cause : Nat) (s : State) : State :=
  raise .subStale (some j.val) (BitVec.ofNat 16 cause) (updSub j (fun x => { x with state := .stale }) s)

/-- One LIVE subscription to the reported address is re-judged (R138). -/
def rejudge (a : Nat) (s : State) (j : Fin 32) : State :=
  let sub := s.subs[j]
  if sub.state = .live ∧ sub.publisher = a then
    match peerEntry s a with
    | some e =>
      if e.state ≠ .present then becomeStale j 2 s
      else if e.pubs.any fun x => x.index == sub.index then s
      else becomeStale j 3 s
    | none => s
  else s

/-- A change report for an address (R97, R138). -/
def changeReport (a : Nat) (s : State) : State := (List.finRange 32).foldl (rejudge a) s

/-- A new-incarnation notice for an address (R90, R137). -/
def newIncarnation (a : Nat) (s : State) : State :=
  { s with subs := updAll s.subs fun x => if x.publisher = a then { x with last := none } else x }

/-! ### Epoch boundaries (R139, R141) -/

/-- The stale timeout of a subscription has passed (R139). -/
def staleTimeoutPassed (s : State) (j : Fin 32) : Bool :=
  s.subs[j].state == .live
    && atOrAfter (epoch32 s.timebase) (s.subs[j].lastBlock + BitVec.ofNat 32 s.subs[j].staleTimeout)

/-- The stale test finds the timeout passed (R139). -/
def takeStale (j : Fin 32) (s : State) : State := if staleTimeoutPassed s j then becomeStale j 1 s else s

/-- The deadline of a pull has passed (R141). -/
def pullDeadlinePassed (s : State) (j : Fin 32) : Bool :=
  match s.subs[j].pull with
  | some p => atOrAfter (epoch32 s.timebase) p.deadline
  | none => false

/-- A passed deadline: a retry, or PULL_FAILED at the third try (R141). -/
def takePullDeadline (j : Fin 32) (s : State) : State :=
  if pullDeadlinePassed s j then
    match s.subs[j].pull with
    | some p =>
      if p.tries < 3 then
        updSub j (fun x => { x with pull := some { tries := p.tries + 1, deadline := epoch32 s.timebase + 4 } })
          (enqueue (.pull j) s)
      else
        raise .pullFailed (some j.val) (pullDetail s.subs[j].publisher s.subs[j].index.val)
          (updSub j (fun x => { x with pull := none }) s)
    | none => s
  else s

/-- Clearing of the subscription table by RESTART (R124). -/
def restartSubscriptions (s : State) : State :=
  { s with subs := Vector.replicate 32 (Subscription.cleared false) }

end Sys2Proof.Machine
end

