-- ==== Sys2Proof/Machine/RosterOps.lean ====
section
/-! DEFINITION. The peer roster (05). -/

namespace Sys2Proof.Machine

/-- The state after a presence that does not carry FRESH (R89). -/
def presenceMove : PeerState → PeerState
  | .absent => .seen
  | .seen | .present | .silent | .retired => .present

/-- The stores of R88 into an entry. -/
def storePresence (p : Presence) (epoch : Epoch32) (e : RosterEntry) : RosterEntry :=
  { e with grade := p.grade, eligible := p.eligible, timebase := p.timebase, believed := p.believed,
           hostAlive := p.hostAlive, pubs := p.pubs, missed := 0, heard := true, lastPresence := epoch }

/-- PEER_NEW for an entry that was ABSENT, SILENT or RETIRED (R89). -/
def raisePeerNew (a : Nat) (before : PeerState) (s : State) : State :=
  match before with
  | .absent | .silent | .retired => raise .peerNew (some a) (BitVec.ofNat 16 before.code) s
  | .seen | .present => s

/-- A presence of a peer is taken, in the order of R92 (R88 to R92). -/
def takePresence (p : Presence) (s : State) : State :=
  match peerIx p.sender with
  | none => s
  | some i =>
    let e := s.roster[i]
    let fresh := p.fresh && e.state != .absent
    let base := if fresh then RosterEntry.cleared e.marked else e
    let s1 := updPeer i (fun _ =>
      { storePresence p (epoch32 s.timebase) base with
        state := if fresh then .present else presenceMove e.state }) s
    let s2 :=
      if fresh then raise .peerFresh (some p.sender) (BitVec.ofNat 16 e.state.code) s1
      else raisePeerNew p.sender e.state s1
    let s3 := if base.hostAlive && !p.hostAlive then raise .peerHostSilent (some p.sender) 0 s2 else s2
    let s4 := if fresh then newIncarnation p.sender s3 else s3
    changeReport p.sender s4

/-- A RETIRE of a peer is taken (R95). -/
def takeRetire (sender successor : Nat) (s : State) : State :=
  match peerIx sender with
  | none => s
  | some i =>
    match s.roster[i].state with
    | .absent => s
    | .retired => updPeer i (fun e => { e with missed := 0, heard := true }) s
    | .seen | .present | .silent =>
      changeReport sender
        (raise .peerRetired (some sender) (BitVec.ofNat 16 successor)
          (updPeer i (fun e => { e with state := .retired, missed := 0, heard := true }) s))

/-- An entry that goes to ABSENT is cleared, MARKED kept (R87, R93). -/
def clearPeer (i : Fin 24) (s : State) : State := updPeer i (fun e => RosterEntry.cleared e.marked) s

/-- The interval check of one entry (R93). -/
def checkPeer (s : State) (i : Fin 24) : State :=
  let e := s.roster[i]
  let a := peerAddress i
  if e.state = .absent then s
  else if e.heard then updPeer i (fun e => { e with heard := false }) s
  else
    let s1 := updPeer i (fun e => { e with missed := e.missed + 1 }) s
    match e.state with
    | .seen => if 2 ≤ e.missed + 1 then changeReport a (clearPeer i s1) else s1
    | .present =>
      if 3 ≤ e.missed + 1 then
        changeReport a (raise .peerSilent (some a) 1 (updPeer i (fun e => { e with state := .silent }) s1))
      else s1
    | .silent | .retired =>
      if 8 ≤ e.missed + 1 then
        changeReport a (raise .peerGone (some a) (BitVec.ofNat 16 e.state.code) (clearPeer i s1))
      else s1
    | .absent => s1

/-- The interval check at a presence-interval boundary, in ascending address order (R93). -/
def intervalCheck (s : State) : State := (List.finRange 24).foldl checkPeer s

/-- The loss of the cable reaches one entry (R96). Its change report comes at once, as R93 has it after each entry of an
interval check, so the SUB_STALE of one peer enters the queue before the PEER_SILENT of the next: R96 does not say. DESIGN
CHOICE, notes/assumptions/38.md. -/
def losePeer (s : State) (i : Fin 24) : State :=
  match s.roster[i].state with
  | .absent => s
  | .silent => updPeer i (fun e => { e with heard := false }) s
  | .seen | .present | .retired =>
    changeReport (peerAddress i)
      (raise .peerSilent (some (peerAddress i)) 2
        (updPeer i (fun e => { e with state := .silent, heard := false }) s))

/-- The cable was lost (R96). -/
def cableLost (s : State) : State := (List.finRange 24).foldl losePeer s

/-- Clearing of the roster by RESTART (R87). -/
def restartRoster (s : State) : State := { s with roster := Vector.replicate 24 (RosterEntry.cleared false) }

end Sys2Proof.Machine
end

