-- ==== Sys2Proof/Machine/SelectorOps.lean ====
section
/-! DEFINITION. The timebase states as they are entered and left, and the source selector's ranking, handover record and
markers (01, 02). -/

namespace Sys2Proof.Machine

/-! ### Moves of the timebase state -/

/-- The timebase unit takes a state; TIMEBASE_STATE is raised when it changes (R24). -/
def enterTimebase (new : TimebaseState) (f : Timebase → Timebase) (s : State) : State :=
  let old := s.timebase.state
  let s1 := updTimebase (fun t => { f t with state := new }) s
  if old = new then s1 else raise .timebaseState none (timebaseDetail old new) s1

/-- The station stops driving the marker pair; a word in progress is abandoned (R28, R33). -/
def stopDriving (s : State) : State := updSelector (fun x => { x with driving := none }) s

/-- A held handover record is cleared with HANDOVER_FAIL (R35, R38). -/
def failHandover (cause : Nat) (s : State) : State :=
  match s.selector.record with
  | none => s
  | some h =>
    raise .handoverFail (some h.target) (BitVec.ofNat 16 cause)
      (updSelector (fun x => { x with record := none }) s)

/-- What leaving SOURCE does to the selector besides the record: no driving, the release cleared (R33, R39). -/
def leaveRole (s : State) : State :=
  updSelector (fun x => { x with driving := none, release := false }) s

/-- Claim expiry or takeover (R20): A set to I, SOURCE, counts 0, the own address believed, no expectation; a marker in
reception is not received (R7). -/
def becomeSource (s : State) : State :=
  enterTimebase .source (fun t =>
    { t with rate := t.integral, missCount := 0, lockRun := 0, searchStep := 0, decisions := 0,
             believed := s.station.own, expectation := none, capture := none }) s

/-- The timebase part of a clash or of entering DUPLICATE or SILENCED (R20); the window in progress is not judged
(R9). -/
def sourceToHoldover (s : State) : State :=
  enterTimebase .holdover (fun t => { t with rate := t.integral, believed := 0, windowSkip := true }) s

/-- The station state enters DUPLICATE or SILENCED: a SOURCE goes to HOLDOVER, HANDOVER_FAIL first (R20, R38). -/
def loseRole (s : State) : State :=
  if s.timebase.state = .source then sourceToHoldover (leaveRole (failHandover 5 s)) else s

/-- The handover completes at the old source (R20, R36). -/
def sourceToTrack (s : State) : State :=
  enterTimebase .track (fun t =>
    { t with rate := t.integral, lockRun := 0, missCount := 0, believed := 0 })
    (updSelector (fun x => { x with record := none }) (leaveRole s))

/-- What R22 sets in every case of a receiver-off entry. -/
def receiverOffCommon (t : Timebase) : Timebase :=
  { t with missCount := 0, lockRun := 0, searchStep := 0, decisions := 0, believed := 0, expectation := none,
           windowMark := false, windowSkip := false, capture := none }

/-- The receiver-off entry of the timebase unit (R22); a SOURCE loses its role, with HANDOVER_FAIL cause 5 first
(R38). -/
def receiverOff (s : State) : State :=
  match s.timebase.state with
  | .source =>
    enterTimebase .holdover (fun t => { receiverOffCommon t with rate := t.integral }) (leaveRole (failHandover 5 s))
  | .track | .locked => enterTimebase .holdover (fun t => { receiverOffCommon t with rate := t.integral }) s
  | .acquire => enterTimebase .free (fun t => { receiverOffCommon t with rate := 0, integral := 0 }) s
  | .free => enterTimebase .free receiverOffCommon s
  | .holdover => enterTimebase .holdover receiverOffCommon s

/-! ### Ranking (R27) -/

/-- A candidate for the source role. -/
structure Candidate where
  grade : Nat
  incumbent : Bool
  address : Nat
deriving DecidableEq, Repr

/-- Whether a candidate ranks above another: higher grade, then incumbency, then lower address (R27). -/
def ranksAbove (a b : Candidate) : Bool :=
  decide (b.grade < a.grade)
    || (a.grade == b.grade
      && ((a.incumbent && !b.incumbent)
        || (a.incumbent == b.incumbent && decide (a.address < b.address))))

/-- A peer as a candidate: incumbent when it is the believed source or last announced SOURCE (R27). -/
def peerCandidate (s : State) (i : Fin 24) : Candidate :=
  let e := s.roster[i]
  { grade := e.grade,
    incumbent := peerAddress i == s.timebase.believed || e.timebase == .source,
    address := peerAddress i }

/-- This station as a candidate (R27). -/
def selfCandidate (s : State) : Candidate :=
  { grade := s.selector.grade, incumbent := s.timebase.state == .source, address := s.station.own }

/-- A peer is a candidate when its entry is PRESENT and announces eligible (R27). -/
def isCandidate (e : RosterEntry) : Bool := e.state == .present && e.eligible

/-- This station is eligible and ranks above every peer that is a candidate (R29). -/
def ranksFirst (s : State) : Bool :=
  s.selector.eligible
    && (List.finRange 24).all fun i => !isCandidate s.roster[i] || ranksAbove (selfCandidate s) (peerCandidate s i)

/-- The first, by R27, of the peers that are PRESENT, announce eligible and last announced LOCKED (R34, R39). -/
def successor (s : State) : Option Candidate :=
  (List.finRange 24).foldl (fun best i =>
    if isCandidate s.roster[i] && s.roster[i].timebase == .locked then
      match best with
      | none => some (peerCandidate s i)
      | some b => if ranksAbove (peerCandidate s i) b then some (peerCandidate s i) else some b
    else best) none

/-! ### Handover (R34, R35, R39) -/

/-- A handover to a peer starts: the record, and HANDOVER_START with the low 16 bits of E (R34, R39). -/
def startHandover (target epoch : Nat) (s : State) : State :=
  raise .handoverStart (some target) (BitVec.ofNat 16 epoch)
    (updSelector (fun x => { x with record := some { target := target, epoch := epoch } }) s)

/-- The search of R34 at a presence-interval boundary of epoch n: a LOCKED peer of strictly better grade. -/
def searchBetter (n : Nat) (s : State) : State :=
  match successor s with
  | some c => if s.selector.grade < c.grade then startHandover c.address (epochPlus n 16) s else s
  | none => s

/-- The retiring search of R39, with no grade condition; the retire release is set when it finds none. `epoch` is the
handover epoch E. -/
def searchAny (epoch : Nat) (s : State) : State :=
  match successor s with
  | some c => startHandover c.address epoch s
  | none => updSelector (fun x => { x with release := true }) s

/-- Why the target's entry cancels a handover, in the order of R35; none when the re-check passes. -/
def targetFault (s : State) (target : Nat) : Option Nat :=
  match peerEntry s target with
  | some e =>
    if e.state = .retired then some 3
    else if e.state ≠ .present then some 1
    else if e.timebase ≠ .locked then some 2
    else none
  | none => some 1

/-- The re-check of the target before a marker word is composed (R35). -/
def recheckTarget (h : Handover) (s : State) : State :=
  match targetFault s h.target with
  | some cause => failHandover cause s
  | none => s

/-! ### Markers (R32) -/

/-- The fields of the marker word of the boundary of epoch n (R32). -/
def markerFields (s : State) (n : Nat) : MarkerFields :=
  match s.selector.record with
  | some h =>
    { epoch := BitVec.ofNat 32 n, source := s.station.own, target := h.target, countdown := epochsUntil n h.epoch }
  | none => { epoch := BitVec.ofNat 32 n, source := s.station.own, target := 0, countdown := 0 }

/-- The local clock periods a marker word takes: 128 ns of 8 ns each (R206). DEDUCED, notes/assumptions/19.md. -/
def markerPeriods : Nat := 16

/-- A SOURCE station drives the marker of the boundary of epoch n (R32). -/
def driveMarker (n : Nat) (s : State) : State :=
  updSelector (fun x => { x with driving := some { word := markerWord (markerFields s n), left := markerPeriods } }) s

end Sys2Proof.Machine
end

