-- ==== Sys2Proof/Machine/TimebaseOps.lean ====
section
/-! DEFINITION. The timebase unit at a marker: the phase error, phase steps, acquisition and the tracking loop (01). -/

namespace Sys2Proof.Machine

/-- The bound of A and I: 2^20 (R2). -/
def rateBound : Int := 1048576

/-- A or I limited to -2^20..+2^20 (R2, R16). -/
def limitRate (x : Int) : Int := limitInt x (-rateBound) rateBound

/-- A marker's epoch field extended to full width: the non-negative value with these low 32 bits in
own - 2^31 .. own + 2^31 - 1, or the lowest non-negative one when that interval holds none (R8). -/
def extendEpoch (own : Nat) (field : Epoch32) : Nat :=
  let d := (field - BitVec.ofNat 32 own).toNat
  if d < 2147483648 then own + d
  else if 4294967296 ≤ own + d then own + d - 4294967296
  else own + d

/-- The phase error e = X - C in fine units (R8): X is the extended epoch's boundary plus the trim. -/
def phaseErrorOf (capture extended : Nat) (trim : Int) : Int :=
  (extended * 131072 * 65536 : Nat) + trim - (capture : Int)

/-- e as it is kept: limited to 64 bits (R8). -/
def keptError (e : Int) : Int := limitInt e (-9223372036854775808) 9223372036854775807

/-- Rack time after e fine units are added, before the integer part wraps (R10), in units of 2^-32 tick. -/
def steppedTotal (t : Timebase) (e : Int) : Int := (rackTotal t : Int) + e * 65536

/-- Rack time set to a total of units of 2^-32 tick, the integer part modulo 2^64 (R1). -/
def setRack (total : Int) (t : Timebase) : Timebase :=
  { t with ticks := BitVec.ofInt 64 (total / 4294967296), frac := BitVec.ofInt 32 total }

/-- Rack time has reached or passed the hold-off deadline while the flag is set (R60). -/
def holdOffReached (s : State) : Bool := s.cable.holdOff && atOrAfter (ticks48 s.timebase) s.cable.holdOffDeadline

/-- A phase step of e (R10): rack time moves, the generators realign (R168), and a forward step that changes the slot
count or the epoch number makes one slot tick and one epoch boundary fall due (R11). The marker acts whole first: what
falls due here, with the COMPARE_FIRED, the engines' events and the SLOT_TICK count of the tick and the events of the
boundary, follows the marker's PHASE_STEP, TIMEBASE_STATE and its PHASE_STEP occurrence. R24 orders the timebase's own
events alone, and R180 and R199 leave the rest open. DESIGN CHOICE, notes/assumptions/43.md. -/
def phaseStep (e : Int) (s : State) : State :=
  let before := s.timebase.ticks.toNat
  let total := steppedTotal s.timebase e
  let after := total / 4294967296
  let s1 := realignAll (updTimebase (setRack total) s)
  let s2 := markIf (decide (0 < e ∧ ((before / 2048 : Nat) : Int) < after / 2048)) .slotTick s1
  let s3 := markIf (decide (0 < e ∧ ((before / 131072 : Nat) : Int) < after / 131072)) .epochBoundary s2
  markIf (holdOffReached s3) .holdOffExpiry s3

/-- PHASE_STEP, with the marker's source address as subject (R10). -/
def raisePhaseStep (source : Nat) (e : Int) (s : State) : State := raise .phaseStep (some source) (stepDetail e) s

/-- The PHASE_STEP occurrence, told to the monitor after the events of its marker (R177, R185), and so before the
SLOT_TICK of a tick that the step produces (R180). DESIGN CHOICE, notes/assumptions/43.md. -/
def countPhaseStep (source : Nat) (s : State) : State := occur .phaseStep (.peer source) 1 s

/-- FREE: the first valid marker starts acquisition (R12). -/
def markerInFree (source : Nat) (e : Int) (s : State) : State :=
  countPhaseStep source
    (enterTimebase .acquire (fun t =>
      { t with rate := 0, integral := 0, searchStep := 524288, decisions := 0, lockRun := 0 })
      (raisePhaseStep source e (phaseStep e s)))

/-- The rate after an acquisition decision (R13 step 1). -/
def decide13 (rate e : Int) (step : Nat) : Int :=
  if 0 < e then rate + step else if e < 0 then rate - step else rate

/-- ACQUIRE: one decision, a re-centring step, the search step halved; after the 20th decision acquisition is complete
(R13). -/
def markerInAcquire (e : Int) (s : State) : State :=
  let s1 := phaseStep e (updTimebase (fun t => { t with rate := decide13 t.rate e t.searchStep }) s)
  let s2 := updTimebase (fun t => { t with searchStep := t.searchStep / 2, decisions := t.decisions + 1 }) s1
  markIf (decide (20 ≤ s2.timebase.decisions)) .acquisitionComplete s2

/-- The step test: |e| is at least S x 65,536 fine units (R15, R19). -/
def stepNeeded (t : Timebase) (e : Int) : Bool := decide (t.settings.step * 65536 ≤ e.natAbs)

/-- TRACK or LOCKED, a marker stepped instead of tracked (R15). -/
def trackStep (source : Nat) (e : Int) (s : State) : State :=
  countPhaseStep source
    (enterTimebase .track (fun t => { t with rate := t.integral, lockRun := 0 })
      (raisePhaseStep source e (phaseStep e s)))

/-- The loop update (R16): the integral is limited before it is used. -/
def loopUpdate (e : Int) (t : Timebase) : Timebase :=
  let integral := limitRate (t.integral + e / 2 ^ t.settings.i)
  { t with integral := integral, rate := limitRate (integral + e / 2 ^ t.settings.p) }

/-- The lock and alarm checks after the loop update (R17). -/
def lockCheck (source : Nat) (e : Int) (s : State) : State :=
  let t := s.timebase
  match t.state with
  | .track =>
    let run := if e.natAbs ≤ t.settings.lock then t.lockRun + 1 else 0
    markIf (decide (8 ≤ run)) .lockAchieved (updTimebase (fun t => { t with lockRun := min 8 run }) s)
  | .locked =>
    if e.natAbs ≤ t.settings.alarm then s
    else
      enterTimebase .track (fun t => { t with lockRun := 0 })
        (raise .phaseAlarm (some source) (alarmDetail e) s)
  | .free | .acquire | .holdover | .source => s

/-- TRACK or LOCKED (R15, R16, R17). -/
def markerInTrack (source : Nat) (e : Int) (s : State) : State :=
  if stepNeeded s.timebase e then trackStep source e s
  else lockCheck source e (updTimebase (loopUpdate e) s)

/-- HOLDOVER: the marker ends the holdover, with a step when |e| reaches the step threshold (R19). -/
def markerInHoldover (source : Nat) (e : Int) (s : State) : State :=
  if stepNeeded s.timebase e then
    countPhaseStep source
      (enterTimebase .track (fun t => { t with lockRun := 0 }) (raisePhaseStep source e (phaseStep e s)))
  else enterTimebase .track (fun t => { t with lockRun := 0 }) s

/-- The handover expectation a marker sets or clears (R21): E is the epoch after the marker's. -/
def expectationOf (own : Nat) (m : MarkerFields) (extended : Nat) : Option Nat :=
  if m.target = own ∧ m.countdown = 1 then some (epochPlus extended 1) else none

/-- A valid marker is taken with its capture: its effects on every state other than SOURCE (R7, R8, R21, R30), then the
rule of the timebase state. The phase error is that of the extended epoch at full width; the epoch numbers kept are
47 bits. DEDUCED, notes/assumptions/44.md. -/
def takeMarker (m : MarkerFields) (capture : Nat) (s : State) : State :=
  let extended := extendEpoch (capture / 65536 / 131072) m.epoch
  let e := phaseErrorOf capture extended s.timebase.settings.trim
  let s1 := updTimebase (fun t =>
    { t with missCount := 0, windowMark := true, believed := m.source, lastEpoch := extended % epochModulus,
             lastTarget := m.target, lastCountdown := m.countdown, capture := none, phaseError := keptError e,
             expectation := expectationOf s.station.own m extended }) s
  let s2 := updSelector (fun x => { x with countdown := none }) s1
  match s2.timebase.state with
  | .free => markerInFree m.source e s2
  | .acquire => markerInAcquire e s2
  | .track | .locked => markerInTrack m.source e s2
  | .holdover => markerInHoldover m.source e s2
  | .source => s

/-- The held capture is dropped and nothing else changes (R7). -/
def dropCapture (s : State) : State := updTimebase (fun t => { t with capture := none }) s

/-- A marker word is complete (R7, R207): taken with the held capture, or not received. -/
def markerComplete (word : BitVec 64) (s : State) : State :=
  match s.timebase.capture with
  | none => s
  | some c =>
    if s.timebase.state = .source then dropCapture s
    else match readMarker word with
      | some m => takeMarker m c s
      | none => dropCapture s

/-- A marker edge is captured (R6): receivers on, not SOURCE, and no word being received (R206). -/
def captureEdge (s : State) : State :=
  if receiversOn s.station.state ∧ s.timebase.state ≠ .source ∧ s.timebase.capture = none then
    updTimebase (fun t => { t with capture := some (rackFine t) }) s
  else s

/-! ### Acquisition, lock and holdover as they are reached -/

/-- After the 20th decision (R13). -/
def completeAcquisition (s : State) : State :=
  if s.timebase.state = .acquire ∧ 20 ≤ s.timebase.decisions then
    enterTimebase .track (fun t => { t with integral := t.rate, lockRun := 0 }) s
  else s

/-- The lock run has reached 8 in TRACK (R17). -/
def achieveLock (s : State) : State :=
  if s.timebase.state = .track ∧ 8 ≤ s.timebase.lockRun then enterTimebase .locked (fun t => t) s else s

/-- The miss count has reached 3 in ACQUIRE (R14). -/
def abandonAcquisition (s : State) : State :=
  if s.timebase.state = .acquire ∧ 3 ≤ s.timebase.missCount then
    enterTimebase .free (fun t =>
      { t with rate := 0, integral := 0, searchStep := 0, decisions := 0, believed := 0, expectation := none }) s
  else s

/-- The miss count has reached 3 in TRACK or LOCKED (R18). -/
def holdOver (s : State) : State :=
  if (s.timebase.state = .track ∨ s.timebase.state = .locked) ∧ 3 ≤ s.timebase.missCount then
    enterTimebase .holdover (fun t => { t with rate := t.integral, believed := 0, expectation := none }) s
  else s

/-- The window that has ended is judged missed (R9): the miss count, the MARKER_MISSED occurrence, and the holdover or
the abandoning that the third miss brings (R14, R18). The monitor is told here; the TIMEBASE_STATE of the third miss is
raised in the step that falls due, so it follows a MONITOR_OVERFLOW of this occurrence. DESIGN CHOICE,
notes/assumptions/15.md. -/
def missWindow (s : State) : State :=
  let b := s.timebase.believed
  let s1 := updTimebase (fun t => { t with missCount := satAdd t.missCount 1 255 }) s
  let third := decide (3 ≤ s1.timebase.missCount)
  let s2 := markIf (third && s1.timebase.state == .acquire) .acquisitionAbandoned s1
  let s3 := markIf (third && (s1.timebase.state == .track || s1.timebase.state == .locked)) .timebaseHoldover s2
  occur .markerMissed (if b = 0 then .none else .peer b) 1 s3

/-- A marker window ends (R9): judged while the receivers are on, the timebase is not SOURCE and the window is not one
in which the receivers came on or SOURCE was left for HOLDOVER. The mark is cleared for the new window. `windowSkip` goes
with the window current after a phase step, so the unjudged window that a backward step leaves is judged when it is
entered again: R9 does not say. DESIGN CHOICE, notes/assumptions/51.md. -/
def endWindow (s : State) : State :=
  let s1 :=
    if !receiversOn s.station.state || s.timebase.state == .source then
      updTimebase (fun t => { t with missCount := 0 }) s
    else if s.timebase.windowSkip || s.timebase.windowMark then s
    else missWindow s
  updTimebase (fun t => { t with windowMark := false, windowSkip := false }) s1

end Sys2Proof.Machine
end

