-- ==== Sys2Proof/Machine/StationOps.lean ====
section
/-! DEFINITION. The cable interface as it follows the station state, and the station controller: changes of station
state with all they do to the other blocks, FRESH, the fault score (03, 04). -/

namespace Sys2Proof.Machine

/-! ### The cable interface -/

/-- The interface enters GUARD with a count of 0 (R43, R44). -/
def enterGuard (s : State) : State := updCable (fun c => { c with state := .guard, guardCount := 0 }) s

/-- Both receive buffers are emptied (R53). -/
def emptyBuffers (c : Cable) : Cable := { c with rx0 := .empty, rx1 := .empty }

/-- A claim, burst or abort pattern in progress is cut (R61): a bound publication is told that the burst ended without a
send; claim and flight are discarded; the interface enters GUARD. -/
def cutBurst (s : State) : State :=
  match s.cable.state with
  | .claiming | .sending | .aborting =>
    enterGuard (updCable (fun c => { c with claim := none, flight := none }) (endBinding false s))
  | .off | .guard | .idle | .receiving => s

/-- The interface enters OFF (R44). -/
def cableOff (s : State) : State :=
  updCable (fun c => emptyBuffers { c with state := .off, guardCount := 0, claim := none, flight := none }) s

/-- A departure from JOINED or RETIRING to another state (R65, R60, R73): the burst cut, the queue emptied with the
hold-off, FRESH pending and RETIRE sent cleared, presence-clash count and retire timer 0. -/
def leaveDrivers (s : State) : State :=
  let s1 := cutBurst s
  updStation (fun x => { x with freshPending := false, retireSent := false, clash := 0, retireTimer := 0 })
    (updCable (fun c => { c with holdOff := false }) { s1 with txQueue := [] })

/-! ### CAUTION and the score's return to 0 -/

/-- The fault score is set to 0, and CAUTION is cleared with CAUTION_OFF if it was set (R80, R81). -/
def zeroScore (s : State) : State :=
  let was := s.station.caution
  let s1 := updStation (fun x => { x with faultScore := 0, caution := false }) s
  if was then raise .cautionOff none 0 s1 else s1

/-! ### Changes of station state -/

/-- What the receivers' turning off or on does (R22, R44, R9). -/
def followReceivers (old new : StationState) (s : State) : State :=
  if !receiversOn new then cableOff (receiverOff s)
  else if !receiversOn old then enterGuard (updTimebase (fun t => { t with windowSkip := true }) s)
  else s

/-- What the entry to a state sets in the station controller, and the notice of a lost cable to the roster (R68, R70,
R74, R79, R80, R82, R83). -/
def entryEffects (old new : StationState) (s : State) : State :=
  match new with
  | .offline => zeroScore s
  | .isolated =>
    let s1 := zeroScore s
    match old with
    | .listen | .joined | .silenced =>
      cableLost (updStation (fun x => { x with listen := 0, recovery := 0 }) s1)
    | _ => s1
  | .settling => updStation (fun x => { x with settle := 0 }) s
  | .listen =>
    let s1 := updStation (fun x => { x with listen := 0 }) s
    if old = .silenced then zeroScore s1 else s1
  | .joined | .retiring => s
  | .detached =>
    updStation (fun x => { x with clash := 0, recovery := 0, listen := 0, retireTimer := 0, retireSent := false })
      (zeroScore s)
  | .duplicate => updStation (fun x => { x with recovery := 0 }) (zeroScore s)
  | .silenced => updStation (fun x => { x with recovery := 0, retireSent := false, retireTimer := 0 }) s

/-- A change of station state (R65, R66): STATION_STATE first, then what the change does to the other blocks. The events
of the other blocks enter in this order: those of the receiver-off entry (HANDOVER_FAIL, TIMEBASE_STATE), CAUTION_OFF,
the roster's PEER_SILENT; R199 lets either come first. DESIGN CHOICE, notes/assumptions/38.md. -/
def changeStation (new : StationState) (cause : Nat) (s : State) : State :=
  let old := s.station.state
  let s1 := raise .stationState none (stationDetail old new cause) (updStation (fun x => { x with state := new }) s)
  let s2 := if driversOn old && !driversOn new then leaveDrivers s1 else s1
  let s3 := if old = .joined then updSelector (fun x => { x with countdown := none }) s2 else s2
  let s4 := followReceivers old new s3
  let s5 := if new = .duplicate ∨ new = .silenced then loseRole s4 else s4
  entryEffects old new s5

/-- FRESH pending is set and a PRESENCE is enqueued at once (R72). -/
def setFresh (s : State) : State := enqueue .presence (updStation (fun x => { x with freshPending := true }) s)

/-- The retirement completes when the RETIRE was sent and the selector no longer drives markers (R76). -/
def checkRetired (s : State) : State :=
  if s.station.state = .retiring ∧ s.station.retireSent = true
      ∧ (s.timebase.state ≠ .source ∨ s.selector.release = true) then
    changeStation .detached 9 s
  else s

/-! ### The fault score (R80 to R82) -/

/-- The limit of a rise in a station state; none where the score does not rise (R80). -/
def scoreLimit : StationState → Option Nat
  | .listen | .joined | .retiring => some 255
  | .duplicate => some 254
  | .silenced | .offline | .isolated | .settling | .detached => none

/-- A rise of the fault score: applied whole, then the CAUTION test and the SILENCED test (R80, R81, R82). Every rise from
below 128 to 128 or above raises CAUTION_ON, also while CAUTION is set: R81 names the rise alone. DESIGN CHOICE,
notes/assumptions/45.md. -/
def raiseScore (amount : Nat) (s : State) : State :=
  match scoreLimit s.station.state with
  | none => s
  | some limit =>
    let new := min limit (s.station.faultScore + amount)
    let crosses := decide (s.station.faultScore < 128 ∧ 128 ≤ new)
    let s1 := updStation (fun x => { x with faultScore := new, caution := x.caution || crosses }) s
    let s2 := if crosses then raise .cautionOn none (BitVec.ofNat 16 new) s1 else s1
    if limit = 255 ∧ new = 255 then changeStation .silenced 12 s2 else s2

/-- A fall of 1 for a burst sent, to no less than 0; a fall from 96 to below clears CAUTION and raises CAUTION_OFF (R80,
R81), also where CAUTION was clear: R81 names the fall alone. DESIGN CHOICE, notes/assumptions/45.md. -/
def lowerScore (s : State) : State :=
  let new := s.station.faultScore - 1
  let clears := decide (96 ≤ s.station.faultScore ∧ new < 96)
  let s1 := updStation (fun x => { x with faultScore := new, caution := x.caution && !clears }) s
  if clears then raise .cautionOff none (BitVec.ofNat 16 new) s1 else s1

/-! ### Bursts sent (R48 to R50) -/

/-- The announcements of a PRESENCE: every ACTIVE or HELD publication in ascending index (R48). -/
def announcements (s : State) : List Announcement :=
  ((List.finRange 16).filter fun k => s.pubs[k].state != .unused).map fun k =>
    { index := k, width := s.pubs[k].width, samples := s.pubs[k].samples, urgent := s.pubs[k].urgent,
      held := s.pubs[k].state == .held }

/-- The PRESENCE built at this moment (R48). -/
def buildPresence (s : State) : Presence :=
  { sender := s.station.own, grade := s.selector.grade, eligible := s.selector.eligible, timebase := s.timebase.state,
    believed := if s.timebase.state = .source then s.station.own else s.timebase.believed,
    hostAlive := s.station.hostAlive, fresh := s.station.freshPending, pubs := announcements s }

/-- The successor a RETIRE names (R49). -/
def retireSuccessor (s : State) : Nat :=
  match s.selector.record with
  | some h => if s.timebase.state = .source then h.target else 0
  | none => 0

/-- The BLOCK of publication k's ready block (R50). -/
def buildBlock (s : State) (k : Fin 16) (b : Block) : BlockBurst :=
  let p := s.pubs[k]
  { publisher := s.station.own, index := k, seq := b.seq, time := b.time, width := p.width, count := b.count,
    flags := { isRepeat := !p.isNew, gap := b.gap, hostSilent := b.hostSilent, capture := b.capture },
    payload := payloadAt s p.readySlot p.width b.count }

/-- The ready block the publication table gives at burst start (R116). -/
def readyFor (s : State) (k : Fin 16) : Option Block :=
  if s.pubs[k].state = .active then s.pubs[k].ready else none

/-- The burst of an entry built at this moment (R48 to R50); none for a BLOCK without a ready block (R47). -/
def buildBurst (s : State) : EntryKind → Option Burst
  | .presence => some (.presence (buildPresence s))
  | .retire => some (.retire s.station.own (retireSuccessor s))
  | .pull j => some (.pull s.station.own s.subs[j].publisher s.subs[j].index)
  | .block k => (readyFor s k).map fun b => .block (buildBlock s k b)

/-- The claim field of an entry: its class and the own address (R45). -/
def claimByteOf (s : State) (e : TxEntry) : Byte := claimField e.cls s.station.own

/-- The burst in flight for an entry (R48, R209). -/
def flightOf (s : State) (e : TxEntry) (b : Burst) : Flight :=
  { entry := e, withdrawn := false, fresh := e.kind == .presence && s.station.freshPending,
    claimByte := claimByteOf s e, body := burstBody b, check := burstCheck (claimByteOf s e) (burstBody b) }

/-- The publication a burst of this entry binds (R50). -/
def bindingOf : EntryKind → Option (Fin 16)
  | .block k => some k
  | .presence | .retire | .pull _ => none

/-- The line levels this station drives for the burst in flight (R42, R43). -/
def flightLevels (f : Flight) : List Bool := lineBits f.claimByte f.body f.check

/-! ### Output pins -/

/-- SAFE is high while OFFLINE or DETACHED (R65). -/
def safePin (s : State) : Bool := s.station.state == .offline || s.station.state == .detached

/-- ATTN is high while the event queue holds an event (R200). -/
def attnPin (s : State) : Bool := !s.port.events.isEmpty

/-- MCLK0 and MCLK1 (R163). -/
def mclkPin (s : State) (g : Fin 2) : Bool := s.gens[g].out

end Sys2Proof.Machine
end

