-- ==== Sys2Proof/Machine/HostOps.lean ====
section
/-! DEFINITION. The host port: the response record and its sending (R189, R192, R194, R195, R212), the checks before an
owning rule's own tests (R193, R211), and the items of responses (R213). -/

namespace Sys2Proof.Machine

/-! ### Responses -/

/-- What an owning rule makes of a request: refused with a status, or taken with the body of its response and the
state it leaves. -/
inductive Reply where
  | refused (status : Status)
  | taken (body : List Byte) (s : State)

/-- The response record (R212) with the summary of this state (R195). -/
def responseRecord (status : Status) (body : List Byte) (s : State) : List Byte :=
  [BitVec.ofNat 8 status.code, BitVec.ofNat 8 s.station.state.code, BitVec.ofNat 8 s.timebase.state.code,
   BitVec.ofNat 8 ((if s.port.lost then 128 else 0) + s.port.events.length)] ++ beBytes 2 body.length ++ body

/-- The state that a reply leaves: a refused request has no effect (R193). -/
def Reply.effect (s : State) : Reply → State
  | .refused _ => s
  | .taken _ t => t

/-- A response is composed from the state that the request leaves (R195) and is sent in the request's transaction,
which waits for it; when the host has left that transaction the response is discarded (R189, R192). -/
def respond (status : Status) (body : List Byte) (s : State) : State :=
  match s.port.transaction with
  | .waiting => { s with port := { s.port with transaction := .responding (responseRecord status body s) } }
  | .closed _ | .ignored | .filler | .responding _ => s

/-- A reply has its effect and becomes a response; the body of a refusal has no bytes (R193). -/
def answer (s : State) : Reply → State
  | .refused status => respond status [] s
  | .taken body t => respond .ok body t

/-- Byte `i` that the part sends, counted from the byte in which it could first send a response (R189): FF until the
response is ready, then A5, the response record, and FF; what was sent before SSN rose, cut there (R192); none while SDO
is at high impedance, which is so from SSN's rise on, or the port ignores the transaction (R189, R203). -/
def sentByte (s : State) (i : Nat) : Option Byte :=
  match s.port.transaction with
  | .closed sent => sent[i]?
  | .ignored => none
  | .filler | .waiting => some 0xFF
  | .responding record => some (if i = 0 then 0xA5 else record.getD (i - 1) 0xFF)

/-- Byte `i` of the transaction, counted from its first (R189): FF in each of the first `before` bytes, which are those of
the request record and those that the host clocks until a response is ready (all of the transaction when none ever is:
R190, R192), and then what `sentByte` tells. The host's clocking alone decides `before`; none while the port ignores the
transaction (R203). -/
def transactionByte (before : Nat) (s : State) (i : Nat) : Option Byte :=
  if s.port.transaction = .ignored then none else if i < before then some 0xFF else sentByte s (i - before)

/-- Checks 2 and 3 of R193, then the owning rule's own tests and act (R191): a body of at most 1,536 bytes and of a
length that its kind allows. -/
def checked (lengthOk : List Byte → Bool) (act : List Byte → State → Reply) (body : List Byte) (s : State) : Reply :=
  if 1536 < body.length ∨ lengthOk body = false then .refused .range else act body s

/-- A body of exactly `n` bytes (R211). -/
def exactly (n : Nat) (body : List Byte) : Bool := body.length == n

/-! ### Items (R213) -/

/-- One byte. -/
def byteOf (n : Nat) : List Byte := [BitVec.ofNat 8 n]

/-- A flag of one byte (R205). -/
def flagOf (b : Bool) : List Byte := [flagByte b]

/-- A list: one byte of count, then the items. -/
def listBytes {α : Type} (item : α → List Byte) (xs : List α) : List Byte := byteOf xs.length ++ xs.flatMap item

/-- A subject as an event record gives it: FF in hexadecimal for none (R212). -/
def subjectByte : Option Nat → List Byte
  | some n => byteOf n
  | none => byteOf 255

/-- An event record of 11 bytes (R212). -/
def eventBytes (e : Event) : List Byte :=
  byteOf e.kind.code ++ beBytes 4 e.epoch.toNat ++ beBytes 3 e.tick ++ subjectByte e.subject
    ++ beBytes 2 e.detail.toNat

/-- The subject of a transmit queue entry as a number; none for PRESENCE and RETIRE (R54). -/
def EntryKind.subject : EntryKind → Option Nat
  | .presence | .retire => none
  | .pull j => some j.val
  | .block k => some k.val

/-- Whether an entry of this kind and subject is claimed or in flight. -/
def engaged (s : State) (kind : EntryKind) : Bool :=
  (match s.cable.claim with
    | some c => c.entry.kind == kind && !c.withdrawn
    | none => false)
  || (match s.cable.flight with
    | some f => f.entry.kind == kind && !f.withdrawn
    | none => false)

/-- The head of the queue is the entry in flight (R56). -/
def headInFlight (s : State) : Bool :=
  match s.cable.flight with
  | some f => !f.withdrawn
  | none => false

/-! ### Bodies of responses, in the order of the owning rules -/

/-- The six timebase settings, 4 bytes each (R25, R213). -/
def settingsBytes (t : Settings) : List Byte :=
  beBytes 4 t.p ++ beBytes 4 t.i ++ beBytes 4 t.lock ++ beBytes 4 t.alarm ++ beBytes 4 t.step ++ beSigned 4 t.trim

/-- READ_TIMEBASE (R25). -/
def timebaseBytes (t : Timebase) : List Byte :=
  byteOf t.state.code ++ beBytes 8 t.ticks.toNat ++ beBytes 2 (t.frac.toNat / 65536) ++ beBytes 6 (epochNumber t)
    ++ byteOf (slotInEpoch t) ++ beSigned 4 t.rate ++ beSigned 4 t.integral
    ++ beSigned 4 (limitInt t.phaseError (-2147483648) 2147483647) ++ beBytes 4 t.searchStep ++ byteOf t.decisions
    ++ byteOf t.lockRun ++ byteOf t.missCount ++ byteOf t.believed ++ beBytes 6 t.lastEpoch ++ byteOf t.lastTarget
    ++ byteOf t.lastCountdown ++ optBytes 6 (t.expectation.map (beBytes 6)) ++ settingsBytes t.settings

/-- The station controller's part of STATUS (R86). -/
def stationBytes (x : Station) : List Byte :=
  byteOf x.state.code ++ flagOf x.startFault ++ byteOf x.own
    ++ [x.straps.addr.setWidth 8, x.straps.refclass.setWidth 8, flagByte x.straps.elig, flagByte x.straps.prefer]
    ++ byteOf x.faultScore ++ flagOf x.caution ++ beBytes 2 x.settle ++ byteOf x.listen ++ byteOf x.retireTimer
    ++ flagOf x.retireSent ++ byteOf x.clash ++ byteOf x.recovery ++ flagOf x.freshPending ++ flagOf x.hostAlive
    ++ byteOf x.lapse ++ byteOf x.interval

/-- The source selector's part of STATUS (R41). -/
def selectorBytes (x : Selector) : List Byte :=
  byteOf x.grade ++ flagOf x.eligible ++ optBytes 1 (x.countdown.map byteOf)
    ++ optBytes 7 (x.record.map fun h => byteOf h.target ++ beBytes 6 h.epoch) ++ flagOf x.release
    ++ optBytes 6 (x.firstDrive.map (beBytes 6))

/-- The number of queue entries of a kind, by the kind's code. -/
def countKind (s : State) (code : Nat) : Nat := s.txQueue.countP fun e => e.kind.code == code

/-- The cable interface's part of STATUS (R62). The head's subject, which a PRESENCE and a RETIRE do not have, is an item
that may be absent (R213). DEDUCED, notes/assumptions/12.md. The numbers of entries stand in the order of the kinds' codes
(R205): R62 says only "of each kind". DESIGN CHOICE, notes/assumptions/12.md. -/
def cableBytes (s : State) : List Byte :=
  byteOf s.cable.state.code ++ flagOf s.cable.holdOff ++ beBytes 6 s.cable.holdOffDeadline.toNat
    ++ byteOf (countKind s 0) ++ byteOf (countKind s 1) ++ byteOf (countKind s 2) ++ byteOf (countKind s 3)
    ++ optBytes 4 ((queueHead s).map fun e =>
      byteOf e.kind.code ++ optBytes 1 (e.kind.subject.map byteOf) ++ flagOf (headInFlight s))

/-- STATUS (R197). -/
def statusBytes (s : State) : List Byte := stationBytes s.station ++ selectorBytes s.selector ++ cableBytes s

/-- A short roster item (R100, R213). -/
def rosterItem (e : RosterEntry) : List Byte :=
  byteOf e.state.code ++ byteOf e.missed ++ flagOf e.marked ++ flagOf e.heard

/-- A roster entry whole (R100). -/
def rosterBytes (e : RosterEntry) : List Byte :=
  byteOf e.state.code ++ byteOf e.grade ++ flagOf e.eligible ++ byteOf e.timebase.code ++ byteOf e.believed
    ++ flagOf e.hostAlive ++ listBytes announcementBytes e.pubs ++ byteOf e.missed ++ flagOf e.heard
    ++ beBytes 4 e.lastPresence.toNat ++ flagOf e.marked

/-- The header of a ready block (R123). -/
def readyBytes (b : Block) : List Byte :=
  beBytes 2 b.seq.toNat ++ beBytes 6 b.time.toNat ++ byteOf b.capture.code ++ beBytes 2 b.count
    ++ optBytes 2 (b.gap.map (beBytes 2)) ++ flagOf b.hostSilent

/-- READ_PUBLICATION (R123), in the order of the publication table's fields. The binding is sent as a flag, 01 in flight:
R205 gives it no code and R213 does not name it. DESIGN CHOICE, notes/assumptions/12.md. -/
def publicationBytes (s : State) (k : Fin 16) : List Byte :=
  let p := s.pubs[k]
  let q := s.partials[k]
  byteOf p.state.code ++ byteOf p.feed.code ++ byteOf p.width.code ++ beBytes 2 p.samples ++ flagOf p.urgent
    ++ byteOf p.policy.code ++ byteOf p.readySlot ++ byteOf p.fillSlot ++ optBytes 15 (p.ready.map readyBytes)
    ++ beBytes 2 p.fillCount ++ beBytes 6 p.fillTime.toNat ++ byteOf p.fillCapture.code ++ beBytes 2 p.nextSeq.toNat
    ++ flagOf p.isNew ++ flagOf p.fillOpen ++ flagOf p.commitPending ++ flagOf (s.cable.binding == some k)
    ++ beBytes 2 p.gap ++ flagOf p.pullPending ++ flagOf p.marked ++ flagOf (queued s (.block k))
    ++ flagOf (engaged s (.block k))
    ++ optBytes 9 (q.high.map fun h =>
      beBytes 2 h.1.toNat ++ beBytes 6 h.2.time.toNat ++ byteOf h.2.capture.code)
    ++ flagOf q.voidLow ++ byteOf (fifoWords s.fifo) ++ beBytes 2 s.portRejects ++ beBytes 2 s.unknownPulls

/-- The header, arrival time, MISSED and LATE of a ring entry: bytes 0 to 21 of a TAKE response (R212). -/
def ringBytes (e : RingEntry) : List Byte :=
  beBytes 2 e.seq.toNat ++ beBytes 6 e.time.toNat ++ byteOf e.width.code ++ beBytes 2 e.count ++ [e.flags.byte]
    ++ beBytes 2 (e.flags.gap.getD 0) ++ beBytes 6 e.arrival.toNat ++ byteOf e.missed ++ flagOf e.late

/-- The pull state of a subscription: IDLE 0, PENDING 1, with tries and deadline, both 0 when IDLE. -/
def pullStateBytes : Option Pull → List Byte
  | some p => byteOf 1 ++ byteOf p.tries ++ beBytes 4 p.deadline.toNat
  | none => byteOf 0 ++ byteOf 0 ++ beBytes 4 0

/-- READ_SUBSCRIPTION (R142): the fields of the entry, the ring's blocks oldest first, and the PULL entry's two
flags. -/
def subscriptionBytes (s : State) (j : Fin 32) : List Byte :=
  let x := s.subs[j]
  byteOf x.state.code ++ byteOf x.publisher ++ byteOf x.index.val ++ byteOf x.mode.code
    ++ optBytes 2 (x.last.map fun q => beBytes 2 q.toNat) ++ beBytes 2 x.overruns ++ beBytes 2 x.duplicates
    ++ beBytes 2 x.lates ++ beBytes 4 x.lateThreshold ++ beBytes 2 x.staleTimeout ++ beBytes 4 x.lastBlock.toNat
    ++ flagOf x.overrunReported ++ pullStateBytes x.pull ++ flagOf x.marked ++ listBytes ringBytes x.ring
    ++ flagOf (queued s (.pull j)) ++ flagOf (engaged s (.pull j))

/-- The state of an engine (R161). -/
def engineBytes (x : Engine) : List Byte :=
  byteOf x.run.code ++ byteOf x.resume.code ++ beBytes 2 x.pointer.toNat
    ++ optBytes 2 (x.loopStart.map fun a => beBytes 2 a.toNat) ++ beBytes 2 x.loopCount ++ beBytes 2 x.hold
    ++ byteOf x.prescale ++ byteOf x.prescaleCount

/-- The state of a generator, H' followed by the high time it would give (R165, R169). -/
def generatorBytes (g : Generator) : List Byte :=
  byteOf g.state.code ++ beBytes 4 g.period ++ beBytes 4 g.high ++ beBytes 4 g.stagedPeriod ++ beBytes 4 g.stagedHigh
    ++ beBytes 4 (effectiveHigh g.stagedPeriod g.stagedHigh) ++ beBytes 8 g.wrapBase.toNat
    ++ beBytes 4 g.armEpoch.toNat

/-- The action of a compare: its code, then the engine number, 0 with NOTIFY. -/
def actionBytes : CmpAction → List Byte
  | .notify => byteOf 0 ++ byteOf 0
  | .start e => byteOf 1 ++ byteOf e.val

/-- The state, target and action of a compare, and the current slot count (R171, R175). -/
def compareBytes (t : Timebase) (c : Compare) : List Byte :=
  byteOf c.state.code ++ beBytes 5 c.target.toNat ++ actionBytes c.action ++ beBytes 5 (slot38 t).toNat

/-- A counter of the monitor (R187). Counter 0 has neither AWAIT0 nor a gate (R182), and R187 and R213 give no value for
them: both bytes are 00, since the state holds both clear. DESIGN CHOICE, notes/assumptions/13.md. -/
def counterBytes (c : Counter) : List Byte :=
  beBytes 4 c.value ++ flagOf (decide (2147483648 ≤ c.value)) ++ byteOf c.selection ++ flagOf c.notify
    ++ flagOf c.await0 ++ flagOf c.gateOpen

/-- The kind (R205) and number of an occurrence's subject, an item that may be absent (R184, R213). -/
def occSubjectBytes : Subject → List Byte
  | .none => optBytes 2 none
  | .peer a => optBytes 2 (some (byteOf 0 ++ byteOf a))
  | .publication k => optBytes 2 (some (byteOf 1 ++ byteOf k.val))
  | .subscription j => optBytes 2 (some (byteOf 2 ++ byteOf j.val))

/-- The overflow snapshot's fields (R184): the tick within the epoch is a value above 65,535, of 4 bytes (R213). -/
def snapshotBytes (x : Snapshot) : List Byte :=
  byteOf x.counter.val ++ beBytes 4 x.epoch.toNat ++ beBytes 4 x.tick ++ byteOf x.selection
    ++ occSubjectBytes x.subject

/-- The monitor's whole state (R186, R187). -/
def monitorBytes (m : Monitor) : List Byte :=
  m.counters.toList.flatMap counterBytes ++ flagOf m.marked ++ flagOf m.freeze ++ flagOf m.frozen
    ++ optBytes 13 (m.snapshot.map snapshotBytes) ++ byteOf m.further

end Sys2Proof.Machine
end

