-- ==== Sys2Proof/Machine/ClockRequests.lean ====
section
/-! DEFINITION. The tests and acts of the requests of the module clock generators and of the epoch compares (09). -/

namespace Sys2Proof.Machine

/-! ### Requests to the generators -/

/-- A request to a generator, answered with the generator's state after it (R165, R169). -/
def withGen (body : List Byte) (s : State) (act : Generator → Generator) : Reply :=
  match unitIx 2 (byteAt body 0).toNat with
  | none => .refused .range
  | some g =>
    let t := updGen g act s
    .taken (generatorBytes t.gens[g]) t

/-- CLOCK_SET of a generator (R165). -/
def stageClock (period high : Nat) (g : Generator) : Generator :=
  { g with stagedPeriod := limitNat period 2 65536, stagedHigh := limitNat high 1 65535 }

/-- CLOCK_SET's own test and act (R165). -/
def clockSetAct (body : List Byte) (s : State) : Reply := withGen body s (stageClock (field body 1 4) (field body 5 4))

/-- CLOCK_ARM of a generator (R166). -/
def armClock (epoch : Epoch32) (g : Generator) : Generator :=
  { g with armEpoch := epoch, state := .armed, out := false }

/-- CLOCK_ARM's own test and act (R166). -/
def clockArmAct (body : List Byte) (s : State) : Reply := withGen body s (armClock (BitVec.ofNat 32 (field body 1 4)))

/-- CLOCK_OFF's own test and act (R169). -/
def clockOffAct (body : List Byte) (s : State) : Reply := withGen body s fun g => { g with state := .off, out := false }

/-! ### Requests to the compares -/

/-- The action of a COMPARE_SET: the engine number is read only with START (R171, R211). -/
def actionOf (code engine : Nat) : Option CmpAction :=
  match code with
  | 0 => some .notify
  | 1 => (unitIx 4 engine).map .start
  | _ => none

/-- The target of a COMPARE_SET: epoch x 64 + slot modulo 2^38 (R171). -/
def targetOf (body : List Byte) : Slot38 := BitVec.ofNat 38 (field body 1 4 * 64 + (byteAt body 5).toNat)

/-- COMPARE_SET's own tests and act (R171). -/
def compareSetAct (body : List Byte) (s : State) : Reply :=
  match unitIx 4 (byteAt body 0).toNat, unitIx 64 (byteAt body 5).toNat,
      actionOf (byteAt body 6).toNat (byteAt body 7).toNat with
  | some k, some _, some action =>
    let t := updCompare k (fun _ => { state := .armed, target := targetOf body, action := action }) s
    .taken (compareBytes t.timebase t.compares[k] ++ flagOf (atOrAfter (slot38 t.timebase) (targetOf body))) t
  | _, _, _ => .refused .range

/-- COMPARE_CANCEL's own test and act (R175). -/
def compareCancelAct (body : List Byte) (s : State) : Reply :=
  match unitIx 4 (byteAt body 0).toNat with
  | none => .refused .range
  | some k =>
    let t := updCompare k (fun c => { c with state := .idle }) s
    .taken (compareBytes t.timebase t.compares[k]) t

end Sys2Proof.Machine
end

