-- ==== Sys2Proof/Machine/EngineRequests.lean ====
section
/-! DEFINITION. The tests and acts of the schedule engines' requests (08). -/

namespace Sys2Proof.Machine

/-! ### Requests -/

/-- An operand of an entry that takes none must be 0 (R211). -/
def bare (operand : Nat) (entry : SchedEntry) : Option SchedEntry := if operand = 0 then some entry else none

/-- A schedule entry read from its 3 bytes (R211): none when its kind or operand lies outside R144. -/
def readEntry (bs : List Byte) : Option SchedEntry :=
  let operand := field bs 1 2
  match (byteAt bs 0).toNat with
  | 1 => (unitIx 16 operand).map .emit
  | 2 => some (.hold (BitVec.ofNat 16 operand))
  | 3 => if operand < 4096 then some (.repeat_ (BitVec.ofNat 12 operand)) else none
  | 4 => bare operand .loop
  | 5 => some (.notify (BitVec.ofNat 16 operand))
  | 6 => bare operand .align
  | 7 => bare operand .halt
  | _ => none

/-- A list of `n` entries read from a body's tail. -/
def readEntries : Nat → List Byte → Option (List SchedEntry)
  | 0, _ => some []
  | n + 1, bs => do
    let e ← readEntry (bs.take 3)
    let rest ← readEntries n (bs.drop 3)
    some (e :: rest)

/-- LOAD_LIST's own tests and act (R160). -/
def loadListAct (body : List Byte) (s : State) : Reply :=
  let start := field body 0 2
  let n := (body.length - 2) / 3
  if 255 < start ∨ n = 0 ∨ 256 < start + n then .refused .range
  else match readEntries n (body.drop 2) with
    | none => .refused .range
    | some entries =>
      .taken (byteOf start ++ beBytes 2 n) { s with schedule := schedWrite s.schedule start entries }

/-- A request to an engine, answered with the engine's state after it (R161). -/
def withEngine (body : List Byte) (s : State) (ok : Bool) (act : Engine → Engine) : Reply :=
  match unitIx 4 (byteAt body 0).toNat with
  | none => .refused .range
  | some e =>
    if ok then
      let t := updEngine e act s
      .taken (engineBytes t.engines[e]) t
    else .refused .range

/-- ENGINE_START of an engine (R156). -/
def startEngine (x : Engine) : Engine :=
  if x.run = .stopped then { x with run := x.resume, resume := .run } else x

/-- ENGINE_START's own test and act (R156). -/
def engineStartAct (body : List Byte) (s : State) : Reply := withEngine body s true startEngine

/-- ENGINE_STOP of an engine (R155). -/
def stopEngine (x : Engine) : Engine :=
  if x.run = .stopped then x else { x with run := .stopped, resume := x.run }

/-- ENGINE_STOP's own test and act (R155). -/
def engineStopAct (body : List Byte) (s : State) : Reply := withEngine body s true stopEngine

/-- ENGINE_POINT of an engine (R158). -/
def pointEngine (pointer : Nat) (x : Engine) : Engine :=
  { x with pointer := BitVec.ofNat 8 pointer, loopStart := none, loopCount := 0 }

/-- ENGINE_POINT's own tests and act (R158). -/
def enginePointAct (body : List Byte) (s : State) : Reply :=
  withEngine body s (decide (field body 1 2 ≤ 255)) (pointEngine (field body 1 2))

/-- ENGINE_PRESCALE's own tests and act (R159). -/
def enginePrescaleAct (body : List Byte) (s : State) : Reply :=
  withEngine body s (decide (field body 1 2 ≤ 255)) fun x => { x with prescale := field body 1 2 }

end Sys2Proof.Machine
end

