-- ==== Sys2Proof/Machine/MonitorRequests.lean ====
section
/-! DEFINITION. The tests and acts of the health monitor's requests (10): MONITOR_SET, MONITOR_READ and MARK. -/

namespace Sys2Proof.Machine

/-! ### MONITOR_SET -/

/-- Whether the write flags of a MONITOR_SET select counter i (R211). -/
def writesCounter (body : List Byte) (i : Fin 4) : Bool := (byteAt body 2).getLsbD i.val

/-- The counters a MONITOR_SET writes, ascending. -/
def writtenCounters (body : List Byte) : List (Fin 4) := (List.finRange 4).filter (writesCounter body)

/-- The 6 bytes of a written counter: the blocks follow in ascending counter number (R211). -/
def counterBlock (body : List Byte) (i : Fin 4) : List Byte :=
  fieldBytes body (3 + 6 * ((writtenCounters body).filter fun k => decide (k.val < i.val)).length) 6

/-- A body of 3 + 6w bytes, w the number of write flags set (R211). -/
def monitorSetFits (body : List Byte) : Bool :=
  decide (3 ≤ body.length) && body.length == 3 + 6 * (writtenCounters body).length

/-- The tests of R186: the qualifier, then the written selections, then AWAIT0 for counter 0. -/
def monitorSetOk (body : List Byte) : Bool :=
  decide ((byteAt body 0).toNat ≤ 1)
    && (writtenCounters body).all (fun i => decide ((byteAt (counterBlock body i) 4).toNat ≤ 15))
    && !(writesCounter body 0 && (byteAt (counterBlock body 0) 5).getLsbD 1)

/-- A counter as a MONITOR_SET writes it (R186): start value, selection, NOTIFY, AWAIT0, its gate waiting. -/
def writtenCounter (block : List Byte) : Counter :=
  { value := field block 0 4, selection := (byteAt block 4).toNat, notify := (byteAt block 5).getLsbD 0,
    await0 := (byteAt block 5).getLsbD 1, gateOpen := false }

/-- All of a MONITOR_SET's changes (R183, R186). -/
def setMonitor (body : List Byte) (m : Monitor) : Monitor :=
  let freeze := readFlag (byteAt body 1)
  { m with
    counters := Vector.ofFn fun i => if writesCounter body i then writtenCounter (counterBlock body i) else m.counters[i]
    marked := (byteAt body 0).toNat == 1
    freeze := freeze
    frozen := m.frozen && (writtenCounters body).isEmpty && freeze }

/-- MONITOR_SET's own tests and act (R186). -/
def monitorSetAct (body : List Byte) (s : State) : Reply :=
  if monitorSetOk body then
    let t := updMonitor (setMonitor body) s
    .taken (monitorBytes t.monitor) t
  else .refused .range

/-! ### MONITOR_READ, MARK -/

/-- The clear option empties the snapshot and the further-count (R187). -/
def clearSnapshot (m : Monitor) : Monitor := { m with snapshot := none, further := 0 }

/-- MONITOR_READ's act (R187). -/
def monitorReadAct (body : List Byte) (s : State) : Reply :=
  .taken (monitorBytes s.monitor) (if readFlag (byteAt body 0) then updMonitor clearSnapshot s else s)

/-- The subject a MARK names: kinds 0 peer, 1 publication, 2 subscription (R205); a peer's address is not the own one
(R179). -/
def markSubject (s : State) (kind number : Nat) : Option Subject :=
  match kind with
  | 0 => (otherStation s number).map .peer
  | 1 => (unitIx 16 number).map .publication
  | 2 => (unitIx 32 number).map .subscription
  | _ => none

/-- The named MARKED flag is set or cleared (R179). -/
def setMark (subject : Subject) (value : Bool) (s : State) : State :=
  match subject with
  | .none => s
  | .peer a => match peerIx a with
    | some i => updPeer i (fun e => { e with marked := value }) s
    | none => s
  | .publication k => updPub k (fun p => { p with marked := value }) s
  | .subscription j => updSub j (fun x => { x with marked := value }) s

/-- MARK's own tests and act (R179): the response carries the flag after the request. -/
def markAct (body : List Byte) (s : State) : Reply :=
  match markSubject s (byteAt body 0).toNat (byteAt body 1).toNat with
  | none => .refused .range
  | some subject =>
    let t := setMark subject (readFlag (byteAt body 2)) s
    .taken (flagOf (subjectMarked t subject)) t

end Sys2Proof.Machine
end

