-- ==== Sys2Proof/Machine/PortRequests.lean ====
section
/-! DEFINITION. The tests and acts of the host port's own requests (11): the readings of the roster and the timebase, and
READ_EVENTS. -/

namespace Sys2Proof.Machine

/-- READ_ROSTER's own tests and act (R100): it changes no state. -/
def readRosterAct (body : List Byte) (s : State) : Reply :=
  let a := (byteAt body 0).toNat
  if a = 0 then .taken (listBytes rosterItem s.roster.toList) s
  else if a = s.station.own then .refused .range
  else match peerIx a with
    | some i => .taken (rosterBytes s.roster[i]) s
    | none => .refused .range

/-- READ_TIMEBASE's act: it changes no state (R25). -/
def readTimebaseAct (_ : List Byte) (s : State) : Reply := .taken (timebaseBytes s.timebase) s

/-- The oldest records are removed, and a read that leaves the queue empty clears events-lost (R201). -/
def removeEvents (n : Nat) (p : HostPort) : HostPort :=
  { p with events := p.events.drop n, lost := p.lost && !(p.events.drop n).isEmpty }

/-- The body of READ_EVENTS (R201, R212): the flag before the read, the number of records, the records. -/
def eventsBytes (n : Nat) (p : HostPort) : List Byte := flagOf p.lost ++ listBytes eventBytes (p.events.take n)

/-- READ_EVENTS's own test and act (R201). -/
def readEventsAct (body : List Byte) (s : State) : Reply :=
  let n := (byteAt body 0).toNat
  if 1 ≤ n ∧ n ≤ 8 then .taken (eventsBytes n s.port) { s with port := removeEvents n s.port }
  else .refused .range

end Sys2Proof.Machine
end

