-- ==== Sys2Proof/Machine/PublicationRequests.lean ====
section
/-! DEFINITION. The tests and acts of the publication table's requests (06). -/

namespace Sys2Proof.Machine

/-! ### Requests -/

/-- The publication a request names by its first byte. -/
def pubOf (body : List Byte) : Option (Fin 16) := unitIx 16 (byteAt body 0).toNat

/-- A request to a publication that must not be UNUSED (R106, R111, R115, R119, R120). -/
def withPub (body : List Byte) (s : State) (act : Fin 16 → Reply) : Reply :=
  match pubOf body with
  | none => .refused .range
  | some k => if s.pubs[k].state = .unused then .refused .unused else act k

/-- The entry that a PUBLISH sets (R105): cleared by R104, then set from the request. -/
def publishEntry (k : Fin 16) (feed : Feed) (width : Width) (policy : EmitPolicy) (body : List Byte) (p : Publication) :
    Publication :=
  { Publication.cleared k.val p.marked with
    state := .active, feed := feed, width := width, samples := limitNat (field body 3 2) 1 width.limit,
    urgent := readFlag (byteAt body 5), policy := policy }

/-- PUBLISH acts (R105): as UNPUBLISH first when the entry is in use. -/
def publishAt (k : Fin 16) (feed : Feed) (width : Width) (policy : EmitPolicy) (body : List Byte) (s : State) :
    State :=
  let s1 := if s.pubs[k].state = .unused then s else unpublishEntry k s
  updPartial k (fun _ => Partial.cleared) (updPub k (publishEntry k feed width policy body) s1)

/-- PUBLISH's own tests and act (R105). -/
def publishAct (body : List Byte) (s : State) : Reply :=
  match pubOf body, feedOfCode (byteAt body 1).toNat, widthOfCode (byteAt body 2).toNat,
      policyOfCode (byteAt body 6).toNat with
  | some k, some feed, some width, some policy =>
    if s.cable.binding = some k then .refused .busy
    else
      let t := publishAt k feed width policy body s
      .taken (beBytes 2 t.pubs[k].samples) t
  | _, _, _, _ => .refused .range

/-- UNPUBLISH's own tests and act (R106). -/
def unpublishAct (body : List Byte) (s : State) : Reply := withPub body s fun k => .taken [] (unpublishEntry k s)

/-- HOLD's own tests and act (R119). -/
def holdAct (body : List Byte) (s : State) : Reply :=
  withPub body s fun k => .taken [] (updPub k (fun p => { p with state := .held }) s)

/-- RELEASE of publication k (R120, R122): a HELD one becomes ACTIVE, and a pull-pending is served when the ready block
is not empty. -/
def releasePub (k : Fin 16) (s : State) : State :=
  if s.pubs[k].state = .held then
    let s1 := updPub k (fun p => { p with state := .active }) s
    if s1.pubs[k].ready.isSome then servePull k s1 else s1
  else s

/-- RELEASE's own tests and act (R120). -/
def releaseAct (body : List Byte) (s : State) : Reply := withPub body s fun k => .taken [] (releasePub k s)

/-- The timestamp a FILL opens its fill with (R111): the request's, or rack time. -/
def fillStamp (body : List Byte) (t : Timebase) : Ticks48 :=
  if readFlag (byteAt body 1) then BitVec.ofNat 48 (field body 2 6) else ticks48 t

/-- FILL opens the fill when fill-open is clear (R111), with the rack time and the timebase state of the moment at which
the request acts: that of its grant where it had to wait for the block store. R111 and R191 do not say whether the moment
its handling begins is meant. DESIGN CHOICE, notes/assumptions/10.md. -/
def openFill (k : Fin 16) (body : List Byte) (s : State) : State :=
  if s.pubs[k].fillOpen then s
  else
    updPub k (fun p => { p with fillOpen := true, fillTime := fillStamp body s.timebase,
                                fillCapture := s.timebase.state }) s

/-- FILL's own tests and act (R111): the samples stand after the eighth byte (R211). -/
def fillAct (body : List Byte) (s : State) : Reply :=
  withPub body s fun k =>
    if s.pubs[k].feed = .portFed then .refused .state
    else if s.pubs[k].commitPending then .refused .busy
    else
      let r := fillSamples k (body.drop 8) (openFill k body s)
      .taken (beBytes 2 r.1) r.2

/-- The half sample a COMMIT of a PORT-FED publication discards (R115). -/
def discardHigh (k : Fin 16) (s : State) : State :=
  if s.pubs[k].feed = .portFed ∧ s.partials[k].high.isSome = true then
    countGap k (updPartial k (fun _ => { high := none, voidLow := true }) s)
  else s

/-- COMMIT's own tests and act (R115). Which value of the body's flag tells "pending" is open
(notes/assumptions/11.md). -/
def commitAct (body : List Byte) (s : State) : Reply :=
  withPub body s fun k =>
    if s.pubs[k].commitPending then .refused .busy
    else if s.pubs[k].fillCount = 0 then .refused .empty
    else
      let t := askCommit k (discardHigh k s)
      .taken (flagOf (t.pubs[k].commitPending == Config.commitFlagMeansPending)) t

/-- READ_PUBLICATION's own test and act (R123): it changes no state. -/
def readPublicationAct (body : List Byte) (s : State) : Reply :=
  match pubOf body with
  | none => .refused .range
  | some k => .taken (publicationBytes s k) s

end Sys2Proof.Machine
end

