-- ==== Sys2Proof/Machine/StationRequests.lean ====
section
/-! DEFINITION. The tests and acts of the station controller's requests (04): JOIN, RETIRE, RESTART, SERVICE, SETUP and STATUS. -/

namespace Sys2Proof.Machine

/-! ### JOIN and RETIRE -/

/-- The source selector at a JOIN in RETIRING (R40). -/
def selectorRejoin (s : State) : State := updSelector (fun x => { x with release := false }) (failHandover 6 s)

/-- JOIN in RETIRING (R78): the role kept by R40, the RETIRE withdrawn, and a FRESH presence when it was sent. -/
def rejoin (s : State) : State :=
  let sent := s.station.retireSent
  let s1 := removeEntry .retire (updStation (fun x => { x with retireTimer := 0, retireSent := false })
    (selectorRejoin (changeStation .joined 1 s)))
  if sent then setFresh s1 else s1

/-- JOIN from OFFLINE or DETACHED (R67). -/
def joinRack (s : State) : State :=
  if s.pins.sense then changeStation .settling 1 s else changeStation .isolated 1 s

/-- JOIN's own tests and act (R67). -/
def joinAct (_ : List Byte) (s : State) : Reply :=
  match s.station.state with
  | .offline | .detached => if s.station.startFault then .refused .state else .taken [] (joinRack s)
  | .retiring => .taken [] (rejoin s)
  | .isolated | .settling | .listen | .joined | .duplicate | .silenced => .refused .state

/-- Every BLOCK and PULL entry leaves the queue; a claim or a burst for one goes on without an entry (R57, R76). -/
def purgeData (s : State) : State :=
  let c := s.cable
  { s with
    txQueue := s.txQueue.filter fun e => !e.kind.isData
    cable := { c with
      claim := c.claim.map fun cl => if cl.entry.kind.isData then { cl with withdrawn := true } else cl
      flight := c.flight.map fun f => if f.entry.kind.isData then { f with withdrawn := true } else f } }

/-- The source selector on the entry to RETIRING (R39); E counts from the next own epoch boundary. -/
def retiringSearch (s : State) : State :=
  if s.timebase.state = .source ∧ s.selector.record.isNone = true then
    searchAny (epochPlus (epochNumber s.timebase) 17) s
  else s

/-- RETIRE in JOINED (R76). -/
def beginRetirement (s : State) : State :=
  checkRetired (retiringSearch
    (updStation (fun x => { x with retireTimer := 0, retireSent := false })
      (enqueue .retire (purgeData (changeStation .retiring 8 s)))))

/-- RETIRE's own tests and act (R75). -/
def retireAct (_ : List Byte) (s : State) : Reply :=
  match s.station.state with
  | .joined => .taken [] (beginRetirement s)
  | .listen | .settling | .isolated | .silenced | .duplicate => .taken [] (changeStation .detached 8 s)
  | .retiring | .offline | .detached => .refused .state

/-! ### RESTART, SERVICE -/

/-- RESTART at the source selector (R28): a SOURCE stops driving, a handover fails with cause 5. -/
def restartSelector (s : State) : State :=
  updSelector (fun x =>
    { x with countdown := none, record := none, release := false, firstDrive := none, driving := none })
    (failHandover 5 s)

/-- RESTART at the station controller (R85). -/
def restartStation (s : State) : State :=
  updStation (fun x =>
    { x with faultScore := 0, caution := false, settle := 0, listen := 0, retireTimer := 0, clash := 0, recovery := 0,
             lapse := 0, retireSent := false, freshPending := false, hostAlive := true }) s

/-- RESTART at the monitor (R176). -/
def restartMonitor (m : Monitor) : Monitor :=
  { m with counters := updAll m.counters fun c => { c with value := 0, gateOpen := false }
           frozen := false, snapshot := none, further := 0 }

/-- RESTART at the engines, the generators and the compares (R145, R162, R170); schedule memory is kept (R144). -/
def restartUnits (s : State) : State :=
  { s with engines := Vector.replicate 4 Engine.reset, gens := Vector.replicate 2 Generator.reset,
           compares := Vector.replicate 4 Compare.reset }

/-- RESTART at the cable interface and the transmit queue (R44, R54, R60): the condition of power-on reset. The
deadline of a hold-off that is clear has no use and is kept (notes/assumptions/18.md). -/
def restartCable (s : State) : State :=
  updCable (fun c => { Cable.reset with holdOffDeadline := c.holdOffDeadline }) { s with txQueue := [] }

/-- The emptying of the event queue, RESTART's last act (R204). -/
def emptyEvents (s : State) : State := { s with port := { s.port with events := [], lost := false } }

/-- RESTART acts (R85): the entry to OFFLINE, which cuts a burst and makes the receiver-off entry, then every block's
own values. -/
def restart (s : State) : State :=
  emptyEvents (updMonitor restartMonitor (restartUnits (restartSubscriptions (restartPublications (restartRoster
    (restartCable (restartStation (changeStation .offline 14 (restartSelector s)))))))))

/-- RESTART's act: it has no tests of its own (R85). -/
def restartAct (_ : List Byte) (s : State) : Reply := .taken [] (restart s)

/-- The lapse count is 0 and host-alive set (R84). -/
def serve (s : State) : State := updStation (fun x => { x with lapse := 0, hostAlive := true }) s

/-- SERVICE's act (R84). -/
def serviceAct (_ : List Byte) (s : State) : Reply := .taken [] (serve s)

/-! ### SETUP, STATUS -/

/-- The effective settings of a SETUP body (R5, R196, R211): L is limited before W. -/
def setupSettings (body : List Byte) : Settings :=
  let lock := limitNat (field body 2 4) 1 16777216
  { p := limitNat (field body 0 1) 0 15, i := limitNat (field body 1 1) 0 15, lock := lock,
    alarm := limitNat (field body 6 4) lock 268435456, step := limitNat (field body 10 2) 1 16383,
    trim := limitInt (signed32 (fieldBytes body 12 4)) (-1048576) 1048576 }

/-- The echo of a SETUP, in the layout of its request (R212). -/
def setupEcho (t : Settings) (v : Nat) : List Byte :=
  byteOf t.p ++ byteOf t.i ++ beBytes 4 t.lock ++ beBytes 4 t.alarm ++ beBytes 2 t.step ++ beSigned 4 t.trim
    ++ byteOf v

/-- The settings applied (R5), and the service check as R84 gives for a SETUP that is taken. -/
def applySetup (t : Settings) (v : Nat) (s : State) : State :=
  updStation (fun x => { x with interval := v }) (serve (updTimebase (fun x => { x with settings := t }) s))

/-- SETUP's own test and act (R196). -/
def setupAct (body : List Byte) (s : State) : Reply :=
  if s.station.state = .offline then
    let t := setupSettings body
    let v := field body 16 1
    .taken (setupEcho t v) (applySetup t v s)
  else .refused .state

/-- STATUS's act: it changes no state (R197). -/
def statusAct (_ : List Byte) (s : State) : Reply := .taken (statusBytes s) s

end Sys2Proof.Machine
end

