-- ==== Sys2Proof/Machine/SubscriptionRequests.lean ====
section
/-! DEFINITION. The tests and acts of the subscription table's requests (07). -/

namespace Sys2Proof.Machine

/-! ### Requests -/

/-- The subscription a request names by its first byte. -/
def subOf (body : List Byte) : Option (Fin 32) := unitIx 32 (byteAt body 0).toNat

/-- A request to a subscription that must not be UNUSED (R126, R134, R140). -/
def withSub (body : List Byte) (s : State) (act : Fin 32 → Reply) : Reply :=
  match subOf body with
  | none => .refused .range
  | some j => if s.subs[j].state = .unused then .refused .unused else act j

/-- The lowest-numbered UNUSED entry (R125). -/
def freeSub (s : State) : Option (Fin 32) := (List.finRange 32).find? fun j => s.subs[j].state == .unused

/-- The entry that a SUBSCRIBE sets (R125). -/
def subscribeEntry (epoch : Epoch32) (publisher : Nat) (index : Fin 16) (mode : RingMode) (body : List Byte)
    (x : Subscription) : Subscription :=
  { Subscription.cleared x.marked with
    state := .waiting, publisher := publisher, index := index, mode := mode,
    lateThreshold := limitNat (field body 3 4) 0 16777216,
    staleTimeout := if field body 7 2 = 0 then 32 else field body 7 2, lastBlock := epoch }

/-- SUBSCRIBE's own tests and act (R125). -/
def subscribeAct (body : List Byte) (s : State) : Reply :=
  match otherStation s (byteAt body 0).toNat, unitIx 16 (byteAt body 1).toNat, ringModeOfCode (byteAt body 2).toNat with
  | some publisher, some index, some mode =>
    match matchSub s publisher index with
    | some _ => .refused .exists_
    | none =>
      match freeSub s with
      | none => .refused .full
      | some j =>
        let t := updSub j (subscribeEntry (epoch32 s.timebase) publisher index mode body) s
        .taken (byteOf j.val ++ beBytes 4 t.subs[j].lateThreshold ++ beBytes 2 t.subs[j].staleTimeout) t
  | _, _, _ => .refused .range

/-- UNSUBSCRIBE's own tests and act (R126). -/
def unsubscribeAct (body : List Byte) (s : State) : Reply :=
  withSub body s fun j =>
    .taken [] (updSub j (fun x => Subscription.cleared x.marked) (removeEntry (.pull j) s))

/-- The oldest block leaves the ring; a ring left empty clears overrun reported (R134). -/
def dropOldest (x : Subscription) : Subscription :=
  { x with ring := x.ring.drop 1, overrunReported := x.overrunReported && !(x.ring.drop 1).isEmpty }

/-- The body of a TAKE response (R212). -/
def takeBytes (s : State) (j : Fin 32) (e : RingEntry) : List Byte :=
  ringBytes e ++ byteOf (s.subs[j].ring.length - 1) ++ payloadAt s (ringSlot j e.slot) e.width e.count

/-- TAKE's own tests and act (R134). -/
def takeAct (body : List Byte) (s : State) : Reply :=
  withSub body s fun j =>
    match s.subs[j].ring with
    | [] => .refused .empty
    | e :: _ => .taken (takeBytes s j e) (updSub j dropOldest s)

/-- A pull is begun when none is PENDING (R140). -/
def beginPull (epoch : Epoch32) (x : Subscription) : Subscription :=
  if x.pull.isSome then x else { x with pull := some { tries := 1, deadline := epoch + 4 } }

/-- PULL's own tests and act (R140). Which value of the body's flag tells "already pending" is open
(notes/assumptions/11.md). -/
def pullAct (body : List Byte) (s : State) : Reply :=
  withSub body s fun j =>
    if s.station.state = .joined then
      .taken (flagOf (s.subs[j].pull.isSome == Config.pullFlagMeansPending))
        (updSub j (beginPull (epoch32 s.timebase)) (enqueue (.pull j) s))
    else .refused .state

/-- READ_SUBSCRIPTION's own test and act (R142): it changes no state. -/
def readSubscriptionAct (body : List Byte) (s : State) : Reply :=
  match subOf body with
  | none => .refused .range
  | some j => .taken (subscriptionBytes s j) s

end Sys2Proof.Machine
end

