-- ==== Sys2Proof/Machine/Holders.lean ====
section
/-! DEFINITION. The requests of the host port as they are handled (R191): which owning rule handles a request, and when it
waits for the block store (R103). -/

namespace Sys2Proof.Machine

/-- What the checks of R193 and the owning rule make of a request, by the state as it stands when it is handled. A kind
that is none of the 34 is refused with UNKNOWN whatever its body (check 1); a command that is no request is never
held. -/
def replyOf (i : Instr) (s : State) : Reply :=
  match i with
  | .setup b => checked (exactly 17) setupAct b s
  | .join b => checked (exactly 0) joinAct b s
  | .retire b => checked (exactly 0) retireAct b s
  | .restart b => checked (exactly 0) restartAct b s
  | .service b => checked (exactly 0) serviceAct b s
  | .status b => checked (exactly 0) statusAct b s
  | .publish b => checked (exactly 7) publishAct b s
  | .unpublish b => checked (exactly 1) unpublishAct b s
  | .hold b => checked (exactly 1) holdAct b s
  | .release b => checked (exactly 1) releaseAct b s
  | .fill b => checked (fun b => decide (8 ≤ b.length ∧ b.length ≤ 1536)) fillAct b s
  | .commit b => checked (exactly 1) commitAct b s
  | .readPublication b => checked (exactly 1) readPublicationAct b s
  | .subscribe b => checked (exactly 9) subscribeAct b s
  | .unsubscribe b => checked (exactly 1) unsubscribeAct b s
  | .take b => checked (exactly 1) takeAct b s
  | .pull b => checked (exactly 1) pullAct b s
  | .readSubscription b => checked (exactly 1) readSubscriptionAct b s
  | .loadList b => checked (fun b => decide (2 ≤ b.length ∧ (b.length - 2) % 3 = 0 ∧ b.length ≤ 770)) loadListAct b s
  | .engineStart b => checked (exactly 1) engineStartAct b s
  | .engineStop b => checked (exactly 1) engineStopAct b s
  | .enginePoint b => checked (exactly 3) enginePointAct b s
  | .enginePrescale b => checked (exactly 3) enginePrescaleAct b s
  | .clockSet b => checked (exactly 9) clockSetAct b s
  | .clockArm b => checked (exactly 5) clockArmAct b s
  | .clockOff b => checked (exactly 1) clockOffAct b s
  | .compareSet b => checked (exactly 8) compareSetAct b s
  | .compareCancel b => checked (exactly 1) compareCancelAct b s
  | .monitorSet b => checked monitorSetFits monitorSetAct b s
  | .monitorRead b => checked (exactly 1) monitorReadAct b s
  | .mark b => checked (exactly 3) markAct b s
  | .readRoster b => checked (exactly 1) readRosterAct b s
  | .readTimebase b => checked (exactly 0) readTimebaseAct b s
  | .readEvents b => checked (exactly 1) readEventsAct b s
  | .unknownRequest _ _ => .refused .unknown
  | .powerOnReset _ _ | .slotTick | .epochBoundary _ | .markerWindowEnd | .acquisitionAbandoned | .timebaseHoldover
  | .markerCapture | .validMarker _ | .markerNotReceived | .acquisitionComplete | .lockAchieved | .refokChange _
  | .claimExpiry | .markerClash _ | .handoverComplete | .handoverTakeover | .guardComplete | .claimStart
  | .claimLost _ | .burstStart | .burstSent | .txFault | .abortPatternEnd | .holdOffExpiry | .goodBurstReceived _ _
  | .recoveryComplete | .failedCheckReceived | .abortedBurstReceived | .senseRise | .senseDrop | .settleComplete
  | .listenComplete | .retireTimeout | .serviceLapsed | .staleTimeout _ | .pullDeadline _ | .sampleStrobe _ _
  | .drainSample | .scheduleEmit _ | .scheduleHold _ | .holdEnd _ | .scheduleRepeat _ | .scheduleLoop _
  | .scheduleNotify _ | .scheduleAlign _ | .alignComplete _ | .scheduleHalt _ | .generatorWrap _ | .generatorStart _
  | .compareFired _ | .recordDiscarded _ | .responseAbandoned _ | .startBitSeen | .guardRestart | .highTimeEnd _
  | .markerWordSent => .refused .unknown

/-- The cable side holds the block store's port: a BLOCK burst of this station is in flight (R50, R103). -/
def storeBusy (s : State) : Bool := s.cable.binding.isSome

/-- A request that is taken and makes accesses to the block store (R103): a TAKE, and a FILL of one sample or more. -/
def needsStore (i : Instr) (s : State) : Bool :=
  match i, replyOf i s with
  | .take _, .taken _ _ => true
  | .fill _, .taken accepted _ => field accepted 0 2 != 0
  | _, _ => false

end Sys2Proof.Machine
end

