-- ==== Sys2Proof/Machine/ReceiveOps.lean ====
section
/-! DEFINITION. The hand-over of a received burst to the block that owns its content, and the two receive buffers in which
it is received and waits (03). -/

namespace Sys2Proof.Machine

/-! ### The owners of received bursts -/

/-- A presence that bears the own address (R71). -/
def ownAddressSeen (s : State) : State :=
  match s.station.state with
  | .listen | .joined | .retiring | .silenced => changeStation .duplicate 6 s
  | .duplicate | .offline | .isolated | .settling | .detached => s

/-- A good burst whose reception ended at `m` is handed to the block that owns its content (R52, R127). -/
def handOver (m : BurstEnd) (b : Burst) (s : State) : State :=
  match b with
  | .presence p => if p.sender = s.station.own then ownAddressSeen s else takePresence p s
  | .retire a succ => if a = s.station.own then s else takeRetire a succ s
  | .pull a pub k => if a ≠ s.station.own ∧ pub = s.station.own then pullArrives k s else s
  | .block x => if x.publisher = s.station.own then s else blockArrives m x s

/-- A clean burst is reported to the station controller: in SILENCED the recovery count rises (R52, R83). -/
def cleanBurst (s : State) : State :=
  if s.station.state = .silenced then
    let s1 := updStation (fun x => { x with recovery := min 32 (x.recovery + 1) }) s
    markIf (decide (32 ≤ s1.station.recovery)) .recoveryComplete s1
  else s

/-- A good burst is handed over and reported (R52). The monitor is told of BURST_RECEIVED last: after the occurrences that
the owning block makes of the burst, which R180 lets come before or after it (notes/assumptions/15.md), and, at the 32nd
clean burst, before the change to LISTEN with its STATION_STATE and CAUTION_OFF, which falls due (R83, R185:
notes/assumptions/50.md). Its subject is the burst's sender, also where the sender's address is the own one
(notes/assumptions/49.md). DESIGN CHOICE, all three. -/
def deliver (m : BurstEnd) (b : Burst) (s : State) : State :=
  occur .burstReceived (.peer b.sender) 1 (cleanBurst (handOver m b s))

/-! ### The receive buffers (R53) -/

/-- A reception begins in the free receive buffer with these bits (R51, R53): the first buffer when both are free. DESIGN
CHOICE, notes/assumptions/35.md. -/
def openBuffer (bits : List Bool) (c : Cable) : Cable :=
  if c.rx0 = .empty then { c with rx0 := .receiving bits } else { c with rx1 := .receiving bits }

/-- The bits of the reception in progress; none read yet outside RECEIVING. -/
def receivedBits (c : Cable) : List Bool :=
  match c.rx0, c.rx1 with
  | .receiving bits, _ => bits
  | .empty, .receiving bits | .waiting _ _, .receiving bits => bits
  | .empty, .empty | .empty, .waiting _ _ | .waiting _ _, .empty | .waiting _ _, .waiting _ _ => []

/-- A buffer after the reception in it is discarded: free (R53). A burst that waits stays. -/
def discarded (x : RxBuffer) : RxBuffer :=
  match x with
  | .empty | .receiving _ => .empty
  | .waiting burst m => .waiting burst m

/-- The reception in progress is discarded (R51, R53). -/
def discardReception (c : Cable) : Cable := { c with rx0 := discarded c.rx0, rx1 := discarded c.rx1 }

/-- A good burst stays in the buffer it was received in until its owner has taken it (R53). One that no start bit told of
stands in the first, as `openBuffer` would put it. -/
def keepBurst (burst : List Byte) (m : BurstEnd) (c : Cable) : Cable :=
  let d := discardReception c
  match c.rx0, c.rx1 with
  | .empty, .receiving _ => { d with rx1 := .waiting burst m }
  | _, _ => { d with rx0 := .waiting burst m }

/-- The burst that waits for its owner, with the end of its reception. -/
def waitingBurst (c : Cable) : Option (List Byte × BurstEnd) :=
  match c.rx0, c.rx1 with
  | .waiting burst m, _ => some (burst, m)
  | .empty, .waiting burst m | .receiving _, .waiting burst m => some (burst, m)
  | .empty, .empty | .empty, .receiving _ | .receiving _, .empty | .receiving _, .receiving _ => none

/-- Its owner has taken it: its buffer is free (R53). -/
def freeWaiting (c : Cable) : Cable :=
  match c.rx0 with
  | .waiting _ _ => { c with rx0 := .empty }
  | .empty | .receiving _ => { c with rx1 := .empty }

/-- The burst that waits, if there is one, is handed over, and its buffer is free (R52, R53). The reports come with the
hand-over. DESIGN CHOICE, notes/assumptions/47.md. -/
def handWaiting (s : State) : State :=
  match waitingBurst s.cable with
  | some (burst, m) =>
    let s1 := updCable freeWaiting s
    match readBurst burst with
    | some b => deliver m b s1
    | none => s1
  | none => s

/-! ### The ring write that waits (R103) -/

/-- The hand-over of a BLOCK places it in a ring (R127, R128, R131, R132): it has a subscription, is no duplicate, and finds
room or makes it. -/
def placesBlock (b : BlockBurst) (s : State) : Bool :=
  b.publisher != s.station.own &&
    match matchSub s b.publisher b.index with
    | none => false
    | some j =>
      let sub := s.subs[j]
      sub.last != some b.seq
        && (sub.mode == .keepNewest || decide ((sub.ring.filter fun e => !(e.seq == b.seq)).length < 4))

/-- The cable side has still to write a received block into a ring slot (R53, R103): a BLOCK that its hand-over places waits
in a receive buffer. DEDUCED, notes/assumptions/10.md. -/
def ringWriteWaits (s : State) : Bool :=
  match (waitingBurst s.cable).bind fun w => readBurst w.1 with
  | some (.block b) => placesBlock b s
  | some (.presence _) | some (.retire _ _) | some (.pull _ _ _) | none => false

end Sys2Proof.Machine
end

