-- ==== Sys2Proof/Machine/Time.lean ====
section
/-! DEFINITION. How time passes: the work of an epoch boundary, the steps that fall due at one moment and their taking,
the grants of the block store and the held requests (R103, R191), the local clock period (R1, R3), and time that runs on
to a step of the clock. -/

namespace Sys2Proof.Machine

/-! ### The epoch boundary (R3): the parts of its work -/

/-- Steps fall due, one for each unit that meets a condition. -/
def markWhere {α : Type} (units : List α) (c : State → α → Bool) (d : α → Due) (s : State) : State :=
  units.foldl (fun t u => markIf (c t u) (d u) t) s

/-- Whether an epoch number is a presence-interval boundary: a multiple of 8 (00, Units). -/
def presenceBoundary (n : Nat) : Bool := n % 8 == 0

/-- The station controller counts its epochs in LISTEN (R70). -/
def countListen (s : State) : State :=
  if s.station.state = .listen then
    markIf (decide (24 ≤ s.station.listen + 1)) .listenComplete
      (updStation (fun x => { x with listen := min 24 (x.listen + 1) }) s)
  else s

/-- The retire timer rises in RETIRING (R77). -/
def countRetire (s : State) : State :=
  if s.station.state = .retiring then
    markIf (decide (64 ≤ s.station.retireTimer + 1)) .retireTimeout
      (updStation (fun x => { x with retireTimer := min 64 (x.retireTimer + 1) }) s)
  else s

/-- The presence of a presence-interval boundary: in JOINED, and in RETIRING before the RETIRE is sent (R72). -/
def schedulePresence (s : State) : State :=
  if s.station.state = .joined ∨ (s.station.state = .retiring ∧ s.station.retireSent = false) then
    enqueue .presence s
  else s

/-- The host service check at a presence-interval boundary (R84): the lapse count rises here, before the selector's and
the roster's work; host-alive is cleared and SERVICE_LAPSED raised in the step that falls due, after them. DESIGN CHOICE,
notes/assumptions/14.md. -/
def serviceCheck (s : State) : State :=
  let v := s.station.interval
  if 0 < v ∧ s.station.lapse < v then
    markIf (decide (s.station.lapse + 1 = v)) .serviceLapsed
      (updStation (fun x => { x with lapse := x.lapse + 1 }) s)
  else s

/-- The station controller at the boundary of epoch n. -/
def controllerBoundary (n : Nat) (s : State) : State :=
  let s1 := countListen s
  if presenceBoundary n then serviceCheck (schedulePresence s1) else s1

/-- The claim test of R29; a countdown that falls to 0 expires (R31). -/
def claimTest (s : State) : State :=
  let holds := s.station.state == .joined && s.selector.eligible
    && (s.timebase.state == .free || s.timebase.state == .holdover) && ranksFirst s
  if holds then
    match s.selector.countdown with
    | none => updSelector (fun x => { x with countdown := some (2 * s.station.own) }) s
    | some k =>
      markIf (decide (k - 1 = 0)) .claimExpiry (updSelector (fun x => { x with countdown := some (k - 1) }) s)
  else updSelector (fun x => { x with countdown := none }) s

/-- A source's checks at the boundary of epoch n before it composes its marker word (R32): with a record held the
re-check of R35 before E, and the completion of R36 at E; without one the search of R34 at a presence-interval boundary
while JOINED, or that of R39 while RETIRING without the release. -/
def sourceChecks (n : Nat) (s : State) : State :=
  match s.selector.record with
  | some h => if epochReached n h.epoch then mark .handoverComplete s else recheckTarget h s
  | none =>
    match s.station.state with
    | .joined => if presenceBoundary n then searchBetter n s else s
    | .retiring => if s.selector.release then s else checkRetired (searchAny (epochPlus n 16) s)
    | _ => s

/-- The marker of a boundary (R32); none at the handover epoch E (R36), and none by a station that is no longer
SOURCE. -/
def sourceMarker (n : Nat) (s : State) : State :=
  if s.timebase.state = .source ∧ Due.handoverComplete ∉ s.due then driveMarker n s else s

/-- The source selector at the boundary of epoch n. -/
def selectorBoundary (n : Nat) (s : State) : State :=
  let s1 := if s.timebase.state = .source then sourceMarker n (sourceChecks n s) else s
  markIf (s1.timebase.expectation == some n) .handoverTakeover (claimTest s1)

/-- The roster at the boundary of epoch n (R93). -/
def rosterBoundary (n : Nat) (s : State) : State := if presenceBoundary n then intervalCheck s else s

/-- The retire timer at a boundary, after the selector's and the roster's work. Where a handover completes at the
boundary the timer waits for it: it rises after the completion and the test of R76 that it brings (R77), in
`completeHandover`. -/
def retireBoundary (s : State) : State := if Due.handoverComplete ∈ s.due then s else countRetire s

/-- The work of the boundary of the epoch now current; `rosterFirst` is the order of R98. What comes of it in the
subscriptions (R139, R141) and the generators (R167) falls due. The changes of station state that the counts bring fall
due too: at the boundary of the 24th listen epoch the selector's tests still see LISTEN (R70), and at every boundary of
a retirement the re-check, the search and the test of R76 come before the retire timer rises, as R77 says of the
completion of a handover. DESIGN CHOICE, notes/assumptions/14.md. -/
def boundaryWork (rosterFirst : Bool) (s : State) : State :=
  let n := epochNumber s.timebase
  let s1 := controllerBoundary n s
  let s2 :=
    if rosterFirst then selectorBoundary n (rosterBoundary n s1) else rosterBoundary n (selectorBoundary n s1)
  let s3 := markWhere (List.finRange 32) staleTimeoutPassed .staleTimeout (retireBoundary s2)
  let s4 := markWhere (List.finRange 32) pullDeadlinePassed .pullDeadline s3
  markWhere (List.finRange 2) (fun t g => armReached t.timebase t.gens[g]) .generatorStart s4

/-! ### The steps that follow from a boundary or a burst -/

/-- The countdown has fallen to 0: the station becomes SOURCE and drives its first marker at the next boundary
(R31). -/
def expireClaim (s : State) : State :=
  if s.selector.countdown = some 0 then
    becomeSource (updSelector (fun x =>
      { x with countdown := none, firstDrive := some (epochPlus (epochNumber s.timebase) 1) }) s)
  else s

/-- The old source's boundary E (R36), and the test of R76 that it brings. -/
def leaveSource (s : State) : State :=
  match s.selector.record with
  | some h =>
    if s.timebase.state = .source ∧ epochReached (epochNumber s.timebase) h.epoch = true then
      checkRetired (sourceToTrack s)
    else s
  | none => s

/-- The completion of a handover at its boundary E, and then the retire timer of that boundary, where the station is still
RETIRING (R36, R77). -/
def completeHandover (s : State) : State := countRetire (leaveSource s)

/-- The boundary E of a held expectation (R21, R37): a LOCKED, JOINED station becomes SOURCE and drives marker E;
the expectation is then none in any case. -/
def takeOver (s : State) : State :=
  let n := epochNumber s.timebase
  if s.timebase.expectation = some n then
    if s.timebase.state = .locked ∧ s.station.state = .joined then driveMarker n (becomeSource s)
    else updTimebase (fun t => { t with expectation := none }) s
  else s

/-- The listen count has reached 24 (R70). -/
def completeListen (s : State) : State :=
  if s.station.state = .listen ∧ 24 ≤ s.station.listen then
    setFresh (updStation (fun x => { x with clash := 0 }) (changeStation .joined 4 s))
  else s

/-- The retire timer has reached 64 (R77). -/
def timeOutRetire (s : State) : State :=
  if s.station.state = .retiring ∧ 64 ≤ s.station.retireTimer then
    changeStation .detached (if s.station.retireSent then 11 else 10) s
  else s

/-- The lapse count has reached V (R84). -/
def lapseService (s : State) : State :=
  if 0 < s.station.interval ∧ s.station.lapse = s.station.interval then
    raise .serviceLapsed none (BitVec.ofNat 16 s.station.interval)
      (updStation (fun x => { x with hostAlive := false }) s)
  else s

/-- The settle count has reached 4,096 (R69). -/
def completeSettle (s : State) : State :=
  if s.station.state = .settling ∧ 4096 ≤ s.station.settle then changeStation .listen 3 s else s

/-- The recovery count has reached 32 (R83). -/
def completeRecovery (s : State) : State :=
  if s.station.state = .silenced ∧ 32 ≤ s.station.recovery then changeStation .listen 13 s else s

/-- Rack time has reached the hold-off deadline (R60). -/
def expireHoldOff (s : State) : State :=
  if holdOffReached s then updCable (fun c => { c with holdOff := false }) s else s

/-- The marker word's bit times are over: the pair is released, and after the first marker of a claim the first-drive
epoch is none (R31, R32). -/
def endMarkerWord (s : State) : State :=
  match s.selector.driving with
  | some _ => updSelector (fun x => { x with driving := none, firstDrive := none }) s
  | none => s

/-! ### Taking what has fallen due -/

/-- The next free choice (notes/assumptions/5.md). -/
def drawFree (s : State) : Nat × State := (Config.freePick s.freeCount, { s with freeCount := s.freeCount + 1 })

/-- Whether the order of R98 can matter at this boundary: it is a presence-interval boundary, and some entry is not
ABSENT. -/
def rosterOrderMatters (s : State) : Bool :=
  presenceBoundary (epochNumber s.timebase) && s.roster.toList.any fun e => e.state != .absent

/-- An epoch boundary whose order the stream does not name: where the order can matter it is a free choice. -/
def freeBoundaryWork (s : State) : State :=
  if rosterOrderMatters s then boundaryWork ((drawFree s).1 % 2 == 0) (drawFree s).2 else boundaryWork true s

/-- A step that has fallen due is taken. -/
def perform : Due → State → State
  | .settleComplete => completeSettle
  | .markerWordSent => endMarkerWord
  | .holdOffExpiry => expireHoldOff
  | .generatorWrap g => takeWrap g
  | .highTimeEnd g => takeHighEnd g
  | .markerWindowEnd => endWindow
  | .acquisitionAbandoned => abandonAcquisition
  | .timebaseHoldover => holdOver
  | .acquisitionComplete => completeAcquisition
  | .lockAchieved => achieveLock
  | .recoveryComplete => completeRecovery
  | .slotTick => slotWork
  | .compareFired k => takeCompare k
  | .engine e => engineTick e
  | .holdEnd e => endHold e
  | .epochBoundary => freeBoundaryWork
  | .handoverComplete => completeHandover
  | .handoverTakeover => takeOver
  | .claimExpiry => expireClaim
  | .listenComplete => completeListen
  | .retireTimeout => timeOutRetire
  | .serviceLapsed => lapseService
  | .staleTimeout j => takeStale j
  | .pullDeadline j => takePullDeadline j
  | .generatorStart g => takeGeneratorStart g

/-- A step is no longer due. -/
def clearDue (d : Due) (s : State) : State := { s with due := s.due.filter fun x => x != d }

/-- A step is taken when it is due, by an act of its own. -/
def takeDueBy (d : Due) (act : State → State) (s : State) : State := if d ∈ s.due then act (clearDue d s) else s

/-- A step is taken when it is due. -/
def takeDue (d : Due) (s : State) : State := takeDueBy d (perform d) s

/-- Steps are taken in this order, each when it is due. -/
def takeInOrder (ds : List Due) (s : State) : State := ds.foldl (fun t d => takeDue d t) s

/-- The n-th of the orders of a list: its head is put at one of the places of an order of its tail. -/
def orderOf {α : Type} : List α → Nat → List α
  | [], _ => []
  | a :: rest, n =>
    let tail := orderOf rest (n / (rest.length + 1))
    tail.take (n % (rest.length + 1)) ++ a :: tail.drop (n % (rest.length + 1))

/-- Steps whose order the spec leaves open are taken in a free order when two or more are due (R146, R173, R199). -/
def takeFreely (ds : List Due) (s : State) : State :=
  let live := ds.filter fun d => decide (d ∈ s.due)
  if live.length ≤ 1 then takeInOrder live s
  else takeInOrder (orderOf live (drawFree s).1) (drawFree s).2

/-- The steps of the clock and of the timebase unit, in the order in which they are taken, before the slot tick and the
epoch boundary of the same moment. So a window is judged before the slot tick that comes with its end (R9), and a settle
count that is complete at an own boundary puts the station in LISTEN before that boundary is counted (R70). DESIGN CHOICE,
notes/assumptions/40.md: R199 and R70 leave either order; a stream that names the rows takes its own. -/
def clockDues : List Due :=
  [.settleComplete, .recoveryComplete, .markerWordSent, .holdOffExpiry, .generatorWrap 0, .generatorWrap 1,
   .highTimeEnd 0, .highTimeEnd 1, .acquisitionComplete, .lockAchieved, .markerWindowEnd, .acquisitionAbandoned,
   .timebaseHoldover]

/-- The compares that are due fire, in a free order (R173). -/
def takeCompares (s : State) : State := takeFreely ((List.finRange 4).map .compareFired) s

/-- A slot tick and all that comes of it; the compares' starts come before the engines' acts (R157). Where the stream
names no order, a COMPARE_FIRED also enters the queue before the events of engines it does not start: R199 lets either
come first. DESIGN CHOICE, notes/assumptions/5.md. -/
def takeSlotTick (s : State) : State :=
  let s1 := takeCompares (takeDue .slotTick s)
  takeFreely ((List.finRange 4).map .engine ++ (List.finRange 4).map .holdEnd) s1

/-- What comes of an epoch boundary in the selector, the station controller and the generators, in the order in which it
is taken: the completion of a handover, and the retire timer of its boundary, before the retire timeout (R77). The other places of the order are the model's
choice (notes/assumptions/14.md): the change to JOINED (R70), the timeout (R77) and SERVICE_LAPSED (R84) come after the
selector's and the roster's work of the boundary. -/
def stationDues : List Due :=
  [.handoverComplete, .handoverTakeover, .claimExpiry, .listenComplete, .retireTimeout, .serviceLapsed]
    ++ (List.finRange 2).map .generatorStart

/-- The tests of the subscriptions at an epoch boundary: the stale tests and the pull deadlines, each in ascending
number (R139, R141). -/
def subscriptionDues : List Due := (List.finRange 32).map .staleTimeout ++ (List.finRange 32).map .pullDeadline

/-- What comes of an epoch boundary. -/
def boundaryDues : List Due := stationDues ++ subscriptionDues

/-- An epoch boundary, and those of the steps that come of it that a list names. -/
def takeEpochBoundary (steps : List Due) (s : State) : State := takeInOrder steps (takeDue .epochBoundary s)

/-- Everything that is due is taken, of what comes of an epoch boundary the steps that a list names. A slot tick and an
epoch boundary of one moment come in a free order. -/
def settleBy (steps : List Due) (s : State) : State :=
  let s1 := takeInOrder clockDues s
  if Due.slotTick ∈ s1.due ∧ Due.epochBoundary ∈ s1.due then
    if (drawFree s1).1 % 2 = 0 then takeEpochBoundary steps (takeSlotTick (drawFree s1).2)
    else takeSlotTick (takeEpochBoundary steps (drawFree s1).2)
  else takeEpochBoundary steps (takeSlotTick s1)

/-- Everything that has fallen due at this moment has been taken (notes/assumptions/2.md). -/
def dueTaken (s : State) : State := if s.due = [] then s else settleBy boundaryDues s

/-! ### The grants of the block store (R103), and the held requests -/

/-- The cable side is granted the store's port first (R103): a received block that waits is written into its ring, with all
its hand-over does, the recovery that a 32nd clean burst brings among it (R83), before any access of the drain or of the
host port. -/
def placeWaiting (s : State) : State :=
  if ringWriteWaits s then takeDue .recoveryComplete (handWaiting s) else s

/-- What the grant of the store's port to a request brings: the cable side and the drain, where they wait too, are granted
the port first, in this order (R103). A request that makes no access to the store waits for no grant. -/
def grantStore (i : Instr) (s : State) : State := if needsStore i s then drainWaiting (placeWaiting s) else s

/-- A request is answered as the state stands (R191). -/
def answerNow (i : Instr) (s : State) : State := answer s (replyOf i s)

/-- One request is handled: it is granted the store where it needs it, and answered (R191). All it does is done at the
grant, the opening of a fill among it. DESIGN CHOICE, notes/assumptions/10.md. -/
def handleOne (i : Instr) (s : State) : State := answerNow i (grantStore i s)

/-- One request is handled whose transaction the host has left: its effect stands, its response is discarded (R192). -/
def handleLeft (i : Instr) (s : State) : State :=
  let u := grantStore i s
  (replyOf i u).effect u

/-- Requests are handled one after the other, in the order in which their records were completed (R191). Only the newest
one's transaction can still be open; the response of one before it is discarded (R192). -/
def handleAll : List Instr → State → State
  | [], s => s
  | [i], s => handleOne i s
  | i :: rest, s => handleAll rest (handleLeft i s)

/-- The held requests are handled once the cable side does not hold the block store (R103, R191). -/
def serveHeld (s : State) : State :=
  if s.port.held = [] ∨ storeBusy s = true then s
  else handleAll s.port.held { s with port := { s.port with held := [] } }

/-- Everything that has fallen due at this moment has been taken, and the requests that no longer wait for the block
store have been handled (R191, notes/assumptions/10.md). -/
def settled (s : State) : State := serveHeld (dueTaken s)

/-- The same before a received burst, but for the subscriptions' tests: a block and a test of one boundary settle the
matter by whichever comes first (R139, R141), and the stream names which. -/
def settledForBurst (s : State) : State := serveHeld (if s.due = [] then s else settleBy stationDues s)

/-- Nothing is due, and no held request can be handled: the next command finds the state as it stands. -/
def quiet (s : State) : Bool := s.due.isEmpty && (s.port.held.isEmpty || storeBusy s)

/-! ### The local clock (R1) -/

/-- Rack time per local clock period, in units of 2^-32 tick: 1 tick + A x 2^-32 (R1). -/
def periodAdvance (t : Timebase) : Int := 4294967296 + t.rate

/-- Rack time after a number of local clock periods at the present A (R1). -/
def advanceRack (periods : Nat) (t : Timebase) : Timebase :=
  setRack ((rackTotal t : Int) + periods * periodAdvance t) t

/-- What the local clock counts besides rack time: the settle count (R69) and the marker word's bit times (R206). -/
def countPeriods (periods : Nat) (s : State) : State :=
  let s1 :=
    if s.station.state = .settling ∧ s.pins.sense = true then
      updStation (fun x => { x with settle := min 4096 (x.settle + periods) }) s
    else s
  updSelector (fun x => { x with driving := x.driving.map fun d => { d with left := d.left - periods } }) s1

/-- The word being driven has no bit time left. -/
def wordOver (s : State) : Bool :=
  match s.selector.driving with
  | some d => d.left == 0
  | none => false

/-- An advance has carried rack time across a multiple of `n` ticks. -/
def crossed (n : Nat) (before after : BitVec 64) : Bool := decide (before.toNat / n ≠ after.toNat / n)

/-- One local clock period (R1), from a state in which nothing is due: rack time advances, and what the advance brings
falls due: a slot tick, an epoch boundary (R3), a window's end (R9), the hold-off's (R60), the generators' (R163). A
window's limits are the odd multiples of 2^16 ticks, also where rack time wraps. -/
def clockPeriod (s : State) : State :=
  let before := s.timebase.ticks
  let s1 := countPeriods 1 (updTimebase (advanceRack 1) s)
  let after := s1.timebase.ticks
  let s2 := markIf (decide (s1.station.state = .settling ∧ s1.pins.sense = true ∧ 4096 ≤ s1.station.settle))
    .settleComplete s1
  let s3 := markIf (wordOver s2) .markerWordSent s2
  let s4 := markIf (holdOffReached s3) .holdOffExpiry s3
  let s5 := (List.finRange 2).foldl clockGenerator s4
  let s6 := markIf (crossed 2048 before after) .slotTick s5
  let s7 := markIf (crossed 131072 before after) .epochBoundary s6
  markIf (crossed 131072 (before + 65536) (after + 65536)) .markerWindowEnd s7

/-- The part with no command waiting: what is due is taken, then one local clock period passes
(notes/assumptions/3.md). -/
def idle (s : State) : State := clockPeriod (settled s)

/-! ### Time that runs on -/

/-- How many local clock periods pass before the one that brings rack time `distance` ticks past its integer part. -/
def periodsBefore (t : Timebase) (distance : Int) : Nat :=
  let need := distance * 4294967296 - t.frac.toNat
  let per := periodAdvance t
  if need ≤ 0 ∨ per ≤ 0 then 0 else ((need - 1) / per).toNat

/-- How many local clock periods pass before one can bring a generator's wrap, the end of its high time, or a level to
set. -/
def quietGenerator (t : Timebase) (g : Generator) : Option Nat :=
  if g.state = .running then
    let c := phaseIn t.ticks g.wrapBase
    if g.out then some (if c < 0 then 0 else periodsBefore t (g.high - c))
    else some (if c < (g.high : Int) then 0 else periodsBefore t (g.period - c))
  else none

/-- The lesser of a count and a count that may be absent. -/
def minWith (n : Nat) : Option Nat → Nat
  | some m => min n m
  | none => n

/-- How many local clock periods pass before one can bring anything due: to the next slot boundary, a generator's edge,
the hold-off deadline, the end of the settle count, the end of a marker word. -/
def quietPeriods (s : State) : Nat :=
  let t := s.timebase
  let slot := periodsBefore t (2048 - (t.ticks.toNat % 2048 : Nat))
  let hold :=
    if s.cable.holdOff then
      some (if holdOffReached s then 0 else periodsBefore t (s.cable.holdOffDeadline - ticks48 t).toNat)
    else none
  let settle :=
    if s.station.state = .settling ∧ s.pins.sense = true then some (4095 - s.station.settle) else none
  let word := s.selector.driving.map fun d => d.left - 1
  minWith (minWith (minWith (minWith (minWith slot (quietGenerator t s.gens[0])) (quietGenerator t s.gens[1])) hold)
    settle) word

/-- Local clock periods that bring nothing due pass at once. -/
def skipQuiet (s : State) : State :=
  let k := quietPeriods s
  countPeriods k (updTimebase (advanceRack k) s)

/-- Time runs on until a step falls due, while the state lets it come, for at most `fuel` moments at which something
falls due. At each moment all that is due is taken first. -/
def runUntil (d : Due) (comes : State → Bool) : Nat → State → State
  | 0, s => s
  | fuel + 1, s =>
    let s1 := settled s
    if comes s1 then
      let s2 := clockPeriod (skipQuiet s1)
      if d ∈ s2.due then s2 else runUntil d comes fuel s2
    else s1

/-- A row of the clock (notes/assumptions/4.md): when its step is due it is taken; otherwise, as long as the state lets
it come, time runs on to it and it is taken. -/
def clockRow (d : Due) (comes : State → Bool) (fuel : Nat) (act : State → State) (s : State) : State :=
  takeDueBy d act (if d ∈ s.due then s else runUntil d comes fuel s)

/-- A row of a step that follows from another (notes/assumptions/1.md): it is taken when it is due and is what the row
says; otherwise everything due is taken and the row's step does not occur. -/
def dueRow (d : Due) (is : State → Bool) (s : State) : State :=
  if d ∈ s.due ∧ is s = true then takeDue d s else settled s

/-- A row that tells of something outside: what is due is taken first; then the row has its effect, or the state it is
told in lets it not occur (notes/assumptions/1.md). -/
def outsideRow (act : State → State) (s : State) : State := act (settled s)

/-- One grant of the block store to the drain (R109). It comes after the ring write of a block that waits and before the
held requests, which are handled after it (R103); with nothing to drain they are handled at once. -/
def drainRow (s : State) : State :=
  let u := dueTaken s
  if u.fifo = [] then serveHeld u else drainOne (placeWaiting u)

end Sys2Proof.Machine
end

