-- ==== Sys2Proof/Machine/CableRows.lean ====
section
/-! DEFINITION. The commands of the cable interface (03). -/

namespace Sys2Proof.Machine

/-! ### The guard and the start of a burst -/

/-- GUARD_COMPLETE (R43): 32 bit times at rest. -/
def completeGuard (s : State) : State :=
  if s.cable.state = .guard then updCable (fun c => { c with state := .idle, guardCount := 32 }) s else s

/-- GUARD_COMPLETE (R43). -/
def execGuardComplete (s : State) : Host.Outcome State Fault Refusal := .next (outsideRow completeGuard s)

/-- A dominant level during the guard (R43). -/
def restartGuard (s : State) : State := if s.cable.state = .guard then enterGuard s else s

/-- GUARD_RESTART (R43). -/
def execGuardRestart (s : State) : Host.Outcome State Fault Refusal := .next (outsideRow restartGuard s)

/-- Another station's start bit on the idle pair (R45). -/
def seeStartBit (s : State) : State :=
  if s.cable.state = .idle then updCable (fun c => { openBuffer [] c with state := .receiving }) s else s

/-- START_BIT_SEEN (R45). -/
def execStartBitSeen (s : State) : Host.Outcome State Fault Refusal := .next (outsideRow seeStartBit s)

/-! ### The claim -/

/-- The entry for which a claim can start (R45). -/
def claimable (s : State) : Option TxEntry :=
  if s.cable.state = .idle ∧ driversOn s.station.state = true ∧ s.cable.holdOff = false then queueHead s else none

/-- The claim starts (R45). -/
def startClaim (s : State) : State :=
  match claimable s with
  | some e => updCable (fun c => { c with state := .claiming, claim := some { entry := e, withdrawn := false } }) s
  | none => s

/-- CLAIM_START (R45). -/
def execClaimStart (s : State) : Host.Outcome State Fault Refusal := .next (outsideRow startClaim s)

/-- The line bits after the start bit that this station drives in a claim for an entry (R43, R45): the claim field with
its fill bits. The start bit is the first of the run (R42). -/
def claimLine (s : State) (e : TxEntry) : List Bool := insertFill (byteBits (claimByteOf s e)) false 1

/-- A line bit driven 1 is read 0 during a claim (R46): the interface is RECEIVING, the claim bits read so far the first
of the reception. Where they are a run of 8 dominant levels, which only a lost fill bit makes, the reception ends aborted
at once (R51), with the hand-over of a burst that waits complete (R53). -/
def loseClaim (bit : Fin 9) (s : State) : State :=
  match s.cable.claim with
  | some c =>
    let levels := claimLine s c.entry
    let lost := fun f : Cable → Cable => occur .claimLost (entrySubject c.entry.kind) 1 (updCable f s)
    if s.cable.state = .claiming ∧ levels[bit.val]? = some true then
      match removeFill (levels.take bit.val ++ [false]) false 1 with
      | some bits => lost fun x => { openBuffer bits x with state := .receiving, claim := none }
      | none => handWaiting (lost fun x => { x with state := .guard, guardCount := 0, claim := none })
    else s
  | none => s

/-- CLAIM_LOST (R46). -/
def execClaimLost (bit : Fin 9) (s : State) : Host.Outcome State Fault Refusal := .next (outsideRow (loseClaim bit) s)

/-! ### The burst -/

/-- The claim is won with nothing to send: the abort pattern at once (R47). -/
def withdrawClaim (s : State) : State := updCable (fun c => { c with state := .aborting, claim := none }) s

/-- The claim is won (R46 to R50): the burst is built, and a BLOCK's ready buffer bound. -/
def startBurst (s : State) : State :=
  match s.cable.claim with
  | some c =>
    if s.cable.state = .claiming then
      if c.withdrawn then withdrawClaim s
      else match buildBurst s c.entry.kind with
        | none => withdrawClaim (removeEntry c.entry.kind s)
        | some b =>
          updCable (fun x =>
            { x with state := .sending, claim := none, flight := some (flightOf s c.entry b),
                     binding := bindingOf c.entry.kind }) s
    else s
  | none => s

/-- BURST_START (R46, R48). -/
def execBurstStart (s : State) : Host.Outcome State Fault Refusal := .next (outsideRow startBurst s)

/-- A burst's entry leaves the queue at its successful end, if it is still there (R58). -/
def dropSent (f : Flight) (s : State) : State :=
  if f.withdrawn then s else { s with txQueue := s.txQueue.filter fun e => !(e.kind == f.entry.kind) }

/-- The successful end of a RETIRE (R58, R72, R76, R78). -/
def retireReported (s : State) : State :=
  match s.station.state with
  | .retiring => checkRetired (updStation (fun x => { x with retireSent := true }) s)
  | .joined => setFresh s
  | _ => s

/-- The end of a burst is reported by kind (R58). -/
def reportSent (f : Flight) (s : State) : State :=
  match f.entry.kind with
  | .presence => updStation (fun x => { x with clash := 0, freshPending := x.freshPending && !f.fresh }) s
  | .retire => retireReported s
  | .pull _ => s
  | .block _ => endBinding true s

/-- The last check bit is read back as driven (R58), in the order of the rule. -/
def finishBurst (s : State) : State :=
  match s.cable.flight with
  | some f =>
    if s.cable.state = .sending then
      reportSent f
        (occur .burstSent (entrySubject f.entry.kind) 1
          (lowerScore (dropSent f (enterGuard (updCable (fun c => { c with flight := none }) s)))))
    else s
  | none => s

/-- BURST_SENT (R58). -/
def execBurstSent (s : State) : Host.Outcome State Fault Refusal := .next (outsideRow finishBurst s)

/-- The entry whose claim or burst is on the pair: in CLAIMING the claimed one, in SENDING the one in flight. -/
def onPair (s : State) : Option EntryKind :=
  match s.cable.state with
  | .claiming => s.cable.claim.map fun c => c.entry.kind
  | .sending => s.cable.flight.map fun f => f.entry.kind
  | _ => none

/-- The interface at a transmit fault (R59, R60): the abort pattern, and the hold-off with its deadline. -/
def faultCable (t : Timebase) (c : Cable) : Cable :=
  { c with state := .aborting, claim := none, flight := none, holdOff := true, holdOffDeadline := ticks48 t + 131072 }

/-- What a transmit fault is to the station controller (R59, R73): at the second presence clash DUPLICATE in place of
the rise of 8. -/
def faultStation (kind : EntryKind) (s : State) : State :=
  if kind = .presence then
    let s1 := updStation (fun x => { x with clash := satAdd x.clash 1 2 }) s
    if s1.station.clash = 2 then changeStation .duplicate 7 s1 else raiseScore 8 s1
  else raiseScore 8 s

/-- A transmit fault (R59). The publication table ends the binding (R117) before the station controller raises the fault
score (R80 to R82): R59 lists both without an order. DESIGN CHOICE, notes/assumptions/36.md. -/
def transmitFault (s : State) : State :=
  match onPair s with
  | some kind =>
    occur .txFault (entrySubject kind) 1
      (faultStation kind (endBinding false (updCable (faultCable s.timebase) s)))
  | none => s

/-- TX_FAULT (R59). -/
def execTxFault (s : State) : Host.Outcome State Fault Refusal := .next (outsideRow transmitFault s)

/-- The 16 bit times of the abort pattern are over (R59). -/
def endAbort (s : State) : State := if s.cable.state = .aborting then enterGuard s else s

/-- ABORT_PATTERN_END (R59). -/
def execAbortPatternEnd (s : State) : Host.Outcome State Fault Refusal := .next (outsideRow endAbort s)

/-! ### The ends of receptions -/

/-- The states in which the receiver takes a burst, as R51 lists them. A burst told in GUARD, be it the first one after
the receivers come on, is taken: it stands for one whose guard completed with no row for it, although R43 begins no burst
at a dominant level in the guard and R44 takes the first burst after the first complete guard. DESIGN CHOICE,
notes/assumptions/9.md. -/
def receives (c : CableState) : Bool :=
  match c with
  | .guard | .idle | .receiving => true
  | .off | .claiming | .sending | .aborting => false

/-- A burst can be the one in reception: its first bits are those already read (R46, R51). -/
def continuesReception (c : Cable) (bits : List Bool) : Bool :=
  c.state != .receiving || bits.take (receivedBits c).length == receivedBits c

/-- A reception of these bytes can end now (R51): the receiver takes bursts, and the bytes go on from the bits read. -/
def endsReceptionOf (bytes : List Byte) (c : Cable) : Bool := receives c.state && continuesReception c (bitsOf bytes)

/-- The hand-over of one burst is complete before the next burst's reception ends (R53): where a reception can end now
and a burst still waits, it is handed over, and what that brings is taken, before the end. -/
def handedBefore (settle : State → State) (ends : Cable → Bool) (s : State) : State :=
  if ends s.cable = true ∧ waitingBurst s.cable ≠ none then settle (handWaiting s) else s

/-- A reception that ends without a good burst frees its buffer; every end enters GUARD (R51, R53). -/
def endReception (s : State) : State := enterGuard (updCable discardReception s)

/-- The end of a reception that ends now (R127). -/
def endsNow (t : Timebase) : BurstEnd := { ticks := t.ticks, state := t.state }

/-- A good burst's reception ends: its end clears the hold-off (R51, R60). -/
def endGood (s : State) : State := updCable (fun c => { c with holdOff := false }) (endReception s)

/-- A good burst's reception ends and the burst is handed over at once (R52): its buffer is free again (R53). -/
def takeGood (b : Burst) (s : State) : State := deliver (endsNow s.timebase) b (endGood s)

/-- A good burst's reception ends and the burst waits in its buffer for its owner (R53). -/
def keepGood (burst : List Byte) (s : State) : State :=
  updCable (fun c => { c with holdOff := false }) (enterGuard (updCable (keepBurst burst (endsNow s.timebase)) s))

/-- A failed or truncated burst (R51, R80, R83). -/
def takeFailed (s : State) : State :=
  occur .rxCheckFault .none 1
    (raiseScore 1
      (updStation (fun x => if x.state = .silenced then { x with recovery := 0 } else x) (endReception s)))

/-- A reception of these bytes, fill bits removed, ends now where one can (R51): with a good burst, which is handed over
or waits, or as a failed check. Elsewhere the row tells of nothing: in OFF, CLAIMING, SENDING and ABORTING no reception
ends (R51, R52). -/
def endBurst (bytes : List Byte) (waits : Bool) (s : State) : State :=
  if endsReceptionOf bytes s.cable then
    match readBurst bytes with
    | some b => if waits then keepGood bytes s else takeGood b s
    | none => takeFailed s
  else s

/-- The burst of these bytes that waits in a receive buffer is handed over (R53), in whatever state the interface is by
then (R121: also during the own burst), which the hand-over leaves alone. With no such burst in a buffer the row tells of
nothing. -/
def takeLate (bytes : List Byte) (s : State) : State :=
  match waitingBurst s.cable with
  | some (burst, _) => if burst = bytes then handWaiting s else s
  | none => s

/-- The end of a reception, its hand-over, or both (R51 to R53). DESIGN CHOICE, notes/assumptions/48.md. -/
def receiveBurst (bytes : List Byte) (hand : HandOver) (s : State) : State :=
  match hand with
  | .atEnd => endBurst bytes false (handedBefore settledForBurst (endsReceptionOf bytes) s)
  | .waits => endBurst bytes true (handedBefore settledForBurst (endsReceptionOf bytes) s)
  | .later => takeLate bytes s

/-- GOOD_BURST_RECEIVED (R52). Of a boundary of the same moment the tests of R139 and R141 may come after it
(notes/assumptions/2.md). -/
def execGoodBurstReceived (burst : List Byte) (s : State) (hand : HandOver := .atEnd) :
    Host.Outcome State Fault Refusal :=
  .next (receiveBurst burst hand (settledForBurst s))

/-- A reception ends as a failed check or truncated (R51). -/
def receiveFailed (s : State) : State :=
  let s1 := handedBefore settled (fun c => receives c.state) s
  if receives s1.cable.state then takeFailed s1 else s1

/-- FAILED_CHECK_RECEIVED (R51). -/
def execFailedCheckReceived (s : State) : Host.Outcome State Fault Refusal := .next (outsideRow receiveFailed s)

/-- A reception ends aborted: discarded without any count (R51). -/
def receiveAborted (s : State) : State :=
  let s1 := handedBefore settled (fun c => receives c.state) s
  if receives s1.cable.state then endReception s1 else s1

/-- ABORTED_BURST_RECEIVED (R51). -/
def execAbortedBurstReceived (s : State) : Host.Outcome State Fault Refusal := .next (outsideRow receiveAborted s)

end Sys2Proof.Machine
end

