-- ==== Sys2Proof/Machine/ClockRows.lean ====
section
/-! DEFINITION. The commands of reset and of the clock: POWER_ON_RESET, and the rows whose step comes with the advance
of rack time or of the local clock (01, 02, 03, 04, 09). -/

namespace Sys2Proof.Machine

/-- POWER_ON_RESET (R63, R64, R203): every block takes its power-on values, with the levels of the pins and of SSN at the
release; a held request is ended unhandled. The commands still waiting are not part of the machine and stay. -/
def execPowerOnReset (pins : Pins) (s : State) (ssn : Bool := true) : Host.Outcome State Fault Refusal :=
  .next { State.powerOn pins ssn with freeCount := s.freeCount, pending := s.pending }

/-- SLOT_TICK (R3). -/
def execSlotTick (s : State) : Host.Outcome State Fault Refusal :=
  .next (clockRow .slotTick (fun _ => true) 262144 slotWork s)

/-- EPOCH_BOUNDARY (R3), in the order of R98 that the row names. -/
def execEpochBoundary (rosterFirst : Bool) (s : State) : Host.Outcome State Fault Refusal :=
  .next (clockRow .epochBoundary (fun _ => true) 262144 (boundaryWork rosterFirst) s)

/-- MARKER_WINDOW_END (R9). -/
def execMarkerWindowEnd (s : State) : Host.Outcome State Fault Refusal :=
  .next (clockRow .markerWindowEnd (fun _ => true) 262144 endWindow s)

/-- HOLD_OFF_EXPIRY (R60). -/
def execHoldOffExpiry (s : State) : Host.Outcome State Fault Refusal :=
  .next (clockRow .holdOffExpiry (fun u => u.cable.holdOff) 281474976710656 expireHoldOff s)

/-- The settle count runs (R69). -/
def settling (s : State) : Bool := s.station.state == .settling && s.pins.sense

/-- SETTLE_COMPLETE (R69). -/
def execSettleComplete (s : State) : Host.Outcome State Fault Refusal :=
  .next (clockRow .settleComplete settling 262144 completeSettle s)

/-- GENERATOR_WRAP (R164). -/
def execGeneratorWrap (g : Fin 2) (s : State) : Host.Outcome State Fault Refusal :=
  .next (clockRow (.generatorWrap g) (fun u => u.gens[g].state == .running) 262144 (takeWrap g) s)

/-- HIGH_TIME_END (R163). -/
def execHighTimeEnd (g : Fin 2) (s : State) : Host.Outcome State Fault Refusal :=
  .next (clockRow (.highTimeEnd g) (fun u => u.gens[g].state == .running) 262144 (takeHighEnd g) s)

/-- MARKER_WORD_SENT (R31, R32). -/
def execMarkerWordSent (s : State) : Host.Outcome State Fault Refusal :=
  .next (clockRow .markerWordSent (fun u => u.selector.driving.isSome) 262144 endMarkerWord s)

end Sys2Proof.Machine
end

