-- ==== Sys2Proof/Machine/RequestRow.lean ====
section
/-! DEFINITION. The row of a request: its record is complete, and the request is handled at once, or held while the block
store is not granted (R103, R189 to R191). -/

namespace Sys2Proof.Machine

/-- The port's transaction changes. -/
def setTransaction (t : Transaction) (s : State) : State := { s with port := { s.port with transaction := t } }

/-- The request is handled, and its response is ready in its transaction (R191). -/
def handleNow (i : Instr) (s : State) : State := answerNow i (setTransaction .waiting (grantStore i s))

/-- The request takes the next holder; its transaction carries FF meanwhile (R191). -/
def holdRequest (i : Instr) (s : State) : State :=
  setTransaction .waiting { s with port := { s.port with held := s.port.held ++ [i] } }

/-- A record is complete (R190, R191): behind a held request it waits as the second, and a third is discarded. A request
that needs the block store while a burst holds it may be granted between the burst's reads or wait for the burst's end:
a free choice, R103 and R191. One that waits acts at its grant, so a waiting FILL opens its fill there. DESIGN CHOICE,
notes/assumptions/10.md. -/
def takeRecord (i : Instr) (s : State) : State :=
  if s.port.held = [] then
    if storeBusy s = true ∧ needsStore i s = true then
      if (drawFree s).1 % 2 = 0 then handleNow i (drawFree s).2 else holdRequest i (drawFree s).2
    else handleNow i s
  else if s.port.held.length < 2 then holdRequest i s
  else setTransaction .filler s

/-- The row of a request: what is due is taken first (notes/assumptions/2.md). -/
def requestRow (i : Instr) (s : State) : State := takeRecord i (settled s)

end Sys2Proof.Machine
end

