-- ==== Sys2Proof/Machine/EngineRows.lean ====
section
/-! DEFINITION. The commands of the schedule engines (08): their acts at a slot tick, and the rows of their requests. -/

namespace Sys2Proof.Machine

/-! ### At a slot tick -/

/-- Engine e is in RUN at a tick not yet taken, and its entry is of the kind of a row. -/
def runsEntry (e : Fin 4) (kind : SchedEntry → Bool) (s : State) : Bool :=
  s.engines[e].run == .run && kind (entryAt s e)

/-- A row in which engine e acts on a tick (R146): the compares of the tick that are due fire first, so that their starts
find the engine as it stood at the tick and it takes one entry at the tick (R157, R173). -/
def engineRow (e : Fin 4) (is : State → Bool) (s : State) : State := dueRow (.engine e) is (takeCompares s)

/-- A row in which engine e takes an entry of a kind (R146). -/
def entryRow (e : Fin 4) (kind : SchedEntry → Bool) (s : State) : State := engineRow e (runsEntry e kind) s

/-- An EMIT entry. -/
def SchedEntry.isEmit : SchedEntry → Bool
  | .emit _ => true
  | _ => false

/-- A HOLD entry. -/
def SchedEntry.isHold : SchedEntry → Bool
  | .hold _ => true
  | _ => false

/-- A REPEAT entry. -/
def SchedEntry.isRepeat : SchedEntry → Bool
  | .repeat_ _ => true
  | _ => false

/-- A NOTIFY entry. -/
def SchedEntry.isNotify : SchedEntry → Bool
  | .notify _ => true
  | _ => false

/-- SCHEDULE_EMIT (R148). -/
def execScheduleEmit (e : Fin 4) (s : State) : Host.Outcome State Fault Refusal := .next (entryRow e (·.isEmit) s)

/-- SCHEDULE_HOLD (R149). -/
def execScheduleHold (e : Fin 4) (s : State) : Host.Outcome State Fault Refusal := .next (entryRow e (·.isHold) s)

/-- HOLD_END (R149). -/
def execHoldEnd (e : Fin 4) (s : State) : Host.Outcome State Fault Refusal :=
  .next (dueRow (.holdEnd e) (fun _ => true) s)

/-- SCHEDULE_REPEAT (R150). -/
def execScheduleRepeat (e : Fin 4) (s : State) : Host.Outcome State Fault Refusal := .next (entryRow e (·.isRepeat) s)

/-- SCHEDULE_LOOP (R151). -/
def execScheduleLoop (e : Fin 4) (s : State) : Host.Outcome State Fault Refusal := .next (entryRow e (· == .loop) s)

/-- SCHEDULE_NOTIFY (R152). -/
def execScheduleNotify (e : Fin 4) (s : State) : Host.Outcome State Fault Refusal := .next (entryRow e (·.isNotify) s)

/-- SCHEDULE_ALIGN (R153). -/
def execScheduleAlign (e : Fin 4) (s : State) : Host.Outcome State Fault Refusal := .next (entryRow e (· == .align) s)

/-- ALIGN_COMPLETE (R153). -/
def execAlignComplete (e : Fin 4) (s : State) : Host.Outcome State Fault Refusal :=
  .next (engineRow e (fun u => u.engines[e].run == .aligning) s)

/-- SCHEDULE_HALT (R154). -/
def execScheduleHalt (e : Fin 4) (s : State) : Host.Outcome State Fault Refusal := .next (entryRow e (· == .halt) s)

/-! ### Requests -/

/-- LOAD_LIST (R160): a body of 2 + 3m bytes, m = 0..256 (R211). -/
def execLoadList (body : List Byte) (s : State) : Host.Outcome State Fault Refusal :=
  .next (requestRow (.loadList body) s)

/-- ENGINE_START (R156). -/
def execEngineStart (body : List Byte) (s : State) : Host.Outcome State Fault Refusal :=
  .next (requestRow (.engineStart body) s)

/-- ENGINE_STOP (R155). -/
def execEngineStop (body : List Byte) (s : State) : Host.Outcome State Fault Refusal :=
  .next (requestRow (.engineStop body) s)

/-- ENGINE_POINT (R158). -/
def execEnginePoint (body : List Byte) (s : State) : Host.Outcome State Fault Refusal :=
  .next (requestRow (.enginePoint body) s)

/-- ENGINE_PRESCALE (R159). -/
def execEnginePrescale (body : List Byte) (s : State) : Host.Outcome State Fault Refusal :=
  .next (requestRow (.enginePrescale body) s)

end Sys2Proof.Machine
end

