-- ==== Sys2Proof/Machine/ModuleClockRows.lean ====
section
/-! DEFINITION. The commands of the module clock generators and of the epoch compares (09), and the rows of their requests. -/

namespace Sys2Proof.Machine

/-! ### At a boundary and at a slot tick -/

/-- GENERATOR_START (R167). -/
def execGeneratorStart (g : Fin 2) (s : State) : Host.Outcome State Fault Refusal :=
  .next (dueRow (.generatorStart g) (fun _ => true) s)

/-- COMPARE_FIRED (R173). -/
def execCompareFired (k : Fin 4) (s : State) : Host.Outcome State Fault Refusal :=
  .next (dueRow (.compareFired k) (fun _ => true) s)

/-! ### Requests to the generators -/

/-- CLOCK_SET (R165). -/
def execClockSet (body : List Byte) (s : State) : Host.Outcome State Fault Refusal :=
  .next (requestRow (.clockSet body) s)

/-- CLOCK_ARM (R166). -/
def execClockArm (body : List Byte) (s : State) : Host.Outcome State Fault Refusal :=
  .next (requestRow (.clockArm body) s)

/-- CLOCK_OFF (R169). -/
def execClockOff (body : List Byte) (s : State) : Host.Outcome State Fault Refusal :=
  .next (requestRow (.clockOff body) s)

/-! ### Requests to the compares -/

/-- COMPARE_SET (R171). -/
def execCompareSet (body : List Byte) (s : State) : Host.Outcome State Fault Refusal :=
  .next (requestRow (.compareSet body) s)

/-- COMPARE_CANCEL (R175). -/
def execCompareCancel (body : List Byte) (s : State) : Host.Outcome State Fault Refusal :=
  .next (requestRow (.compareCancel body) s)

end Sys2Proof.Machine
end

