-- ==== Sys2Proof/Machine/MonitorRows.lean ====
section
/-! DEFINITION. The rows of the health monitor's requests (10): MONITOR_SET, MONITOR_READ and MARK. -/

namespace Sys2Proof.Machine

/-! ### MONITOR_SET -/

/-- MONITOR_SET (R186). -/
def execMonitorSet (body : List Byte) (s : State) : Host.Outcome State Fault Refusal :=
  .next (requestRow (.monitorSet body) s)

/-! ### MONITOR_READ, MARK -/

/-- MONITOR_READ (R187). -/
def execMonitorRead (body : List Byte) (s : State) : Host.Outcome State Fault Refusal :=
  .next (requestRow (.monitorRead body) s)

/-- MARK (R179). -/
def execMark (body : List Byte) (s : State) : Host.Outcome State Fault Refusal :=
  .next (requestRow (.mark body) s)

end Sys2Proof.Machine
end

