-- ==== Sys2Proof/WellFormed.lean ====
section
/-! DEFINITION. Which commands can be put on the part's ports at all: a record's length field has two bytes (12.4),
a burst has a claim field, a body and a check within the lengths of R208, and an unknown request's kind is not one of
the 34 (R193). The meanings are total and do not rely on these checks. -/

namespace Sys2Proof

/-- A body length that the two bytes of a request record's length field can state (12.4). -/
def bodyFits (body : List Byte) : Bool := decide (body.length < 65536)

/-- Claim field (1), body (2 to 1,040) and check (4), R208. -/
def burstFits (burst : List Byte) : Bool := decide (7 ≤ burst.length ∧ burst.length ≤ 1045)

/-- The 34 request kinds are coded 01 to 22 in hexadecimal (12.4). -/
def definedKind (kind : Byte) : Bool := decide (1 ≤ kind.toNat ∧ kind.toNat ≤ 34)

/-- The operands of a command are within what its port can carry. -/
def Instr.wellFormed : Instr → Bool
  | .goodBurstReceived burst _ => burstFits burst
  | .unknownRequest kind body => !definedKind kind && bodyFits body
  | .setup b | .join b | .retire b | .restart b | .service b | .status b | .publish b | .unpublish b | .hold b
  | .release b | .fill b | .commit b | .readPublication b | .subscribe b | .unsubscribe b | .take b | .pull b
  | .readSubscription b | .loadList b | .engineStart b | .engineStop b | .enginePoint b | .enginePrescale b
  | .clockSet b | .clockArm b | .clockOff b | .compareSet b | .compareCancel b | .monitorSet b | .monitorRead b
  | .mark b | .readRoster b | .readTimebase b | .readEvents b => bodyFits b
  | .powerOnReset _ _ | .slotTick | .epochBoundary _ | .markerWindowEnd | .acquisitionAbandoned | .timebaseHoldover
  | .markerCapture | .validMarker _ | .markerNotReceived | .acquisitionComplete | .lockAchieved | .refokChange _
  | .claimExpiry | .markerClash _ | .handoverComplete | .handoverTakeover | .guardComplete | .claimStart
  | .claimLost _ | .burstStart | .burstSent | .txFault | .abortPatternEnd | .holdOffExpiry | .recoveryComplete
  | .failedCheckReceived | .abortedBurstReceived | .senseRise | .senseDrop | .settleComplete | .listenComplete
  | .retireTimeout | .serviceLapsed | .staleTimeout _ | .pullDeadline _ | .sampleStrobe _ _ | .drainSample
  | .scheduleEmit _ | .scheduleHold _ | .holdEnd _ | .scheduleRepeat _ | .scheduleLoop _ | .scheduleNotify _
  | .scheduleAlign _ | .alignComplete _ | .scheduleHalt _ | .generatorWrap _ | .generatorStart _ | .compareFired _
  | .recordDiscarded _ | .responseAbandoned _ | .startBitSeen | .guardRestart | .highTimeEnd _ | .markerWordSent => true

end Sys2Proof
end

