-- ==== Sys2Proof/Machine/PortRows.lean ====
section
/-! DEFINITION. The commands of the host port itself (11): READ_EVENTS, the readings of the roster and the timebase, a
request of no defined kind, and the ends of transactions. -/

namespace Sys2Proof.Machine

/-- A record is discarded (R190). One that SSN cuts off leaves its transaction closed, with no response sent in it; one
that is completed while two requests are held leaves FF until SSN rises. With fewer held, a completed record is not
discarded and this row does not occur (notes/assumptions/1.md). -/
def discardRecord (cause : DiscardCause) (s : State) : State :=
  match cause with
  | .cut => setTransaction (.closed []) s
  | .third => if s.port.held.length < 2 then s else setTransaction .filler s

/-- RECORD_DISCARDED (R190). -/
def execRecordDiscarded (s : State) (cause : DiscardCause := .cut) : Host.Outcome State Fault Refusal :=
  .next (outsideRow (discardRecord cause) s)

/-- SSN rises when `sent` bytes have been sent from the start byte on (R189, R192): before the start byte the response is
discarded; before its last byte it is cut there; and after it the transaction ends whole, with FF in every byte past the
response. Where a third record was discarded SSN's rise ends the FF (R190). The request stands, held or handled. -/
def abandonResponse (sent : Nat) (s : State) : State :=
  match s.port.transaction with
  | .responding _ => setTransaction (.closed ((List.range sent).filterMap (sentByte s))) s
  | .waiting | .filler => setTransaction (.closed []) s
  | .closed _ | .ignored => s

/-- RESPONSE_ABANDONED (R192), and each other rise of SSN after a record (notes/assumptions/32.md). -/
def execResponseAbandoned (s : State) (sent : Nat := 0) : Host.Outcome State Fault Refusal :=
  .next (outsideRow (abandonResponse sent) s)

/-- READ_ROSTER (R100). -/
def execReadRoster (body : List Byte) (s : State) : Host.Outcome State Fault Refusal :=
  .next (requestRow (.readRoster body) s)

/-- READ_TIMEBASE (R25). -/
def execReadTimebase (body : List Byte) (s : State) : Host.Outcome State Fault Refusal :=
  .next (requestRow (.readTimebase body) s)

/-- READ_EVENTS (R201). -/
def execReadEvents (body : List Byte) (s : State) : Host.Outcome State Fault Refusal :=
  .next (requestRow (.readEvents body) s)

/-- UNKNOWN_REQUEST (R193, check 1): a record of a defined kind is not this command (notes/assumptions/28.md). -/
def execUnknownRequest (kind : Byte) (body : List Byte) (s : State) : Host.Outcome State Fault Refusal :=
  .next (if definedKind kind then settled s else requestRow (.unknownRequest kind body) s)

end Sys2Proof.Machine
end

