-- ==== Sys2Proof/Machine/PublicationRows.lean ====
section
/-! DEFINITION. The commands of the sample port, and the rows of the publication table's requests (06). -/

namespace Sys2Proof.Machine

/-! ### The sample port -/

/-- SAMPLE_STROBE (R107, R108): the tag names the publication. -/
def execSampleStrobe (tag : BitVec 4) (word : BitVec 16) (s : State) : Host.Outcome State Fault Refusal :=
  .next (outsideRow (strobe tag.toFin word) s)

/-- DRAIN_SAMPLE (R109): one grant of the block store. -/
def execDrainSample (s : State) : Host.Outcome State Fault Refusal := .next (drainRow s)

/-! ### Requests -/

/-- PUBLISH (R105). -/
def execPublish (body : List Byte) (s : State) : Host.Outcome State Fault Refusal :=
  .next (requestRow (.publish body) s)

/-- UNPUBLISH (R106). -/
def execUnpublish (body : List Byte) (s : State) : Host.Outcome State Fault Refusal :=
  .next (requestRow (.unpublish body) s)

/-- HOLD (R119). -/
def execHold (body : List Byte) (s : State) : Host.Outcome State Fault Refusal :=
  .next (requestRow (.hold body) s)

/-- RELEASE (R120). -/
def execRelease (body : List Byte) (s : State) : Host.Outcome State Fault Refusal :=
  .next (requestRow (.release body) s)

/-- FILL (R111). -/
def execFill (body : List Byte) (s : State) : Host.Outcome State Fault Refusal :=
  .next (requestRow (.fill body) s)

/-- COMMIT (R115). -/
def execCommit (body : List Byte) (s : State) : Host.Outcome State Fault Refusal :=
  .next (requestRow (.commit body) s)

/-- READ_PUBLICATION (R123). -/
def execReadPublication (body : List Byte) (s : State) : Host.Outcome State Fault Refusal :=
  .next (requestRow (.readPublication body) s)

end Sys2Proof.Machine
end

