-- ==== Sys2Proof/Machine/SelectorRows.lean ====
section
/-! DEFINITION. The commands of the source selector (02). -/

namespace Sys2Proof.Machine

/-- The grade is formed afresh from the sampled straps and the level of REFOK (R26). -/
def followRefok (level : Bool) (s : State) : State :=
  let k := s.station.straps
  updSelector (fun x => { x with grade := gradeOf k.refclass k.elig k.prefer level })
    { s with pins := { s.pins with refok := level } }

/-- REFOK_CHANGE (R26). -/
def execRefokChange (level : Bool) (s : State) : Host.Outcome State Fault Refusal :=
  .next (outsideRow (followRefok level) s)

/-- CLAIM_EXPIRY (R31). -/
def execClaimExpiry (s : State) : Host.Outcome State Fault Refusal := .next (dueRow .claimExpiry (fun _ => true) s)

/-- The last half epoch before a held handover epoch E (R36): rack time lies in the 2^16 ticks that end at E x 2^17,
modulo 2^64 (R1). -/
def lastHalfEpoch (s : State) : Bool :=
  match s.selector.record with
  | some h => decide ((s.timebase.ticks - BitVec.ofNat 64 (h.epoch * 131072) + 65536).toNat < 65536)
  | none => false

/-- A clash of this cause is detected (R33): while SOURCE, and during the own word or with the pair released; the
exception of R36 comes first. -/
def clashDetected (cause : ClashCause) (s : State) : Bool :=
  s.timebase.state == .source
    && match cause with
      | .readBack => s.selector.driving.isSome
      | .foreignEdge => s.selector.driving.isNone && !lastHalfEpoch s

/-- The detail of MARKER_CLASH (R33). -/
def clashCode : ClashCause → Nat
  | .readBack => 1
  | .foreignEdge => 2

/-- A marker clash (R20, R33, R38), with the test of R76 that it brings. MARKER_CLASH enters the queue before the
HANDOVER_FAIL of a record held: R33 and R38 place each only before TIMEBASE_STATE. DESIGN CHOICE,
notes/assumptions/37.md. -/
def clash (cause : ClashCause) (s : State) : State :=
  if clashDetected cause s then
    checkRetired
      (sourceToHoldover
        (leaveRole (updSelector (fun x => { x with firstDrive := none })
          (failHandover 4 (raise .markerClash none (BitVec.ofNat 16 (clashCode cause)) s)))))
  else s

/-- MARKER_CLASH (R33). -/
def execMarkerClash (cause : ClashCause) (s : State) : Host.Outcome State Fault Refusal :=
  .next (outsideRow (clash cause) s)

/-- HANDOVER_COMPLETE (R36). -/
def execHandoverComplete (s : State) : Host.Outcome State Fault Refusal :=
  .next (dueRow .handoverComplete (fun _ => true) s)

/-- HANDOVER_TAKEOVER (R37). -/
def execHandoverTakeover (s : State) : Host.Outcome State Fault Refusal :=
  .next (dueRow .handoverTakeover (fun _ => true) s)

end Sys2Proof.Machine
end

