-- ==== Sys2Proof/Machine/StationRows.lean ====
section
/-! DEFINITION. The commands of the station controller (04): the SENSE pin, its counts' ends, and the rows of the requests JOIN,
RETIRE, RESTART, SERVICE, SETUP and STATUS. -/

namespace Sys2Proof.Machine

/-! ### SENSE -/

/-- SENSE changes from low to high (R68, R69). -/
def riseSense (s : State) : State :=
  if s.pins.sense then s
  else
    let s1 := { s with pins := { s.pins with sense := true } }
    match s.station.state with
    | .isolated => changeStation .settling 2 s1
    | .offline | .settling | .listen | .joined | .retiring | .detached | .duplicate | .silenced => s1

/-- SENSE_RISE (R68). -/
def execSenseRise (s : State) : Host.Outcome State Fault Refusal := .next (outsideRow riseSense s)

/-- SENSE changes from high to low (R68, R69, R79). -/
def dropSense (s : State) : State :=
  if s.pins.sense then
    let s1 := { s with pins := { s.pins with sense := false } }
    match s.station.state with
    | .settling => updStation (fun x => { x with settle := 0 }) s1
    | .listen | .joined | .silenced => changeStation .isolated 5 s1
    | .retiring => changeStation .detached 5 s1
    | .offline | .isolated | .detached | .duplicate => s1
  else s

/-- SENSE_DROP (R68). -/
def execSenseDrop (s : State) : Host.Outcome State Fault Refusal := .next (outsideRow dropSense s)

/-! ### The ends of counts -/

/-- LISTEN_COMPLETE (R70). -/
def execListenComplete (s : State) : Host.Outcome State Fault Refusal := .next (dueRow .listenComplete (fun _ => true) s)

/-- RECOVERY_COMPLETE (R83). -/
def execRecoveryComplete (s : State) : Host.Outcome State Fault Refusal :=
  .next (dueRow .recoveryComplete (fun _ => true) s)

/-- RETIRE_TIMEOUT (R77): the completion of a handover at the same boundary comes first. -/
def execRetireTimeout (s : State) : Host.Outcome State Fault Refusal :=
  .next (dueRow .retireTimeout (fun _ => true) (takeDue .handoverComplete s))

/-- SERVICE_LAPSED (R84). -/
def execServiceLapsed (s : State) : Host.Outcome State Fault Refusal := .next (dueRow .serviceLapsed (fun _ => true) s)

/-! ### JOIN and RETIRE -/

/-- JOIN (R67, R78). -/
def execJoin (body : List Byte) (s : State) : Host.Outcome State Fault Refusal :=
  .next (requestRow (.join body) s)

/-- RETIRE (R75, R76). -/
def execRetire (body : List Byte) (s : State) : Host.Outcome State Fault Refusal :=
  .next (requestRow (.retire body) s)

/-! ### RESTART, SERVICE -/

/-- RESTART (R85, R204). -/
def execRestart (body : List Byte) (s : State) : Host.Outcome State Fault Refusal :=
  .next (requestRow (.restart body) s)

/-- SERVICE (R84). -/
def execService (body : List Byte) (s : State) : Host.Outcome State Fault Refusal :=
  .next (requestRow (.service body) s)

/-! ### SETUP, STATUS -/

/-- SETUP (R196). -/
def execSetup (body : List Byte) (s : State) : Host.Outcome State Fault Refusal :=
  .next (requestRow (.setup body) s)

/-- STATUS (R197). -/
def execStatus (body : List Byte) (s : State) : Host.Outcome State Fault Refusal :=
  .next (requestRow (.status body) s)

end Sys2Proof.Machine
end

