-- ==== Sys2Proof/Machine/SubscriptionRows.lean ====
section
/-! DEFINITION. The commands of the subscription table (07): its tests at epoch boundaries, and the rows of its requests. -/

namespace Sys2Proof.Machine

/-! ### Epoch boundaries -/

/-- The numbers up to j, for the ascending order of R139 and R141. -/
def upTo (j : Fin 32) : List (Fin 32) := (List.finRange 32).filter fun i => decide (i.val ≤ j.val)

/-- A row of one subscription at a boundary: the tests that are due at lower numbers come first. -/
def subRow (d : Fin 32 → Due) (j : Fin 32) (s : State) : State :=
  if d j ∈ s.due then takeInOrder ((upTo j).map d) s else settled s

/-- STALE_TIMEOUT (R139). -/
def execStaleTimeout (sub : Fin 32) (s : State) : Host.Outcome State Fault Refusal :=
  .next (subRow .staleTimeout sub s)

/-- PULL_DEADLINE (R141). -/
def execPullDeadline (sub : Fin 32) (s : State) : Host.Outcome State Fault Refusal :=
  .next (subRow .pullDeadline sub s)

/-! ### Requests -/

/-- SUBSCRIBE (R125). -/
def execSubscribe (body : List Byte) (s : State) : Host.Outcome State Fault Refusal :=
  .next (requestRow (.subscribe body) s)

/-- UNSUBSCRIBE (R126). -/
def execUnsubscribe (body : List Byte) (s : State) : Host.Outcome State Fault Refusal :=
  .next (requestRow (.unsubscribe body) s)

/-- TAKE (R134). -/
def execTake (body : List Byte) (s : State) : Host.Outcome State Fault Refusal :=
  .next (requestRow (.take body) s)

/-- PULL (R140). -/
def execPull (body : List Byte) (s : State) : Host.Outcome State Fault Refusal :=
  .next (requestRow (.pull body) s)

/-- READ_SUBSCRIPTION (R142). -/
def execReadSubscription (body : List Byte) (s : State) : Host.Outcome State Fault Refusal :=
  .next (requestRow (.readSubscription body) s)

end Sys2Proof.Machine
end

