-- ==== Sys2Proof/Machine/TimebaseRows.lean ====
section
/-! DEFINITION. The commands of the timebase unit (01): markers as they reach it, and what the counts bring. -/

namespace Sys2Proof.Machine

/-- MARKER_CAPTURE (R6): an edge on the marker pair. -/
def execMarkerCapture (s : State) : Host.Outcome State Fault Refusal := .next (outsideRow captureEdge s)

/-- VALID_MARKER (R7, R8): the word that follows the captured edge is complete. -/
def execValidMarker (word : BitVec 64) (s : State) : Host.Outcome State Fault Refusal :=
  .next (outsideRow (markerComplete word) s)

/-- MARKER_NOT_RECEIVED (R7, R207): the capture is dropped. -/
def execMarkerNotReceived (s : State) : Host.Outcome State Fault Refusal := .next (outsideRow dropCapture s)

/-- ACQUISITION_COMPLETE (R13). -/
def execAcquisitionComplete (s : State) : Host.Outcome State Fault Refusal :=
  .next (dueRow .acquisitionComplete (fun _ => true) s)

/-- LOCK_ACHIEVED (R17). -/
def execLockAchieved (s : State) : Host.Outcome State Fault Refusal :=
  .next (dueRow .lockAchieved (fun _ => true) s)

/-- ACQUISITION_ABANDONED (R14). -/
def execAcquisitionAbandoned (s : State) : Host.Outcome State Fault Refusal :=
  .next (dueRow .acquisitionAbandoned (fun _ => true) s)

/-- TIMEBASE_HOLDOVER (R18). -/
def execTimebaseHoldover (s : State) : Host.Outcome State Fault Refusal :=
  .next (dueRow .timebaseHoldover (fun _ => true) s)

end Sys2Proof.Machine
end

