-- ==== Sys2Proof/Machine/Dispatch.lean ====
section
/-! DEFINITION. The meaning of each command: one arm for each row of the opcode table. -/

namespace Sys2Proof.Machine

/-- What a command does to everything but the queue of commands. -/
def exec (i : Instr) (s : State) : Host.Outcome State Fault Refusal :=
  match i with
  | .powerOnReset pins ssn => Sys2Proof.Machine.execPowerOnReset pins s ssn
  | .slotTick => Sys2Proof.Machine.execSlotTick s
  | .epochBoundary rosterFirst => Sys2Proof.Machine.execEpochBoundary rosterFirst s
  | .markerWindowEnd => Sys2Proof.Machine.execMarkerWindowEnd s
  | .acquisitionAbandoned => Sys2Proof.Machine.execAcquisitionAbandoned s
  | .timebaseHoldover => Sys2Proof.Machine.execTimebaseHoldover s
  | .markerCapture => Sys2Proof.Machine.execMarkerCapture s
  | .validMarker word => Sys2Proof.Machine.execValidMarker word s
  | .markerNotReceived => Sys2Proof.Machine.execMarkerNotReceived s
  | .acquisitionComplete => Sys2Proof.Machine.execAcquisitionComplete s
  | .lockAchieved => Sys2Proof.Machine.execLockAchieved s
  | .refokChange level => Sys2Proof.Machine.execRefokChange level s
  | .claimExpiry => Sys2Proof.Machine.execClaimExpiry s
  | .markerClash cause => Sys2Proof.Machine.execMarkerClash cause s
  | .handoverComplete => Sys2Proof.Machine.execHandoverComplete s
  | .handoverTakeover => Sys2Proof.Machine.execHandoverTakeover s
  | .guardComplete => Sys2Proof.Machine.execGuardComplete s
  | .claimStart => Sys2Proof.Machine.execClaimStart s
  | .claimLost bit => Sys2Proof.Machine.execClaimLost bit s
  | .burstStart => Sys2Proof.Machine.execBurstStart s
  | .burstSent => Sys2Proof.Machine.execBurstSent s
  | .txFault => Sys2Proof.Machine.execTxFault s
  | .abortPatternEnd => Sys2Proof.Machine.execAbortPatternEnd s
  | .holdOffExpiry => Sys2Proof.Machine.execHoldOffExpiry s
  | .goodBurstReceived burst hand => Sys2Proof.Machine.execGoodBurstReceived burst s hand
  | .recoveryComplete => Sys2Proof.Machine.execRecoveryComplete s
  | .failedCheckReceived => Sys2Proof.Machine.execFailedCheckReceived s
  | .abortedBurstReceived => Sys2Proof.Machine.execAbortedBurstReceived s
  | .senseRise => Sys2Proof.Machine.execSenseRise s
  | .senseDrop => Sys2Proof.Machine.execSenseDrop s
  | .settleComplete => Sys2Proof.Machine.execSettleComplete s
  | .listenComplete => Sys2Proof.Machine.execListenComplete s
  | .retireTimeout => Sys2Proof.Machine.execRetireTimeout s
  | .serviceLapsed => Sys2Proof.Machine.execServiceLapsed s
  | .staleTimeout sub => Sys2Proof.Machine.execStaleTimeout sub s
  | .pullDeadline sub => Sys2Proof.Machine.execPullDeadline sub s
  | .sampleStrobe tag word => Sys2Proof.Machine.execSampleStrobe tag word s
  | .drainSample => Sys2Proof.Machine.execDrainSample s
  | .scheduleEmit engine => Sys2Proof.Machine.execScheduleEmit engine s
  | .scheduleHold engine => Sys2Proof.Machine.execScheduleHold engine s
  | .holdEnd engine => Sys2Proof.Machine.execHoldEnd engine s
  | .scheduleRepeat engine => Sys2Proof.Machine.execScheduleRepeat engine s
  | .scheduleLoop engine => Sys2Proof.Machine.execScheduleLoop engine s
  | .scheduleNotify engine => Sys2Proof.Machine.execScheduleNotify engine s
  | .scheduleAlign engine => Sys2Proof.Machine.execScheduleAlign engine s
  | .alignComplete engine => Sys2Proof.Machine.execAlignComplete engine s
  | .scheduleHalt engine => Sys2Proof.Machine.execScheduleHalt engine s
  | .generatorWrap gen => Sys2Proof.Machine.execGeneratorWrap gen s
  | .generatorStart gen => Sys2Proof.Machine.execGeneratorStart gen s
  | .compareFired cmp => Sys2Proof.Machine.execCompareFired cmp s
  | .recordDiscarded cause => Sys2Proof.Machine.execRecordDiscarded s cause
  | .responseAbandoned sent => Sys2Proof.Machine.execResponseAbandoned s sent
  | .setup body => Sys2Proof.Machine.execSetup body s
  | .join body => Sys2Proof.Machine.execJoin body s
  | .retire body => Sys2Proof.Machine.execRetire body s
  | .restart body => Sys2Proof.Machine.execRestart body s
  | .service body => Sys2Proof.Machine.execService body s
  | .status body => Sys2Proof.Machine.execStatus body s
  | .publish body => Sys2Proof.Machine.execPublish body s
  | .unpublish body => Sys2Proof.Machine.execUnpublish body s
  | .hold body => Sys2Proof.Machine.execHold body s
  | .release body => Sys2Proof.Machine.execRelease body s
  | .fill body => Sys2Proof.Machine.execFill body s
  | .commit body => Sys2Proof.Machine.execCommit body s
  | .readPublication body => Sys2Proof.Machine.execReadPublication body s
  | .subscribe body => Sys2Proof.Machine.execSubscribe body s
  | .unsubscribe body => Sys2Proof.Machine.execUnsubscribe body s
  | .take body => Sys2Proof.Machine.execTake body s
  | .pull body => Sys2Proof.Machine.execPull body s
  | .readSubscription body => Sys2Proof.Machine.execReadSubscription body s
  | .loadList body => Sys2Proof.Machine.execLoadList body s
  | .engineStart body => Sys2Proof.Machine.execEngineStart body s
  | .engineStop body => Sys2Proof.Machine.execEngineStop body s
  | .enginePoint body => Sys2Proof.Machine.execEnginePoint body s
  | .enginePrescale body => Sys2Proof.Machine.execEnginePrescale body s
  | .clockSet body => Sys2Proof.Machine.execClockSet body s
  | .clockArm body => Sys2Proof.Machine.execClockArm body s
  | .clockOff body => Sys2Proof.Machine.execClockOff body s
  | .compareSet body => Sys2Proof.Machine.execCompareSet body s
  | .compareCancel body => Sys2Proof.Machine.execCompareCancel body s
  | .monitorSet body => Sys2Proof.Machine.execMonitorSet body s
  | .monitorRead body => Sys2Proof.Machine.execMonitorRead body s
  | .mark body => Sys2Proof.Machine.execMark body s
  | .readRoster body => Sys2Proof.Machine.execReadRoster body s
  | .readTimebase body => Sys2Proof.Machine.execReadTimebase body s
  | .readEvents body => Sys2Proof.Machine.execReadEvents body s
  | .startBitSeen => Sys2Proof.Machine.execStartBitSeen s
  | .guardRestart => Sys2Proof.Machine.execGuardRestart s
  | .highTimeEnd gen => Sys2Proof.Machine.execHighTimeEnd gen s
  | .markerWordSent => Sys2Proof.Machine.execMarkerWordSent s
  | .unknownRequest kind body => Sys2Proof.Machine.execUnknownRequest kind body s

end Sys2Proof.Machine
end

