-- ==== Sys2Proof/Laws/PerInstr.lean ====
section
/-! SUPPORT. Statements made command by command: one lemma for each constructor of `Instr`. Family F: the record of a
well-formed request is read back as that request, whatever bytes follow it in the transaction. -/

namespace Sys2Proof.Laws.F

/-- The record of a well-formed command gives that command back (R189, R211, 12.4); bytes that follow are ignored. -/
def Statement (i : Instr) : Prop :=
  i.wellFormed = true → ∀ bytes more, i.record = some bytes → commandOfTransaction (bytes ++ more) = i

/-- The two bytes of a record's length field give the body's length back (12.4). -/
theorem length_field (n : Nat) (h : n < 65536) :
    (BitVec.ofNat 8 (n / 256)).toNat * 256 + (BitVec.ofNat 8 n).toNat = n := by
  simp only [BitVec.toNat_ofNat]
  omega

/-- A record is read back as the request of its kind. -/
theorem read_record (kind : Byte) (body more : List Byte) (h : body.length < 65536) :
    commandOfTransaction (recordBytes kind body ++ more) = requestOfKind kind body := by
  simp only [recordBytes, List.cons_append, commandOfTransaction, length_field body.length h]
  rw [if_pos (by simp)]
  simp

/-- A request of a defined kind. -/
theorem defined (kind : Byte) (make : List Byte → Instr) (body : List Byte) (hw : (make body).wellFormed = bodyFits body)
    (hr : (make body).record = some (recordBytes kind body)) (hk : requestOfKind kind body = make body) :
    Statement (make body) := by
  intro w bytes more hb
  rw [hr, Option.some.injEq] at hb
  rw [← hb, read_record kind body more (by rw [hw] at w; simpa [bodyFits] using w), hk]

/-- A command that is no request. -/
theorem noRecord (i : Instr) (h : i.record = none) : Statement i := by
  intro _ bytes more hb
  rw [h] at hb
  cases hb

theorem powerOnReset (pins : Pins) (ssn : Bool) : Statement (.powerOnReset pins ssn) := noRecord _ rfl
theorem slotTick : Statement .slotTick := noRecord _ rfl
theorem epochBoundary (rosterFirst : Bool) : Statement (.epochBoundary rosterFirst) := noRecord _ rfl
theorem markerWindowEnd : Statement .markerWindowEnd := noRecord _ rfl
theorem acquisitionAbandoned : Statement .acquisitionAbandoned := noRecord _ rfl
theorem timebaseHoldover : Statement .timebaseHoldover := noRecord _ rfl
theorem markerCapture : Statement .markerCapture := noRecord _ rfl
theorem validMarker (word : BitVec 64) : Statement (.validMarker word) := noRecord _ rfl
theorem markerNotReceived : Statement .markerNotReceived := noRecord _ rfl
theorem acquisitionComplete : Statement .acquisitionComplete := noRecord _ rfl
theorem lockAchieved : Statement .lockAchieved := noRecord _ rfl
theorem refokChange (level : Bool) : Statement (.refokChange level) := noRecord _ rfl
theorem claimExpiry : Statement .claimExpiry := noRecord _ rfl
theorem markerClash (cause : ClashCause) : Statement (.markerClash cause) := noRecord _ rfl
theorem handoverComplete : Statement .handoverComplete := noRecord _ rfl
theorem handoverTakeover : Statement .handoverTakeover := noRecord _ rfl
theorem guardComplete : Statement .guardComplete := noRecord _ rfl
theorem claimStart : Statement .claimStart := noRecord _ rfl
theorem claimLost (bit : Fin 9) : Statement (.claimLost bit) := noRecord _ rfl
theorem burstStart : Statement .burstStart := noRecord _ rfl
theorem burstSent : Statement .burstSent := noRecord _ rfl
theorem txFault : Statement .txFault := noRecord _ rfl
theorem abortPatternEnd : Statement .abortPatternEnd := noRecord _ rfl
theorem holdOffExpiry : Statement .holdOffExpiry := noRecord _ rfl
theorem goodBurstReceived (burst : List Byte) (hand : HandOver) : Statement (.goodBurstReceived burst hand) :=
  noRecord _ rfl
theorem recoveryComplete : Statement .recoveryComplete := noRecord _ rfl
theorem failedCheckReceived : Statement .failedCheckReceived := noRecord _ rfl
theorem abortedBurstReceived : Statement .abortedBurstReceived := noRecord _ rfl
theorem senseRise : Statement .senseRise := noRecord _ rfl
theorem senseDrop : Statement .senseDrop := noRecord _ rfl
theorem settleComplete : Statement .settleComplete := noRecord _ rfl
theorem listenComplete : Statement .listenComplete := noRecord _ rfl
theorem retireTimeout : Statement .retireTimeout := noRecord _ rfl
theorem serviceLapsed : Statement .serviceLapsed := noRecord _ rfl
theorem staleTimeout (sub : Fin 32) : Statement (.staleTimeout sub) := noRecord _ rfl
theorem pullDeadline (sub : Fin 32) : Statement (.pullDeadline sub) := noRecord _ rfl
theorem sampleStrobe (tag : BitVec 4) (word : BitVec 16) : Statement (.sampleStrobe tag word) := noRecord _ rfl
theorem drainSample : Statement .drainSample := noRecord _ rfl
theorem scheduleEmit (engine : Fin 4) : Statement (.scheduleEmit engine) := noRecord _ rfl
theorem scheduleHold (engine : Fin 4) : Statement (.scheduleHold engine) := noRecord _ rfl
theorem holdEnd (engine : Fin 4) : Statement (.holdEnd engine) := noRecord _ rfl
theorem scheduleRepeat (engine : Fin 4) : Statement (.scheduleRepeat engine) := noRecord _ rfl
theorem scheduleLoop (engine : Fin 4) : Statement (.scheduleLoop engine) := noRecord _ rfl
theorem scheduleNotify (engine : Fin 4) : Statement (.scheduleNotify engine) := noRecord _ rfl
theorem scheduleAlign (engine : Fin 4) : Statement (.scheduleAlign engine) := noRecord _ rfl
theorem alignComplete (engine : Fin 4) : Statement (.alignComplete engine) := noRecord _ rfl
theorem scheduleHalt (engine : Fin 4) : Statement (.scheduleHalt engine) := noRecord _ rfl
theorem generatorWrap (gen : Fin 2) : Statement (.generatorWrap gen) := noRecord _ rfl
theorem generatorStart (gen : Fin 2) : Statement (.generatorStart gen) := noRecord _ rfl
theorem compareFired (cmp : Fin 4) : Statement (.compareFired cmp) := noRecord _ rfl
theorem recordDiscarded (cause : DiscardCause) : Statement (.recordDiscarded cause) := noRecord _ rfl
theorem responseAbandoned (sent : Nat) : Statement (.responseAbandoned sent) := noRecord _ rfl
theorem setup (body : List Byte) : Statement (.setup body) := defined _ .setup body rfl rfl rfl
theorem join (body : List Byte) : Statement (.join body) := defined _ .join body rfl rfl rfl
theorem retire (body : List Byte) : Statement (.retire body) := defined _ .retire body rfl rfl rfl
theorem restart (body : List Byte) : Statement (.restart body) := defined _ .restart body rfl rfl rfl
theorem service (body : List Byte) : Statement (.service body) := defined _ .service body rfl rfl rfl
theorem status (body : List Byte) : Statement (.status body) := defined _ .status body rfl rfl rfl
theorem publish (body : List Byte) : Statement (.publish body) := defined _ .publish body rfl rfl rfl
theorem unpublish (body : List Byte) : Statement (.unpublish body) := defined _ .unpublish body rfl rfl rfl
theorem hold (body : List Byte) : Statement (.hold body) := defined _ .hold body rfl rfl rfl
theorem release (body : List Byte) : Statement (.release body) := defined _ .release body rfl rfl rfl
theorem fill (body : List Byte) : Statement (.fill body) := defined _ .fill body rfl rfl rfl
theorem commit (body : List Byte) : Statement (.commit body) := defined _ .commit body rfl rfl rfl
theorem readPublication (body : List Byte) : Statement (.readPublication body) := defined _ .readPublication body rfl rfl rfl
theorem subscribe (body : List Byte) : Statement (.subscribe body) := defined _ .subscribe body rfl rfl rfl
theorem unsubscribe (body : List Byte) : Statement (.unsubscribe body) := defined _ .unsubscribe body rfl rfl rfl
theorem take (body : List Byte) : Statement (.take body) := defined _ .take body rfl rfl rfl
theorem pull (body : List Byte) : Statement (.pull body) := defined _ .pull body rfl rfl rfl
theorem readSubscription (body : List Byte) : Statement (.readSubscription body) := defined _ .readSubscription body rfl rfl rfl
theorem loadList (body : List Byte) : Statement (.loadList body) := defined _ .loadList body rfl rfl rfl
theorem engineStart (body : List Byte) : Statement (.engineStart body) := defined _ .engineStart body rfl rfl rfl
theorem engineStop (body : List Byte) : Statement (.engineStop body) := defined _ .engineStop body rfl rfl rfl
theorem enginePoint (body : List Byte) : Statement (.enginePoint body) := defined _ .enginePoint body rfl rfl rfl
theorem enginePrescale (body : List Byte) : Statement (.enginePrescale body) := defined _ .enginePrescale body rfl rfl rfl
theorem clockSet (body : List Byte) : Statement (.clockSet body) := defined _ .clockSet body rfl rfl rfl
theorem clockArm (body : List Byte) : Statement (.clockArm body) := defined _ .clockArm body rfl rfl rfl
theorem clockOff (body : List Byte) : Statement (.clockOff body) := defined _ .clockOff body rfl rfl rfl
theorem compareSet (body : List Byte) : Statement (.compareSet body) := defined _ .compareSet body rfl rfl rfl
theorem compareCancel (body : List Byte) : Statement (.compareCancel body) := defined _ .compareCancel body rfl rfl rfl
theorem monitorSet (body : List Byte) : Statement (.monitorSet body) := defined _ .monitorSet body rfl rfl rfl
theorem monitorRead (body : List Byte) : Statement (.monitorRead body) := defined _ .monitorRead body rfl rfl rfl
theorem mark (body : List Byte) : Statement (.mark body) := defined _ .mark body rfl rfl rfl
theorem readRoster (body : List Byte) : Statement (.readRoster body) := defined _ .readRoster body rfl rfl rfl
theorem readTimebase (body : List Byte) : Statement (.readTimebase body) := defined _ .readTimebase body rfl rfl rfl
theorem readEvents (body : List Byte) : Statement (.readEvents body) := defined _ .readEvents body rfl rfl rfl
theorem startBitSeen : Statement .startBitSeen := noRecord _ rfl
theorem guardRestart : Statement .guardRestart := noRecord _ rfl
theorem highTimeEnd (gen : Fin 2) : Statement (.highTimeEnd gen) := noRecord _ rfl
theorem markerWordSent : Statement .markerWordSent := noRecord _ rfl
theorem unknownRequest (kind : Byte) (body : List Byte) : Statement (.unknownRequest kind body) := by
  intro w bytes more hb
  have hb' : recordBytes kind body = bytes := Option.some.inj hb
  simp only [Instr.wellFormed, Bool.and_eq_true, Bool.not_eq_true', definedKind, decide_eq_false_iff_not, bodyFits,
    decide_eq_true_eq] at w
  rw [← hb', read_record kind body more w.2]
  unfold requestOfKind
  split <;> first | rfl | (exfalso; omega)

end Sys2Proof.Laws.F
end

