-- ==== Sys2Proof/Safety.lean ====
section
/-! DEFINITION. What the spec says always holds of the part, in the words of its rules: conditions on one state that
the statements show every step to keep. -/

namespace Sys2Proof.Machine

/-- Both memories are in their canonical form, so that equal contents are equal data (R102, R144). -/
def CanonicalMemories (s : State) : Prop :=
  Memory.wf s.store = true ∧ sparseWf SchedEntry.halt 0 s.schedule = true

/-- The event queue holds at most 32 records (R198). -/
def BoundedEvents (s : State) : Prop := s.port.events.length ≤ 32

/-- The ranges of A and I by timebase state (R2): within 2^20; both 0 in FREE; equal in HOLDOVER and SOURCE. In ACQUIRE
the decisions still to come can add less than twice the search step (R13). -/
def RatesInRange (s : State) : Prop :=
  (-rateBound ≤ s.timebase.rate ∧ s.timebase.rate ≤ rateBound)
    ∧ (-rateBound ≤ s.timebase.integral ∧ s.timebase.integral ≤ rateBound)
    ∧ (s.timebase.state = .free → s.timebase.rate = 0 ∧ s.timebase.integral = 0)
    ∧ (s.timebase.state = .holdover ∨ s.timebase.state = .source → s.timebase.rate = s.timebase.integral)
    ∧ (s.timebase.state = .acquire →
      (s.timebase.rate.natAbs : Int) + 2 * (s.timebase.searchStep : Int) ≤ rateBound)

/-- A loop count is 0 whenever its loop start is absent (R145). -/
def LoopsClosed (s : State) : Prop := ∀ e : Fin 4, s.engines[e].loopStart = none → s.engines[e].loopCount = 0

/-- The staged values of every generator lie in their ranges, and a RUNNING generator has 2 ≤ P ≤ 65,536 and
1 ≤ H ≤ P - 1 (R164, R165). -/
def ClocksInRange (s : State) : Prop :=
  ∀ g : Fin 2,
    let x := s.gens[g]
    2 ≤ x.stagedPeriod ∧ x.stagedPeriod ≤ 65536 ∧ 1 ≤ x.stagedHigh ∧ x.stagedHigh ≤ 65535
      ∧ (x.state = .running → 2 ≤ x.period ∧ x.period ≤ 65536 ∧ 1 ≤ x.high ∧ x.high + 1 ≤ x.period)

/-- The sample port's FIFO holds at most 64 words (R108). -/
def FifoFits (s : State) : Prop := fifoWords s.fifo ≤ 64

/-- The output of a generator that is not RUNNING is low (09, 9.1). -/
def StoppedClocksLow (s : State) : Prop := ∀ g : Fin 2, s.gens[g].state ≠ .running → s.gens[g].out = false

/-- A LIVE subscription's publisher is PRESENT in the roster and announces the index (R136). -/
def LiveIsAnnounced (s : State) : Prop :=
  ∀ j : Fin 32, s.subs[j].state = .live → announced s s.subs[j].publisher s.subs[j].index = true

/-- The entries of a ring: at most four, no sequence and no slot twice, every slot one of the subscription's four
(R131). -/
def ringSound (ring : List RingEntry) : Prop :=
  ring.length ≤ 4 ∧ (ring.map (·.seq)).Nodup ∧ (ring.map (·.slot)).Nodup ∧ ∀ r ∈ ring, r.slot < 4

/-- Every ring is sound (R131). -/
def RingsSound (s : State) : Prop := ∀ j : Fin 32, ringSound s.subs[j].ring

/-- No two subscriptions in use name the same channel, and none names the own station (R125). -/
def ChannelsDistinct (s : State) : Prop :=
  (∀ i j : Fin 32, s.subs[i].state ≠ .unused → s.subs[j].state ≠ .unused →
    s.subs[i].publisher = s.subs[j].publisher → s.subs[i].index = s.subs[j].index → i = j)
  ∧ ∀ j : Fin 32, s.subs[j].state ≠ .unused → s.subs[j].publisher ≠ s.station.own

/-- The transmit queue holds at most one entry of a kind and subject (R54). -/
def QueueDistinct (s : State) : Prop := (s.txQueue.map (·.kind)).Nodup

/-- The transmit queue holds its entries in order of class (R54). -/
def QueueOrdered (s : State) : Prop := s.txQueue.Pairwise fun a b => a.cls ≤ b.cls

/-- In RETIRING the transmit queue holds no BLOCK and no PULL (R54). -/
def RetiringSendsNoData (s : State) : Prop :=
  s.station.state = .retiring → ∀ e ∈ s.txQueue, e.kind.isData = false

/-- The port holds at most two requests (R191). -/
def HoldersBounded (s : State) : Prop := s.port.held.length ≤ 2

/-- The transmit queue, the data pair drivers and the source role belong to JOINED and RETIRING (R20, R42, R54), and a
claim countdown to JOINED (R30). -/
def MembersOnly (s : State) : Prop :=
  (driversOn s.station.state = false →
    s.txQueue = [] ∧ s.cable.state ≠ .claiming ∧ s.cable.state ≠ .sending ∧ s.cable.state ≠ .aborting
      ∧ s.timebase.state ≠ .source)
  ∧ (s.selector.countdown ≠ none → s.station.state = .joined)

/-- The fault score lies in 0..255 and equals 255 exactly while the station state is SILENCED (R80). -/
def ScoreTellsSilence (s : State) : Prop :=
  s.station.faultScore ≤ 255 ∧ (s.station.faultScore = 255 ↔ s.station.state = .silenced)

end Sys2Proof.Machine
end

