-- ==== Sys2Proof/Certificates/Slice0/Obligations.lean ====
section
/-! DEFINITION. The statements about the HF24, each a proposition of its own, in the words of the spec's rules. A
statement about a request speaks of a part with nothing due and no request held (`Ready`), one about something from
outside of a part in which nothing waits to be taken (`quiet`): what is due is taken first in any case
(`CommandsFirstTakeWhatIsDue`), and `RequestsWaitForTheBlockStore` tells of the held requests. A statement about a step
of the part's own speaks of a state in which that step is due. -/

namespace Sys2Proof.Claims

open Sys2Proof Sys2Proof.Machine

/-! ### The words of the statements -/

/-- The 34 requests: the body a request carries, and whether its length is one that R211 allows for its kind. -/
def requestBody : Instr → Option (List Byte × Bool)
  | .setup b => some (b, b.length == 17)
  | .join b | .retire b | .restart b | .service b | .status b | .readTimebase b => some (b, b.length == 0)
  | .publish b => some (b, b.length == 7)
  | .unpublish b | .hold b | .release b | .commit b | .readPublication b | .unsubscribe b | .take b | .pull b
  | .readSubscription b | .engineStart b | .engineStop b | .clockOff b | .compareCancel b | .monitorRead b
  | .readRoster b | .readEvents b => some (b, b.length == 1)
  | .fill b => some (b, decide (8 ≤ b.length ∧ b.length ≤ 1536))
  | .subscribe b | .clockSet b => some (b, b.length == 9)
  | .loadList b => some (b, decide (2 ≤ b.length ∧ (b.length - 2) % 3 = 0 ∧ (b.length - 2) / 3 ≤ 256))
  | .enginePoint b | .enginePrescale b | .mark b => some (b, b.length == 3)
  | .clockArm b => some (b, b.length == 5)
  | .compareSet b => some (b, b.length == 8)
  | .monitorSet b =>
    some (b, decide (3 ≤ b.length ∧ b.length = 3 + 6 * ((List.range 4).filter fun i => (byteAt b 2).getLsbD i).length))
  | _ => none

/-- The rows that tell of something outside the part, but for a received burst and a grant of the drain. -/
def fromOutside : Instr → Bool
  | .markerCapture | .validMarker _ | .markerNotReceived | .refokChange _ | .markerClash _ | .guardComplete
  | .claimStart | .claimLost _ | .burstStart | .burstSent | .txFault | .abortPatternEnd
  | .failedCheckReceived | .abortedBurstReceived | .senseRise | .senseDrop | .sampleStrobe _ _
  | .recordDiscarded _ | .responseAbandoned _ | .startBitSeen | .guardRestart | .unknownRequest _ _ => true
  | _ => false

/-- The rows of a step that follows from another, with the step (notes/assumptions/1.md and 2.md). -/
def followingStep : Instr → Option Due
  | .acquisitionAbandoned => some .acquisitionAbandoned
  | .timebaseHoldover => some .timebaseHoldover
  | .acquisitionComplete => some .acquisitionComplete
  | .lockAchieved => some .lockAchieved
  | .claimExpiry => some .claimExpiry
  | .handoverComplete => some .handoverComplete
  | .handoverTakeover => some .handoverTakeover
  | .recoveryComplete => some .recoveryComplete
  | .listenComplete => some .listenComplete
  | .retireTimeout => some .retireTimeout
  | .serviceLapsed => some .serviceLapsed
  | .staleTimeout j => some (.staleTimeout j)
  | .pullDeadline j => some (.pullDeadline j)
  | .scheduleEmit e | .scheduleHold e | .scheduleRepeat e | .scheduleLoop e | .scheduleNotify e | .scheduleAlign e
  | .alignComplete e | .scheduleHalt e => some (.engine e)
  | .holdEnd e => some (.holdEnd e)
  | .generatorStart g => some (.generatorStart g)
  | .compareFired k => some (.compareFired k)
  | _ => none

/-- Nothing is due and no request is held: the port handles the next request as soon as it has the block store. -/
def Ready (s : State) : Prop := s.due = [] ∧ s.port.held = []

/-- `t` with the response of this status and body ready in its transaction. -/
def responded (status : Status) (body : List Byte) (t : State) : State :=
  { t with port := { t.port with transaction := .responding (responseRecord status body t) } }

/-- The request `c` is taken at `s`: it leaves `t`, and its response is OK with this body. -/
def Taken (c : Instr) (s : State) (body : List Byte) (t : State) : Prop := exec c s = .next (responded .ok body t)

/-- The request `c` is refused at `s` with this status: nothing changes but the response. -/
def RefusedWith (c : Instr) (s : State) (status : Status) : Prop := exec c s = .next (responded status [] s)

/-- A request: one of the 34, or one of no defined kind. -/
def isRequest : Instr → Prop
  | .unknownRequest kind _ => kind = 0 ∨ 35 ≤ kind.toNat
  | c => (requestBody c).isSome = true

/-- The rows of the clock, with the step of each, the states that let it come, and what it does (notes/assumptions/4.md). -/
def clockStep : Instr → Option (Due × (State → Bool) × (State → State))
  | .slotTick => some (.slotTick, fun _ => true, slotWork)
  | .epochBoundary first => some (.epochBoundary, fun _ => true, boundaryWork first)
  | .markerWindowEnd => some (.markerWindowEnd, fun _ => true, endWindow)
  | .holdOffExpiry => some (.holdOffExpiry, fun s => s.cable.holdOff, expireHoldOff)
  | .settleComplete =>
    some (.settleComplete, fun s => s.station.state == .settling && s.pins.sense, completeSettle)
  | .generatorWrap g => some (.generatorWrap g, fun s => s.gens[g].state == .running, takeWrap g)
  | .highTimeEnd g => some (.highTimeEnd g, fun s => s.gens[g].state == .running, takeHighEnd g)
  | .markerWordSent => some (.markerWordSent, fun s => s.selector.driving.isSome, endMarkerWord)
  | _ => none

/-- No burst waits for its owner in a receive buffer (R53). -/
def nothingWaits (c : Cable) : Prop := ∀ bytes m, c.rx0 ≠ .waiting bytes m ∧ c.rx1 ≠ .waiting bytes m

/-- The interface takes a burst of these bytes (R46, R51): in GUARD or IDLE, or in RECEIVING when the bits already read
are its first (notes/assumptions/9.md, 25.md). -/
def takesBurst (c : Cable) (bytes : List Byte) : Prop :=
  c.state = .guard ∨ c.state = .idle
    ∨ c.state = .receiving ∧ (match c.rx0, c.rx1 with
      | .receiving bits, _ => bits
      | _, .receiving bits => bits
      | _, _ => []) <+: bitsOf bytes

/-- The good burst of these bytes is the one that waits in a receive buffer (R53). -/
def waitsIn (c : Cable) (bytes : List Byte) : Prop :=
  (∃ m, c.rx0 = .waiting bytes m) ∨ (∀ other n, c.rx0 ≠ .waiting other n) ∧ ∃ m, c.rx1 = .waiting bytes m

/-- No two bursts wait at once (R53: the hand-over of one is complete before the next one's reception ends). -/
def OneWaits (c : Cable) : Prop := ∀ a m b n, ¬ (c.rx0 = .waiting a m ∧ c.rx1 = .waiting b n)

/-- The cable side has still to write the BLOCK of these bytes, which waits in a receive buffer, into a ring slot (R103): a
subscription names its channel, it is no duplicate (R128), and the ring has room or makes it (R131, R132). -/
def WaitsForItsRing (s : State) (bytes : List Byte) : Prop :=
  waitsIn s.cable bytes ∧ ∃ (b : BlockBurst) (j : Fin 32),
    readBurst bytes = some (.block b) ∧ b.publisher ≠ s.station.own ∧ s.subs[j].state ≠ .unused
    ∧ s.subs[j].publisher = b.publisher ∧ s.subs[j].index = b.index ∧ s.subs[j].last ≠ some b.seq
    ∧ (s.subs[j].mode = .keepNewest ∨ (s.subs[j].ring.filter fun e => decide (e.seq ≠ b.seq)).length < 4)

/-- A reception that starts with these bits takes the free one of the receive buffers of `c` (R53), rx0 when both are free
(notes/assumptions/35.md). -/
def takingInto (c : Cable) (bits : List Bool) (after : Cable) : Cable :=
  if c.rx0 = .empty then { after with rx0 := .receiving bits } else { after with rx1 := .receiving bits }

/-- The interface when a reception has ended, with no burst waiting (R51, R53). -/
def receptionEnded (c : Cable) : Cable := { c with state := .guard, guardCount := 0, rx0 := .empty, rx1 := .empty }

/-- The good burst of these bytes, its reception ended at `m`, is handed over at `s`, which is then `after` (R51, R53, R60,
R127): at its end, when it ends its reception and the hold-off, with no other burst waiting; or later, out of the receive
buffer in which it waits, and the interface is as it was but for the buffer, which is free
(notes/assumptions/47.md, 48.md). -/
def HandsOver (bytes : List Byte) (hand : HandOver) (m : BurstEnd) (s after : State) : Prop :=
  (hand = .atEnd ∧ takesBurst s.cable bytes ∧ nothingWaits s.cable
      ∧ m = { ticks := s.timebase.ticks, state := s.timebase.state }
      ∧ after = { s with cable := { receptionEnded s.cable with holdOff := false } })
    ∨ (hand = .later
      ∧ (s.cable.rx0 = .waiting bytes m ∧ after = { s with cable := { s.cable with rx0 := .empty } }
        ∨ (∀ other n, s.cable.rx0 ≠ .waiting other n) ∧ s.cable.rx1 = .waiting bytes m
          ∧ after = { s with cable := { s.cable with rx1 := .empty } }))

/-- A clean burst of this sender is reported, after what its owner made of it (R52, R83): a SILENCED station counts it
toward its recovery, which is complete at 32, and the monitor is told of BURST_RECEIVED. -/
def received (sender : Nat) (u : State) : State :=
  let x := u.station
  occur .burstReceived (.peer sender) 1
    (if x.state = .silenced then
      { u with station := { x with recovery := min 32 (x.recovery + 1) }
               due := if 31 ≤ x.recovery then u.due ++ [.recoveryComplete] else u.due }
    else u)

/-- The interface after a removal of the queue entry of a kind (R57): a claim or a burst in flight of that entry goes on
without it, and is only marked so. -/
def withdrawnFrom (kind : EntryKind) (c : Cable) : Cable :=
  { c with
    claim := c.claim.map fun x => { x with withdrawn := x.withdrawn || decide (x.entry.kind = kind) }
    flight := c.flight.map fun x => { x with withdrawn := x.withdrawn || decide (x.entry.kind = kind) } }

/-- The interface once the receivers are off (R44, R53). -/
def interfaceOff (c : Cable) : Cable :=
  { c with state := .off, guardCount := 0, claim := none, flight := none, rx0 := .empty, rx1 := .empty }

/-- The row of the command in which engine `e` takes an entry. -/
def entryRowOf (e : Fin 4) : SchedEntry → Instr
  | .emit _ => .scheduleEmit e
  | .hold _ => .scheduleHold e
  | .repeat_ _ => .scheduleRepeat e
  | .loop => .scheduleLoop e
  | .notify _ => .scheduleNotify e
  | .align => .scheduleAlign e
  | .halt => .scheduleHalt e

/-- The row in which engine `e` takes the entry at its pointer (R146, R153): that of the entry in RUN, and ALIGN_COMPLETE
while ALIGNING. -/
def takesEntryBy (e : Fin 4) (row : Instr) (s : State) : Prop :=
  (s.engines[e].run = .run ∧ row = entryRowOf e (schedRead s.schedule s.engines[e].pointer.toNat))
    ∨ (s.engines[e].run = .aligning ∧ row = .alignComplete e)

/-- What the interval check makes of an entry (R93): heard is cleared; or a miss is counted, which silences a PRESENT
peer at 3, drops a SEEN one at 2 and a SILENT or RETIRED one at 8; MARKED stays. -/
def agedPeer (e : RosterEntry) : RosterEntry :=
  let m := e.missed + 1
  if e.state = .absent then e
  else if e.heard then { e with heard := false }
  else if (e.state = .seen ∧ 2 ≤ m) ∨ ((e.state = .silent ∨ e.state = .retired) ∧ 8 ≤ m)
    then RosterEntry.cleared e.marked
  else if e.state = .present ∧ 3 ≤ m then { e with state := .silent, missed := m }
  else { e with missed := m }

/-- The check changes the state of entry `i`, which the roster reports (R93, R97). -/
def ageReports (s : State) (i : Fin 24) : Bool := decide (s.roster[i].state ≠ (agedPeer s.roster[i]).state)

/-- The subscription is LIVE and names peer `i` (R138). -/
def subscribedTo (s : State) (i : Fin 24) (j : Fin 32) : Bool :=
  decide (s.subs[j].state = .live ∧ s.subs[j].publisher = i.val + 1)

/-- The events of the check of entry `i` (R93, R97, R138): PEER_SILENT with detail 1 of a PRESENT peer that falls silent,
PEER_GONE of a SILENT or RETIRED one that is dropped; then, at any change of state, SUB_STALE with cause 2 in ascending
number of the LIVE subscriptions to the peer. -/
def ageEvents (s : State) (i : Fin 24) : List (EventKind × Option Nat × BitVec 16) :=
  let e := s.roster[i]
  let after := (agedPeer e).state
  (if e.state = .present ∧ after = .silent then [(.peerSilent, some (i.val + 1), 1)]
    else if (e.state = .silent ∨ e.state = .retired) ∧ after = .absent then
      [(.peerGone, some (i.val + 1), BitVec.ofNat 16 e.state.code)]
    else [])
  ++ (if ageReports s i then
      ((List.finRange 32).filter (subscribedTo s i)).map fun j => (.subStale, some j.val, 2)
    else [])

/-- Consecutive fields of a body from an offset on, each of a number of bytes, most significant first, and no byte
after the last. -/
def laidOut (body : List Byte) : Nat → List (Nat × Nat) → Prop
  | offset, [] => body.length = offset
  | offset, (size, value) :: rest => field body offset size = value % 256 ^ size ∧ laidOut body (offset + size) rest

/-- A flag as a field's value. -/
def flagValue (b : Bool) : Nat := if b then 1 else 0

/-- The fields of an item that may be absent: its presence byte, then the item, 0 when absent (R213). -/
def optionalFields (size : Nat) (v : Option Nat) : List (Nat × Nat) := [(1, flagValue v.isSome), (size, v.getD 0)]

/-- The fields of an engine's state (R161, R213). -/
def engineFields (x : Engine) : List (Nat × Nat) :=
  [(1, x.run.code), (1, x.resume.code), (2, x.pointer.toNat)] ++ optionalFields 2 (x.loopStart.map (·.toNat))
    ++ [(2, x.loopCount), (2, x.hold), (1, x.prescale), (1, x.prescaleCount)]

/-- The fields of a generator's state, H' followed by the high time it would give (R165, R169, R213). -/
def generatorFields (g : Generator) : List (Nat × Nat) :=
  [(1, g.state.code), (4, g.period), (4, g.high), (4, g.stagedPeriod), (4, g.stagedHigh),
    (4, max 1 (min g.stagedHigh (g.stagedPeriod - 1))), (8, g.wrapBase.toNat), (4, g.armEpoch.toNat)]

/-- The fields of a compare's state with the current slot count (R171, R175, R213). -/
def compareFields (t : Timebase) (c : Compare) : List (Nat × Nat) :=
  [(1, c.state.code), (5, c.target.toNat)]
    ++ (match c.action with
      | .notify => [(1, 0), (1, 0)]
      | .start e => [(1, 1), (1, e.val)])
    ++ [(5, t.ticks.toNat / 2048)]

/-- The kind, by the codes of a MARK, and the number of an occurrence's subject (R184, R205). -/
def subjectFields : Subject → List (Nat × Nat)
  | .none => [(1, 0), (1, 0), (1, 0)]
  | .peer a => [(1, 1), (1, 0), (1, a)]
  | .publication k => [(1, 1), (1, 1), (1, k.val)]
  | .subscription j => [(1, 1), (1, 2), (1, j.val)]

/-- The fields of the monitor's whole state (R186, R187, R213). -/
def monitorFields (m : Monitor) : List (Nat × Nat) :=
  ((List.finRange 4).flatMap fun i =>
    let c := m.counters[i]
    [(4, c.value), (1, flagValue (decide (2 ^ 31 ≤ c.value))), (1, c.selection), (1, flagValue c.notify),
      (1, flagValue c.await0), (1, flagValue c.gateOpen)])
    ++ [(1, flagValue m.marked), (1, flagValue m.freeze), (1, flagValue m.frozen)]
    ++ (match m.snapshot with
      | none => [(1, 0), (13, 0)]
      | some x => [(1, 1), (1, x.counter.val), (4, x.epoch.toNat), (4, x.tick), (1, x.selection)]
        ++ subjectFields x.subject)
    ++ [(1, m.further)]

/-- `E` is the epoch field of a marker extended to full width at the own epoch `own` of its capture (R8): the value with
these low 32 bits in own - 2^31 .. own + 2^31 - 1, or the lowest non-negative one when that interval holds none. -/
def extendsEpoch (own field E : Nat) : Prop :=
  E % 2 ^ 32 = field ∧ own ≤ E + 2 ^ 31 ∧ (E < own + 2 ^ 31 ∨ E < 2 ^ 32)

/-- The timebase unit with what every valid marker sets, its epoch extended to `E`, before the rule of the timebase state
(R7, R8, R21): the phase error limited to 64 bits, the last marker fields, the expectation, no miss, the window marked,
the source believed, the capture taken. The settings and all else stay. -/
def markerTaken (m : MarkerFields) (E : Nat) (s : State) : Timebase :=
  { s.timebase with
    phaseError := max (-2 ^ 63) (min (2 ^ 63 - 1)
      ((E * 2 ^ 33 : Nat) + s.timebase.settings.trim - (s.timebase.capture.getD 0 : Nat)))
    missCount := 0, windowMark := true, capture := none, believed := m.source
    lastEpoch := E % 2 ^ 47, lastTarget := m.target, lastCountdown := m.countdown
    expectation := if m.target = s.station.own ∧ m.countdown = 1 then some ((E + 1) % 2 ^ 47) else none }

/-- Rack time after a phase step of `e` fine units (R10), from `x` to `y`: the sum modulo 2^96 units of 2^-32 tick, the
bottom of the fraction kept. -/
def SteppedRack (e : Int) (x y : Timebase) : Prop :=
  (rackTotal y : Int) = ((rackTotal x : Int) + e * 65536) % 2 ^ 96 ∧ y.frac.toNat % 65536 = x.frac.toNat % 65536

/-- What a phase step of `e` fine units makes fall due at `s` (R11, R60): a forward step that changes the slot count one
slot tick, and one that changes the epoch number one epoch boundary; and the end of a hold-off whose deadline rack time
has reached, modulo 2^48. -/
def stepDues (e : Int) (s : State) : List Due :=
  let before := s.timebase.ticks.toNat
  let after : Int := ((rackTotal s.timebase : Int) + e * 65536) / 2 ^ 32
  (if 0 < e ∧ ((before / 2048 : Nat) : Int) < after / 2048 then [.slotTick] else [])
    ++ (if 0 < e ∧ ((before / 131072 : Nat) : Int) < after / 131072 then [.epochBoundary] else [])
    ++ (if s.cable.holdOff = true ∧ (BitVec.ofInt 48 after - s.cable.holdOffDeadline).toNat < 2 ^ 47
        then [.holdOffExpiry] else [])

/-- The receiver-off entry of the timebase unit, from `x` to `y` (R22): SOURCE, TRACK and LOCKED go to HOLDOVER with A set
to I, ACQUIRE to FREE with both 0; the counts, the believed source, the expectation and the window mark go. -/
def ReceiversOff (x y : Timebase) : Prop :=
  y.state = (match x.state with
    | .source | .track | .locked | .holdover => .holdover
    | .acquire | .free => .free)
  ∧ y.rate = (match x.state with
    | .source | .track | .locked => x.integral
    | .acquire => 0
    | .free | .holdover => x.rate)
  ∧ y.integral = (if x.state = .acquire then 0 else x.integral)
  ∧ y = { x with
      state := y.state, rate := y.rate, integral := y.integral, missCount := 0, lockRun := 0, searchStep := 0,
      decisions := 0, believed := 0, expectation := none, windowMark := false, windowSkip := false, capture := none }

/-- The roster and the subscriptions as the source selector sees them at a boundary: after the interval check of a
presence-interval boundary, where that comes first (R98). -/
def selectorView (first : Bool) (s : State) : State :=
  if first = true ∧ s.timebase.ticks.toNat / 131072 % 8 = 0 then intervalCheck s else s

/-- The boundary ends a retirement (R39, R76): the RETIRE was sent, and the search of a SOURCE without a handover record
or the release finds no successor. -/
def retirementEnds (first : Bool) (s : State) : Prop :=
  s.station.state = .retiring ∧ s.station.retireSent = true ∧ s.timebase.state = .source ∧ s.selector.record = none
    ∧ s.selector.release = false ∧ successor (selectorView first s) = none

/-- `t` has left the rack from `s` (R65, R74, R76): DETACHED, its counts and its score 0, the transmit queue empty, the
interface OFF, SAFE high, and the timebase unit after its receiver-off entry. -/
def LeftTheRack (s t : State) : Prop :=
  t.station.state = .detached ∧ t.station.faultScore = 0 ∧ t.station.caution = false ∧ t.station.retireSent = false
    ∧ t.station.retireTimer = 0 ∧ t.station.clash = 0 ∧ t.station.recovery = 0 ∧ t.station.listen = 0
    ∧ t.txQueue = [] ∧ t.cable.state = .off ∧ t.cable.holdOff = false ∧ safePin t = true
    ∧ ReceiversOff s.timebase t.timebase

/-- `t` is SILENCED from `s` (R65, R80, R82): score 255, recovery count 0, the interface in GUARD, the source role lost
for HOLDOVER; a station that had the drivers has its transmit queue, hold-off and FRESH pending cleared. The first event
is the change of state. -/
def FellSilent (s t : State) : Prop :=
  t.station.state = .silenced ∧ t.station.faultScore = 255 ∧ t.station.recovery = 0 ∧ t.station.retireSent = false
    ∧ t.station.retireTimer = 0 ∧ t.cable.state = .guard ∧ t.roster = s.roster ∧ t.subs = s.subs
    ∧ (s.timebase.state = .source → t.timebase.state = .holdover ∧ t.timebase.rate = s.timebase.integral
      ∧ t.selector.record = none ∧ t.selector.driving = none)
    ∧ (s.timebase.state ≠ .source → t.timebase = s.timebase)
    ∧ (driversOn s.station.state = true → t.txQueue = [] ∧ t.cable.holdOff = false ∧ t.station.freshPending = false)
    ∧ (s.port.events = [] → s.monitor.frozen = true → t.port.events.head?.map (fun v => (v.kind, v.detail))
      = some (.stationState, BitVec.ofNat 16 (s.station.state.code * 4096 + 0x80C)))

/-- `s` after these events are raised in turn, each with its kind, subject and detail. -/
def raised (events : List (EventKind × Option Nat × BitVec 16)) (s : State) : State :=
  events.foldl (fun u v => raise v.1 v.2.1 v.2.2 u) s

/-- The events of a role lost (R20, R38): HANDOVER_FAIL cause 5 of a record held, then TIMEBASE_STATE; none of a station
that is not SOURCE. -/
def roleEvents (s : State) : List (EventKind × Option Nat × BitVec 16) :=
  if s.timebase.state = .source then
    (match s.selector.record with
      | none => []
      | some h => [(.handoverFail, some h.target, 5)]) ++ [(.timebaseState, none, 0x0504)]
  else []

/-- The events of the receiver-off entry (R22, R24, R38). -/
def receiversOffEvents (s : State) : List (EventKind × Option Nat × BitVec 16) :=
  match s.timebase.state with
  | .source => roleEvents s
  | .track => [(.timebaseState, none, 0x0204)]
  | .locked => [(.timebaseState, none, 0x0304)]
  | .acquire => [(.timebaseState, none, 0x0100)]
  | .free | .holdover => []

/-- CAUTION_OFF where the return of the score to 0 clears CAUTION (R81). -/
def cautionEvents (s : State) : List (EventKind × Option Nat × BitVec 16) :=
  if s.station.caution then [(.cautionOff, none, 0)] else []

/-- The loss of the cable finds this entry SEEN, PRESENT or RETIRED (R96). -/
def losesPeer (e : RosterEntry) : Bool := decide (e.state = .seen ∨ e.state = .present ∨ e.state = .retired)

/-- The events of a lost cable (R96, R97, R138): for each peer lost, in ascending address, PEER_SILENT with detail 2 and
then, in ascending number, SUB_STALE with cause 2 for the LIVE subscriptions to it. -/
def lostPeerEvents (s : State) : List (EventKind × Option Nat × BitVec 16) :=
  ((List.finRange 24).filter fun i => losesPeer s.roster[i]).flatMap fun i =>
    (.peerSilent, some (i.val + 1), 2) ::
      ((List.finRange 32).filter fun j => decide (s.subs[j].state = .live ∧ s.subs[j].publisher = i.val + 1)).map
        fun j => (.subStale, some j.val, 2)

/-- The selector of a station whose receivers go off (R22, R33, R38): a SOURCE loses its record, release and drive. -/
def selectorOff (s : State) : Selector :=
  if s.timebase.state = .source then { s.selector with record := none, release := false, driving := none }
  else s.selector

/-- No commit waits for the end of the burst whose buffer is bound (R112, R117). -/
def NoCommitWaits (s : State) : Prop := ∀ k, s.cable.binding = some k → s.pubs[k].commitPending = false

/-- The detail of STATION_STATE (R66, R212): previous state, new state, cause. -/
def stationCode (before after : StationState) (cause : Nat) : BitVec 16 :=
  BitVec.ofNat 16 (before.code * 4096 + after.code * 256 + cause)

/-- Epoch `n` is at or after epoch `e` (00, Conventions): their difference modulo 2^47 lies in the lower half. -/
def epochAtOrAfter (n e : Nat) : Bool := decide ((n + (2 ^ 47 - e % 2 ^ 47)) % 2 ^ 47 < 2 ^ 46)

/-- The entry of schedule memory that a kind byte and an operand stand for (R144, R211): 01 EMIT, 02 HOLD, 03 REPEAT,
04 LOOP, 05 NOTIFY, 06 ALIGN, 07 HALT, each operand in its range; none for any other. -/
def scheduleEntry (kind operand : Nat) : Option SchedEntry :=
  if kind = 1 then if h : operand < 16 then some (.emit ⟨operand, h⟩) else none
  else if kind = 2 then some (.hold (BitVec.ofNat 16 operand))
  else if kind = 3 ∧ operand < 4096 then some (.repeat_ (BitVec.ofNat 12 operand))
  else if kind = 5 then some (.notify (BitVec.ofNat 16 operand))
  else if operand ≠ 0 then none
  else if kind = 4 then some .loop
  else if kind = 6 then some .align
  else if kind = 7 then some .halt
  else none

/-- The announcements of a PRESENCE (R48): every ACTIVE or HELD publication and no other, in ascending index, with its
width, samples per block, urgent flag and whether it is HELD. -/
def Announces (s : State) (list : List Announcement) : Prop :=
  list.Pairwise (fun a b => a.index.val < b.index.val)
  ∧ (∀ k : Fin 16, (∃ a ∈ list, a.index = k) ↔ s.pubs[k].state = .active ∨ s.pubs[k].state = .held)
  ∧ ∀ a ∈ list, a.width = s.pubs[a.index].width ∧ a.samples = s.pubs[a.index].samples
      ∧ a.urgent = s.pubs[a.index].urgent ∧ (a.held = true ↔ s.pubs[a.index].state = .held)

/-- The classes that carry a burst of a kind (03, 3.4). -/
def burstClasses : Burst → List Nat
  | .presence _ => [0]
  | .retire _ _ => [1]
  | .pull _ _ _ => [2]
  | .block _ => [3, 4]

/-- The fields of a burst lie in the ranges of R51, R208 and R210. -/
def burstInRange : Burst → Prop
  | .presence p => 1 ≤ p.sender ∧ p.sender ≤ 24 ∧ p.grade ≤ 7 ∧ p.believed ≤ 24 ∧ p.pubs.length ≤ 16
      ∧ p.pubs.Pairwise (fun a b => a.index.val < b.index.val)
      ∧ ∀ a ∈ p.pubs, 1 ≤ a.samples ∧ a.samples ≤ a.width.limit
  | .retire a succ => 1 ≤ a ∧ a ≤ 24 ∧ succ ≤ 24 ∧ succ ≠ a
  | .pull a pub _ => 1 ≤ a ∧ a ≤ 24 ∧ 1 ≤ pub ∧ pub ≤ 24
  | .block b => 1 ≤ b.publisher ∧ b.publisher ≤ 24 ∧ 1 ≤ b.count ∧ b.count ≤ b.width.limit
      ∧ b.payload.length = b.count * b.width.bytes ∧ ∀ g, b.flags.gap = some g → 1 ≤ g ∧ g ≤ 65535

end Sys2Proof.Claims

section

open Sys2Proof Sys2Proof.Machine Sys2Proof.Claims

/-! ### The step, the queue of commands, the local clock -/

/-- A step takes the command at the front of the queue and has its meaning on the state with the queue's rest. -/
def Obligations.StepTakesTheFrontCommand : Prop :=
  ∀ (c : Instr) (rest : List Instr) (s : State),
    step { s with pending := c :: rest } = exec c { s with pending := rest }

/-- With no command waiting and nothing to be taken a step is one local clock period (R1): rack time in units of 2^-32
tick grows by 2^32 + A, modulo 2^96; the settle count (R69) and the bit times of a marker word (R206) count it, a
generator whose count lies in its high time is high (R163), and the timebase unit and the rest of the part otherwise
stay. What the advance makes fall due, and nothing else does: a slot tick and an epoch boundary (R3), a window's end at
an odd multiple of 2^16 ticks (R9), the end of the settle count (R69), of the hold-off (R60), of the word (R32), a
generator's wrap (R164) and the end of its high time (R163). That an empty queue lets one period pass is the model's
choice (notes/assumptions/3.md), and so is the field that holds what is due (notes/assumptions/2.md). -/
def Obligations.IdleStepAdvancesRackTimeByOnePeriod : Prop :=
  ∀ s : State, s.pending = [] → quiet s = true →
    ∃ t, step s = .next t
      ∧ (rackTotal t.timebase : Int) = ((rackTotal s.timebase : Int) + 4294967296 + s.timebase.rate) % 2 ^ 96
      ∧ t.timebase = { s.timebase with ticks := t.timebase.ticks, frac := t.timebase.frac }
      ∧ t.station = { s.station with settle :=
          if s.station.state = .settling ∧ s.pins.sense = true then min 4096 (s.station.settle + 1)
          else s.station.settle }
      ∧ t.selector = { s.selector with driving := s.selector.driving.map fun w => { w with left := w.left - 1 } }
      ∧ (let x := s.timebase.ticks
        let y := t.timebase.ticks
        let count := fun g : Fin 2 => (y - s.gens[g].wrapBase).toInt
        (∀ g : Fin 2, t.gens[g] = { s.gens[g] with out := (s.gens[g].out
            || decide (s.gens[g].state = .running ∧ count g < s.gens[g].period ∧ count g < s.gens[g].high)) })
        ∧ ∀ d, d ∈ t.due ↔ match d with
          | .slotTick => x.toNat / 2048 ≠ y.toNat / 2048
          | .epochBoundary => x.toNat / 131072 ≠ y.toNat / 131072
          | .markerWindowEnd => (x + 65536).toNat / 131072 ≠ (y + 65536).toNat / 131072
          | .holdOffExpiry =>
            s.cable.holdOff = true ∧ (y.setWidth 48 - s.cable.holdOffDeadline).toNat < 2 ^ 47
          | .settleComplete => s.station.state = .settling ∧ s.pins.sense = true ∧ 4095 ≤ s.station.settle
          | .markerWordSent => ∃ w, s.selector.driving = some w ∧ w.left ≤ 1
          | .generatorWrap g => s.gens[g].state = .running ∧ (s.gens[g].period : Int) ≤ count g
          | .highTimeEnd g => s.gens[g].state = .running ∧ count g < s.gens[g].period
              ∧ (s.gens[g].high : Int) ≤ count g ∧ s.gens[g].out = true
          | _ => False)
      ∧ t = { s with timebase := t.timebase, station := t.station, selector := t.selector, gens := t.gens, due := t.due }

/-- A row of the clock (R3, R9, R31, R60, R69, R163, R164): its step is taken when it is due; when it is not due, and the
state does not let it come, what is due is taken and the row has no effect; otherwise local clock periods pass, each as
an idle step makes it, up to the first at which the step is due, and then it is taken (notes/assumptions/4.md: the
model's choice). Up to 262,144 periods; the generators' values are in their ranges. -/
def Obligations.ClockRowsLetTimePassToTheirStep : Prop :=
  ∀ (c : Instr) (d : Due) (comes : State → Bool) (act : State → State) (s : State),
    clockStep c = some (d, comes, act) →
    (d ∈ s.due → exec c s = .next (act (clearDue d s)))
    ∧ (d ∉ s.due → comes (settled s) = false → exec c s = .next (settled s))
    ∧ (ClocksInRange s → ∀ n, n < 262144 →
      (∀ k, k ≤ n → d ∉ (idle^[k] s).due ∧ comes (settled (idle^[k] s)) = true) → d ∈ (idle^[n + 1] s).due →
      exec c s = .next (act (clearDue d (idle^[n + 1] s))))

/-- Once what is due has been taken, nothing is left to take: no step that falls due comes of itself without end. A
request, and a row that tells of something outside, find a part in which all that was due has been taken, and the
requests that no longer wait for the block store handled; a received burst finds the same but for the subscriptions'
tests of a boundary, which may come after it (R139, R141), and a grant of the drain the same but for the held requests,
which come after it (R103). The row of a step that is not due has no effect of its own. These are the model's choices (notes/assumptions/1.md, 2.md, 10.md). -/
def Obligations.CommandsFirstTakeWhatIsDue : Prop :=
  (∀ s : State, quiet (settled s) = true)
  ∧ (∀ (c : Instr) (s : State), (fromOutside c = true ∨ (requestBody c).isSome = true) → exec c s = exec c (settled s))
  ∧ (∀ (bytes : List Byte) (hand : HandOver) (s : State),
      exec (.goodBurstReceived bytes hand) s = exec (.goodBurstReceived bytes hand) (settledForBurst s)
      ∧ ∀ d ∈ (settledForBurst s).due, ∃ j, d = .staleTimeout j ∨ d = .pullDeadline j)
  ∧ (∀ s : State, (dueTaken s).due = [] ∧ exec .drainSample s = exec .drainSample (dueTaken s)
      ∧ settled s = settled (dueTaken s))
  ∧ ∀ (c : Instr) (s : State) (d : Due), followingStep c = some d → quiet s = true → exec c s = .next s

/-- Power-on reset puts every block at its stated values (R4, R28, R44, R54, R63, R64, R87, R102, R104, R107, R124, R144,
R145, R162, R170, R176, R203), whatever the state before, field by field; the START_FAULT event is the first when ADDR
is out of range, and a port whose SSN is low at the release sends nothing. The values of the model-named fields are
those of notes/assumptions/22.md, and the hold-off deadline of 0 is the model's choice (18.md), as is that the waiting
commands stand through the row (7.md). -/
def Obligations.PowerOnResetSetsEveryBlock : Prop :=
  ∀ (p : Pins) (ssn : Bool) (s : State), ∃ t, exec (.powerOnReset p ssn) s = .next t
    ∧ t.pins = p ∧ t.pending = s.pending ∧ t.due = []
    ∧ (let good := decide (1 ≤ p.addr.toNat ∧ p.addr.toNat ≤ 24)
      t.timebase =
        { state := .free, ticks := 0, frac := 0, rate := 0, integral := 0, phaseError := 0, searchStep := 0,
          decisions := 0, lockRun := 0, missCount := 0, believed := 0, lastEpoch := 0, lastTarget := 0,
          lastCountdown := 0, expectation := none, windowMark := false, windowSkip := false, capture := none,
          settings := { p := 2, i := 6, lock := 16384, alarm := 262144, step := 256, trim := 0 } }
      ∧ t.selector =
        { grade := gradeOf p.refclass p.elig p.prefer p.refok, eligible := p.elig, countdown := none, record := none,
          release := false, firstDrive := none, driving := none }
      ∧ t.cable =
        { state := .off, guardCount := 0, claim := none, flight := none, binding := none, holdOff := false,
          holdOffDeadline := 0, rx0 := .empty, rx1 := .empty }
      ∧ t.txQueue = []
      ∧ t.station =
        { state := .offline, startFault := !good, own := if good then p.addr.toNat else 0
          straps := { addr := p.addr, refclass := p.refclass, elig := p.elig, prefer := p.prefer }
          faultScore := 0, caution := false, settle := 0, listen := 0, retireTimer := 0, retireSent := false,
          clash := 0, recovery := 0, freshPending := false, hostAlive := true, lapse := 0, interval := 0 }
      ∧ t.port =
        { events := if good then [] else
            [{ kind := .startFault, epoch := 0, tick := 0, subject := none, detail := p.addr.setWidth 16 }]
          lost := false, transaction := if ssn then .closed [] else .ignored, held := [] })
    ∧ (∀ n, sentByte t n = none) ∧ safePin t = true
    ∧ (∀ i : Fin 24, t.roster[i] =
        { state := .absent, grade := 0, eligible := false, timebase := .free, believed := 0, hostAlive := true,
          pubs := [], missed := 0, heard := false, lastPresence := 0, marked := false })
    ∧ (∀ k : Fin 16, t.partials[k] = { high := none, voidLow := false }
      ∧ t.pubs[k] =
        { state := .unused, feed := .portFed, width := .w16, samples := 1, urgent := false, policy := .freshOnly,
          readySlot := 2 * k.val, fillSlot := 2 * k.val + 1, ready := none, fillCount := 0, fillTime := 0,
          fillCapture := .free, nextSeq := 0, isNew := false, fillOpen := false, commitPending := false, gap := 0,
          pullPending := false, marked := false })
    ∧ (t.fifo = [] ∧ t.portRejects = 0 ∧ t.unknownPulls = 0 ∧ ∀ a, Memory.read t.store a = 0)
    ∧ (∀ j : Fin 32, t.subs[j] =
        { state := .unused, publisher := 0, index := 0, mode := .keepOldest, ring := [], last := none, overruns := 0,
          duplicates := 0, lates := 0, lateThreshold := 0, staleTimeout := 32, lastBlock := 0,
          overrunReported := false, pull := none, marked := false })
    ∧ (∀ a, schedRead t.schedule a = .halt)
    ∧ (∀ e : Fin 4, t.engines[e] =
        { run := .stopped, resume := .run, pointer := 0, loopStart := none, loopCount := 0, hold := 0, prescale := 0,
          prescaleCount := 0 })
    ∧ (∀ g : Fin 2, t.gens[g] =
        { state := .off, period := 2, high := 1, stagedPeriod := 2, stagedHigh := 1, wrapBase := 0, armEpoch := 0,
          out := false })
    ∧ (∀ k : Fin 4, t.compares[k] = { state := .idle, target := 0, action := .notify })
    ∧ (∀ i : Fin 4, t.monitor.counters[i] =
        { value := 0, selection := 0, notify := false, await0 := false, gateOpen := false })
    ∧ (t.monitor.marked = false ∧ t.monitor.freeze = false ∧ t.monitor.frozen = false ∧ t.monitor.snapshot = none
      ∧ t.monitor.further = 0)

/-- The request record of every well-formed request is read back as that request, whatever bytes follow it in the
transaction, and a transaction cut before its record is complete gives RECORD_DISCARDED (R189, R190, R211). -/
def Obligations.RequestRecordsAreReadBack : Prop :=
  (∀ i : Instr, Sys2Proof.Laws.F.Statement i)
  ∧ ∀ (i : Instr) (bytes : List Byte) (n : Nat), i.wellFormed = true → i.record = some bytes → n < bytes.length →
      commandOfTransaction (bytes.take n) = .recordDiscarded .cut

/-! ### Rack time (01) -/

/-- Markers that are captured, and markers that are not taken (R6, R7): an edge while the receivers are on, the timebase
not SOURCE and no word in reception is captured in fine units; a word that is not valid, or meets a SOURCE, or was not
received, drops the capture; nothing else changes. -/
def Obligations.MarkersCapturedAndDropped : Prop :=
  ∀ s : State, quiet s = true →
    let dropped := { s with timebase := { s.timebase with capture := none } }
    (receiversOn s.station.state = true → s.timebase.state ≠ .source → s.timebase.capture = none →
      exec .markerCapture s = .next { s with timebase := { s.timebase with
        capture := some (s.timebase.ticks.toNat * 65536 + s.timebase.frac.toNat / 65536) } })
    ∧ (receiversOn s.station.state = false ∨ s.timebase.state = .source ∨ s.timebase.capture ≠ none →
      exec .markerCapture s = .next s)
    ∧ exec .markerNotReceived s = .next dropped
    ∧ ∀ word : BitVec 64,
      (readMarker word = none ∨ s.timebase.state = .source → s.timebase.capture ≠ none →
        exec (.validMarker word) s = .next dropped)
      ∧ (s.timebase.capture = none → exec (.validMarker word) s = .next s)

/-- A valid marker taken in TRACK or LOCKED with |e| below the step threshold (R7, R8, R16, R17, R21, R30). `E` is the
marker's epoch at full width, nearest the own epoch of the capture `C`; e = E x 2^33 + T - C. That the epoch numbers kept
are 47 bits is DEDUCED (notes/assumptions/44.md). -/
def Obligations.TrackedMarkersUpdateTheLoop : Prop :=
  ∀ (word : BitVec 64) (m : MarkerFields) (C E : Nat) (s : State), quiet s = true →
    readMarker word = some m → s.timebase.capture = some C →
    (s.timebase.state = .track ∨ s.timebase.state = .locked) →
    extendsEpoch (C / 2 ^ 33) m.epoch.toNat E →
    let x := s.timebase
    let e : Int := (E * 2 ^ 33 : Nat) + x.settings.trim - C
    e.natAbs < x.settings.step * 65536 →
    let I := max (-2 ^ 20) (min (2 ^ 20) (x.integral + e / 2 ^ x.settings.i))
    let A := max (-2 ^ 20) (min (2 ^ 20) (I + e / 2 ^ x.settings.p))
    ∃ t, exec (.validMarker word) s = .next t
      ∧ t.timebase = { markerTaken m E s with
          integral := I, rate := A, state := t.timebase.state, lockRun := t.timebase.lockRun }
      ∧ (x.state = .track → t.timebase.state = .track
        ∧ t.timebase.lockRun = (if e.natAbs ≤ x.settings.lock then min 8 (x.lockRun + 1) else 0)
        ∧ t.due = (if e.natAbs ≤ x.settings.lock ∧ 7 ≤ x.lockRun then [.lockAchieved] else []) ∧ t.port = s.port)
      ∧ (x.state = .locked → t.due = []
        ∧ (e.natAbs ≤ x.settings.alarm →
          t.timebase.state = .locked ∧ t.timebase.lockRun = x.lockRun ∧ t.port = s.port)
        ∧ (x.settings.alarm < e.natAbs → t.timebase.state = .track ∧ t.timebase.lockRun = 0
          ∧ t.port = (raise .timebaseState none 0x0302 (raise .phaseAlarm (some m.source)
              (BitVec.ofNat 16 (min 65535 (e.natAbs / 65536))) s)).port))
      ∧ t = { s with timebase := t.timebase, selector := { s.selector with countdown := none }
                     port := t.port, due := t.due }

/-- A valid marker that steps rack time with PHASE_STEP: in FREE whatever its e (R12), in TRACK, LOCKED and HOLDOVER
when |e| reaches the step threshold (R15, R19). Rack time moves by e fine units, the bottom of the fraction kept
(R10); the generators realign (R168); a forward step makes at most one slot tick and one epoch boundary fall due
(R11), and a deadline that rack time reaches ends the hold-off (R60). PHASE_STEP names the marker's source and the step
in whole ticks, e / 2^16 rounded down and limited to -32,767..+32,767, before the TIMEBASE_STATE of a change (R10, R24),
both at the rack time after the step; then the PHASE_STEP occurrence is told to the monitor (R177). Three points are the
model's: what falls due is held in its field `due` (notes/assumptions/2.md); it follows all of the marker, its events
and its occurrence (DESIGN CHOICE, 43.md); the epoch numbers kept are 47 bits (DEDUCED, 44.md). -/
def Obligations.SteppedMarkersMoveRackTime : Prop :=
  ∀ (word : BitVec 64) (m : MarkerFields) (C E : Nat) (s : State), quiet s = true →
    readMarker word = some m → s.timebase.capture = some C →
    extendsEpoch (C / 2 ^ 33) m.epoch.toNat E →
    let x := s.timebase
    let e : Int := (E * 2 ^ 33 : Nat) + x.settings.trim - C
    (x.state = .free ∨ (x.state = .track ∨ x.state = .locked ∨ x.state = .holdover)
        ∧ x.settings.step * 65536 ≤ e.natAbs) →
    ∃ t, exec (.validMarker word) s = .next t
      ∧ SteppedRack e x t.timebase
      ∧ (∀ g : Fin 2, t.gens[g] = realign t.timebase.ticks s.gens[g])
      ∧ t.due = stepDues e s
      ∧ (let y := markerTaken m E s
        t.timebase = (match x.state with
          | .free =>
            { y with state := .acquire, rate := 0, integral := 0, searchStep := 2 ^ 19, decisions := 0, lockRun := 0
                     ticks := t.timebase.ticks, frac := t.timebase.frac }
          | .holdover => { y with state := .track, lockRun := 0, ticks := t.timebase.ticks, frac := t.timebase.frac }
          | _ =>
            { y with state := .track, rate := x.integral, lockRun := 0
                     ticks := t.timebase.ticks, frac := t.timebase.frac }))
      ∧ (let detail := BitVec.ofInt 16 (max (-32767) (min 32767 (e / 65536)))
        let stepped := raise .phaseStep (some m.source) detail { s with timebase := t.timebase }
        let moved := match x.state with
          | .free => raise .timebaseState none 0x0001 stepped
          | .locked => raise .timebaseState none 0x0302 stepped
          | .holdover => raise .timebaseState none 0x0402 stepped
          | _ => stepped
        let told := occur .phaseStep (.peer m.source) 1 moved
        t.port = told.port ∧ t.monitor = told.monitor)
      ∧ t = { s with timebase := t.timebase, selector := { s.selector with countdown := none }, gens := t.gens
                     monitor := t.monitor, port := t.port, due := t.due }

/-- A valid marker in ACQUIRE makes one decision and re-centres rack time without an event (R10, R13): the generators
realign (R168), and what a step makes fall due does so here too (R11, R60), with the completion after the 20th decision.
One in HOLDOVER below the step threshold ends the holdover without a step, a loop update or a lock check (R19). Both
have the effects of every valid marker (R7, R8, R21). Three points are the model's: what falls due is held in its field
`due` (notes/assumptions/2.md); the work of a step follows all of the marker (DESIGN CHOICE, 43.md); the epoch numbers
kept are 47 bits (DEDUCED, 44.md). -/
def Obligations.AcquisitionDecidesHoldoverEnds : Prop :=
  ∀ (word : BitVec 64) (m : MarkerFields) (C E : Nat) (s : State), quiet s = true →
    readMarker word = some m → s.timebase.capture = some C →
    extendsEpoch (C / 2 ^ 33) m.epoch.toNat E →
    let x := s.timebase
    let e : Int := (E * 2 ^ 33 : Nat) + x.settings.trim - C
    let y := markerTaken m E s
    (x.state = .acquire →
      ∃ t, exec (.validMarker word) s = .next t
        ∧ SteppedRack e x t.timebase
        ∧ (∀ g : Fin 2, t.gens[g] = realign t.timebase.ticks s.gens[g])
        ∧ t.timebase = { y with
            rate := x.rate + (if 0 < e then (x.searchStep : Int) else if e < 0 then -x.searchStep else 0)
            searchStep := x.searchStep / 2, decisions := x.decisions + 1
            ticks := t.timebase.ticks, frac := t.timebase.frac }
        ∧ t.due = stepDues e s ++ (if 20 ≤ x.decisions + 1 then [.acquisitionComplete] else [])
        ∧ t = { s with timebase := t.timebase, selector := { s.selector with countdown := none }, gens := t.gens
                       due := t.due })
    ∧ (x.state = .holdover → e.natAbs < x.settings.step * 65536 →
      ∃ t, exec (.validMarker word) s = .next t
        ∧ t.timebase = { y with state := .track, lockRun := 0 }
        ∧ t.port = (raise .timebaseState none 0x0402 s).port ∧ t.due = []
        ∧ t = { s with timebase := t.timebase, selector := { s.selector with countdown := none }, port := t.port })

/-- What the counts of the timebase unit bring: the end of acquisition (R13), the lock (R17), the abandoning of
acquisition (R14), the holdover (R18), each with its TIMEBASE_STATE (R24). The end of a marker window (R9): without a mark
the miss count rises and MARKER_MISSED is told with the believed source; the third miss brings R14 or R18; a window is not
judged while the receivers are off, in SOURCE, or when it was in progress as the receivers came on or SOURCE was left for
HOLDOVER. The flag of such a window, `windowSkip`, is the model's (DEDUCED, notes/assumptions/23.md). That the end of every
window clears it is the model's choice (DESIGN CHOICE, 51.md): a phase step leaves the flag with the window then current,
so an unjudged window that a backward step leaves and rack time enters again is judged, and can be missed, with its
MARKER_MISSED and its miss count; R9 does not say. The monitor is told of the third miss before the TIMEBASE_STATE it
brings by the model's choice too (15.md), and `due` holds what falls due (2.md). -/
def Obligations.WindowsAndCountsMoveTheTimebase : Prop :=
  (∀ s : State,
     let x := s.timebase
     (Due.acquisitionComplete ∈ s.due → x.state = .acquire → 20 ≤ x.decisions →
       exec .acquisitionComplete s = .next (raise .timebaseState none 0x0102 { clearDue .acquisitionComplete s with
         timebase := { x with state := .track, integral := x.rate, lockRun := 0 } }))
     ∧ (Due.lockAchieved ∈ s.due → x.state = .track → 8 ≤ x.lockRun →
       exec .lockAchieved s = .next (raise .timebaseState none 0x0203 { clearDue .lockAchieved s with
         timebase := { x with state := .locked } }))
     ∧ (Due.acquisitionAbandoned ∈ s.due → x.state = .acquire → 3 ≤ x.missCount →
       exec .acquisitionAbandoned s = .next (raise .timebaseState none 0x0100 { clearDue .acquisitionAbandoned s with
         timebase := { x with state := .free, rate := 0, integral := 0, searchStep := 0, decisions := 0, believed := 0,
                              expectation := none } }))
     ∧ (Due.timebaseHoldover ∈ s.due → 3 ≤ x.missCount →
       let u := { clearDue .timebaseHoldover s with
         timebase := { x with state := .holdover, rate := x.integral, believed := 0, expectation := none } }
       (x.state = .track → exec .timebaseHoldover s = .next (raise .timebaseState none 0x0204 u))
       ∧ (x.state = .locked → exec .timebaseHoldover s = .next (raise .timebaseState none 0x0304 u))))
  ∧ (∀ s : State, Due.markerWindowEnd ∈ s.due →
       let x := s.timebase
       let judged := receiversOn s.station.state = true ∧ x.state ≠ .source
       let missed := judged ∧ x.windowSkip = false ∧ x.windowMark = false
       let misses := if ¬ judged then 0 else if missed then min 255 (x.missCount + 1) else x.missCount
       let b := x.believed
       let told := occur .markerMissed (if b = 0 then .none else .peer b) 1 s
       ∃ t, exec .markerWindowEnd s = .next t
         ∧ t.timebase = { x with missCount := misses, windowMark := false, windowSkip := false }
         ∧ t.monitor = (if missed then told.monitor else s.monitor) ∧ t.port = (if missed then told.port else s.port)
         ∧ (Due.acquisitionAbandoned ∈ t.due ↔ Due.acquisitionAbandoned ∈ s.due
             ∨ missed ∧ 3 ≤ misses ∧ x.state = .acquire)
         ∧ (Due.timebaseHoldover ∈ t.due ↔ Due.timebaseHoldover ∈ s.due
             ∨ missed ∧ 3 ≤ misses ∧ (x.state = .track ∨ x.state = .locked))
         ∧ t = { s with timebase := t.timebase, monitor := t.monitor, port := t.port, due := t.due })

/-! ### The source role (02) -/

/-- REFOK is followed at once (R26): the grade by the table of reference classes, plus 1 with PREFER up to 7, and 0
for a station whose ELIG strap is low; nothing else changes. The ranking of R27 (higher grade, then incumbency, then
lower address) is a total order of candidates with distinct addresses; and the search of R34 and R39 finds the first,
by that ranking, of the peers that are PRESENT, announce eligible and last announced LOCKED, and finds none exactly
when there is none. A peer is ranked by the grade, the incumbency (its address is the believed source, or it last
announced SOURCE) and the address, this station by its own grade, SOURCE as its incumbency, and its address (R27);
this station ranks first when it is eligible and ranks above every peer that is PRESENT and announces eligible (R29).
The re-check of a target gives the first cause that applies: 3 for RETIRED, 1 for another state than PRESENT, 2 for
another timebase state than LOCKED (R35). -/
def Obligations.GradesRankAndTheSearchFindsTheFirst : Prop :=
  (∀ (level : Bool) (s : State), quiet s = true →
    let k := s.station.straps
    ∃ grade, exec (.refokChange level) s = .next { s with
        pins := { s.pins with refok := level }, selector := { s.selector with grade := grade } }
      ∧ (k.elig = false → grade = 0)
      ∧ (k.elig = true →
        let base := if k.refclass = 0 then 2 else if k.refclass = 1 then 3 else if k.refclass = 2 then 5
          else if level then 6 else 4;
        grade = (if k.prefer then min 7 (base + 1) else base)))
  ∧ (∀ a b c : Candidate,
    (a.address ≠ b.address → (ranksAbove a b = true ↔ ranksAbove b a = false))
    ∧ ranksAbove a a = false
    ∧ (ranksAbove a b = true → ranksAbove b c = true → ranksAbove a c = true)
    ∧ (b.grade < a.grade → ranksAbove a b = true)
    ∧ (b.grade = a.grade → a.incumbent = true → b.incumbent = false → ranksAbove a b = true)
    ∧ (b.grade = a.grade → a.incumbent = b.incumbent → a.address < b.address → ranksAbove a b = true))
  ∧ (∀ s : State,
    let able := fun i : Fin 24 =>
      s.roster[i].state = .present ∧ s.roster[i].eligible = true ∧ s.roster[i].timebase = .locked
    (successor s = none ↔ ∀ i, ¬ able i)
    ∧ ∀ c, successor s = some c → ∃ i, able i ∧ c = peerCandidate s i
      ∧ ∀ k, able k → k ≠ i → ranksAbove c (peerCandidate s k) = true)
  ∧ ∀ s : State,
    let self : Candidate :=
      { grade := s.selector.grade, incumbent := decide (s.timebase.state = .source), address := s.station.own }
    let peer := fun i : Fin 24 =>
      ({ grade := s.roster[i].grade,
         incumbent := decide (i.val + 1 = s.timebase.believed ∨ s.roster[i].timebase = .source),
         address := i.val + 1 } : Candidate)
    (∀ i : Fin 24, peerCandidate s i = peer i)
    ∧ (ranksFirst s = true ↔ s.selector.eligible = true
      ∧ ∀ i : Fin 24, s.roster[i].state = .present → s.roster[i].eligible = true → ranksAbove self (peer i) = true)
    ∧ ∀ i : Fin 24, let e := s.roster[i]
      targetFault s (i.val + 1) =
        if e.state = .retired then some 3
        else if e.state ≠ .present then some 1
        else if e.timebase ≠ .locked then some 2
        else none

/-- The role is taken and given up: the expiry of a claim (R20, R31), a takeover or its failing (R21, R37), the
completion of a handover by the old source (R20, R36), which ends a retirement whose RETIRE was sent (R76); where the
station goes on retiring, the retire timer rises after it, and its timeout falls due at 64 (R77). The 16 clock periods
of a marker word and the 47 bits of an epoch number are DEDUCED (notes/assumptions/19.md, 44.md). -/
def Obligations.SourceRoleIsTakenAndPassedOn : Prop :=
  ∀ s : State,
    let x := s.timebase
    let n := x.ticks.toNat / 131072
    let source := { x with state := .source, rate := x.integral, missCount := 0, lockRun := 0, searchStep := 0,
                           decisions := 0, believed := s.station.own, expectation := none, capture := none }
    (Due.claimExpiry ∈ s.due → s.selector.countdown = some 0 →
      let u := { clearDue .claimExpiry s with
        timebase := source, selector := { s.selector with countdown := none, firstDrive := some ((n + 1) % 2 ^ 47) } }
      (x.state = .free → exec .claimExpiry s = .next (raise .timebaseState none 0x0005 u))
      ∧ (x.state = .holdover → exec .claimExpiry s = .next (raise .timebaseState none 0x0405 u)))
    ∧ (Due.handoverTakeover ∈ s.due → x.expectation = some n →
      (x.state = .locked → s.station.state = .joined →
        ∃ t, exec .handoverTakeover s = .next t ∧ t.timebase = source
          ∧ t.selector = { s.selector with driving := some ⟨markerWord (markerFields t n), 16⟩ }
          ∧ (s.selector.record = none →
            markerFields t n = { epoch := BitVec.ofNat 32 n, source := s.station.own, target := 0, countdown := 0 })
          ∧ t.port = (raise .timebaseState none 0x0305 s).port
          ∧ t = { clearDue .handoverTakeover s with timebase := t.timebase, selector := t.selector, port := t.port })
      ∧ ((x.state ≠ .locked ∨ s.station.state ≠ .joined) →
        exec .handoverTakeover s = .next { clearDue .handoverTakeover s with
          timebase := { x with expectation := none } }))
    ∧ (Due.handoverComplete ∈ s.due → x.state = .source → ∀ h, s.selector.record = some h →
      epochAtOrAfter n h.epoch = true →
      let passed := raise .timebaseState none 0x0502 { clearDue .handoverComplete s with
        timebase := { x with state := .track, rate := x.integral, lockRun := 0, missCount := 0, believed := 0 }
        selector := { s.selector with record := none, driving := none, release := false } }
      (s.station.state ≠ .retiring → exec .handoverComplete s = .next passed)
      ∧ (s.station.state = .retiring → s.station.retireSent = false → Due.retireTimeout ∉ s.due →
        exec .handoverComplete s = .next { passed with
          station := { s.station with retireTimer := min 64 (s.station.retireTimer + 1) }
          due := if 63 ≤ s.station.retireTimer then passed.due ++ [.retireTimeout] else passed.due })
      ∧ (s.station.state = .retiring → s.station.retireSent = true →
        ∃ t, exec .handoverComplete s = .next t ∧ LeftTheRack s t ∧ t.selector.record = none
          ∧ t.selector.driving = none ∧ t.roster = s.roster ∧ t.subs = s.subs
          ∧ (s.port.events = [] → ∃ rest, t.port.events.map (fun v => (v.kind, v.detail))
            = (.timebaseState, 0x0502) :: (.stationState, 0x5609) :: rest)))

/-- A marker clash at a SOURCE (R20, R33, R36, R38): by a read-back that differs while it drives, or by a foreign edge on
the released pair outside the last half epoch before a held handover (own rack time from E x 2^17 - 2^16 up to E x 2^17,
modulo 2^64); otherwise nothing happens. A station in RETIRING
whose RETIRE was sent then enters DETACHED with cause 9 (R76). A first-drive epoch goes with a clash
(notes/assumptions/17.md), and MARKER_CLASH comes before HANDOVER_FAIL (37.md). -/
def Obligations.ClashesEndTheSourceRole : Prop :=
  ∀ s : State, quiet s = true → s.timebase.state = .source →
    let x := s.timebase
    let retired := s.station.state = .retiring ∧ s.station.retireSent = true
    let nearHandover := ∃ h, s.selector.record = some h
      ∧ (x.ticks.toNat + 2 ^ 16 + (2 ^ 64 - h.epoch * 2 ^ 17 % 2 ^ 64)) % 2 ^ 64 < 2 ^ 16
    let clashed := fun (detail : BitVec 16) (t : State) =>
      (¬ retired →
        t.timebase = { x with state := .holdover, rate := x.integral, believed := 0, windowSkip := true }
        ∧ t.selector = { s.selector with record := none, driving := none, release := false, firstDrive := none }
        ∧ (s.selector.record = none →
          t.port = (raise .timebaseState none 0x0504 (raise .markerClash none detail s)).port)
        ∧ (∀ h, s.selector.record = some h → t.port = (raise .timebaseState none 0x0504
            (raise .handoverFail (some h.target) 4 (raise .markerClash none detail s))).port)
        ∧ t = { s with timebase := t.timebase, selector := t.selector, port := t.port })
      ∧ (retired → LeftTheRack s t ∧ t.selector.record = none ∧ t.selector.driving = none
        ∧ (s.port.events = [] → s.selector.record = none → ∃ rest, t.port.events.map (fun v => (v.kind, v.detail))
            = (.markerClash, detail) :: (.timebaseState, 0x0504) :: (.stationState, 0x5609) :: rest))
    (s.selector.driving ≠ none → ∃ t, exec (.markerClash .readBack) s = .next t ∧ clashed 1 t)
    ∧ (s.selector.driving = none → ¬ nearHandover →
      ∃ t, exec (.markerClash .foreignEdge) s = .next t ∧ clashed 2 t)
    ∧ (s.selector.driving = none → nearHandover → exec (.markerClash .foreignEdge) s = .next s)

/-- An epoch boundary n at the source selector (R3, R29, R32, R34, R35, R39), in every station state: a SOURCE without
a record searches at a presence-interval boundary while JOINED, for a strictly better grade, and at every boundary
while RETIRING without the release, which a search that finds none sets; one with a record re-checks its target before
E; it drives its marker with the handover it then holds, and at E the completion falls due in place of the marker. A
station that meets the claim conditions starts or counts its countdown, which expires at 0, and any other has none. A
held expectation of n makes the takeover fall due. `first` is the order of R98: whether the selector sees the roster
before or after the interval check. After the word the pair is released. The boundary that ends a retirement is told
by `BoundariesCountAgeAndAnnounce`. `GradesRankAndTheSearchFindsTheFirst` says who ranks first, whom the search finds
and why a re-check fails. Four points are the model's: the 16 clock periods of the word (DEDUCED,
notes/assumptions/19.md); E = n + 16 for the search of a RETIRING source at a later boundary (DEDUCED, 16.md); that
the listen count rises before the claim test, which still sees LISTEN at the 24th boundary (DESIGN CHOICE, 14.md); and
that E is 47 bits (DEDUCED, 44.md). -/
def Obligations.BoundariesDriveMarkersAndCountClaims : Prop :=
  (∀ (first : Bool) (s : State), Due.epochBoundary ∈ s.due → Due.handoverComplete ∉ s.due →
    ¬ retirementEnds first s →
    let n := s.timebase.ticks.toNat / 131072
    let x := s.selector
    let v := selectorView first s
    let aged := fun u : State => if n % 8 = 0 then intervalCheck u else u
    let source := s.timebase.state == .source
    let found :=
      if s.station.state = .joined ∧ n % 8 = 0 then (successor v).filter fun c => decide (x.grade < c.grade)
      else if s.station.state = .retiring ∧ x.release = false then successor v
      else none
    let record := match x.record with
      | none => if source then found.map fun c => { target := c.address, epoch := (n + 16) % 2 ^ 47 } else none
      | some h =>
        if source = true ∧ epochAtOrAfter n h.epoch = false ∧ targetFault v h.target ≠ none then none else some h
    let completes := source && match x.record with
      | none => false
      | some h => epochAtOrAfter n h.epoch
    let told := fun u : State =>
      if source then
        match x.record with
        | none => match found with
          | none => u
          | some c => raise .handoverStart (some c.address) (BitVec.ofNat 16 (n + 16)) u
        | some h =>
          if epochAtOrAfter n h.epoch then u
          else
            match targetFault v h.target with
            | none => u
            | some cause => raise .handoverFail (some h.target) (BitVec.ofNat 16 cause) u
      else u
    let word := match record with
      | none => markerWord { epoch := BitVec.ofNat 32 n, source := s.station.own, target := 0, countdown := 0 }
      | some h => markerWord
        { epoch := BitVec.ofNat 32 n, source := s.station.own, target := h.target
          countdown := (h.epoch + 2 ^ 47 - n) % 2 ^ 47 }
    let claims := s.station.state = .joined ∧ x.eligible = true
      ∧ (s.timebase.state = .free ∨ s.timebase.state = .holdover) ∧ ranksFirst v = true
    ∃ t, exec (.epochBoundary first) s = .next t
      ∧ t.selector = { x with
        countdown :=
          if claims then
            match x.countdown with
            | none => some (2 * s.station.own)
            | some k => some (k - 1)
          else none
        record := record
        release := x.release || (source && decide (x.record = none ∧ s.station.state = .retiring
          ∧ successor v = none))
        driving := if source && !completes then some { word := word, left := 16 } else x.driving }
      ∧ t.port = (if first then told (aged s) else aged (told s)).port
      ∧ (Due.claimExpiry ∈ t.due ↔ Due.claimExpiry ∈ s.due ∨ (claims ∧ ∃ k, x.countdown = some k ∧ k ≤ 1))
      ∧ (Due.handoverTakeover ∈ t.due ↔ Due.handoverTakeover ∈ s.due ∨ s.timebase.expectation = some n)
      ∧ (Due.handoverComplete ∈ t.due ↔ completes = true)
      ∧ t = { s with station := t.station, selector := t.selector, txQueue := t.txQueue, roster := t.roster
                     subs := t.subs, port := t.port, due := t.due })
  ∧ ∀ (d : Driving) (s : State), Due.markerWordSent ∈ s.due → s.selector.driving = some d →
      exec .markerWordSent s = .next { clearDue .markerWordSent s with
        selector := { s.selector with driving := none, firstDrive := none } }

/-- An epoch boundary n at the station controller, the roster, the subscriptions and the generators, in every station
state: the listen count (R70), the retire timer (R77), but not yet at a boundary E at which a handover completes
(`SourceRoleIsTakenAndPassedOn`), and, at a presence-interval boundary, the lapse count (R84) rise, and what they bring
falls due at 24, 64 and V; at a presence-interval boundary a PRESENCE is enqueued in JOINED, and in
RETIRING before the RETIRE is sent, merging into a queued one (R55, R72), and all 24 roster entries are checked (R93);
the stale tests (R139), the pull deadlines (R141) and the starts of generators (R167) that it reaches fall due. In
RETIRING with the RETIRE sent, a SOURCE without record or release whose search finds none enters DETACHED with cause 9
(R39, R76). What falls due is held in the model's field `due` (notes/assumptions/2.md); where the order of the boundary's
work is the model's choice, notes/assumptions/14.md says so. -/
def Obligations.BoundariesCountAgeAndAnnounce : Prop :=
  ∀ (first : Bool) (s : State), Due.epochBoundary ∈ s.due → Due.handoverComplete ∉ s.due →
    let n := s.timebase.ticks.toNat / 131072
    let x := s.station
    let now : BitVec 32 := BitVec.ofNat 32 n
    let lapses := n % 8 = 0 ∧ 0 < x.interval ∧ x.lapse < x.interval
    let announces := n % 8 = 0 ∧ (x.state = .joined ∨ x.state = .retiring ∧ x.retireSent = false)
    let waits := ∃ e ∈ s.txQueue, e.kind = .presence
    let completes := s.timebase.state = .source
      ∧ ∃ h, s.selector.record = some h ∧ epochAtOrAfter n h.epoch = true
    let ages := x.state = .retiring ∧ ¬ completes
    (¬ retirementEnds first s → ∃ t, exec (.epochBoundary first) s = .next t
      ∧ t.station = { x with
        listen := if x.state = .listen then min 24 (x.listen + 1) else x.listen
        retireTimer := if ages then min 64 (x.retireTimer + 1) else x.retireTimer
        lapse := if lapses then x.lapse + 1 else x.lapse }
      ∧ (¬ announces ∨ waits → t.txQueue = s.txQueue)
      ∧ (announces → ¬ waits → ∃ before rest, s.txQueue = before ++ rest
        ∧ t.txQueue = before ++ { kind := .presence, cls := 0 } :: rest
        ∧ (QueueOrdered s → (∀ e ∈ before, e.cls = 0) ∧ ∀ e ∈ rest, 0 < e.cls))
      ∧ t.roster = (if n % 8 = 0 then intervalCheck s else s).roster
      ∧ t.subs = (if n % 8 = 0 then intervalCheck s else s).subs
      ∧ (Due.listenComplete ∈ t.due ↔ Due.listenComplete ∈ s.due ∨ x.state = .listen ∧ 23 ≤ x.listen)
      ∧ (Due.retireTimeout ∈ t.due ↔ Due.retireTimeout ∈ s.due ∨ ages ∧ 63 ≤ x.retireTimer)
      ∧ (Due.serviceLapsed ∈ t.due ↔ Due.serviceLapsed ∈ s.due ∨ lapses ∧ x.lapse + 1 = x.interval)
      ∧ (∀ j : Fin 32, Due.staleTimeout j ∈ t.due ↔ Due.staleTimeout j ∈ s.due ∨ t.subs[j].state = .live
          ∧ (now - (t.subs[j].lastBlock + BitVec.ofNat 32 t.subs[j].staleTimeout)).toNat < 2 ^ 31)
      ∧ (∀ j : Fin 32, Due.pullDeadline j ∈ t.due ↔ Due.pullDeadline j ∈ s.due
          ∨ ∃ p, s.subs[j].pull = some p ∧ (now - p.deadline).toNat < 2 ^ 31)
      ∧ (∀ g : Fin 2, Due.generatorStart g ∈ t.due ↔ Due.generatorStart g ∈ s.due
          ∨ s.gens[g].state = .armed ∧ (now - s.gens[g].armEpoch).toNat < 2 ^ 31))
    ∧ (retirementEnds first s → ∃ t, exec (.epochBoundary first) s = .next t ∧ LeftTheRack s t
      ∧ t.selector.record = none ∧ t.selector.driving = none
      ∧ (s.port.events = [] → n % 8 ≠ 0 →
        t.port.events.head?.map (fun v => (v.kind, v.detail)) = some (.stationState, 0x5609)))

/-! ### Bursts on the shared cable (03, 12) -/

/-- The guard, the start bit, the claim and the abort pattern (R42, R43, R45, R46, R53, R56, R59): what each event does to
a cable interface in the state it belongs to; a claim is lost at any line bit that was driven 1 and read 0, fill bits
included, keeps its entry in the queue and has its bits as the first of the reception; the loss of a fill bit makes a run
of 8 dominant levels, and the reception ends aborted (R51). A fill bit stands in the claim field of a PRESENCE of stations
1 to 3 and in no other. `e` is the head of the queue; under CAUTION the head passes over BLOCK and PULL. The guard count's
two values, the bits of a lost claim and the end at a lost fill bit are kept as notes/assumptions/8.md, 9.md and 39.md
say. A reception takes the receive buffer that is free, so that a burst that waits in the other stays there (R53); that
it takes rx0 when both are free is the model's choice (35.md), and the loss of a withdrawn
claim is counted as any other (DEDUCED, 34.md). -/
def Obligations.GuardClaimAndAbortFollowThePair : Prop :=
  (∀ s : State, quiet s = true →
    let c := s.cable
    (c.state = .guard →
      exec .guardComplete s = .next { s with cable := { c with state := .idle, guardCount := 32 } }
      ∧ exec .guardRestart s = .next { s with cable := { c with guardCount := 0 } })
    ∧ (c.state = .idle →
      exec .startBitSeen s = .next { s with cable := takingInto c [] { c with state := .receiving } })
    ∧ (c.state = .aborting →
      exec .abortPatternEnd s = .next { s with cable := { c with state := .guard, guardCount := 0 } })
    ∧ (∀ e, queueHead s = some e → c.state = .idle → (s.station.state = .joined ∨ s.station.state = .retiring) →
      c.holdOff = false →
      exec .claimStart s = .next { s with cable := { c with
        state := .claiming, claim := some { entry := e, withdrawn := false } } })
    ∧ ((queueHead s = none ∨ c.state ≠ .idle ∨ c.holdOff = true
        ∨ (s.station.state ≠ .joined ∧ s.station.state ≠ .retiring)) → exec .claimStart s = .next s)
    ∧ (c.flight = none → queueHead s = s.txQueue.find? fun e => !(s.station.caution && decide (2 ≤ e.kind.code)))
    ∧ (∀ (bit : Fin 9) (cl : Claim), c.state = .claiming → c.claim = some cl →
      let levels := insertFill (byteBits (claimField cl.entry.cls s.station.own)) false 1
      let read := levels.take bit.val ++ [false]
      let lost := fun cable : Cable => exec (.claimLost bit) s
        = .next (occur .claimLost (entrySubject cl.entry.kind) 1 { s with cable := cable })
      (levels[bit.val]? = some true →
        (∀ bits, removeFill read false 1 = some bits →
          lost (takingInto c bits { c with state := .receiving, claim := none }))
        ∧ (removeFill read false 1 = none → nothingWaits c →
          lost { c with state := .guard, guardCount := 0, claim := none }))
      ∧ (levels[bit.val]? ≠ some true → exec (.claimLost bit) s = .next s)))
  ∧ ∀ cls own : Nat, cls ≤ 4 → 1 ≤ own → own ≤ 24 →
    let field := byteBits (claimField cls own)
    let levels := insertFill field false 1
    (¬ (cls = 0 ∧ own ≤ 3) → levels = field
      ∧ ∀ bit : Nat, bit < 8 → removeFill (levels.take bit ++ [false]) false 1 = some (field.take bit ++ [false]))
    ∧ (cls = 0 → own ≤ 3 → levels = field.take 6 ++ true :: field.drop 6
      ∧ removeFill (levels.take 6 ++ [false]) false 1 = none)

/-- The burst start (R47 to R50): the claim won, the burst is built from the state of that moment and checked by its
CRC-32, a PRESENCE with every ACTIVE or HELD publication in ascending index, with its flags, a BLOCK's ready buffer
bound and REPEAT set for a block already sent; a withdrawn claim, or a BLOCK without a ready block, sends the abort
pattern. The payload is the one of the burst's start (notes/assumptions/29.md). -/
def Obligations.BurstsAreBuiltAtTheirStart : Prop :=
  ∀ (e : TxEntry) (w : Bool) (s : State), quiet s = true → s.cable.state = .claiming →
    s.cable.claim = some { entry := e, withdrawn := w } →
    let c := s.cable
    let x := s.station
    let aborted := { c with state := .aborting, claim := none }
    let sends := fun (fresh : Bool) (binding : Option (Fin 16)) (body : List Byte) =>
      exec .burstStart s = .next { s with cable := { c with
        state := .sending, claim := none, binding := binding
        flight := some { entry := e, withdrawn := false, fresh := fresh, claimByte := claimField e.cls x.own,
                         body := body, check := crc32 (bitsOf (claimField e.cls x.own :: body)) } } }
    (w = true → exec .burstStart s = .next { s with cable := aborted })
    ∧ (w = false → e.kind = .presence → ∃ list, Announces s list
      ∧ sends x.freshPending none (presenceBody
        { sender := x.own, grade := s.selector.grade, eligible := s.selector.eligible, timebase := s.timebase.state,
          believed := if s.timebase.state = .source then x.own else s.timebase.believed, hostAlive := x.hostAlive,
          fresh := x.freshPending, pubs := list }))
    ∧ (w = false → e.kind = .retire →
      sends false none [BitVec.ofNat 8 x.own, BitVec.ofNat 8
        (match s.selector.record with
          | some h => if s.timebase.state = .source then h.target else 0
          | none => 0)])
    ∧ (∀ j, w = false → e.kind = .pull j →
      sends false none [BitVec.ofNat 8 x.own, BitVec.ofNat 8 s.subs[j].publisher, BitVec.ofNat 8 s.subs[j].index.val])
    ∧ (∀ k b, w = false → e.kind = .block k → s.pubs[k].state = .active → s.pubs[k].ready = some b →
      let p := s.pubs[k]
      sends false (some k) (blockBody
        { publisher := x.own, index := k, seq := b.seq, time := b.time, width := p.width, count := b.count,
          flags := { isRepeat := !p.isNew, gap := b.gap, hostSilent := b.hostSilent, capture := b.capture },
          payload := Memory.readBytes s.store (1024 * p.readySlot) (b.count * p.width.bytes) }))
    ∧ (∀ k, w = false → e.kind = .block k → (s.pubs[k].state ≠ .active ∨ s.pubs[k].ready = none) →
      s.cable.flight = none →
      exec .burstStart s = .next { s with
        cable := aborted, txQueue := s.txQueue.filter fun y => decide (y.kind ≠ .block k) })

/-- The successful end of a burst (R58, R80, R81): its entry leaves the queue, and where the entry was removed while the
burst ran (`withdrawn`) the queue stays as it is, with any new entry of the same kind (R57); the score falls by 1, from
96 with CAUTION cleared and CAUTION_OFF, BURST_SENT is told, and the kind's own effects follow. A RETIRE sets RETIRE
sent while RETIRING, and a station that no longer drives markers then enters DETACHED with cause 9 (R76); in JOINED,
after a JOIN that withdrew it, it brings a FRESH PRESENCE (R72, R78). A BLOCK's end is reported to the publication table
(R117), which makes a pending commit; of a publication UNUSED by now it releases the binding and does nothing else
(R106), and a PULL's end does nothing more (R126). That CAUTION_OFF is raised at such a fall also where CAUTION was clear
is the model's choice (notes/assumptions/45.md). -/
def Obligations.SentBurstsLeaveTheQueue : Prop :=
  ∀ (f : Flight) (s : State), quiet s = true → s.cable.state = .sending → s.cable.flight = some f →
    let falls := s.station.faultScore = 96
    let x := { s.station with
      faultScore := s.station.faultScore - 1, caution := s.station.caution && !decide falls }
    let left := { s with
      cable := { s.cable with state := .guard, guardCount := 0, flight := none }
      txQueue := if f.withdrawn then s.txQueue else s.txQueue.filter fun y => decide (y.kind ≠ f.entry.kind)
      station := x }
    let u := if falls then raise .cautionOff none 95 left else left
    let told := fun subject : Subject => occur .burstSent subject 1 u
    (f.entry.kind = .presence →
      exec .burstSent s = .next { told .none with
        station := { x with clash := 0, freshPending := x.freshPending && !f.fresh } })
    ∧ (f.entry.kind = .retire → s.station.state = .joined →
      exec .burstSent s = .next (enqueue .presence { told .none with station := { x with freshPending := true } }))
    ∧ (f.entry.kind = .retire → s.station.state = .retiring →
      (s.timebase.state = .source → s.selector.release = false →
        exec .burstSent s = .next { told .none with station := { x with retireSent := true } })
      ∧ (s.timebase.state ≠ .source ∨ s.selector.release = true →
        ∃ t, exec .burstSent s = .next t ∧ LeftTheRack s t ∧ t.roster = s.roster ∧ t.subs = s.subs
          ∧ (s.port.events = [] → s.monitor.frozen = true →
            ∃ rest, t.port.events.map (fun v => (v.kind, v.detail))
              = (if falls then [(.cautionOff, 95)] else []) ++ (.stationState, 0x5609) :: rest)))
    ∧ (∀ j, f.entry.kind = .pull j → exec .burstSent s = .next (told (.subscription j)))
    ∧ (∀ k, f.entry.kind = .block k → s.cable.binding = some k → s.pubs[k].state ≠ .unused →
      (s.pubs[k].commitPending = false →
        exec .burstSent s = .next { told (.publication k) with
          cable := { u.cable with binding := none }
          pubs := s.pubs.set k { s.pubs[k] with isNew := false } })
      ∧ (s.pubs[k].commitPending = true →
        exec .burstSent s = .next (endBinding true (told (.publication k)))))
    ∧ (∀ k, f.entry.kind = .block k → s.cable.binding = some k → s.pubs[k].state = .unused →
      s.pubs[k].commitPending = false →
      exec .burstSent s = .next { told (.publication k) with cable := { u.cable with binding := none } })

/-- A transmit fault while CLAIMING or SENDING (R46, R59, R60, R73, R80 to R82): the abort pattern, the hold-off with
its deadline one epoch ahead, the entry kept, 8 on the score, which sets CAUTION with CAUTION_ON at 128 and silences
the station at 255; a PRESENCE counts its clash, and the second makes the station DUPLICATE with cause 7 in place of
the rise, with STATION_STATE, the events of a lost role and CAUTION_OFF before the TX_FAULT occurrence; a BLOCK
releases its binding, and a pending commit is made before the rise (notes/assumptions/36.md). That a fault of a PRESENCE
while CLAIMING, before its burst start, counts as a clash too, and as the second one gives DUPLICATE, is the model's
reading (DEDUCED, notes/assumptions/33.md). The order of the events after STATION_STATE is the model's (38.md), and so is
CAUTION_ON at a rise with CAUTION still set (45.md). The hold-off ends when its deadline is reached. A deadline is kept
after the hold-off (18.md). -/
def Obligations.TransmitFaultsAbortAndHoldOff : Prop :=
  (∀ (kind : EntryKind) (s : State), quiet s = true →
    ((∃ f, s.cable.state = .sending ∧ s.cable.flight = some f ∧ f.entry.kind = kind)
      ∨ ∃ cl, s.cable.state = .claiming ∧ s.cable.claim = some cl ∧ cl.entry.kind = kind ∧ s.cable.binding = none) →
    (s.station.state = .joined ∨ s.station.state = .retiring) →
    let x := s.station
    let new := min 255 (x.faultScore + 8)
    let crosses := x.faultScore < 128 ∧ 128 ≤ new
    let c := { s.cable with state := .aborting, claim := none, flight := none, binding := none, holdOff := true,
                            holdOffDeadline := s.timebase.ticks.setWidth 48 + 131072 }
    let risen := fun (y : Station) (u : State) =>
      let v := { u with station := { y with faultScore := new, caution := y.caution || decide crosses } }
      if crosses then raise .cautionOn none (BitVec.ofNat 16 new) v else v
    let settledNow := NoCommitWaits s
    (settledNow → new < 255 → kind ≠ .presence →
      exec .txFault s = .next (occur .txFault (entrySubject kind) 1 (risen x { s with cable := c })))
    ∧ (settledNow → new < 255 → kind = .presence → x.clash = 0 →
      exec .txFault s = .next (occur .txFault .none 1 (risen { x with clash := 1 } { s with cable := c })))
    ∧ (∀ k, s.cable.binding = some k → s.pubs[k].commitPending = true → new < 255 → kind = .block k →
      exec .txFault s = .next (occur .txFault (.publication k) 1 (risen x (askCommit k { s with cable := c }))))
    ∧ (settledNow → new = 255 → kind ≠ .presence ∨ x.clash = 0 →
      ∃ t, exec .txFault s = .next t ∧ FellSilent s t)
    ∧ (kind = .presence → x.clash = 1 →
      ∃ t, exec .txFault s = .next t
        ∧ t.station = { x with
            state := .duplicate, faultScore := 0, caution := false, clash := 0, recovery := 0, retireTimer := 0
            retireSent := false, freshPending := false }
        ∧ t.txQueue = [] ∧ t.subs = s.subs ∧ t.roster = s.roster
        ∧ t.cable = { c with state := .guard, guardCount := 0, holdOff := false }
        ∧ t.timebase = (if s.timebase.state = .source then { s.timebase with
            state := .holdover, rate := s.timebase.integral, believed := 0, windowSkip := true } else s.timebase)
        ∧ t.selector = { selectorOff s with countdown := if x.state = .joined then none else s.selector.countdown }
        ∧ (settledNow →
          let told := occur .txFault .none 1 (raised
            ((.stationState, none, stationCode x.state .duplicate 7) :: roleEvents s ++ cautionEvents s) s)
          t.port = told.port ∧ t.monitor = told.monitor
            ∧ t = { s with station := t.station, txQueue := t.txQueue, cable := t.cable, timebase := t.timebase
                           selector := t.selector, port := t.port, monitor := t.monitor })))
  ∧ ∀ s : State, Due.holdOffExpiry ∈ s.due → s.cable.holdOff = true →
    (s.timebase.ticks.setWidth 48 - s.cable.holdOffDeadline).toNat < 2 ^ 47 →
    exec .holdOffExpiry s = .next { clearDue .holdOffExpiry s with cable := { s.cable with holdOff := false } }

/-- The ends of a reception in GUARD, IDLE or RECEIVING (R51, R52, R53, R80 to R83): aborted, without a count; failed,
with RX_CHECK_FAULT and 1 on the score, up to 254 in DUPLICATE, which sets CAUTION with CAUTION_ON at 128 and silences
the station at 255, or the recovery count back to 0 in SILENCED; a burst that is not good is a failed one; a good PULL
that names another publisher is discarded, but counts BURST_RECEIVED, ends the hold-off and, in SILENCED, counts
toward recovery, which its 32nd brings. In RECEIVING a burst's bytes go on from the bits already read. A good burst that
waits for its owner stays in its receive buffer with the end of its reception, until it is handed over; a reception that
ends before that completes its hand-over first (R53). A row that tells of an end where none can be, or of the hand-over
of a burst that no buffer holds, has no effect. The states that take a reception, the form of the row that tells of a wait
and the reports at the hand-over, the handling of bytes that are no good burst and CAUTION_ON at a rise with CAUTION
still set are the model's reading (notes/assumptions/9.md, 47.md, 48.md, 25.md, 45.md); the BURST_RECEIVED of the 32nd
clean burst comes before the recovery's events by its choice (50.md). -/
def Obligations.ReceptionsEndInGuard : Prop :=
  ∀ s : State, quiet s = true →
    let c := s.cable
    let x := s.station
    let freed := receptionEnded c
    let receiving := c.state = .guard ∨ c.state = .idle ∨ c.state = .receiving
    let member := x.state = .listen ∨ x.state = .joined ∨ x.state = .retiring
    let limit := if x.state = .duplicate then 254 else 255
    let new := min limit (x.faultScore + 1)
    let crosses := x.faultScore < 128 ∧ 128 ≤ new
    let failed := fun y : Station => { s with cable := freed, station := y }
    let higher := failed { x with faultScore := new, caution := x.caution || decide crosses }
    let risen := if crosses then raise .cautionOn none (BitVec.ofNat 16 new) higher else higher
    let counted := fun u : State => occur .rxCheckFault .none 1 u
    let ends := receiving ∧ nothingWaits c
    let waits := fun (burst : List Byte) (m : BurstEnd) =>
      (c.rx0 = .waiting burst m ∧ ∀ other n, c.rx1 ≠ .waiting other n)
        ∨ (c.rx1 = .waiting burst m ∧ ∀ other n, c.rx0 ≠ .waiting other n)
    (ends → exec .abortedBurstReceived s = .next { s with cable := freed })
    ∧ (ends → member ∨ x.state = .duplicate → new < 255 → exec .failedCheckReceived s = .next (counted risen))
    ∧ (ends → member → new = 255 → ∃ t, exec .failedCheckReceived s = .next t ∧ FellSilent s t)
    ∧ (ends → x.state = .silenced → exec .failedCheckReceived s = .next (counted (failed { x with recovery := 0 })))
    ∧ (ends → ¬ member → x.state ≠ .duplicate → x.state ≠ .silenced →
      exec .failedCheckReceived s = .next (counted (failed x)))
    ∧ (∀ bytes hand, hand ≠ .later → readBurst bytes = none → takesBurst c bytes → nothingWaits c →
      exec (.goodBurstReceived bytes hand) s = exec .failedCheckReceived s)
    ∧ (∀ bytes b, readBurst bytes = some b → takesBurst c bytes → nothingWaits c →
      let kept := RxBuffer.waiting bytes { ticks := s.timebase.ticks, state := s.timebase.state }
      let second := c.rx0 = .empty ∧ c.rx1 ≠ .empty
      exec (.goodBurstReceived bytes .waits) s = .next { s with cable := { freed with
        holdOff := false, rx0 := if second then .empty else kept, rx1 := if second then kept else .empty } })
    ∧ (∀ burst m u, s.port.held = [] → receiving → waits burst m → exec (.goodBurstReceived burst .later) s = .next u →
      exec .abortedBurstReceived s = exec .abortedBurstReceived u
      ∧ exec .failedCheckReceived s = exec .failedCheckReceived u
      ∧ ∀ bytes hand, hand ≠ .later → takesBurst c bytes →
        exec (.goodBurstReceived bytes hand) s = exec (.goodBurstReceived bytes hand) u)
    ∧ (∀ bytes hand m heard a pub k, HandsOver bytes hand m s heard → readBurst bytes = some (.pull a pub k) →
      pub ≠ x.own →
      let told := fun u : State => occur .burstReceived (.peer a) 1 u
      (x.state ≠ .silenced → exec (.goodBurstReceived bytes hand) s = .next (told heard))
      ∧ (x.state = .silenced → x.recovery < 31 →
        exec (.goodBurstReceived bytes hand) s
          = .next (told { heard with station := { x with recovery := x.recovery + 1 } }))
      ∧ (x.state = .silenced → 31 ≤ x.recovery →
        exec (.goodBurstReceived bytes hand) s
          = .next (told { heard with station := { x with recovery := 32 }, due := [.recoveryComplete] })))
    ∧ (∀ bytes hand, hand ≠ .later → ¬ takesBurst c bytes → exec (.goodBurstReceived bytes hand) s = .next s)
    ∧ (∀ bytes, (∀ m, c.rx0 ≠ .waiting bytes m ∧ c.rx1 ≠ .waiting bytes m) →
      exec (.goodBurstReceived bytes .later) s = .next s)
    ∧ (¬ receiving → exec .abortedBurstReceived s = .next s ∧ exec .failedCheckReceived s = .next s)

/-- A good burst that bears the own address (R71, R74): a PRESENCE sends LISTEN, JOINED, RETIRING and SILENCED to
DUPLICATE with cause 6, a SOURCE losing its role, and does nothing in DUPLICATE; any other burst of the own address is
discarded. A PULL of another station that names this one (R121, R122): counted when the publication is UNUSED,
discarded outside JOINED, kept as pull-pending while HELD or without a ready block, discarded while the block is in
flight, and otherwise answered by a BLOCK entry. Each is counted as BURST_RECEIVED, and its end ends the hold-off
(R60); handed over later, out of its receive buffer, it finds the interface in any state, and leaves it (R53). Four
points are the model's: the reports of a burst that waited come with its hand-over (DESIGN CHOICE,
notes/assumptions/47.md); in SILENCED the change to DUPLICATE comes before the recovery count, also at the 32nd clean
burst (DEDUCED, 24.md); BURST_RECEIVED is told after EMIT_MERGED (DESIGN CHOICE, 15.md), and its subject is the sender
also where that is the own address (DESIGN CHOICE, 49.md). -/
def Obligations.OwnAddressAndPullsForThisStation : Prop :=
  ∀ (bytes : List Byte) (hand : HandOver) (m : BurstEnd) (b : Burst) (heard s : State), quiet s = true →
    HandsOver bytes hand m s heard → readBurst bytes = some b →
    let x := s.station
    let after := heard.cable
    let member := x.state = .joined ∨ x.state = .retiring
    let told := received b.sender
    (∀ p, b = .presence p → p.sender = x.own →
      ((x.state = .listen ∨ x.state = .joined ∨ x.state = .retiring ∨ x.state = .silenced) →
        ∃ t, exec (.goodBurstReceived bytes hand) s = .next t
          ∧ t.station.state = .duplicate ∧ t.station.faultScore = 0 ∧ t.station.caution = false
          ∧ t.station.recovery = 0 ∧ t.roster = s.roster ∧ t.subs = s.subs
          ∧ t.cable.state = (if member ∧ (after.state = .claiming ∨ after.state = .sending ∨ after.state = .aborting)
              then .guard else after.state)
          ∧ t.cable.holdOff = (if member then false else after.holdOff) ∧ t.due = []
          ∧ (member → t.txQueue = [])
          ∧ (s.timebase.state = .source → t.timebase.state = .holdover ∧ t.timebase.rate = s.timebase.integral
            ∧ t.selector.record = none ∧ t.selector.driving = none)
          ∧ (s.timebase.state ≠ .source → t.timebase = s.timebase)
          ∧ (s.port.events = [] → s.monitor.frozen = true →
            t.port.events.head?.map (fun v => (v.kind, v.detail))
              = some (.stationState, BitVec.ofNat 16 (x.state.code * 4096 + 0x706))))
      ∧ ((x.state = .duplicate ∨ x.state = .offline ∨ x.state = .isolated ∨ x.state = .settling
          ∨ x.state = .detached) → exec (.goodBurstReceived bytes hand) s = .next (told heard)))
    ∧ ((∀ p, b ≠ .presence p) → b.sender = x.own → exec (.goodBurstReceived bytes hand) s = .next (told heard))
    ∧ ∀ a k, b = .pull a x.own k → a ≠ x.own →
      let p := s.pubs[k]
      let serves := x.state = .joined ∧ p.state = .active ∧ p.ready ≠ none
      (p.state = .unused → exec (.goodBurstReceived bytes hand) s
        = .next (told { heard with unknownPulls := min 65535 (s.unknownPulls + 1) }))
      ∧ (p.state ≠ .unused → x.state ≠ .joined → exec (.goodBurstReceived bytes hand) s = .next (told heard))
      ∧ (p.state ≠ .unused → x.state = .joined → p.state = .held ∨ p.ready = none →
        exec (.goodBurstReceived bytes hand) s
          = .next (told { heard with pubs := s.pubs.set k { p with pullPending := true } }))
      ∧ (serves → s.cable.binding = some k → exec (.goodBurstReceived bytes hand) s = .next (told heard))
      ∧ (serves → s.cable.binding ≠ some k →
        exec (.goodBurstReceived bytes hand) s = .next (told (enqueue (.block k) heard)))

/-- A burst sent is the burst received (R208, R209, R210): claim field, body and check of every burst whose fields lie in
their ranges are read back as that burst, and with any other check value they are no good burst. -/
def Obligations.BurstsAreReadAsSent : Prop :=
  ∀ (b : Burst) (cls : Nat), burstInRange b → cls ∈ burstClasses b →
    let head := claimField cls b.sender :: burstBody b
    let check := crc32 (bitsOf head)
    readBurst (head ++ beBytes 4 check.toNat) = some b
    ∧ ∀ other : BitVec 32, other ≠ check → readBurst (head ++ beBytes 4 other.toNat) = none

/-- A marker word is received as it was composed (R206, R207), and a word whose check does not fit its fields, or
whose fields lie outside their ranges, is not received. Line bits with their fill bits hold no run of more than 7
equal levels (R42) and give the burst's bits back when the fill bits are removed. No fill bit follows the last check
bit (notes/assumptions/31.md). -/
def Obligations.MarkersAndLineBitsAreReadAsSent : Prop :=
  (∀ m : MarkerFields, (readMarker (markerWord m) = some m ↔
    1 ≤ m.source ∧ m.source ≤ 24 ∧ m.target ≤ 24 ∧ m.countdown ≤ 16 ∧ (m.target = 0 ↔ m.countdown = 0)))
  ∧ (∀ word : BitVec 64,
    let source := (word.extractLsb' 24 8).toNat
    let target := (word.extractLsb' 16 8).toNat
    let countdown := (word.extractLsb' 8 8).toNat
    (readMarker word = none ↔ crc8 (markerBits word) ≠ word.extractLsb' 0 8 ∨ source = 0 ∨ 24 < source ∨ 24 < target
      ∨ 16 < countdown ∨ (target = 0 ∧ countdown ≠ 0) ∨ (target ≠ 0 ∧ countdown = 0)))
  ∧ ∀ (c : Byte) (body : List Byte) (check : BitVec 32),
    let bits := bitsOf (c :: body) ++ (List.range 32).map fun i => check.getLsbD (31 - i)
    (lineBits c body check).head? = some false
    ∧ removeFill (lineBits c body check).tail false 1 = some bits
    ∧ ∀ level, ¬ List.replicate 8 level <:+: lineBits c body check

/-! ### Station life cycle (04) -/

/-- SENSE (R65, R66, R68, R79, R96): a rise moves ISOLATED to SETTLING with cause 2; a drop sets the settle count
back, or loses the cable: LISTEN, JOINED and SILENCED go to ISOLATED with every known peer SILENT, RETIRING to
DETACHED, with cause 5; in the other states only the pin changes. STATION_STATE comes first, then HANDOVER_FAIL cause
5 of a SOURCE with a record and TIMEBASE_STATE, CAUTION_OFF, and PEER_SILENT with detail 2 for each peer lost, with
the SUB_STALE it brings (the order after STATION_STATE is the model's, notes/assumptions/38.md). What the station
controller's counts bring: SETTLING to LISTEN (R69, R44), LISTEN to JOINED with a FRESH PRESENCE (R70, R72), SILENCED
to LISTEN (R83), RETIRING to DETACHED at the 64th boundary (R77), the lapse of the host's service (R84). -/
def Obligations.SenseAndCountsMoveTheStation : Prop :=
  (∀ s : State, quiet s = true →
     let x := s.station
     let low := { s with pins := { s.pins with sense := false } }
     let high := { s with pins := { s.pins with sense := true } }
     (s.pins.sense = false → x.state = .isolated →
       ∃ t, exec .senseRise s = .next t ∧ t.station = { x with state := .settling, settle := 0 }
         ∧ ReceiversOff s.timebase t.timebase ∧ t.cable.state = .off ∧ t.selector = selectorOff s
         ∧ t.port = (raised ((.stationState, none, 0x1202) :: receiversOffEvents s) s).port
         ∧ t = { high with station := t.station, timebase := t.timebase, selector := t.selector, cable := t.cable
                           port := t.port })
     ∧ (s.pins.sense = false → x.state ≠ .isolated → exec .senseRise s = .next high)
     ∧ (s.pins.sense = true → x.state = .settling →
       exec .senseDrop s = .next { low with station := { x with settle := 0 } })
     ∧ (s.pins.sense = true → (x.state = .offline ∨ x.state = .isolated ∨ x.state = .detached ∨ x.state = .duplicate) →
       exec .senseDrop s = .next low)
     ∧ (s.pins.sense = true → (x.state = .listen ∨ x.state = .joined ∨ x.state = .silenced) →
       ∃ t, exec .senseDrop s = .next t ∧ t.station.state = .isolated ∧ t.station.faultScore = 0
         ∧ t.station.caution = false ∧ t.station.listen = 0 ∧ t.station.recovery = 0 ∧ t.pins = low.pins
         ∧ ReceiversOff s.timebase t.timebase ∧ t.cable.state = .off ∧ t.cable.flight = none ∧ t.cable.claim = none
         ∧ t.cable.rx0 = .empty ∧ t.cable.rx1 = .empty ∧ (x.state = .joined → t.txQueue = [] ∧ t.cable.holdOff = false)
         ∧ t.selector = { selectorOff s with countdown := if x.state = .joined then none else s.selector.countdown }
         ∧ (∀ i : Fin 24, t.roster[i] = if s.roster[i].state = .absent then s.roster[i]
             else { s.roster[i] with state := .silent, heard := false })
         ∧ (∀ j : Fin 32, t.subs[j] = { s.subs[j] with
             state := if s.subs[j].state = .live ∧ ∃ i : Fin 24, losesPeer s.roster[i] = true
               ∧ s.subs[j].publisher = i.val + 1 then .stale else s.subs[j].state })
         ∧ (s.port.events = [] → t.port.events.head?.map (fun v => (v.kind, v.detail))
             = some (.stationState, stationCode x.state .isolated 5))
         ∧ (NoCommitWaits s →
           t.port = (raised ((.stationState, none, stationCode x.state .isolated 5)
             :: receiversOffEvents s ++ cautionEvents s ++ lostPeerEvents s) s).port
           ∧ t = { low with station := t.station, timebase := t.timebase, selector := t.selector, cable := t.cable
                            txQueue := t.txQueue, roster := t.roster, subs := t.subs, port := t.port }))
     ∧ (s.pins.sense = true → x.state = .retiring →
       ∃ t, exec .senseDrop s = .next t ∧ LeftTheRack s t ∧ t.selector = selectorOff s
         ∧ (s.port.events = [] → t.port.events.head?.map (fun v => (v.kind, v.detail)) = some (.stationState, 0x5605))
         ∧ (NoCommitWaits s →
           t.port = (raised ((.stationState, none, 0x5605) :: receiversOffEvents s ++ cautionEvents s) s).port
           ∧ t = { low with station := t.station, timebase := t.timebase, selector := t.selector, cable := t.cable
                            txQueue := t.txQueue, port := t.port })))
  ∧ (∀ s : State,
       let x := s.station
       (Due.settleComplete ∈ s.due → x.state = .settling → 4096 ≤ x.settle →
         ∃ t, exec .settleComplete s = .next t ∧ t.port = (raise .stationState none 0x2303 s).port
           ∧ t = { clearDue .settleComplete s with
             port := t.port, station := { x with state := .listen, listen := 0 }
             cable := { s.cable with state := .guard, guardCount := 0 }
             timebase := { s.timebase with windowSkip := true } })
       ∧ (Due.listenComplete ∈ s.due → x.state = .listen → 24 ≤ x.listen →
         ∃ p, p = (raise .stationState none 0x3404 s).port
           ∧ exec .listenComplete s = .next (enqueue .presence { clearDue .listenComplete s with
             port := p, station := { x with state := .joined, clash := 0, freshPending := true } }))
       ∧ (Due.recoveryComplete ∈ s.due → x.state = .silenced → 32 ≤ x.recovery →
         let u := raise .stationState none 0x830D s
         ∃ t, exec .recoveryComplete s = .next t
           ∧ t.port = (if x.caution then raise .cautionOff none 0 u else u).port
           ∧ t = { clearDue .recoveryComplete s with
             port := t.port, station := { x with state := .listen, listen := 0, faultScore := 0, caution := false } })
       ∧ (Due.retireTimeout ∈ s.due → Due.handoverComplete ∉ s.due → x.state = .retiring → 64 ≤ x.retireTimer →
         ∃ t, exec .retireTimeout s = .next t ∧ t.station.state = .detached ∧ t.station.retireTimer = 0
           ∧ t.station.retireSent = false ∧ t.station.faultScore = 0 ∧ t.txQueue = [] ∧ t.cable.state = .off
           ∧ safePin t = true ∧ ReceiversOff s.timebase t.timebase
           ∧ (s.port.events = [] → t.port.events.head?.map (fun e => (e.kind, e.detail))
               = some (.stationState, if x.retireSent then 0x560B else 0x560A))
           ∧ (NoCommitWaits s → t.port = (raised ((.stationState, none, if x.retireSent then 0x560B else 0x560A)
               :: receiversOffEvents s ++ cautionEvents s) s).port))
       ∧ (Due.serviceLapsed ∈ s.due → 0 < x.interval → x.lapse = x.interval →
         exec .serviceLapsed s = .next (raise .serviceLapsed none (BitVec.ofNat 16 x.interval)
           { clearDue .serviceLapsed s with station := { x with hostAlive := false } })))

/-- JOIN (R40, R67, R78) and RETIRE (R39, R75, R76) in every station state: where they are refused with STATE, where
they lead, with the events in their order (R66: STATION_STATE with cause 1 or 8 first; HANDOVER_FAIL cause 6 of a JOIN
in RETIRING, R38; HANDOVER_START of the search on the entry to RETIRING), what they make of the queue, the source role
and the FRESH presence, and that all else stays. Three points are the model's: E = n + 17 for a search on entry and
its 47 bits (DEDUCED, notes/assumptions/16.md, 44.md), and the order of the events after STATION_STATE (DESIGN CHOICE,
38.md). -/
def Obligations.JoinAndRetireByStationState : Prop :=
  ∀ s : State, Ready s →
    let x := s.station
    ((x.state = .offline ∨ x.state = .detached) → x.startFault = false →
      ∃ t, Taken (.join []) s [] t
        ∧ t.station = (if s.pins.sense then { x with state := .settling, settle := 0 }
            else { x with state := .isolated, faultScore := 0, caution := false })
        ∧ safePin t = false ∧ t.cable = interfaceOff s.cable ∧ ReceiversOff s.timebase t.timebase ∧ t.selector = selectorOff s
        ∧ t.port = (raised ((.stationState, none, stationCode x.state t.station.state 1) :: receiversOffEvents s
            ++ (if s.pins.sense then [] else cautionEvents s)) s).port
        ∧ t = { s with station := t.station, timebase := t.timebase, selector := t.selector, cable := t.cable
                       port := t.port })
    ∧ ((x.state = .offline ∨ x.state = .detached) → x.startFault = true → RefusedWith (.join []) s .state)
    ∧ (x.state ≠ .offline → x.state ≠ .detached → x.state ≠ .retiring → RefusedWith (.join []) s .state)
    ∧ (x.state = .retiring →
      ∃ t, Taken (.join []) s [] t
        ∧ t.station = { x with state := .joined, retireTimer := 0, retireSent := false
                               freshPending := x.freshPending || x.retireSent }
        ∧ t.selector = { s.selector with record := none, release := false } ∧ t.timebase = s.timebase
        ∧ (∀ e ∈ t.txQueue, e.kind ≠ .retire) ∧ (x.retireSent = true → ∃ e ∈ t.txQueue, e.kind = .presence)
        ∧ (x.retireSent = false → t.txQueue = s.txQueue.filter fun e => decide (e.kind ≠ .retire))
        ∧ t.cable = withdrawnFrom .retire s.cable
        ∧ t.port = (raised ((.stationState, none, 0x5401) :: match s.selector.record with
            | none => []
            | some h => [(.handoverFail, some h.target, 6)]) s).port
        ∧ t = { s with station := t.station, selector := t.selector, txQueue := t.txQueue, cable := t.cable
                       port := t.port })
    ∧ ((x.state = .offline ∨ x.state = .detached ∨ x.state = .retiring) → RefusedWith (.retire []) s .state)
    ∧ ((x.state = .listen ∨ x.state = .settling ∨ x.state = .isolated ∨ x.state = .silenced ∨ x.state = .duplicate) →
      ∃ t, Taken (.retire []) s [] t
        ∧ t.station = { x with
            state := .detached, faultScore := 0, caution := false, clash := 0, recovery := 0, listen := 0
            retireTimer := 0, retireSent := false }
        ∧ t.cable = interfaceOff s.cable ∧ ReceiversOff s.timebase t.timebase
        ∧ t.selector = selectorOff s
        ∧ t.port = (raised ((.stationState, none, stationCode x.state .detached 8)
            :: receiversOffEvents s ++ cautionEvents s) s).port
        ∧ t = { s with station := t.station, timebase := t.timebase, selector := t.selector, cable := t.cable
                       port := t.port })
    ∧ (x.state = .joined →
      ∃ t, Taken (.retire []) s [] t
        ∧ t.station = { x with state := .retiring, retireTimer := 0, retireSent := false } ∧ t.timebase = s.timebase
        ∧ (∀ e ∈ t.txQueue, e.kind = .presence ∨ e.kind = .retire) ∧ (∃ e ∈ t.txQueue, e.kind = .retire)
        ∧ (∀ e, e.kind = .presence → (e ∈ t.txQueue ↔ e ∈ s.txQueue))
        ∧ (let found := if s.timebase.state = .source ∧ s.selector.record = none then successor s else none
          let E := (s.timebase.ticks.toNat / 131072 + 17) % 2 ^ 47
          t.selector = { s.selector with
            countdown := none
            record := match found with
              | none => s.selector.record
              | some c => some { target := c.address, epoch := E }
            release := s.selector.release || decide (s.timebase.state = .source ∧ s.selector.record = none
              ∧ successor s = none) }
          ∧ t.port = (raised ((.stationState, none, 0x4508) :: match found with
            | none => []
            | some c => [(.handoverStart, some c.address, BitVec.ofNat 16 E)]) s).port)
        ∧ t.cable = { s.cable with
            claim := s.cable.claim.map fun c =>
              if c.entry.kind = .presence ∨ c.entry.kind = .retire then c else { c with withdrawn := true }
            flight := s.cable.flight.map fun f =>
              if f.entry.kind = .presence ∨ f.entry.kind = .retire then f else { f with withdrawn := true } }
        ∧ t = { s with station := t.station, selector := t.selector, txQueue := t.txQueue, cable := t.cable
                       port := t.port })

/-- RESTART (R23, R28, R44, R54, R85, R87, R104, R124, R144, R145, R162, R170, R176, R204): what every block holds after
it, what is kept, the block store's and the schedule memory's content among it, and the event queue emptied as its last
act. That the hold-off deadline is kept is the model's choice (notes/assumptions/18.md), and the guard count 0 is DEDUCED
(22.md). -/
def Obligations.RestartClearsEveryBlock : Prop :=
  ∀ s : State, Ready s →
    ∃ t, Taken (.restart []) s [] t
      ∧ t.station = { s.station with
          state := .offline, faultScore := 0, caution := false, settle := 0, listen := 0, retireTimer := 0, clash := 0,
          recovery := 0, lapse := 0, retireSent := false, freshPending := false, hostAlive := true }
      ∧ ReceiversOff s.timebase t.timebase
      ∧ t.selector = { s.selector with
          countdown := none, record := none, release := false, firstDrive := none, driving := none }
      ∧ t.cable =
        { state := .off, guardCount := 0, claim := none, flight := none, binding := none, holdOff := false,
          holdOffDeadline := s.cable.holdOffDeadline, rx0 := .empty, rx1 := .empty }
      ∧ t.txQueue = []
      ∧ (∀ i : Fin 24, t.roster[i] = RosterEntry.cleared false)
      ∧ (∀ k : Fin 16, t.pubs[k] = Publication.cleared k.val false)
      ∧ (∀ k : Fin 16, t.partials[k] = { high := none, voidLow := false })
      ∧ t.fifo = [] ∧ t.portRejects = 0 ∧ t.unknownPulls = 0 ∧ t.store = s.store
      ∧ (∀ j : Fin 32, t.subs[j] = Subscription.cleared false)
      ∧ t.schedule = s.schedule ∧ (∀ e : Fin 4, t.engines[e] = Engine.reset)
      ∧ (∀ g : Fin 2, t.gens[g] = Generator.reset) ∧ (∀ k : Fin 4, t.compares[k] = Compare.reset)
      ∧ (∀ i : Fin 4, t.monitor.counters[i] = { s.monitor.counters[i] with value := 0, gateOpen := false })
      ∧ t.monitor.frozen = false ∧ t.monitor.snapshot = none ∧ t.monitor.further = 0
      ∧ t.monitor.marked = s.monitor.marked ∧ t.monitor.freeze = s.monitor.freeze
      ∧ t.port = { s.port with events := [], lost := false } ∧ t.pins = s.pins ∧ t.due = []

/-- SETUP (R5, R84, R196): taken in OFFLINE alone, every value limited, W to no less than the effective L, echoed in the
layout of the request; SERVICE (R84) in every state: the lapse count 0 and host-alive set. -/
def Obligations.SetupLimitsAndServiceRevives : Prop :=
  ∀ (body : List Byte) (s : State), Ready s → body.length = 17 →
    let lock := max 1 (min (2 ^ 24) (field body 2 4))
    let want : Settings :=
      { p := min 15 (field body 0 1), i := min 15 (field body 1 1), lock := lock,
        alarm := max lock (min (2 ^ 28) (field body 6 4)), step := max 1 (min 16383 (field body 10 2)),
        trim := max (-2 ^ 20) (min (2 ^ 20) (BitVec.ofNat 32 (field body 12 4)).toInt) }
    let served := { s.station with lapse := 0, hostAlive := true }
    (s.station.state = .offline →
      ∃ echo, Taken (.setup body) s echo { s with
          timebase := { s.timebase with settings := want }
          station := { served with interval := field body 16 1 } }
        ∧ echo.length = 17 ∧ field echo 0 1 = want.p ∧ field echo 1 1 = want.i ∧ field echo 2 4 = want.lock
        ∧ field echo 6 4 = want.alarm ∧ field echo 10 2 = want.step
        ∧ (BitVec.ofNat 32 (field echo 12 4)).toInt = want.trim ∧ field echo 16 1 = field body 16 1)
    ∧ (s.station.state ≠ .offline → RefusedWith (.setup body) s .state)
    ∧ Taken (.service []) s [] { s with station := served }

/-! ### The peer roster (05) -/

/-- A good PRESENCE and a good RETIRE of a peer (R52, R87 to R92, R95, R97, R137, R138): what becomes of the sender's
entry, of the subscriptions to the sender (a new incarnation clears their last accepted sequence; a LIVE one whose
publisher is not PRESENT turns STALE with cause 2, and one that the list leaves out with cause 3), and of the events
in their order, the roster's first and then SUB_STALE in ascending number; then the clean burst is reported, the
recovery count of a SILENCED station and BURST_RECEIVED to the monitor; all else stays. Two points are the model's:
the reports of a burst that waited in its buffer come with its hand-over (DESIGN CHOICE, notes/assumptions/47.md), and
BURST_RECEIVED is told last, also before the recovery that a 32nd clean burst brings (DESIGN CHOICE, 15.md, 50.md). -/
def Obligations.PeersAreFollowedByTheirBursts : Prop :=
  ∀ (bytes : List Byte) (hand : HandOver) (m : BurstEnd) (i : Fin 24) (heard s : State), quiet s = true →
    HandsOver bytes hand m s heard → i.val + 1 ≠ s.station.own →
    let e := s.roster[i]
    let subscribed := fun j : Fin 32 => decide (s.subs[j].state = .live ∧ s.subs[j].publisher = i.val + 1)
    let becomes := fun (f : RosterEntry) (fresh : Bool) (stale : Fin 32 → Bool)
        (events : List (EventKind × Option Nat × BitVec 16)) =>
      exec (.goodBurstReceived bytes hand) s = .next (received (i.val + 1) (raised events { heard with
        roster := s.roster.set i f
        subs := Vector.ofFn fun j => { s.subs[j] with
          last := if fresh = true ∧ s.subs[j].publisher = i.val + 1 then none else s.subs[j].last
          state := if stale j then .stale else s.subs[j].state } }))
    let staleEvents := fun (cause : BitVec 16) (stale : Fin 32 → Bool) =>
      ((List.finRange 32).filter stale).map fun j => (EventKind.subStale, some j.val, cause)
    (∀ p : Presence, readBurst bytes = some (.presence p) → p.sender = i.val + 1 →
      let fresh := p.fresh && decide (e.state ≠ .absent)
      let state := if fresh then .present else if e.state = .absent then .seen else .present
      let stale := fun j : Fin 32 =>
        subscribed j && (decide (state ≠ .present) || p.pubs.all fun a => decide (a.index ≠ s.subs[j].index))
      becomes { state := state, grade := p.grade, eligible := p.eligible, timebase := p.timebase,
                believed := p.believed, hostAlive := p.hostAlive, pubs := p.pubs, missed := 0, heard := true,
                lastPresence := BitVec.ofNat 32 (s.timebase.ticks.toNat / 131072), marked := e.marked }
        fresh stale
        ((if fresh then [(.peerFresh, some (i.val + 1), BitVec.ofNat 16 e.state.code)]
            else if e.state = .absent ∨ e.state = .silent ∨ e.state = .retired
              then [(.peerNew, some (i.val + 1), BitVec.ofNat 16 e.state.code)] else [])
          ++ (if (fresh = true ∨ e.hostAlive = true) ∧ p.hostAlive = false
              then [(.peerHostSilent, some (i.val + 1), 0)] else [])
          ++ staleEvents (if state = .present then 3 else 2) stale))
    ∧ (∀ succ, readBurst bytes = some (.retire (i.val + 1) succ) →
      (e.state = .absent → becomes e false (fun _ => false) [])
      ∧ (e.state = .retired → becomes { e with missed := 0, heard := true } false (fun _ => false) [])
      ∧ (e.state = .seen ∨ e.state = .present ∨ e.state = .silent →
        becomes { e with state := .retired, missed := 0, heard := true } false subscribed
          ((.peerRetired, some (i.val + 1), BitVec.ofNat 16 succ) :: staleEvents 2 subscribed)))

/-- The interval check of one entry (R93, R97, R138): heard is cleared; or a miss is counted, which silences a PRESENT peer
at 3, drops a SEEN one at 2 and a SILENT or RETIRED one at 8; MARKED stays, and so does every other entry. At any change
of the entry's state the LIVE subscriptions to that peer turn STALE, with SUB_STALE cause 2 in ascending number after the
roster's event; their other fields and the other subscriptions stay, and so does all else. The check of all 24 entries:
each so, with the events in ascending address order. -/
def Obligations.IntervalChecksAgeUnheardPeers : Prop :=
  ∀ s : State,
    let aged := fun (stale : Fin 32 → Bool) (roster : Vector RosterEntry 24) => { s with
      roster := roster
      subs := Vector.ofFn fun j => { s.subs[j] with state := if stale j then .stale else s.subs[j].state } }
    (∀ i : Fin 24, checkPeer s i = raised (ageEvents s i)
      (aged (fun j => ageReports s i && subscribedTo s i j) (s.roster.set i (agedPeer s.roster[i]))))
    ∧ intervalCheck s = raised ((List.finRange 24).flatMap (ageEvents s))
      (aged (fun j => (List.finRange 24).any fun i => ageReports s i && subscribedTo s i j) (s.roster.map agedPeer))

/-! ### Publications and the block store (06) -/

/-- The sample port (R107, R108): the word of a single tag, or a high and a low word of a paired one, make an item of
the FIFO of 64 words, or one that is dropped and counted once; a first word is held; the low word of a discarded sample
is dropped uncounted. The drain (R103, R109, R110), after the ring write of a block that waits in a receive buffer
(`RequestsWaitForTheBlockStore`) and before any held request: the oldest item is rejected, counted as lost, or appended
to the fill in the packing of R102, the first of a fill giving its time stamp; the sample that completes the fill asks
for a commit. -/
def Obligations.SamplesAreStrobedAndDrained : Prop :=
  (∀ (k : Fin 16) (word : BitVec 16) (s : State), quiet s = true →
    let p := s.pubs[k]
    let q := s.partials[k]
    let stamp : Stamp := { time := s.timebase.ticks.setWidth 48, capture := s.timebase.state }
    let pairs := p.state ≠ .unused ∧ p.feed = .portFed ∧ p.width ≠ .w16
    let room := fun n : Nat => (s.fifo.map fun x => if x.second = none then 1 else 2).sum + n ≤ 64
    let offered := fun (item : FifoItem) (n : Nat) (u : State) =>
      if room n then { u with fifo := s.fifo ++ [item] }
      else if p.state ≠ .unused ∧ p.feed = .portFed then
        { u with pubs := s.pubs.set k { p with gap := min 65535 (p.gap + 1) } }
      else { u with portRejects := min 65535 (s.portRejects + 1) }
    let held := fun y : Partial => { s with partials := s.partials.set k y }
    (¬ pairs → exec (.sampleStrobe (.ofFin k) word) s
      = .next (offered { tag := k, first := word, second := none, stamp := stamp } 1 s))
    ∧ (pairs → q.voidLow = true →
      exec (.sampleStrobe (.ofFin k) word) s = .next (held { q with voidLow := false }))
    ∧ (pairs → q.voidLow = false → q.high = none →
      exec (.sampleStrobe (.ofFin k) word) s = .next (held { q with high := some (word, stamp) }))
    ∧ (∀ first st, pairs → q.voidLow = false → q.high = some (first, st) →
      exec (.sampleStrobe (.ofFin k) word) s = .next (offered
        { tag := k, first := first, second := some word, stamp := st } 2 (held { q with high := none }))))
  ∧ ∀ (item : FifoItem) (rest : List FifoItem) (s : State), s.due = [] → s.fifo = item :: rest →
    let k := item.tag
    let p := s.pubs[k]
    let w := placeWaiting s
    let u := { w with fifo := rest }
    let fits := (p.width = .w16 ↔ item.second = none)
    let bytes : List Byte := match p.width, item.second with
      | .w24, some low => [item.first.extractLsb' 8 8, item.first.extractLsb' 0 8, low.extractLsb' 0 8]
      | .w32, some low =>
        [item.first.extractLsb' 8 8, item.first.extractLsb' 0 8, low.extractLsb' 8 8, low.extractLsb' 0 8]
      | _, _ => [item.first.extractLsb' 8 8, item.first.extractLsb' 0 8]
    let at_ := 1024 * p.fillSlot + p.fillCount * bytes.length
    let y := { p with
      fillCount := p.fillCount + 1
      fillTime := if p.fillCount = 0 then item.stamp.time else p.fillTime
      fillCapture := if p.fillCount = 0 then item.stamp.capture else p.fillCapture }
    (p.state = .unused ∨ p.feed = .requestFed ∨ ¬ fits →
      exec .drainSample s = .next { u with portRejects := min 65535 (s.portRejects + 1) })
    ∧ (p.state ≠ .unused → p.feed = .portFed → fits →
      (p.commitPending = true →
        exec .drainSample s = .next { u with pubs := s.pubs.set k { p with gap := min 65535 (p.gap + 1) } })
      ∧ (p.commitPending = false → ∃ store,
        let v := { u with store := store, pubs := s.pubs.set k y }
        exec .drainSample s = .next (if p.fillCount + 1 < p.samples then v else askCommit k v)
        ∧ (Memory.wf w.store = true →
          Memory.readBytes store at_ bytes.length = bytes
          ∧ ∀ a, a < at_ ∨ at_ + bytes.length ≤ a → Memory.read store a = Memory.read w.store a)))

/-- A commit that is asked for (R112, R113, R114, R117, R122): pending while the ready buffer is in flight, and then
made at the end of the burst after the binding's release; otherwise made at once: the slots exchange roles, the header is
set, NEW set, the sequence counted, a gap recorded and told by SOURCE_GAP, a pull-pending served in ACTIVE. -/
def Obligations.CommitsMakeTheFillTheReadyBlock : Prop :=
  ∀ (k : Fin 16) (s : State),
    let p := s.pubs[k]
    let y := { p with
      readySlot := p.fillSlot, fillSlot := p.readySlot, isNew := true, nextSeq := p.nextSeq + 1, fillCount := 0,
      gap := 0, fillOpen := false, commitPending := false
      ready := some { seq := p.nextSeq, time := p.fillTime, capture := p.fillCapture, count := p.fillCount,
                      gap := if p.gap = 0 then none else some p.gap, hostSilent := !s.station.hostAlive } }
    let u := { s with pubs := s.pubs.set k y }
    let v := if p.gap = 0 then u else raise .sourceGap (some k.val) (BitVec.ofNat 16 p.gap) u
    let w := { v with pubs := s.pubs.set k { y with pullPending := false } }
    (s.cable.binding = some k → askCommit k s = { s with pubs := s.pubs.set k { p with commitPending := true } })
    ∧ (s.cable.binding ≠ some k → p.state ≠ .active ∨ p.pullPending = false → askCommit k s = v)
    ∧ (s.cable.binding ≠ some k → p.state = .active → p.pullPending = true → askCommit k s = enqueue (.block k) w)
    ∧ (∀ sent : Bool, s.cable.binding = some k →
      let free := { s with cable := { s.cable with binding := none } }
      let z := { p with isNew := p.isNew && !(sent && decide (p.state ≠ .unused)) }
      (p.commitPending = true → endBinding sent s = askCommit k free)
      ∧ (p.commitPending = false → endBinding sent s = { free with pubs := s.pubs.set k z }))

/-- PUBLISH, UNPUBLISH, HOLD and RELEASE (R105, R106, R119, R120, R122): the entry that each leaves, the queue entry and
the port partial state that go with an entry that is withdrawn, the pull that a RELEASE serves, and their refusals. A
claim or a burst in flight of the removed queue entry goes on without it and is only marked so (R57): its bits, the
binding and the bound buffer's bytes stay. -/
def Obligations.PublicationsAreSetHeldAndWithdrawn : Prop :=
  ∀ (k : Fin 16) (a b u : Byte) (s : State), Ready s →
    let n : Byte := BitVec.ofNat 8 k.val
    let p := s.pubs[k]
    let gone : State := { s with
      txQueue := s.txQueue.filter fun e => decide (e.kind ≠ .block k), cable := withdrawnFrom (.block k) s.cable }
    let cleared := { gone with
      pubs := s.pubs.set k (Publication.cleared k.val p.marked)
      partials := s.partials.set k { high := none, voidLow := false } }
    (∀ (feed : Feed) (width : Width) (policy : EmitPolicy),
      let ask := Instr.publish
        [n, BitVec.ofNat 8 feed.code, BitVec.ofNat 8 width.code, a, b, u, BitVec.ofNat 8 policy.code]
      let limit := match width with
        | .w16 => 512
        | .w24 => 341
        | .w32 => 256
      let y := { Publication.cleared k.val p.marked with
        state := .active, feed := feed, width := width, samples := max 1 (min limit (a.toNat * 256 + b.toNat))
        urgent := u.getLsbD 0, policy := policy }
      (s.cable.binding = some k → RefusedWith ask s .busy)
      ∧ (s.cable.binding ≠ some k →
        Taken ask s (beBytes 2 y.samples) { (if p.state = .unused then s else cleared) with
          pubs := s.pubs.set k y, partials := s.partials.set k { high := none, voidLow := false } }))
    ∧ (∀ m f w pol : Byte, (15 < m.toNat ∨ 1 < f.toNat ∨ 2 < w.toNat ∨ 1 < pol.toNat) →
      RefusedWith (.publish [m, f, w, a, b, u, pol]) s .range)
    ∧ (∀ m : Byte, 15 < m.toNat → RefusedWith (.unpublish [m]) s .range ∧ RefusedWith (.hold [m]) s .range
        ∧ RefusedWith (.release [m]) s .range)
    ∧ (p.state = .unused → RefusedWith (.unpublish [n]) s .unused ∧ RefusedWith (.hold [n]) s .unused
        ∧ RefusedWith (.release [n]) s .unused)
    ∧ (p.state ≠ .unused → Taken (.unpublish [n]) s [] cleared
      ∧ Taken (.hold [n]) s [] { s with pubs := s.pubs.set k { p with state := .held } })
    ∧ (p.state = .active → Taken (.release [n]) s [] s)
    ∧ (p.state = .held →
      (p.pullPending = false ∨ p.ready = none →
        Taken (.release [n]) s [] { s with pubs := s.pubs.set k { p with state := .active } })
      ∧ (p.pullPending = true → p.ready ≠ none →
        Taken (.release [n]) s [] (enqueue (.block k)
          { s with pubs := s.pubs.set k { p with state := .active, pullPending := false } })))

/-- FILL and COMMIT (R111, R115): the fill opened with the request's timestamp or with rack time, samples appended up to
the samples per block and the rest discarded; a half sample in the port discarded into the gap count and a commit asked
for. A block that waits in a receive buffer is written into its ring, and the samples waiting in the FIFO are drained,
before those of a FILL are written (R103). While a BLOCK burst holds the block store a FILL may have to wait
(`RequestsWaitForTheBlockStore`). Which value of COMMIT's flag tells "pending" is open (notes/assumptions/11.md): it holds for either. -/
def Obligations.FillAndCommitRequests : Prop :=
  ∀ (k : Fin 16) (flag t0 t1 t2 t3 t4 t5 : Byte) (samples : List Byte) (s : State), Ready s →
    samples.length ≤ 1528 →
    let n : Byte := BitVec.ofNat 8 k.val
    let fill := fun m : Byte => Instr.fill ([m, flag, t0, t1, t2, t3, t4, t5] ++ samples)
    let p := s.pubs[k]
    let q := s.partials[k]
    let accepted := min (p.samples - p.fillCount) (samples.length / p.width.bytes)
    let at_ := 1024 * p.fillSlot + p.fillCount * p.width.bytes
    let time := if flag.getLsbD 0 then BitVec.ofNat 48 (beNat [t0, t1, t2, t3, t4, t5])
      else s.timebase.ticks.setWidth 48
    (∀ m : Byte, 15 < m.toNat → RefusedWith (fill m) s .range ∧ RefusedWith (.commit [m]) s .range)
    ∧ (p.state = .unused → RefusedWith (fill n) s .unused ∧ RefusedWith (.commit [n]) s .unused)
    ∧ (p.state ≠ .unused → p.feed = .portFed → RefusedWith (fill n) s .state)
    ∧ (p.state ≠ .unused → p.feed = .requestFed → p.commitPending = true → RefusedWith (fill n) s .busy)
    ∧ (s.cable.binding = none ∨ accepted = 0 → p.state ≠ .unused → p.feed = .requestFed → p.commitPending = false →
      let d := if accepted = 0 then s else drainWaiting (placeWaiting s)
      ∃ store,
      Taken (fill n) s (beBytes 2 accepted) { d with
        store := store
        pubs := d.pubs.set k { p with
          fillOpen := true, fillCount := p.fillCount + accepted
          fillTime := if p.fillOpen then p.fillTime else time
          fillCapture := if p.fillOpen then p.fillCapture else s.timebase.state } }
      ∧ (Memory.wf d.store = true →
        Memory.readBytes store at_ (accepted * p.width.bytes) = samples.take (accepted * p.width.bytes)
        ∧ ∀ a, a < at_ ∨ at_ + accepted * p.width.bytes ≤ a → Memory.read store a = Memory.read d.store a))
    ∧ (p.state ≠ .unused → p.commitPending = true → RefusedWith (.commit [n]) s .busy)
    ∧ (p.state ≠ .unused → p.commitPending = false → p.fillCount = 0 → RefusedWith (.commit [n]) s .empty)
    ∧ (p.state ≠ .unused → p.commitPending = false → p.fillCount ≠ 0 →
      let u := if p.feed = .portFed ∧ q.high ≠ none then
          { s with
            partials := s.partials.set k { high := none, voidLow := true }
            pubs := s.pubs.set k { p with gap := min 65535 (p.gap + 1) } }
        else s
      let pends := decide (s.cable.binding = some k)
      Taken (.commit [n]) s [if pends = Config.commitFlagMeansPending then 1 else 0] (askCommit k u))

/-! ### Subscriptions and receive rings (07) -/

/-- SUBSCRIBE and UNSUBSCRIBE (R125, R126): the refusals in their order, the lowest UNUSED entry set from the request,
the PULL entry removed and the entry cleared. A claim or a PULL burst in flight of the removed queue entry goes on
without it and is only marked so (R57). -/
def Obligations.SubscriptionsAreMadeAndEnded : Prop :=
  ∀ (j : Fin 32) (s : State), Ready s →
    let n : Byte := BitVec.ofNat 8 j.val
    let x := s.subs[j]
    let gone : State := { s with
      txQueue := s.txQueue.filter fun e => decide (e.kind ≠ .pull j), cable := withdrawnFrom (.pull j) s.cable }
    (∀ a i m l0 l1 l2 l3 t0 t1 : Byte,
      let ask := Instr.subscribe [a, i, m, l0, l1, l2, l3, t0, t1]
      let bad := a = 0 ∨ 24 < a.toNat ∨ a.toNat = s.station.own ∨ 15 < i.toNat ∨ 1 < m.toNat
      let names := fun h : Fin 32 =>
        s.subs[h].state ≠ .unused ∧ s.subs[h].publisher = a.toNat ∧ s.subs[h].index.val = i.toNat
      (bad → RefusedWith ask s .range)
      ∧ (¬ bad → names j → RefusedWith ask s .exists_)
      ∧ (¬ bad → (∀ h, ¬ names h) → (∀ h : Fin 32, s.subs[h].state ≠ .unused) → RefusedWith ask s .full)
      ∧ (¬ bad → (∀ h, ¬ names h) → x.state = .unused → (∀ h : Fin 32, h < j → s.subs[h].state ≠ .unused) →
        ∃ y : Subscription,
          Taken ask s ([n] ++ beBytes 4 y.lateThreshold ++ beBytes 2 y.staleTimeout) { s with subs := s.subs.set j y }
          ∧ y.publisher = a.toNat ∧ y.index.val = i.toNat ∧ y.mode.code = m.toNat
          ∧ y.lateThreshold = min (2 ^ 24) (beNat [l0, l1, l2, l3])
          ∧ y.staleTimeout = (if t0 = 0 ∧ t1 = 0 then 32 else beNat [t0, t1])
          ∧ y = { Subscription.cleared x.marked with
            state := .waiting, publisher := y.publisher, index := y.index, mode := y.mode
            lateThreshold := y.lateThreshold, staleTimeout := y.staleTimeout
            lastBlock := BitVec.ofNat 32 (s.timebase.ticks.toNat / 131072) }))
    ∧ (∀ m : Byte, 31 < m.toNat → RefusedWith (.unsubscribe [m]) s .range)
    ∧ (x.state = .unused → RefusedWith (.unsubscribe [n]) s .unused)
    ∧ (x.state ≠ .unused →
      Taken (.unsubscribe [n]) s [] { gone with subs := s.subs.set j (Subscription.cleared x.marked) })

/-- TAKE (R134, R212): the oldest block with its payload in the response, laid out byte by byte, and out of the ring; a
ring left empty clears overrun reported; a block that waits in a receive buffer is written into its ring, which then is
the ring taken from, and the samples waiting in the FIFO are drained, before the block is read (R103); while a BLOCK
burst holds the block store a TAKE may have to wait (`RequestsWaitForTheBlockStore`). PULL (R140): a PULL entry enqueued
and a pull begun when none is PENDING. Which value of PULL's flag tells "already pending" is open (notes/assumptions/11.md): it holds for either. -/
def Obligations.TakeAndPullRequests : Prop :=
  ∀ (j : Fin 32) (s : State), Ready s →
    let n : Byte := BitVec.ofNat 8 j.val
    let x := s.subs[j]
    (∀ m : Byte, 31 < m.toNat → RefusedWith (.take [m]) s .range ∧ RefusedWith (.pull [m]) s .range)
    ∧ (x.state = .unused → RefusedWith (.take [n]) s .unused ∧ RefusedWith (.pull [n]) s .unused)
    ∧ (x.state ≠ .unused → x.ring = [] → RefusedWith (.take [n]) s .empty)
    ∧ (∀ e rest, s.cable.binding = none → x.state ≠ .unused → x.ring ≠ [] →
      let w := placeWaiting s
      let y := w.subs[j]
      y.ring = e :: rest → e.count < 65536 → e.missed ≤ 255 → rest.length ≤ 3 →
      (∀ g, e.flags.gap = some g → g < 65536) →
      let d := drainWaiting w
      ∃ body,
        Taken (.take [n]) s body { d with subs := d.subs.set j { y with
          ring := rest, overrunReported := y.overrunReported && decide (rest ≠ []) } }
        ∧ field body 0 2 = e.seq.toNat ∧ field body 2 6 = e.time.toNat ∧ (byteAt body 8).toNat = e.width.code
        ∧ field body 9 2 = e.count ∧ byteAt body 11 = e.flags.byte ∧ field body 12 2 = e.flags.gap.getD 0
        ∧ field body 14 6 = e.arrival.toNat ∧ (byteAt body 20).toNat = e.missed
        ∧ byteAt body 21 = (if e.late then 1 else 0) ∧ (byteAt body 22).toNat = rest.length
        ∧ body.drop 23 = Memory.readBytes d.store (1024 * (32 + 4 * j.val + e.slot)) (e.count * e.width.bytes))
    ∧ (x.state ≠ .unused → s.station.state ≠ .joined → RefusedWith (.pull [n]) s .state)
    ∧ (x.state ≠ .unused → s.station.state = .joined →
      let begun : Pull := { tries := 1, deadline := BitVec.ofNat 32 (s.timebase.ticks.toNat / 131072) + 4 }
      Taken (.pull [n]) s [if x.pull.isSome = Config.pullFlagMeansPending then 1 else 0]
        { enqueue (.pull j) s with subs := s.subs.set j { x with pull := some (x.pull.getD begun) } })

/-- The boundary tests of a subscription (R139, R141): the stale timeout turns a LIVE one STALE with cause 1; a passed
deadline retries the pull, whatever the station state, and the third fails it with PULL_FAILED. A block received at
the boundary at which the stale timeout passes comes before the test when the stream has it first, and the test then
counts from that block's epoch (R139), which is that of the end of its reception (R127). A burst may be handed over at
its end or late, which is the model's reading (notes/assumptions/47.md, 48.md). -/
def Obligations.StaleTimeoutsAndPullDeadlines : Prop :=
  (∀ (j : Fin 32) (s : State),
    let x := s.subs[j]
    let now : BitVec 32 := BitVec.ofNat 32 (s.timebase.ticks.toNat / 131072)
    let due := fun d : Due => clearDue d s
    (Due.staleTimeout j ∈ s.due → (∀ i : Fin 32, i < j → Due.staleTimeout i ∉ s.due) →
      let passed := (now - (x.lastBlock + BitVec.ofNat 32 x.staleTimeout)).toNat < 2 ^ 31
      (x.state = .live → passed →
        exec (.staleTimeout j) s = .next (raise .subStale (some j.val) 1
          { due (.staleTimeout j) with subs := s.subs.set j { x with state := .stale } }))
      ∧ (x.state ≠ .live ∨ ¬ passed → exec (.staleTimeout j) s = .next (due (.staleTimeout j))))
    ∧ (∀ p, Due.pullDeadline j ∈ s.due → (∀ i : Fin 32, i < j → Due.pullDeadline i ∉ s.due) → x.pull = some p →
      let passed := (now - p.deadline).toNat < 2 ^ 31
      (passed → p.tries < 3 →
        exec (.pullDeadline j) s = .next { enqueue (.pull j) (due (.pullDeadline j)) with
          subs := s.subs.set j { x with pull := some { tries := p.tries + 1, deadline := now + 4 } } })
      ∧ (passed → p.tries = 3 →
        exec (.pullDeadline j) s = .next (raise .pullFailed (some j.val)
          (BitVec.ofNat 16 (x.publisher * 256 + x.index.val))
          { due (.pullDeadline j) with subs := s.subs.set j { x with pull := none } }))
      ∧ (¬ passed → exec (.pullDeadline j) s = .next (due (.pullDeadline j)))))
  ∧ ∀ (bytes : List Byte) (hand : HandOver) (m : BurstEnd) (b : BlockBurst) (j : Fin 32) (heard s : State),
    s.due = [.staleTimeout j] → s.port.held = [] → HandsOver bytes hand m s heard → s.station.state ≠ .silenced →
    readBurst bytes = some (.block b) → b.publisher ≠ s.station.own →
    (∀ h : Fin 32, s.subs[h].state ≠ .unused ∧ s.subs[h].publisher = b.publisher ∧ s.subs[h].index = b.index ↔ h = j) →
    s.subs[j].state = .live →
    let epoch : BitVec 32 := BitVec.ofNat 32 (m.ticks.toNat / 131072)
    let passed := (BitVec.ofNat 32 (s.timebase.ticks.toNat / 131072)
      - (epoch + BitVec.ofNat 32 s.subs[j].staleTimeout)).toNat < 2 ^ 31
    ∃ t, exec (.goodBurstReceived bytes hand) s = .next t ∧ t.due = [.staleTimeout j] ∧ t.subs[j].state = .live
      ∧ t.subs[j].lastBlock = epoch
      ∧ (¬ passed → exec (.staleTimeout j) t = .next (clearDue (.staleTimeout j) t))
      ∧ (passed → exec (.staleTimeout j) t = .next (raise .subStale (some j.val) 1
          { clearDue (.staleTimeout j) t with subs := t.subs.set j { t.subs[j] with state := .stale } }))

/-- A BLOCK that arrives (R52, R127 to R133, R136, R143): without a subscription nothing but the reception; a
duplicate counted; an accepted block with its MISSED and LATE, its room made by the ring mode, its payload in a slot
that no other entry holds, its events in their order, and the LIVE test. The monitor is told, after these events
(R185), of BLOCK_DUPLICATE, or of BLOCK_ACCEPTED, of BLOCK_MISSED by the number missed, of BLOCK_LATE and of
RING_OVERRUN, and of BURST_RECEIVED. The ring keeps R131. Three points are the model's choice: which free slot is
taken (notes/assumptions/30.md), the order of the occurrences (15.md), and that RING_READY is raised when R131 removed
the ring's only block (46.md). Arrival time, last-block epoch and the own timebase state are those of the end of the
block's reception, also where it then waited in its buffer; that its reports come with the hand-over is the model's
choice (47.md, 48.md). In SILENCED the burst counts toward the recovery (R52, R83). -/
def Obligations.BlocksArriveInTheirRing : Prop :=
  ∀ (bytes : List Byte) (hand : HandOver) (m : BurstEnd) (b : BlockBurst) (heard s : State), quiet s = true →
    HandsOver bytes hand m s heard → readBurst bytes = some (.block b) → b.publisher ≠ s.station.own →
    let names := fun h : Fin 32 =>
      s.subs[h].state ≠ .unused ∧ s.subs[h].publisher = b.publisher ∧ s.subs[h].index = b.index
    let judged := received b.publisher
    ((∀ h, ¬ names h) → exec (.goodBurstReceived bytes hand) s = .next (judged heard))
    ∧ ∀ j, names j → (∀ h, names h → h = j) →
      let x := s.subs[j]
      let tells := fun (events : List (EventKind × BitVec 16)) (u : State) =>
        events.foldl (fun v (kind, detail) => raise kind (some j.val) detail v) u
      let told := fun (occurrences : List (OccKind × Nat)) (u : State) =>
        occurrences.foldl (fun v (kind, amount) => occur kind (.subscription j) amount v) u
      let goesLive := (x.state = .waiting ∨ x.state = .stale) ∧ announced s x.publisher x.index = true
      let renewed := { x with
        lastBlock := BitVec.ofNat 32 (m.ticks.toNat / 131072), pull := none
        state := if goesLive then .live else x.state }
      let liveEvent := if goesLive then [(EventKind.subLive, BitVec.ofNat 16 x.state.code)] else []
      (x.last = some b.seq → exec (.goodBurstReceived bytes hand) s
        = .next (judged (told [(.blockDuplicate, 1)] (tells liveEvent { heard with
            subs := s.subs.set j { renewed with duplicates := min 65535 (x.duplicates + 1) } }))))
      ∧ (x.last ≠ some b.seq → ringSound x.ring →
        let arrival : BitVec 48 := m.ticks.setWidth 48
        let age := (arrival - b.time).toNat
        let synced := fun z : TimebaseState => z = .track ∨ z = .locked ∨ z = .source
        let late := decide (x.lateThreshold ≠ 0 ∧ synced b.flags.capture ∧ synced m.state
          ∧ age < 2 ^ 47 ∧ x.lateThreshold < age)
        let missed := match x.last with
          | none => 0
          | some l => min 255 (b.seq - l - 1).toNat
        let kept := x.ring.filter fun r => decide (r.seq ≠ b.seq)
        let full := kept.length = 4
        let overrun := full ∨ kept.length < x.ring.length
        let stored := ¬ (full ∧ x.mode = .keepOldest)
        let base := if full ∧ x.mode = .keepNewest then kept.drop 1 else kept
        let events :=
          (if overrun ∧ x.overrunReported = false
            then [(EventKind.ringOverrun, BitVec.ofNat 16 (min 65535 (x.overruns + 1)))] else [])
          ++ (if kept = [] then [(.ringReady, b.seq)] else []) ++ liveEvent
        let occurrences := [(OccKind.blockAccepted, 1)] ++ (if 0 < missed then [(.blockMissed, missed)] else [])
          ++ (if late then [(.blockLate, 1)] else []) ++ (if overrun then [(.ringOverrun, 1)] else [])
        ∃ store slot,
          (let entry : RingEntry :=
            { slot := slot, seq := b.seq, time := b.time, width := b.width, count := b.count, flags := b.flags,
              arrival := arrival, missed := missed, late := late };
          exec (.goodBurstReceived bytes hand) s = .next (judged (told occurrences (tells events { heard with
            store := store
            subs := s.subs.set j { renewed with
              last := some b.seq, ring := if stored then base ++ [entry] else base
              lates := if late then min 65535 (x.lates + 1) else x.lates
              overruns := if overrun then min 65535 (x.overruns + 1) else x.overruns
              overrunReported := x.overrunReported || decide overrun } }))))
          ∧ slot < 4 ∧ (stored → ∀ r ∈ base, r.slot ≠ slot)
          ∧ (let start := 1024 * (32 + 4 * j.val + slot);
            Memory.wf s.store = true →
              (stored → Memory.readBytes store start b.payload.length = b.payload
                ∧ ∀ a, a < start ∨ start + b.payload.length ≤ a → Memory.read store a = Memory.read s.store a)
              ∧ (¬ stored → store = s.store)))

/-! ### What every step keeps -/

/-- Both memories keep their canonical form (R102, R144). -/
def Obligations.CanonicalMemoriesAreKept : Prop :=
  ∀ s t : State, CanonicalMemories s → step s = .next t → CanonicalMemories t

/-- The event queue stays within 32 records (R198), the sample FIFO within 64 words (R108), the held requests within two
(R191), and a loop count without a loop start at 0 (R145). -/
def Obligations.BoundsOfQueuesAndLoopsAreKept : Prop :=
  ∀ s t : State, BoundedEvents s → FifoFits s → HoldersBounded s → LoopsClosed s → step s = .next t →
    BoundedEvents t ∧ FifoFits t ∧ HoldersBounded t ∧ LoopsClosed t

/-- A and I stay in the ranges of R2 and R13. -/
def Obligations.RatesStayInRange : Prop := ∀ s t : State, RatesInRange s → step s = .next t → RatesInRange t

/-- The generators' values stay in the ranges of R164 and R165, and the output of one that is not RUNNING is low (R163,
R169). -/
def Obligations.GeneratorsStayInRange : Prop :=
  ∀ s t : State, ClocksInRange s → StoppedClocksLow s → step s = .next t → ClocksInRange t ∧ StoppedClocksLow t

/-- The rings keep R131, every slot one of the subscription's four, the channels of the subscriptions stay distinct
(R125), and a LIVE subscription's publisher is PRESENT and announces it (R136). -/
def Obligations.SubscriptionsStaySound : Prop :=
  ∀ s t : State, RingsSound s → ChannelsDistinct s → LiveIsAnnounced s → step s = .next t →
    RingsSound t ∧ ChannelsDistinct t ∧ LiveIsAnnounced t

/-- The transmit queue holds an entry of a kind and subject at most once, in order of class, and in RETIRING no BLOCK and
no PULL (R54); the queue, the drivers and the source role belong to JOINED and RETIRING and the claim countdown to JOINED
(R20, R30, R42, R54); the score is 255 exactly in SILENCED (R80). -/
def Obligations.MembershipAndQueueStaySound : Prop :=
  ∀ s t : State, QueueDistinct s → QueueOrdered s → RetiringSendsNoData s → MembersOnly s → ScoreTellsSilence s →
    step s = .next t →
    QueueDistinct t ∧ QueueOrdered t ∧ RetiringSendsNoData t ∧ MembersOnly t ∧ ScoreTellsSilence t

/-- Every invariant holds right after power-on reset, with any levels on the pins, and so at `State.reset`. The pin
levels of `State.reset` are the model's choice (notes/assumptions/6.md). -/
def Obligations.InvariantsHoldAtReset : Prop :=
  ∀ s : State, (s = State.reset ∨ ∃ p ssn, s = State.powerOn p ssn) →
    CanonicalMemories s ∧ BoundedEvents s ∧ FifoFits s ∧ HoldersBounded s ∧ LoopsClosed s ∧ RatesInRange s
    ∧ ClocksInRange s ∧ StoppedClocksLow s ∧ RingsSound s ∧ ChannelsDistinct s ∧ LiveIsAnnounced s
    ∧ QueueDistinct s ∧ QueueOrdered s ∧ RetiringSendsNoData s ∧ MembersOnly s ∧ ScoreTellsSilence s

/-! ### Schedule engines (08) -/

/-- LOOP (R151) in its three cases, at the slot tick at which engine e takes it, in RUN or at the end of an ALIGN (R153),
the pointer going from 255 to 0; no compare of the tick is still to fire. -/
def Obligations.LoopJumpsWhileItsCountLasts : Prop :=
  ∀ (e : Fin 4) (row : Instr) (s : State), Due.engine e ∈ s.due → (∀ k, Due.compareFired k ∉ s.due) →
    takesEntryBy e row s → schedRead s.schedule s.engines[e].pointer.toNat = .loop →
      let x := { s.engines[e] with run := .run }
      exec row s = .next { clearDue (.engine e) s with
        engines := s.engines.set e
          (match x.loopStart with
            | some start =>
              if 0 < x.loopCount then { x with loopCount := x.loopCount - 1, pointer := start }
              else { x with loopStart := none, pointer := x.pointer + 1 }
            | none => { x with pointer := x.pointer + 1 }) }

/-- HALT (R154), taken in RUN or at the end of an ALIGN (R153): STOPPED, to be resumed in RUN at the entry after it, the
loop kept; SCHEDULE_HALTED is raised with the address of the HALT. Memory that has never been loaded since power-on reset holds HALT at every address. No compare of the
tick is still to fire. -/
def Obligations.HaltStopsAtTheEntryAfterIt : Prop :=
  (∀ (e : Fin 4) (row : Instr) (s : State), Due.engine e ∈ s.due → (∀ k, Due.compareFired k ∉ s.due) →
    takesEntryBy e row s → schedRead s.schedule s.engines[e].pointer.toNat = .halt →
    exec row s = .next (raise .scheduleHalted (some e.val) (s.engines[e].pointer.setWidth 16)
      { clearDue (.engine e) s with
        engines := s.engines.set e
          { s.engines[e] with run := .stopped, resume := .run, pointer := s.engines[e].pointer + 1 } }))
  ∧ ∀ (p : Pins) (ssn : Bool) (a : Nat), schedRead (State.powerOn p ssn).schedule a = .halt

/-- HOLD, REPEAT, NOTIFY and ALIGN as they are taken (R149, R150, R152, R153); a REPEAT, wherever it is met, puts its own
loop in place of the one there was; the pointer goes from 255 to 0. The end of a hold: the engine returns to RUN and takes
no entry at that tick (R149). The end of an ALIGN: the engine returns to RUN and takes the entry at its pointer, of
whatever kind, at the same tick, as the same engine in RUN takes it (R153). A hold of n units at prescaler p takes n x (p + 1) hold ticks: hold remaining reaches 0 at the
last of them and not before (R149). No compare of the tick is still to fire. -/
def Obligations.EngineEntriesAndHoldsAsTaken : Prop :=
  (∀ (e : Fin 4) (row : Instr) (s : State), Due.engine e ∈ s.due → (∀ k, Due.compareFired k ∉ s.due) →
     takesEntryBy e row s →
     let x := { s.engines[e] with run := .run }
     let u := clearDue (.engine e) s;
     (∀ n, schedRead s.schedule x.pointer.toNat = .hold n →
       let waiting := { x with pointer := x.pointer + 1, hold := n.toNat, prescaleCount := 0, run := .holding };
       let y := if n = 0 then { x with pointer := x.pointer + 1 } else waiting;
       exec row s = .next { u with engines := s.engines.set e y })
     ∧ (∀ n, schedRead s.schedule x.pointer.toNat = .repeat_ n →
       exec row s = .next { u with engines := s.engines.set e { x with
         pointer := x.pointer + 1, loopStart := some (x.pointer + 1), loopCount := n.toNat } })
     ∧ (∀ c, schedRead s.schedule x.pointer.toNat = .notify c →
       exec row s = .next (raise .scheduleNote (some e.val) c
         { u with engines := s.engines.set e { x with pointer := x.pointer + 1 } }))
     ∧ (schedRead s.schedule x.pointer.toNat = .align →
       let y := { x with pointer := x.pointer + 1, run := .aligning };
       exec row s = .next { u with engines := s.engines.set e y }))
  ∧ (∀ (e : Fin 4) (s : State), Due.holdEnd e ∈ s.due → s.engines[e].run = .holding → s.engines[e].hold = 0 →
       exec (.holdEnd e) s = .next { clearDue (.holdEnd e) s with
         engines := s.engines.set e { s.engines[e] with run := .run } })
  ∧ (∀ (e : Fin 4) (s : State), Due.engine e ∈ s.due → (∀ k, Due.compareFired k ∉ s.due) →
       s.engines[e].run = .aligning →
       exec (.alignComplete e) s = exec (entryRowOf e (schedRead s.schedule s.engines[e].pointer.toNat))
         { s with engines := s.engines.set e { s.engines[e] with run := .run } })
  ∧ ∀ (x : Engine) (n : Nat), 1 ≤ n → x.hold = n → x.prescaleCount = 0 →
    (∀ k, k < n * (x.prescale + 1) →
      (holdRunsOut (countHold^[k] x) = true ↔ k + 1 = n * (x.prescale + 1)) ∧ 0 < (countHold^[k] x).hold)
    ∧ countHold^[n * (x.prescale + 1)] x = { x with hold := 0, prescaleCount := 0 }

/-- EMIT (R148, R118): skipped, told to the monitor as EMIT_SKIPPED, unless the publication is ACTIVE, the station
JOINED, the ready block there, and NEW set or the policy REPEAT_LAST; otherwise a BLOCK is enqueued; the pointer moves on
either way. A BLOCK enqueued (R55): placed behind every entry of its class and above, its class 3 or 4 by the urgent flag;
merged, told to the monitor as EMIT_MERGED, when one waits; not taken outside JOINED. No compare of the tick is still to
fire. -/
def Obligations.EmitsAreSkippedEnqueuedOrMerged : Prop :=
  (∀ (e : Fin 4) (k : Fin 16) (s : State), Due.engine e ∈ s.due → (∀ i, Due.compareFired i ∉ s.due) →
     s.engines[e].run = .run → schedRead s.schedule s.engines[e].pointer.toNat = .emit k →
     let u := { clearDue (.engine e) s with
       engines := s.engines.set e { s.engines[e] with pointer := s.engines[e].pointer + 1 } }
     exec (.scheduleEmit e) s = .next
       (if s.pubs[k].state = .active ∧ s.station.state = .joined ∧ s.pubs[k].ready ≠ none
           ∧ (s.pubs[k].isNew = true ∨ s.pubs[k].policy = .repeatLast) then enqueue (.block k) u
         else occur .emitSkipped (.publication k) 1 u))
  ∧ (∀ (k : Fin 16) (s : State),
       (s.station.state ≠ .joined → enqueue (.block k) s = s)
       ∧ (s.station.state = .joined → (∃ x ∈ s.txQueue, x.kind = .block k) →
           enqueue (.block k) s = occur .emitMerged (.publication k) 1 s)
       ∧ (s.station.state = .joined → (∀ x ∈ s.txQueue, x.kind ≠ .block k) →
           ∃ before after, s.txQueue = before ++ after
             ∧ (let c := if s.pubs[k].urgent then 3 else 4
               enqueue (.block k) s = { s with txQueue := before ++ { kind := .block k, cls := c } :: after }
               ∧ (s.txQueue.Pairwise (fun a b => a.cls ≤ b.cls) →
                 (∀ x ∈ before, x.cls ≤ c) ∧ ∀ x ∈ after, c < x.cls))))

/-- ENGINE_START, ENGINE_STOP, ENGINE_POINT and ENGINE_PRESCALE (R155, R156, R158, R159, R161): what each changes in
its engine, nothing else, and the engine's state after it as the body of the response. LOAD_LIST (R160): the entries
stand at consecutive addresses from the start address, every other address and all else as before; the response
carries the start address and the number written; refused with RANGE for a start above 255, an empty list, a list
past address 255, or an entry of no kind. An entry is read from its kind byte, 01 to 07, and an operand in the range of
its kind (R144, R211: `scheduleEntry`). The encodings of the responses' items are those of notes/assumptions/12.md
and 13.md. -/
def Obligations.EngineAndListRequests : Prop :=
  (∀ (e : Fin 4) (s : State), Ready s →
     let x := s.engines[e]
     let put := fun y : Engine => { s with engines := s.engines.set e y }
     let n := BitVec.ofNat 8 e.val;
     (let y := if x.run = .stopped then { x with run := x.resume, resume := .run } else x;
       Taken (.engineStart [n]) s (engineBytes y) (put y))
     ∧ (let y := if x.run = .stopped then x else { x with run := .stopped, resume := x.run };
       Taken (.engineStop [n]) s (engineBytes y) (put y))
     ∧ (∀ v : BitVec 16,
       let hi := BitVec.ofNat 8 (v.toNat / 256)
       let lo := BitVec.ofNat 8 v.toNat;
       (v.toNat ≤ 255 →
         (let y := { x with pointer := BitVec.ofNat 8 v.toNat, loopStart := none, loopCount := 0 };
           Taken (.enginePoint [n, hi, lo]) s (engineBytes y) (put y))
         ∧ (let y := { x with prescale := v.toNat };
           Taken (.enginePrescale [n, hi, lo]) s (engineBytes y) (put y)))
       ∧ (255 < v.toNat →
         RefusedWith (.enginePoint [n, hi, lo]) s .range ∧ RefusedWith (.enginePrescale [n, hi, lo]) s .range))
     ∧ (∀ b : Byte, 4 ≤ b.toNat → ∀ v w : Byte,
       RefusedWith (.engineStart [b]) s .range ∧ RefusedWith (.engineStop [b]) s .range
         ∧ RefusedWith (.enginePoint [b, v, w]) s .range ∧ RefusedWith (.enginePrescale [b, v, w]) s .range))
  ∧ (∀ (start : BitVec 16) (tail : List Byte) (m : Nat) (s : State), Ready s →
       sparseWf SchedEntry.halt 0 s.schedule = true → tail.length = 3 * m → m ≤ 256 →
       let body := BitVec.ofNat 8 (start.toNat / 256) :: BitVec.ofNat 8 start.toNat :: tail
       let entry := fun i => scheduleEntry (field tail (3 * i) 1) (field tail (3 * i + 1) 2);
       ((255 < start.toNat ∨ m = 0 ∨ 256 < start.toNat + m ∨ ∃ i, i < m ∧ entry i = none) →
         RefusedWith (.loadList body) s .range)
       ∧ (start.toNat ≤ 255 → 0 < m → start.toNat + m ≤ 256 → (∀ i, i < m → entry i ≠ none) →
         ∃ mem, Taken (.loadList body) s (byteOf start.toNat ++ beBytes 2 m) { s with schedule := mem }
           ∧ ∀ a, schedRead mem a =
             if start.toNat ≤ a ∧ a < start.toNat + m then (entry (a - start.toNat)).getD .halt
             else schedRead s.schedule a))

/-- A slot tick (R3, R146, R149, R172): which compares fire and which engines act at it, what a hold counts, and that
it changes nothing else but the monitor, which is told of one SLOT_TICK (R24, R177), and the events this raises. What falls
due is held in the model's field `due` (notes/assumptions/2.md), and nothing else falls due. That the monitor is told
before the compares fire and the engines act is the model's choice (41.md). -/
def Obligations.SlotTickReachesComparesAndEngines : Prop :=
  ∀ s : State, Due.slotTick ∈ s.due →
    ∃ t, exec .slotTick s = .next t
      ∧ (∀ e : Fin 4, t.engines[e] = if s.engines[e].run = .holding then countHold s.engines[e] else s.engines[e])
      ∧ (∀ k : Fin 4, Due.compareFired k ∈ t.due ↔ Due.compareFired k ∈ s.due
          ∨ s.compares[k].state = .armed ∧ (slot38 s.timebase - s.compares[k].target).toNat < 2 ^ 37)
      ∧ (∀ e : Fin 4, Due.engine e ∈ t.due ↔ Due.engine e ∈ s.due ∨ s.engines[e].run = .run
          ∨ s.engines[e].run = .aligning ∧ s.timebase.ticks.toNat / 2048 % 64 = 0)
      ∧ (∀ e : Fin 4, Due.holdEnd e ∈ t.due ↔ Due.holdEnd e ∈ s.due
          ∨ s.engines[e].run = .holding ∧ s.engines[e].prescale < s.engines[e].prescaleCount + 1
            ∧ s.engines[e].hold ≤ 1)
      ∧ (∀ d, (∀ k, d ≠ .compareFired k) → (∀ e, d ≠ .engine e ∧ d ≠ .holdEnd e) →
          (d ∈ t.due ↔ d ∈ s.due ∧ d ≠ .slotTick))
      ∧ (let told := occur .slotTick .none 1 s
        t.monitor = told.monitor ∧ t.port = told.port)
      ∧ t = { s with engines := t.engines, monitor := t.monitor, port := t.port, due := t.due }

/-! ### Module clocks and epoch compares (09) -/

/-- CLOCK_SET, CLOCK_ARM and CLOCK_OFF (R165, R166, R169): what each changes in its generator, nothing else, and the
generator's state after it as the body of the response, in the encodings of notes/assumptions/12.md. The wrap of a
RUNNING generator whose count c has reached P (R164): the wrap base rises by the active P, the staged values become
active with H limited to 1..P - 1, the output follows the new count; the end of its high time, while c is at least H:
the output falls low (R163). An ARMED generator starts at a boundary at or after its arm epoch (R167): rack time then
stands at (ticks - E x 2^17) mod P within a period, the staged values are active, and the output is high while that is
below H; `E` is the arm epoch at full width, also where the epoch at or before the boundary would be negative: E is
then the arm epoch itself, ahead of the boundary. A generator that realigns on a phase step (R168): its count comes to lie
in 0..P - 1, the same modulo P, the staged values not applied; one that is not RUNNING does nothing. -/
def Obligations.ClockRequestsAndGeneratorsFollowTheirGrid : Prop :=
  (∀ (g : Fin 2) (a b c d i j k l : Byte) (s : State), Ready s →
    let x := s.gens[g]
    let put := fun y : Generator => { s with gens := s.gens.set g y }
    let n := BitVec.ofNat 8 g.val
    let period := beNat [a, b, c, d]
    let high := beNat [i, j, k, l]
    (let y := { x with stagedPeriod := max 2 (min 65536 period), stagedHigh := max 1 (min 65535 high) };
      Taken (.clockSet [n, a, b, c, d, i, j, k, l]) s (generatorBytes y) (put y))
    ∧ (let y := { x with armEpoch := BitVec.ofNat 32 period, state := .armed, out := false };
      Taken (.clockArm [n, a, b, c, d]) s (generatorBytes y) (put y))
    ∧ (let y := { x with state := .off, out := false };
      Taken (.clockOff [n]) s (generatorBytes y) (put y))
    ∧ (∀ m : Byte, 2 ≤ m.toNat →
      RefusedWith (.clockSet [m, a, b, c, d, i, j, k, l]) s .range ∧ RefusedWith (.clockArm [m, a, b, c, d]) s .range
        ∧ RefusedWith (.clockOff [m]) s .range))
  ∧ (∀ (g : Fin 2) (s : State), s.gens[g].state = .running →
     let x := s.gens[g]
     let c := (s.timebase.ticks - x.wrapBase).toInt
     (Due.generatorWrap g ∈ s.due → (x.period : Int) ≤ c → 2 ≤ x.stagedPeriod →
       let high := max 1 (min (x.stagedPeriod - 1) x.stagedHigh)
       let base := x.wrapBase + BitVec.ofNat 64 x.period
       exec (.generatorWrap g) s = .next { clearDue (.generatorWrap g) s with
         gens := s.gens.set g { x with
           wrapBase := base, period := x.stagedPeriod, high := high,
           out := decide ((s.timebase.ticks - base).toInt < high) } })
     ∧ (Due.highTimeEnd g ∈ s.due → (x.high : Int) ≤ c →
       exec (.highTimeEnd g) s = .next { clearDue (.highTimeEnd g) s with
         gens := s.gens.set g { x with out := false } }))
  ∧ ((∀ (g : Fin 2) (E : Nat) (s : State), Due.generatorStart g ∈ s.due → s.gens[g].state = .armed →
        s.gens[g].armEpoch = BitVec.ofNat 32 E →
        (let n := s.timebase.ticks.toNat / 131072; E ≤ n ∧ n < E + 2 ^ 31 ∨ E < 2 ^ 32 ∧ n + 2 ^ 31 < E) →
        2 ≤ s.gens[g].stagedPeriod →
        s.gens[g].stagedPeriod ≤ 65536 → 1 ≤ s.gens[g].stagedHigh →
        ∃ y, exec (.generatorStart g) s = .next { clearDue (.generatorStart g) s with gens := s.gens.set g y }
          ∧ y.state = .running ∧ y.period = s.gens[g].stagedPeriod
          ∧ y.high = min s.gens[g].stagedHigh (s.gens[g].stagedPeriod - 1)
          ∧ (let c := ((s.timebase.ticks.toNat : Int) - (E * 131072 : Nat)) % s.gens[g].stagedPeriod;
            (s.timebase.ticks - y.wrapBase).toInt = c ∧ y.out = decide (c < y.high))
          ∧ y = { s.gens[g] with state := y.state, period := y.period, high := y.high, wrapBase := y.wrapBase, out := y.out })
     ∧ (∀ (ticks : BitVec 64) (x : Generator),
          (x.state ≠ .running → realign ticks x = x)
          ∧ (x.state = .running → 2 ≤ x.period → x.period ≤ 65536 →
            let c := (ticks - x.wrapBase).toInt
            let y := realign ticks x
            (ticks - y.wrapBase).toInt = c % x.period ∧ y.out = decide (c % x.period < x.high)
              ∧ y = { x with wrapBase := y.wrapBase, out := y.out })))

/-- COMPARE_SET and COMPARE_CANCEL (R171, R175): target epoch x 64 + slot modulo 2^38, armed, told at once whether
the slot count is already at or after it; IDLE with target and action kept; the refusals of R171. A compare fires
(R172, R173, R157): FIRED, COMPARE_FIRED with its lateness limited to 65,535; an engine it starts is set to RUN if it
was STOPPED, its hold discarded, its loop and pointer kept, and takes its entry at this tick. It takes one entry there: a
row in which an engine acts finds the compares of its tick fired (R146, R173); that this holds also of an engine that the
compare does not start, so that COMPARE_FIRED precedes its events, is the model's choice (notes/assumptions/5.md). The
encodings of the response's items are those of 12.md. -/
def Obligations.ComparesAreSetAndFire : Prop :=
  (∀ (k : Fin 4) (a b c d slot e : Byte) (s : State), Ready s →
     let n := BitVec.ofNat 8 k.val
     let put := fun y : Compare => { s with compares := s.compares.set k y }
     let target := BitVec.ofNat 38 (beNat [a, b, c, d] * 64 + slot.toNat)
     let reached := flagOf (decide ((slot38 s.timebase - target).toNat < 2 ^ 37))
     (slot.toNat ≤ 63 →
       (let y : Compare := { state := .armed, target := target, action := .notify };
         Taken (.compareSet [n, a, b, c, d, slot, 0, e]) s (compareBytes s.timebase y ++ reached) (put y))
       ∧ (∀ h : e.toNat < 4,
         let y : Compare := { state := .armed, target := target, action := .start ⟨e.toNat, h⟩ };
         Taken (.compareSet [n, a, b, c, d, slot, 1, e]) s (compareBytes s.timebase y ++ reached) (put y)))
     ∧ (let y := { s.compares[k] with state := .idle };
       Taken (.compareCancel [n]) s (compareBytes s.timebase y) (put y))
     ∧ (∀ m action : Byte, (4 ≤ m.toNat ∨ 64 ≤ slot.toNat ∨ 2 ≤ action.toNat ∨ (action = 1 ∧ 4 ≤ e.toNat)) →
       RefusedWith (.compareSet [m, a, b, c, d, slot, action, e]) s .range)
     ∧ (∀ m : Byte, 4 ≤ m.toNat → RefusedWith (.compareCancel [m]) s .range))
  ∧ (∀ (k : Fin 4) (s : State), Due.compareFired k ∈ s.due → s.compares[k].state = .armed →
       (slot38 s.timebase - s.compares[k].target).toNat < 2 ^ 37 →
       let late := BitVec.ofNat 16 (min 65535 (slot38 s.timebase - s.compares[k].target).toNat)
       let u := raise .compareFired (some k.val) late { clearDue (.compareFired k) s with
         compares := s.compares.set k { s.compares[k] with state := .fired } }
       (s.compares[k].action = .notify → exec (.compareFired k) s = .next u)
       ∧ ∀ e : Fin 4, s.compares[k].action = .start e →
         (s.engines[e].run ≠ .stopped → exec (.compareFired k) s = .next u)
         ∧ (s.engines[e].run = .stopped →
           ∃ t, exec (.compareFired k) s = .next t ∧ Due.engine e ∈ t.due
             ∧ t = { u with
               engines := s.engines.set e { s.engines[e] with run := .run, resume := .run, hold := 0, prescaleCount := 0 }
               due := t.due }))
  ∧ ∀ (c : Instr) (e k : Fin 4) (s t : State), followingStep c = some (.engine e) → Due.compareFired k ∈ s.due →
      (∀ i : Fin 4, i ≠ k → Due.compareFired i ∉ s.due) → exec (.compareFired k) s = .next t → exec c s = exec c t

/-! ### Health monitor (10) -/

/-- What one occurrence does to the counters (R180, R181, R182): a counter that selects its kind, that the qualifier
lets count and whose gate does not hold it back, rises by the amount up to 2^32 - 1; the gates of counters 1..3 open
when counter 0 is carried across 2^31; nothing counts while frozen. The notifying overflows, in ascending counter number
(R183, R184, R185): each raises MONITOR_OVERFLOW, its detail the selection, with bit 15 set while the snapshot holds
another; the first sets an empty snapshot, every other counts as a further one; with FREEZE the counting stops. The
monitor acts on the rest of the part only through the events it raises (R188). (The order of events of one occurrence:
notes/assumptions/15.md.) -/
def Obligations.OccurrencesRaiseTheCountersThatSelectThem : Prop :=
  ∀ (kind : OccKind) (subject : Subject) (amount : Nat) (s : State),
    let m := s.monitor
    let t := occur kind subject amount s
    let counted := fun i : Fin 4 => decide (m.frozen = false ∧ m.counters[i].selection = kind.code
      ∧ (m.marked = true → subjectMarked s subject = true)
      ∧ (i.val = 0 ∨ m.counters[i].await0 = false ∨ m.counters[i].gateOpen = true))
    let crosses := fun i : Fin 4 => counted i
      && decide (m.counters[i].value < 2 ^ 31 ∧ 2 ^ 31 ≤ m.counters[i].value + amount)
    let notified := (List.finRange 4).filter fun i => crosses i && m.counters[i].notify
    let held := m.snapshot.isSome
    (∀ i : Fin 4, t.monitor.counters[i] = { m.counters[i] with
        value := if counted i then min (2 ^ 32 - 1) (m.counters[i].value + amount) else m.counters[i].value
        gateOpen := m.counters[i].gateOpen || (crosses 0 && i.val != 0) })
    ∧ t.port = (notified.zipIdx.foldl (fun u (i, before) => raise .monitorOverflow (some i.val)
        (BitVec.ofNat 16 ((if held = true ∨ 0 < before then 32768 else 0) + m.counters[i].selection)) u) s).port
    ∧ t.monitor.snapshot = (if held then m.snapshot else notified.head?.map fun i =>
        { counter := i, epoch := BitVec.ofNat 32 (s.timebase.ticks.toNat / 131072)
          tick := s.timebase.ticks.toNat % 131072, selection := m.counters[i].selection, subject := subject })
    ∧ (m.further ≤ 255 →
      t.monitor.further = min 255 (m.further + (notified.length - if held then 0 else 1)))
    ∧ t.monitor.frozen = (m.frozen || (m.freeze && !notified.isEmpty))
    ∧ t.monitor.marked = m.marked ∧ t.monitor.freeze = m.freeze
    ∧ t = { s with monitor := t.monitor, port := t.port }
    ∧ (m.frozen = true → t = s)

/-- MONITOR_SET, MONITOR_READ and MARK (R179, R183, R186, R187, R211): a MONITOR_SET that writes any of the four counters,
their blocks in ascending counter number, bits 7..4 of the write flags ignored; the counters not written stay, frozen is
cleared by a counter that is written and by FREEZE clear; its refusals; a read with and without the clear option; a MARK
of each kind of subject, and their refusals. The encodings of the response's items are those of
notes/assumptions/13.md. -/
def Obligations.MonitorRequestsSetReadAndMark : Prop :=
  (∀ (q f w : Byte) (blocks : Fin 4 → Fin 6 → Byte) (s : State), Ready s →
    let m := s.monitor
    let writes := fun i : Fin 4 => w.getLsbD i.val
    let body := [q, f, w] ++ ((List.finRange 4).filter writes).flatMap fun i => List.ofFn (blocks i)
    let sound := q.toNat ≤ 1 ∧ (∀ i, writes i = true → (blocks i 4).toNat ≤ 15)
      ∧ (writes 0 = true → (blocks 0 5).getLsbD 1 = false)
    (sound → ∃ m', Taken (.monitorSet body) s (monitorBytes m') { s with monitor := m' }
        ∧ (∀ i, m'.counters[i] = if writes i then
            { value := beNat [blocks i 0, blocks i 1, blocks i 2, blocks i 3], selection := (blocks i 4).toNat
              notify := (blocks i 5).getLsbD 0, await0 := (blocks i 5).getLsbD 1, gateOpen := false }
          else m.counters[i])
        ∧ m' = { m with counters := m'.counters, marked := decide (q = 1), freeze := f.getLsbD 0
                        frozen := m.frozen && f.getLsbD 0 && decide (∀ i, writes i = false) })
    ∧ (¬ sound → RefusedWith (.monitorSet body) s .range))
  ∧ ∀ (v : Byte) (s : State), Ready s →
    let m := s.monitor
    Taken (.monitorRead [v]) s (monitorBytes m)
        (if v.getLsbD 0 then { s with monitor := { m with snapshot := none, further := 0 } } else s)
    ∧ (∀ (p : Fin 24), p.val + 1 ≠ s.station.own →
      Taken (.mark [0, BitVec.ofNat 8 (p.val + 1), v]) s [if v.getLsbD 0 then 1 else 0]
        { s with roster := s.roster.set p { s.roster[p] with marked := v.getLsbD 0 } })
    ∧ (∀ k : Fin 16, Taken (.mark [1, BitVec.ofNat 8 k.val, v]) s [if v.getLsbD 0 then 1 else 0]
        { s with pubs := s.pubs.set k { s.pubs[k] with marked := v.getLsbD 0 } })
    ∧ (∀ j : Fin 32, Taken (.mark [2, BitVec.ofNat 8 j.val, v]) s [if v.getLsbD 0 then 1 else 0]
        { s with subs := s.subs.set j { s.subs[j] with marked := v.getLsbD 0 } })
    ∧ (∀ kind n : Byte, (2 < kind.toNat ∨ (kind = 0 ∧ (n = 0 ∨ 24 < n.toNat ∨ n.toNat = s.station.own))
        ∨ (kind = 1 ∧ 15 < n.toNat) ∨ (kind = 2 ∧ 31 < n.toNat)) → RefusedWith (.mark [kind, n, v]) s .range)

/-! ### The host port (11, 12) -/

/-- The checks that come before an owning rule's tests (R193, R211): a request whose body is longer than 1,536 bytes or
of a length its kind does not allow is refused with RANGE, a request of none of the 34 kinds with UNKNOWN, and neither
changes anything else. A record that SSN cuts off is not handled: it changes nothing but the transaction, in which no
response is sent: FF in each byte of it and nothing after (R189, R190). -/
def Obligations.PortChecksRefuseBeforeTheOwner : Prop :=
  (∀ (c : Instr) (body : List Byte) (ok : Bool) (s : State), Ready s → requestBody c = some (body, ok) →
    (ok = false ∨ 1536 < body.length) → RefusedWith c s .range)
  ∧ (∀ (kind : Byte) (body : List Byte) (s : State), Ready s → (kind = 0 ∨ 35 ≤ kind.toNat) →
    RefusedWith (.unknownRequest kind body) s .unknown)
  ∧ ∀ s : State, quiet s = true →
    let t := { s with port := { s.port with transaction := .closed [] } }
    exec (.recordDiscarded .cut) s = .next t ∧ (∀ i, sentByte t i = none)
    ∧ (∀ before i, transactionByte before t i = if i < before then some 0xFF else none)
    ∧ (s.port.held.length < 2 → exec (.recordDiscarded .third) s = .next s)

/-- The two request holders and the block store (R103, R109, R189 to R192). The cable side comes before the drain, and the
drain before the host port: a block that waits in a receive buffer for its ring is handed over, and then the samples that
wait in the FIFO are drained, grant by grant, before a request's accesses; the block also comes before a DRAIN_SAMPLE,
and that before a held request (that a block that waits asks for the store is DEDUCED, notes/assumptions/10.md). While a BLOCK burst holds the block store, a TAKE of a block and a FILL of a sample wait for it, or are
granted it between the burst's reads: either may come (notes/assumptions/10.md), and FF is sent meanwhile. A request
behind a held one waits as the second; a third record is discarded unhandled, and its transaction carries FF. SSN that
rises while a request is held abandons its response alone. Once the store is free the held requests are handled in order,
each whole: the response of one whose transaction was left is discarded, its effect stands, and that of the newest is sent
in its own transaction. -/
def Obligations.RequestsWaitForTheBlockStore : Prop :=
  (∀ s : State, (s.fifo = [] → drainWaiting s = s)
    ∧ (s.due = [] → s.fifo ≠ [] → ∃ t, exec .drainSample s = .next t ∧ drainWaiting (placeWaiting s) = drainWaiting t
      ∧ t.port.held = s.port.held))
  ∧ (∀ s : State, ChannelsDistinct s → ((∀ bytes, ¬ WaitsForItsRing s bytes) → placeWaiting s = s)
    ∧ ∀ bytes, WaitsForItsRing s bytes → Ready s →
      ∃ t, exec (.goodBurstReceived bytes .later) s = .next t ∧ placeWaiting s = settled t)
  ∧ (∀ (c : Instr) (b k : Fin 16) (s : State), Ready s → s.cable.binding = some b →
    OneWaits s.cable →
    (∃ (j : Fin 32) (e : RingEntry) (rest : List RingEntry), c = .take [BitVec.ofNat 8 j.val]
        ∧ s.subs[j].state ≠ .unused ∧ s.subs[j].ring = e :: rest)
      ∨ (∃ tail, c = .fill (BitVec.ofNat 8 k.val :: tail) ∧ 7 + s.pubs[k].width.bytes ≤ tail.length
        ∧ tail.length ≤ 1535 ∧ s.pubs[k].state ≠ .unused ∧ s.pubs[k].feed = .requestFed
        ∧ s.pubs[k].commitPending = false ∧ s.pubs[k].fillCount < s.pubs[k].samples) →
    let u := { s with freeCount := s.freeCount + 1 }
    let d := drainWaiting (placeWaiting u)
    exec c s = .next { u with port := { u.port with transaction := .waiting, held := [c] } }
    ∨ ∃ t, exec c { d with cable := { d.cable with binding := none } } = .next t
      ∧ exec c s = .next { t with cable := d.cable })
  ∧ (∀ (c first : Instr) (s : State), isRequest c → s.due = [] → s.cable.binding ≠ none → s.port.held = [first] →
    exec c s = .next { s with port := { s.port with transaction := .waiting, held := [first, c] } })
  ∧ (∀ (c first second : Instr) (s : State), isRequest c → s.due = [] → s.cable.binding ≠ none →
    s.port.held = [first, second] →
    let t := { s with port := { s.port with transaction := .filler } }
    exec c s = .next t ∧ exec (.recordDiscarded .third) s = .next t ∧ ∀ i, sentByte t i = some 0xFF)
  ∧ (∀ (n : Nat) (s : State), quiet s = true → s.port.transaction = .waiting ∨ s.port.transaction = .filler →
    (∀ i, sentByte s i = some 0xFF)
    ∧ exec (.responseAbandoned n) s = .next { s with port := { s.port with transaction := .closed [] } })
  ∧ (∀ (c : Instr) (s : State), isRequest c → s.due = [] → s.cable.binding = none → s.port.held = [c] →
    s.port.transaction = .waiting →
    exec c { s with port := { s.port with held := [] } } = .next (settled s))
  ∧ ∀ (j : Fin 32) (e : RingEntry) (rest : List RingEntry) (s : State), s.due = [] → s.cable.binding = none →
    OneWaits s.cable → s.subs[j].state ≠ .unused → s.subs[j].ring ≠ [] →
    let ask := Instr.take [BitVec.ofNat 8 j.val]
    let w := placeWaiting { s with port := { s.port with held := [] } }
    w.subs[j].ring = e :: rest →
    let d := drainWaiting w
    let taken := { d with subs := d.subs.set j { w.subs[j] with
      ring := rest, overrunReported := w.subs[j].overrunReported && decide (rest ≠ []) } }
    (∀ sent, s.port.held = [ask] → s.port.transaction = .closed sent → settled s = taken)
    ∧ (∀ c, isRequest c → s.port.held = [ask, c] → s.port.transaction = .waiting →
      exec c taken = .next (settled s))
    ∧ (s.port.held = [ask] → s.fifo ≠ [] → ∃ t, exec .drainSample s = .next t ∧ settled s = settled t)

/-- The response record (R194, R195, R212) byte by byte, and what the part sends of it (R189): FF until it is ready, A5,
the record, FF after it; FF also in every byte of the transaction before that, which are as many as the host clocks (`before`);
a response is ready in the transaction that waits for it and in no other (R192), and nothing is sent while SDO is at high
impedance. An event record (R199, R212): 11 bytes, field by field. An event (R198, R199): appended
as the newest with the rack time of its raising while fewer than 32 are held, otherwise dropped with events-lost set; ATTN
is high exactly while the queue is not empty (R200); nothing else changes. The states of an engine, a generator, a
compare and the monitor as their requests return them, field by field in the sizes of R213; the encodings that R213
leaves open follow notes/assumptions/12.md and 13.md. The codes of the statuses, the event kinds and the monitor's
occurrences (R177, R199, R212), and those of R205, each in the order listed. -/
def Obligations.ResponseAndEventRecordsAreLaidOut : Prop :=
  (∀ (status : Status) (body : List Byte) (s : State), body.length < 65536 → s.port.events.length ≤ 32 →
     let r := responseRecord status body s
     let t := responded status body s
     r.length = 6 + body.length ∧ r.drop 6 = body
     ∧ (byteAt r 0).toNat = status.code ∧ (byteAt r 1).toNat = s.station.state.code
     ∧ (byteAt r 2).toNat = s.timebase.state.code
     ∧ (byteAt r 3).getLsbD 7 = s.port.lost ∧ (byteAt r 3).getLsbD 6 = false
     ∧ (byteAt r 3).toNat % 64 = s.port.events.length ∧ field r 4 2 = body.length
     ∧ sentByte t 0 = some 0xA5 ∧ (∀ i, i < r.length → sentByte t (i + 1) = some (byteAt r i))
     ∧ (∀ i, r.length ≤ i → sentByte t (i + 1) = some 0xFF)
     ∧ (∀ before i, transactionByte before t (before + i) = sentByte t i
       ∧ (i < before → transactionByte before t i = some 0xFF))
     ∧ (s.port.transaction = .ignored → ∀ before i, transactionByte before s i = none)
     ∧ (s.port.transaction = .waiting → respond status body s = t ∧ ∀ i, sentByte s i = some 0xFF)
     ∧ (s.port.transaction ≠ .waiting → respond status body s = s)
     ∧ (s.port.transaction = .closed [] ∨ s.port.transaction = .ignored → ∀ i, sentByte s i = none))
  ∧ (∀ e : Event, e.tick < 131072 → (∀ n, e.subject = some n → n < 255) →
       let r := eventBytes e
       r.length = 11 ∧ (byteAt r 0).toNat = e.kind.code ∧ 1 ≤ e.kind.code ∧ e.kind.code ≤ 27
       ∧ field r 1 4 = e.epoch.toNat ∧ field r 5 3 = e.tick ∧ field r 9 2 = e.detail.toNat
       ∧ ((byteAt r 8).toNat = 255 ↔ e.subject = none) ∧ (∀ n, e.subject = some n → (byteAt r 8).toNat = n))
  ∧ (∀ (kind : EventKind) (subject : Option Nat) (detail : BitVec 16) (s : State),
    let t := raise kind subject detail s
    let e : Event := { kind := kind, epoch := BitVec.ofNat 32 (s.timebase.ticks.toNat / 131072),
                       tick := s.timebase.ticks.toNat % 131072, subject := subject, detail := detail }
    (s.port.events.length < 32 → t = { s with port := { s.port with events := s.port.events ++ [e] } })
    ∧ (32 ≤ s.port.events.length → t = { s with port := { s.port with lost := true } })
    ∧ (attnPin s = true ↔ s.port.events ≠ []))
  ∧ ((∀ x : Engine, laidOut (engineBytes x) 0 (engineFields x))
    ∧ (∀ g : Generator, 2 ≤ g.stagedPeriod → laidOut (generatorBytes g) 0 (generatorFields g))
    ∧ (∀ (t : Timebase) (c : Compare), laidOut (compareBytes t c) 0 (compareFields t c))
    ∧ ∀ m : Monitor, laidOut (monitorBytes m) 0 (monitorFields m))
  ∧ [Status.ok, .state, .range, .busy, .empty, .full, .exists_, .unused, .unknown].map Status.code = List.range 9
  ∧ [EventKind.startFault, .stationState, .timebaseState, .phaseStep, .phaseAlarm, .markerClash, .handoverStart,
      .handoverFail, .peerNew, .peerFresh, .peerSilent, .peerGone, .peerRetired, .peerHostSilent, .cautionOn,
      .cautionOff, .serviceLapsed, .sourceGap, .subLive, .subStale, .ringReady, .ringOverrun, .pullFailed,
      .scheduleNote, .scheduleHalted, .compareFired, .monitorOverflow].map EventKind.code = List.range' 1 27
  ∧ [OccKind.slotTick, .burstSent, .burstReceived, .claimLost, .txFault, .rxCheckFault, .blockAccepted,
      .blockDuplicate, .blockMissed, .blockLate, .ringOverrun, .emitSkipped, .emitMerged, .markerMissed,
      .phaseStep].map OccKind.code = List.range' 1 15
  ∧ [StationState.offline, .isolated, .settling, .listen, .joined, .retiring, .detached, .duplicate,
      .silenced].map StationState.code = List.range 9
  ∧ [TimebaseState.free, .acquire, .track, .locked, .holdover, .source].map TimebaseState.code = List.range 6
  ∧ [PeerState.absent, .seen, .present, .silent, .retired].map PeerState.code = List.range 5
  ∧ [PubState.unused, .active, .held].map PubState.code = List.range 3
  ∧ [SubState.unused, .waiting, .live, .stale].map SubState.code = List.range 4
  ∧ [RunState.stopped, .run, .holding, .aligning].map RunState.code = List.range 4
  ∧ [GenState.off, .armed, .running].map GenState.code = List.range 3
  ∧ [CmpState.idle, .armed, .fired].map CmpState.code = List.range 3
  ∧ [CableState.off, .guard, .idle, .receiving, .claiming, .sending, .aborting].map CableState.code = List.range 7
  ∧ (∀ (j : Fin 32) (k : Fin 16),
      [EntryKind.presence, .retire, .pull j, .block k].map EntryKind.code = List.range 4)
  ∧ [Width.w16, .w24, .w32].map Width.code = List.range 3
  ∧ [Feed.portFed, .requestFed].map Feed.code = List.range 2
  ∧ [EmitPolicy.freshOnly, .repeatLast].map EmitPolicy.code = List.range 2
  ∧ [RingMode.keepOldest, .keepNewest].map RingMode.code = List.range 2

/-- READ_EVENTS (R201): refused with RANGE for a count of 0 or above 8; otherwise the oldest records, as many as
asked or held, leave the queue and stand in the response behind the flag as it was and their number; a read that
leaves the queue empty clears the flag, which the summary shows. A response abandoned before the start byte sends nothing,
one abandoned after it is cut at that byte, and neither brings an event back (R192); SSN that rises after the last byte
ends the transaction, and SDO is at high impedance from then on (R189). The transaction is a field of the
model's own (notes/assumptions/32.md). -/
def Obligations.ReadEventsRemovesTheOldest : Prop :=
  ∀ (n : Byte) (s : State), Ready s →
    (n = 0 ∨ 8 < n.toNat → RefusedWith (.readEvents [n]) s .range)
    ∧ (1 ≤ n.toNat → n.toNat ≤ 8 →
      let kept := s.port.events.drop n.toNat
      let given := s.port.events.take n.toNat
      let body := [if s.port.lost then 1 else 0] ++ [BitVec.ofNat 8 given.length] ++ given.flatMap eventBytes
      let t := { s with port := { s.port with events := kept, lost := s.port.lost && decide (kept ≠ []) } }
      Taken (.readEvents [n]) s body t
      ∧ ∀ sent : Nat,
        let cut := (0xA5 :: responseRecord .ok body t ++ List.replicate sent 0xFF).take sent
        let left := { t with port := { t.port with transaction := .closed cut } }
        exec (.responseAbandoned sent) (responded .ok body t) = .next left
        ∧ ∀ i, sentByte left i = if i < sent then sentByte (responded .ok body t) i else none)

/-- The reading requests (R25, R41, R62, R86, R100, R123, R142, R197) change nothing but the response, are answered in
every station state, and give their items field by field in the order of their rules, each in the size of R213. The
encodings that R213 leaves open follow notes/assumptions/12.md and 13.md. -/
def Obligations.ReadingsChangeNothing : Prop :=
  ∀ s : State, Ready s →
    let reads := fun (c : Instr) (fields : List (Nat × Nat)) => ∃ body, Taken c s body s ∧ laidOut body 0 fields
    let signed := fun v : Int => (v % 2 ^ 32).toNat
    let optional := optionalFields
    let engaged := fun kind : EntryKind =>
      (s.cable.claim.any fun c => decide (c.entry.kind = kind) && !c.withdrawn)
        || s.cable.flight.any fun f => decide (f.entry.kind = kind) && !f.withdrawn
    let waits := fun kind : EntryKind => decide (∃ e ∈ s.txQueue, e.kind = kind)
    (let x := s.station
      let y := s.selector
      let c := s.cable
      let number := fun code : Nat => (s.txQueue.filter fun e => decide (e.kind.code = code)).length
      reads (.status [])
        ([(1, x.state.code), (1, flagValue x.startFault), (1, x.own), (1, x.straps.addr.toNat),
          (1, x.straps.refclass.toNat), (1, flagValue x.straps.elig), (1, flagValue x.straps.prefer),
          (1, x.faultScore), (1, flagValue x.caution), (2, x.settle), (1, x.listen), (1, x.retireTimer),
          (1, flagValue x.retireSent), (1, x.clash), (1, x.recovery), (1, flagValue x.freshPending),
          (1, flagValue x.hostAlive), (1, x.lapse), (1, x.interval), (1, y.grade), (1, flagValue y.eligible)]
          ++ optional 1 y.countdown
          ++ [(1, flagValue y.record.isSome), (1, (y.record.map (·.target)).getD 0),
            (6, (y.record.map (·.epoch)).getD 0), (1, flagValue y.release)]
          ++ optional 6 y.firstDrive
          ++ [(1, c.state.code), (1, flagValue c.holdOff), (6, c.holdOffDeadline.toNat), (1, number 0), (1, number 1),
            (1, number 2), (1, number 3)]
          ++ (match queueHead s with
            | none => [(1, 0), (4, 0)]
            | some e => [(1, 1), (1, e.kind.code)]
              ++ optional 1 (match e.kind with
                | .presence | .retire => none
                | .pull j => some j.val
                | .block k => some k.val)
              ++ [(1, flagValue (c.flight.any fun f => !f.withdrawn))])))
    ∧ (∀ k : Fin 16,
      let p := s.pubs[k]
      let q := s.partials[k]
      reads (.readPublication [BitVec.ofNat 8 k.val])
        ([(1, p.state.code), (1, p.feed.code), (1, p.width.code), (2, p.samples), (1, flagValue p.urgent),
          (1, p.policy.code), (1, p.readySlot), (1, p.fillSlot)]
          ++ (match p.ready with
            | none => [(1, 0), (15, 0)]
            | some b => [(1, 1), (2, b.seq.toNat), (6, b.time.toNat), (1, b.capture.code), (2, b.count)]
              ++ optional 2 b.gap ++ [(1, flagValue b.hostSilent)])
          ++ [(2, p.fillCount), (6, p.fillTime.toNat), (1, p.fillCapture.code), (2, p.nextSeq.toNat),
            (1, flagValue p.isNew), (1, flagValue p.fillOpen), (1, flagValue p.commitPending),
            (1, flagValue (decide (s.cable.binding = some k))), (2, p.gap), (1, flagValue p.pullPending),
            (1, flagValue p.marked), (1, flagValue (waits (.block k))), (1, flagValue (engaged (.block k)))]
          ++ (match q.high with
            | none => [(1, 0), (9, 0)]
            | some (w, st) => [(1, 1), (2, w.toNat), (6, st.time.toNat), (1, st.capture.code)])
          ++ [(1, flagValue q.voidLow), (1, (s.fifo.map fun i => if i.second = none then 1 else 2).sum),
            (2, s.portRejects), (2, s.unknownPulls)]))
    ∧ (∀ j : Fin 32,
      let x := s.subs[j]
      reads (.readSubscription [BitVec.ofNat 8 j.val])
        ([(1, x.state.code), (1, x.publisher), (1, x.index.val), (1, x.mode.code)]
          ++ optional 2 (x.last.map (·.toNat))
          ++ [(2, x.overruns), (2, x.duplicates), (2, x.lates), (4, x.lateThreshold), (2, x.staleTimeout),
            (4, x.lastBlock.toNat), (1, flagValue x.overrunReported), (1, flagValue x.pull.isSome),
            (1, (x.pull.map (·.tries)).getD 0), (4, (x.pull.map (·.deadline.toNat)).getD 0),
            (1, flagValue x.marked), (1, x.ring.length)]
          ++ x.ring.flatMap (fun e =>
            [(2, e.seq.toNat), (6, e.time.toNat), (1, e.width.code), (2, e.count), (1, e.flags.byte.toNat),
              (2, e.flags.gap.getD 0), (6, e.arrival.toNat), (1, e.missed), (1, flagValue e.late)])
          ++ [(1, flagValue (waits (.pull j))), (1, flagValue (engaged (.pull j)))]))
    ∧ reads (.readRoster [0]) ((1, 24) :: (List.finRange 24).flatMap fun i =>
        [(1, s.roster[i].state.code), (1, s.roster[i].missed), (1, flagValue s.roster[i].marked),
          (1, flagValue s.roster[i].heard)])
    ∧ (∀ i : Fin 24, i.val + 1 ≠ s.station.own →
      let e := s.roster[i]
      reads (.readRoster [BitVec.ofNat 8 (i.val + 1)])
        ([(1, e.state.code), (1, e.grade), (1, flagValue e.eligible), (1, e.timebase.code), (1, e.believed),
          (1, flagValue e.hostAlive), (1, e.pubs.length)]
          ++ e.pubs.flatMap (fun a => [(1, a.index.val),
            (1, (if a.held then 128 else 0) + (if a.urgent then 64 else 0) + a.width.code), (2, a.samples)])
          ++ [(1, e.missed), (1, flagValue e.heard), (4, e.lastPresence.toNat), (1, flagValue e.marked)]))
    ∧ (∀ n : Byte, (24 < n.toNat ∨ (n ≠ 0 ∧ n.toNat = s.station.own)) → RefusedWith (.readRoster [n]) s .range)
    ∧ (∀ n : Byte, 15 < n.toNat → RefusedWith (.readPublication [n]) s .range)
    ∧ (∀ n : Byte, 31 < n.toNat → RefusedWith (.readSubscription [n]) s .range)
    ∧ (let x := s.timebase
      reads (.readTimebase [])
        ([(1, x.state.code), (8, x.ticks.toNat), (2, x.frac.toNat / 65536), (6, x.ticks.toNat / 131072),
          (1, x.ticks.toNat / 2048 % 64), (4, signed x.rate), (4, signed x.integral),
          (4, signed (max (-2 ^ 31) (min (2 ^ 31 - 1) x.phaseError))), (4, x.searchStep), (1, x.decisions),
          (1, x.lockRun), (1, x.missCount), (1, x.believed), (6, x.lastEpoch), (1, x.lastTarget), (1, x.lastCountdown)]
          ++ optional 6 x.expectation
          ++ [(4, x.settings.p), (4, x.settings.i), (4, x.settings.lock), (4, x.settings.alarm), (4, x.settings.step),
            (4, signed x.settings.trim)]))

end
end

