-- ==== Sys2Proof/Laws/State.lean ====
section
/-! SUPPORT. One lemma for each field under each update operation, so that no proof unfolds a record update; and what a
table reads after one of its elements has changed. -/

namespace Sys2Proof.Machine

/-! ### Tables -/

/-- The element that was changed; `simp` reads an element at `i.val`. -/
@[simp] theorem upd_get_val {α : Type} {n : Nat} (v : Vector α n) (i : Fin n) (f : α → α) :
    (upd v i f)[i.val] = f v[i.val] := by
  simp [upd]

/-- The element that was changed. -/
theorem upd_get {α : Type} {n : Nat} (v : Vector α n) (i : Fin n) (f : α → α) : (upd v i f)[i] = f v[i] := by
  simp

/-- Every other element is as it was. -/
theorem upd_get_ne {α : Type} {n : Nat} (v : Vector α n) (i j : Fin n) (f : α → α) (h : j ≠ i) :
    (upd v i f)[j] = v[j] := by
  have h' : i.val ≠ j.val := fun e => h (Fin.ext e.symm)
  simp [upd, h']

/-- An element after a change, by whether it is the one changed. -/
theorem upd_get_if {α : Type} {n : Nat} (v : Vector α n) (i j : Fin n) (f : α → α) :
    (upd v i f)[j] = if j = i then f v[j] else v[j] := by
  split
  · next h => subst h; exact upd_get v j f
  · next h => exact upd_get_ne v i j f h

/-- Two changes of one element are one. -/
@[simp] theorem upd_upd {α : Type} {n : Nat} (v : Vector α n) (i : Fin n) (f g : α → α) :
    upd (upd v i f) i g = upd v i (fun x => g (f x)) := by
  simp [upd, Vector.set_set]

/-- An element after every one has changed. -/
@[simp] theorem updAll_get_val {α : Type} {n : Nat} (v : Vector α n) (i : Nat) (h : i < n) (f : α → α) :
    (updAll v f)[i] = f v[i] := by
  simp [updAll]

/-- An element after every one has changed. -/
theorem updAll_get {α : Type} {n : Nat} (v : Vector α n) (i : Fin n) (f : α → α) : (updAll v f)[i] = f v[i] := by
  simp

/-! ### updPub -/

@[simp] theorem updPub_pins (k : Fin 16) (f : Publication → Publication) (s : State) : (updPub k f s).pins = s.pins := rfl
@[simp] theorem updPub_timebase (k : Fin 16) (f : Publication → Publication) (s : State) : (updPub k f s).timebase = s.timebase := rfl
@[simp] theorem updPub_selector (k : Fin 16) (f : Publication → Publication) (s : State) : (updPub k f s).selector = s.selector := rfl
@[simp] theorem updPub_cable (k : Fin 16) (f : Publication → Publication) (s : State) : (updPub k f s).cable = s.cable := rfl
@[simp] theorem updPub_txQueue (k : Fin 16) (f : Publication → Publication) (s : State) : (updPub k f s).txQueue = s.txQueue := rfl
@[simp] theorem updPub_station (k : Fin 16) (f : Publication → Publication) (s : State) : (updPub k f s).station = s.station := rfl
@[simp] theorem updPub_roster (k : Fin 16) (f : Publication → Publication) (s : State) : (updPub k f s).roster = s.roster := rfl
@[simp] theorem updPub_pubs (k : Fin 16) (f : Publication → Publication) (s : State) : (updPub k f s).pubs = upd s.pubs k f := rfl
@[simp] theorem updPub_partials (k : Fin 16) (f : Publication → Publication) (s : State) : (updPub k f s).partials = s.partials := rfl
@[simp] theorem updPub_fifo (k : Fin 16) (f : Publication → Publication) (s : State) : (updPub k f s).fifo = s.fifo := rfl
@[simp] theorem updPub_portRejects (k : Fin 16) (f : Publication → Publication) (s : State) : (updPub k f s).portRejects = s.portRejects := rfl
@[simp] theorem updPub_unknownPulls (k : Fin 16) (f : Publication → Publication) (s : State) : (updPub k f s).unknownPulls = s.unknownPulls := rfl
@[simp] theorem updPub_store (k : Fin 16) (f : Publication → Publication) (s : State) : (updPub k f s).store = s.store := rfl
@[simp] theorem updPub_subs (k : Fin 16) (f : Publication → Publication) (s : State) : (updPub k f s).subs = s.subs := rfl
@[simp] theorem updPub_schedule (k : Fin 16) (f : Publication → Publication) (s : State) : (updPub k f s).schedule = s.schedule := rfl
@[simp] theorem updPub_engines (k : Fin 16) (f : Publication → Publication) (s : State) : (updPub k f s).engines = s.engines := rfl
@[simp] theorem updPub_gens (k : Fin 16) (f : Publication → Publication) (s : State) : (updPub k f s).gens = s.gens := rfl
@[simp] theorem updPub_compares (k : Fin 16) (f : Publication → Publication) (s : State) : (updPub k f s).compares = s.compares := rfl
@[simp] theorem updPub_monitor (k : Fin 16) (f : Publication → Publication) (s : State) : (updPub k f s).monitor = s.monitor := rfl
@[simp] theorem updPub_port (k : Fin 16) (f : Publication → Publication) (s : State) : (updPub k f s).port = s.port := rfl
@[simp] theorem updPub_due (k : Fin 16) (f : Publication → Publication) (s : State) : (updPub k f s).due = s.due := rfl
@[simp] theorem updPub_freeCount (k : Fin 16) (f : Publication → Publication) (s : State) : (updPub k f s).freeCount = s.freeCount := rfl
@[simp] theorem updPub_pending (k : Fin 16) (f : Publication → Publication) (s : State) : (updPub k f s).pending = s.pending := rfl

/-! ### updPartial -/

@[simp] theorem updPartial_pins (k : Fin 16) (f : Partial → Partial) (s : State) : (updPartial k f s).pins = s.pins := rfl
@[simp] theorem updPartial_timebase (k : Fin 16) (f : Partial → Partial) (s : State) : (updPartial k f s).timebase = s.timebase := rfl
@[simp] theorem updPartial_selector (k : Fin 16) (f : Partial → Partial) (s : State) : (updPartial k f s).selector = s.selector := rfl
@[simp] theorem updPartial_cable (k : Fin 16) (f : Partial → Partial) (s : State) : (updPartial k f s).cable = s.cable := rfl
@[simp] theorem updPartial_txQueue (k : Fin 16) (f : Partial → Partial) (s : State) : (updPartial k f s).txQueue = s.txQueue := rfl
@[simp] theorem updPartial_station (k : Fin 16) (f : Partial → Partial) (s : State) : (updPartial k f s).station = s.station := rfl
@[simp] theorem updPartial_roster (k : Fin 16) (f : Partial → Partial) (s : State) : (updPartial k f s).roster = s.roster := rfl
@[simp] theorem updPartial_pubs (k : Fin 16) (f : Partial → Partial) (s : State) : (updPartial k f s).pubs = s.pubs := rfl
@[simp] theorem updPartial_partials (k : Fin 16) (f : Partial → Partial) (s : State) : (updPartial k f s).partials = upd s.partials k f := rfl
@[simp] theorem updPartial_fifo (k : Fin 16) (f : Partial → Partial) (s : State) : (updPartial k f s).fifo = s.fifo := rfl
@[simp] theorem updPartial_portRejects (k : Fin 16) (f : Partial → Partial) (s : State) : (updPartial k f s).portRejects = s.portRejects := rfl
@[simp] theorem updPartial_unknownPulls (k : Fin 16) (f : Partial → Partial) (s : State) : (updPartial k f s).unknownPulls = s.unknownPulls := rfl
@[simp] theorem updPartial_store (k : Fin 16) (f : Partial → Partial) (s : State) : (updPartial k f s).store = s.store := rfl
@[simp] theorem updPartial_subs (k : Fin 16) (f : Partial → Partial) (s : State) : (updPartial k f s).subs = s.subs := rfl
@[simp] theorem updPartial_schedule (k : Fin 16) (f : Partial → Partial) (s : State) : (updPartial k f s).schedule = s.schedule := rfl
@[simp] theorem updPartial_engines (k : Fin 16) (f : Partial → Partial) (s : State) : (updPartial k f s).engines = s.engines := rfl
@[simp] theorem updPartial_gens (k : Fin 16) (f : Partial → Partial) (s : State) : (updPartial k f s).gens = s.gens := rfl
@[simp] theorem updPartial_compares (k : Fin 16) (f : Partial → Partial) (s : State) : (updPartial k f s).compares = s.compares := rfl
@[simp] theorem updPartial_monitor (k : Fin 16) (f : Partial → Partial) (s : State) : (updPartial k f s).monitor = s.monitor := rfl
@[simp] theorem updPartial_port (k : Fin 16) (f : Partial → Partial) (s : State) : (updPartial k f s).port = s.port := rfl
@[simp] theorem updPartial_due (k : Fin 16) (f : Partial → Partial) (s : State) : (updPartial k f s).due = s.due := rfl
@[simp] theorem updPartial_freeCount (k : Fin 16) (f : Partial → Partial) (s : State) : (updPartial k f s).freeCount = s.freeCount := rfl
@[simp] theorem updPartial_pending (k : Fin 16) (f : Partial → Partial) (s : State) : (updPartial k f s).pending = s.pending := rfl

/-! ### updSub -/

@[simp] theorem updSub_pins (j : Fin 32) (f : Subscription → Subscription) (s : State) : (updSub j f s).pins = s.pins := rfl
@[simp] theorem updSub_timebase (j : Fin 32) (f : Subscription → Subscription) (s : State) : (updSub j f s).timebase = s.timebase := rfl
@[simp] theorem updSub_selector (j : Fin 32) (f : Subscription → Subscription) (s : State) : (updSub j f s).selector = s.selector := rfl
@[simp] theorem updSub_cable (j : Fin 32) (f : Subscription → Subscription) (s : State) : (updSub j f s).cable = s.cable := rfl
@[simp] theorem updSub_txQueue (j : Fin 32) (f : Subscription → Subscription) (s : State) : (updSub j f s).txQueue = s.txQueue := rfl
@[simp] theorem updSub_station (j : Fin 32) (f : Subscription → Subscription) (s : State) : (updSub j f s).station = s.station := rfl
@[simp] theorem updSub_roster (j : Fin 32) (f : Subscription → Subscription) (s : State) : (updSub j f s).roster = s.roster := rfl
@[simp] theorem updSub_pubs (j : Fin 32) (f : Subscription → Subscription) (s : State) : (updSub j f s).pubs = s.pubs := rfl
@[simp] theorem updSub_partials (j : Fin 32) (f : Subscription → Subscription) (s : State) : (updSub j f s).partials = s.partials := rfl
@[simp] theorem updSub_fifo (j : Fin 32) (f : Subscription → Subscription) (s : State) : (updSub j f s).fifo = s.fifo := rfl
@[simp] theorem updSub_portRejects (j : Fin 32) (f : Subscription → Subscription) (s : State) : (updSub j f s).portRejects = s.portRejects := rfl
@[simp] theorem updSub_unknownPulls (j : Fin 32) (f : Subscription → Subscription) (s : State) : (updSub j f s).unknownPulls = s.unknownPulls := rfl
@[simp] theorem updSub_store (j : Fin 32) (f : Subscription → Subscription) (s : State) : (updSub j f s).store = s.store := rfl
@[simp] theorem updSub_subs (j : Fin 32) (f : Subscription → Subscription) (s : State) : (updSub j f s).subs = upd s.subs j f := rfl
@[simp] theorem updSub_schedule (j : Fin 32) (f : Subscription → Subscription) (s : State) : (updSub j f s).schedule = s.schedule := rfl
@[simp] theorem updSub_engines (j : Fin 32) (f : Subscription → Subscription) (s : State) : (updSub j f s).engines = s.engines := rfl
@[simp] theorem updSub_gens (j : Fin 32) (f : Subscription → Subscription) (s : State) : (updSub j f s).gens = s.gens := rfl
@[simp] theorem updSub_compares (j : Fin 32) (f : Subscription → Subscription) (s : State) : (updSub j f s).compares = s.compares := rfl
@[simp] theorem updSub_monitor (j : Fin 32) (f : Subscription → Subscription) (s : State) : (updSub j f s).monitor = s.monitor := rfl
@[simp] theorem updSub_port (j : Fin 32) (f : Subscription → Subscription) (s : State) : (updSub j f s).port = s.port := rfl
@[simp] theorem updSub_due (j : Fin 32) (f : Subscription → Subscription) (s : State) : (updSub j f s).due = s.due := rfl
@[simp] theorem updSub_freeCount (j : Fin 32) (f : Subscription → Subscription) (s : State) : (updSub j f s).freeCount = s.freeCount := rfl
@[simp] theorem updSub_pending (j : Fin 32) (f : Subscription → Subscription) (s : State) : (updSub j f s).pending = s.pending := rfl

/-! ### updPeer -/

@[simp] theorem updPeer_pins (i : Fin 24) (f : RosterEntry → RosterEntry) (s : State) : (updPeer i f s).pins = s.pins := rfl
@[simp] theorem updPeer_timebase (i : Fin 24) (f : RosterEntry → RosterEntry) (s : State) : (updPeer i f s).timebase = s.timebase := rfl
@[simp] theorem updPeer_selector (i : Fin 24) (f : RosterEntry → RosterEntry) (s : State) : (updPeer i f s).selector = s.selector := rfl
@[simp] theorem updPeer_cable (i : Fin 24) (f : RosterEntry → RosterEntry) (s : State) : (updPeer i f s).cable = s.cable := rfl
@[simp] theorem updPeer_txQueue (i : Fin 24) (f : RosterEntry → RosterEntry) (s : State) : (updPeer i f s).txQueue = s.txQueue := rfl
@[simp] theorem updPeer_station (i : Fin 24) (f : RosterEntry → RosterEntry) (s : State) : (updPeer i f s).station = s.station := rfl
@[simp] theorem updPeer_roster (i : Fin 24) (f : RosterEntry → RosterEntry) (s : State) : (updPeer i f s).roster = upd s.roster i f := rfl
@[simp] theorem updPeer_pubs (i : Fin 24) (f : RosterEntry → RosterEntry) (s : State) : (updPeer i f s).pubs = s.pubs := rfl
@[simp] theorem updPeer_partials (i : Fin 24) (f : RosterEntry → RosterEntry) (s : State) : (updPeer i f s).partials = s.partials := rfl
@[simp] theorem updPeer_fifo (i : Fin 24) (f : RosterEntry → RosterEntry) (s : State) : (updPeer i f s).fifo = s.fifo := rfl
@[simp] theorem updPeer_portRejects (i : Fin 24) (f : RosterEntry → RosterEntry) (s : State) : (updPeer i f s).portRejects = s.portRejects := rfl
@[simp] theorem updPeer_unknownPulls (i : Fin 24) (f : RosterEntry → RosterEntry) (s : State) : (updPeer i f s).unknownPulls = s.unknownPulls := rfl
@[simp] theorem updPeer_store (i : Fin 24) (f : RosterEntry → RosterEntry) (s : State) : (updPeer i f s).store = s.store := rfl
@[simp] theorem updPeer_subs (i : Fin 24) (f : RosterEntry → RosterEntry) (s : State) : (updPeer i f s).subs = s.subs := rfl
@[simp] theorem updPeer_schedule (i : Fin 24) (f : RosterEntry → RosterEntry) (s : State) : (updPeer i f s).schedule = s.schedule := rfl
@[simp] theorem updPeer_engines (i : Fin 24) (f : RosterEntry → RosterEntry) (s : State) : (updPeer i f s).engines = s.engines := rfl
@[simp] theorem updPeer_gens (i : Fin 24) (f : RosterEntry → RosterEntry) (s : State) : (updPeer i f s).gens = s.gens := rfl
@[simp] theorem updPeer_compares (i : Fin 24) (f : RosterEntry → RosterEntry) (s : State) : (updPeer i f s).compares = s.compares := rfl
@[simp] theorem updPeer_monitor (i : Fin 24) (f : RosterEntry → RosterEntry) (s : State) : (updPeer i f s).monitor = s.monitor := rfl
@[simp] theorem updPeer_port (i : Fin 24) (f : RosterEntry → RosterEntry) (s : State) : (updPeer i f s).port = s.port := rfl
@[simp] theorem updPeer_due (i : Fin 24) (f : RosterEntry → RosterEntry) (s : State) : (updPeer i f s).due = s.due := rfl
@[simp] theorem updPeer_freeCount (i : Fin 24) (f : RosterEntry → RosterEntry) (s : State) : (updPeer i f s).freeCount = s.freeCount := rfl
@[simp] theorem updPeer_pending (i : Fin 24) (f : RosterEntry → RosterEntry) (s : State) : (updPeer i f s).pending = s.pending := rfl

/-! ### updEngine -/

@[simp] theorem updEngine_pins (e : Fin 4) (f : Engine → Engine) (s : State) : (updEngine e f s).pins = s.pins := rfl
@[simp] theorem updEngine_timebase (e : Fin 4) (f : Engine → Engine) (s : State) : (updEngine e f s).timebase = s.timebase := rfl
@[simp] theorem updEngine_selector (e : Fin 4) (f : Engine → Engine) (s : State) : (updEngine e f s).selector = s.selector := rfl
@[simp] theorem updEngine_cable (e : Fin 4) (f : Engine → Engine) (s : State) : (updEngine e f s).cable = s.cable := rfl
@[simp] theorem updEngine_txQueue (e : Fin 4) (f : Engine → Engine) (s : State) : (updEngine e f s).txQueue = s.txQueue := rfl
@[simp] theorem updEngine_station (e : Fin 4) (f : Engine → Engine) (s : State) : (updEngine e f s).station = s.station := rfl
@[simp] theorem updEngine_roster (e : Fin 4) (f : Engine → Engine) (s : State) : (updEngine e f s).roster = s.roster := rfl
@[simp] theorem updEngine_pubs (e : Fin 4) (f : Engine → Engine) (s : State) : (updEngine e f s).pubs = s.pubs := rfl
@[simp] theorem updEngine_partials (e : Fin 4) (f : Engine → Engine) (s : State) : (updEngine e f s).partials = s.partials := rfl
@[simp] theorem updEngine_fifo (e : Fin 4) (f : Engine → Engine) (s : State) : (updEngine e f s).fifo = s.fifo := rfl
@[simp] theorem updEngine_portRejects (e : Fin 4) (f : Engine → Engine) (s : State) : (updEngine e f s).portRejects = s.portRejects := rfl
@[simp] theorem updEngine_unknownPulls (e : Fin 4) (f : Engine → Engine) (s : State) : (updEngine e f s).unknownPulls = s.unknownPulls := rfl
@[simp] theorem updEngine_store (e : Fin 4) (f : Engine → Engine) (s : State) : (updEngine e f s).store = s.store := rfl
@[simp] theorem updEngine_subs (e : Fin 4) (f : Engine → Engine) (s : State) : (updEngine e f s).subs = s.subs := rfl
@[simp] theorem updEngine_schedule (e : Fin 4) (f : Engine → Engine) (s : State) : (updEngine e f s).schedule = s.schedule := rfl
@[simp] theorem updEngine_engines (e : Fin 4) (f : Engine → Engine) (s : State) : (updEngine e f s).engines = upd s.engines e f := rfl
@[simp] theorem updEngine_gens (e : Fin 4) (f : Engine → Engine) (s : State) : (updEngine e f s).gens = s.gens := rfl
@[simp] theorem updEngine_compares (e : Fin 4) (f : Engine → Engine) (s : State) : (updEngine e f s).compares = s.compares := rfl
@[simp] theorem updEngine_monitor (e : Fin 4) (f : Engine → Engine) (s : State) : (updEngine e f s).monitor = s.monitor := rfl
@[simp] theorem updEngine_port (e : Fin 4) (f : Engine → Engine) (s : State) : (updEngine e f s).port = s.port := rfl
@[simp] theorem updEngine_due (e : Fin 4) (f : Engine → Engine) (s : State) : (updEngine e f s).due = s.due := rfl
@[simp] theorem updEngine_freeCount (e : Fin 4) (f : Engine → Engine) (s : State) : (updEngine e f s).freeCount = s.freeCount := rfl
@[simp] theorem updEngine_pending (e : Fin 4) (f : Engine → Engine) (s : State) : (updEngine e f s).pending = s.pending := rfl

/-! ### updGen -/

@[simp] theorem updGen_pins (g : Fin 2) (f : Generator → Generator) (s : State) : (updGen g f s).pins = s.pins := rfl
@[simp] theorem updGen_timebase (g : Fin 2) (f : Generator → Generator) (s : State) : (updGen g f s).timebase = s.timebase := rfl
@[simp] theorem updGen_selector (g : Fin 2) (f : Generator → Generator) (s : State) : (updGen g f s).selector = s.selector := rfl
@[simp] theorem updGen_cable (g : Fin 2) (f : Generator → Generator) (s : State) : (updGen g f s).cable = s.cable := rfl
@[simp] theorem updGen_txQueue (g : Fin 2) (f : Generator → Generator) (s : State) : (updGen g f s).txQueue = s.txQueue := rfl
@[simp] theorem updGen_station (g : Fin 2) (f : Generator → Generator) (s : State) : (updGen g f s).station = s.station := rfl
@[simp] theorem updGen_roster (g : Fin 2) (f : Generator → Generator) (s : State) : (updGen g f s).roster = s.roster := rfl
@[simp] theorem updGen_pubs (g : Fin 2) (f : Generator → Generator) (s : State) : (updGen g f s).pubs = s.pubs := rfl
@[simp] theorem updGen_partials (g : Fin 2) (f : Generator → Generator) (s : State) : (updGen g f s).partials = s.partials := rfl
@[simp] theorem updGen_fifo (g : Fin 2) (f : Generator → Generator) (s : State) : (updGen g f s).fifo = s.fifo := rfl
@[simp] theorem updGen_portRejects (g : Fin 2) (f : Generator → Generator) (s : State) : (updGen g f s).portRejects = s.portRejects := rfl
@[simp] theorem updGen_unknownPulls (g : Fin 2) (f : Generator → Generator) (s : State) : (updGen g f s).unknownPulls = s.unknownPulls := rfl
@[simp] theorem updGen_store (g : Fin 2) (f : Generator → Generator) (s : State) : (updGen g f s).store = s.store := rfl
@[simp] theorem updGen_subs (g : Fin 2) (f : Generator → Generator) (s : State) : (updGen g f s).subs = s.subs := rfl
@[simp] theorem updGen_schedule (g : Fin 2) (f : Generator → Generator) (s : State) : (updGen g f s).schedule = s.schedule := rfl
@[simp] theorem updGen_engines (g : Fin 2) (f : Generator → Generator) (s : State) : (updGen g f s).engines = s.engines := rfl
@[simp] theorem updGen_gens (g : Fin 2) (f : Generator → Generator) (s : State) : (updGen g f s).gens = upd s.gens g f := rfl
@[simp] theorem updGen_compares (g : Fin 2) (f : Generator → Generator) (s : State) : (updGen g f s).compares = s.compares := rfl
@[simp] theorem updGen_monitor (g : Fin 2) (f : Generator → Generator) (s : State) : (updGen g f s).monitor = s.monitor := rfl
@[simp] theorem updGen_port (g : Fin 2) (f : Generator → Generator) (s : State) : (updGen g f s).port = s.port := rfl
@[simp] theorem updGen_due (g : Fin 2) (f : Generator → Generator) (s : State) : (updGen g f s).due = s.due := rfl
@[simp] theorem updGen_freeCount (g : Fin 2) (f : Generator → Generator) (s : State) : (updGen g f s).freeCount = s.freeCount := rfl
@[simp] theorem updGen_pending (g : Fin 2) (f : Generator → Generator) (s : State) : (updGen g f s).pending = s.pending := rfl

/-! ### updCompare -/

@[simp] theorem updCompare_pins (k : Fin 4) (f : Compare → Compare) (s : State) : (updCompare k f s).pins = s.pins := rfl
@[simp] theorem updCompare_timebase (k : Fin 4) (f : Compare → Compare) (s : State) : (updCompare k f s).timebase = s.timebase := rfl
@[simp] theorem updCompare_selector (k : Fin 4) (f : Compare → Compare) (s : State) : (updCompare k f s).selector = s.selector := rfl
@[simp] theorem updCompare_cable (k : Fin 4) (f : Compare → Compare) (s : State) : (updCompare k f s).cable = s.cable := rfl
@[simp] theorem updCompare_txQueue (k : Fin 4) (f : Compare → Compare) (s : State) : (updCompare k f s).txQueue = s.txQueue := rfl
@[simp] theorem updCompare_station (k : Fin 4) (f : Compare → Compare) (s : State) : (updCompare k f s).station = s.station := rfl
@[simp] theorem updCompare_roster (k : Fin 4) (f : Compare → Compare) (s : State) : (updCompare k f s).roster = s.roster := rfl
@[simp] theorem updCompare_pubs (k : Fin 4) (f : Compare → Compare) (s : State) : (updCompare k f s).pubs = s.pubs := rfl
@[simp] theorem updCompare_partials (k : Fin 4) (f : Compare → Compare) (s : State) : (updCompare k f s).partials = s.partials := rfl
@[simp] theorem updCompare_fifo (k : Fin 4) (f : Compare → Compare) (s : State) : (updCompare k f s).fifo = s.fifo := rfl
@[simp] theorem updCompare_portRejects (k : Fin 4) (f : Compare → Compare) (s : State) : (updCompare k f s).portRejects = s.portRejects := rfl
@[simp] theorem updCompare_unknownPulls (k : Fin 4) (f : Compare → Compare) (s : State) : (updCompare k f s).unknownPulls = s.unknownPulls := rfl
@[simp] theorem updCompare_store (k : Fin 4) (f : Compare → Compare) (s : State) : (updCompare k f s).store = s.store := rfl
@[simp] theorem updCompare_subs (k : Fin 4) (f : Compare → Compare) (s : State) : (updCompare k f s).subs = s.subs := rfl
@[simp] theorem updCompare_schedule (k : Fin 4) (f : Compare → Compare) (s : State) : (updCompare k f s).schedule = s.schedule := rfl
@[simp] theorem updCompare_engines (k : Fin 4) (f : Compare → Compare) (s : State) : (updCompare k f s).engines = s.engines := rfl
@[simp] theorem updCompare_gens (k : Fin 4) (f : Compare → Compare) (s : State) : (updCompare k f s).gens = s.gens := rfl
@[simp] theorem updCompare_compares (k : Fin 4) (f : Compare → Compare) (s : State) : (updCompare k f s).compares = upd s.compares k f := rfl
@[simp] theorem updCompare_monitor (k : Fin 4) (f : Compare → Compare) (s : State) : (updCompare k f s).monitor = s.monitor := rfl
@[simp] theorem updCompare_port (k : Fin 4) (f : Compare → Compare) (s : State) : (updCompare k f s).port = s.port := rfl
@[simp] theorem updCompare_due (k : Fin 4) (f : Compare → Compare) (s : State) : (updCompare k f s).due = s.due := rfl
@[simp] theorem updCompare_freeCount (k : Fin 4) (f : Compare → Compare) (s : State) : (updCompare k f s).freeCount = s.freeCount := rfl
@[simp] theorem updCompare_pending (k : Fin 4) (f : Compare → Compare) (s : State) : (updCompare k f s).pending = s.pending := rfl

/-! ### updStation -/

@[simp] theorem updStation_pins (f : Station → Station) (s : State) : (updStation f s).pins = s.pins := rfl
@[simp] theorem updStation_timebase (f : Station → Station) (s : State) : (updStation f s).timebase = s.timebase := rfl
@[simp] theorem updStation_selector (f : Station → Station) (s : State) : (updStation f s).selector = s.selector := rfl
@[simp] theorem updStation_cable (f : Station → Station) (s : State) : (updStation f s).cable = s.cable := rfl
@[simp] theorem updStation_txQueue (f : Station → Station) (s : State) : (updStation f s).txQueue = s.txQueue := rfl
@[simp] theorem updStation_station (f : Station → Station) (s : State) : (updStation f s).station = f s.station := rfl
@[simp] theorem updStation_roster (f : Station → Station) (s : State) : (updStation f s).roster = s.roster := rfl
@[simp] theorem updStation_pubs (f : Station → Station) (s : State) : (updStation f s).pubs = s.pubs := rfl
@[simp] theorem updStation_partials (f : Station → Station) (s : State) : (updStation f s).partials = s.partials := rfl
@[simp] theorem updStation_fifo (f : Station → Station) (s : State) : (updStation f s).fifo = s.fifo := rfl
@[simp] theorem updStation_portRejects (f : Station → Station) (s : State) : (updStation f s).portRejects = s.portRejects := rfl
@[simp] theorem updStation_unknownPulls (f : Station → Station) (s : State) : (updStation f s).unknownPulls = s.unknownPulls := rfl
@[simp] theorem updStation_store (f : Station → Station) (s : State) : (updStation f s).store = s.store := rfl
@[simp] theorem updStation_subs (f : Station → Station) (s : State) : (updStation f s).subs = s.subs := rfl
@[simp] theorem updStation_schedule (f : Station → Station) (s : State) : (updStation f s).schedule = s.schedule := rfl
@[simp] theorem updStation_engines (f : Station → Station) (s : State) : (updStation f s).engines = s.engines := rfl
@[simp] theorem updStation_gens (f : Station → Station) (s : State) : (updStation f s).gens = s.gens := rfl
@[simp] theorem updStation_compares (f : Station → Station) (s : State) : (updStation f s).compares = s.compares := rfl
@[simp] theorem updStation_monitor (f : Station → Station) (s : State) : (updStation f s).monitor = s.monitor := rfl
@[simp] theorem updStation_port (f : Station → Station) (s : State) : (updStation f s).port = s.port := rfl
@[simp] theorem updStation_due (f : Station → Station) (s : State) : (updStation f s).due = s.due := rfl
@[simp] theorem updStation_freeCount (f : Station → Station) (s : State) : (updStation f s).freeCount = s.freeCount := rfl
@[simp] theorem updStation_pending (f : Station → Station) (s : State) : (updStation f s).pending = s.pending := rfl

/-! ### updTimebase -/

@[simp] theorem updTimebase_pins (f : Timebase → Timebase) (s : State) : (updTimebase f s).pins = s.pins := rfl
@[simp] theorem updTimebase_timebase (f : Timebase → Timebase) (s : State) : (updTimebase f s).timebase = f s.timebase := rfl
@[simp] theorem updTimebase_selector (f : Timebase → Timebase) (s : State) : (updTimebase f s).selector = s.selector := rfl
@[simp] theorem updTimebase_cable (f : Timebase → Timebase) (s : State) : (updTimebase f s).cable = s.cable := rfl
@[simp] theorem updTimebase_txQueue (f : Timebase → Timebase) (s : State) : (updTimebase f s).txQueue = s.txQueue := rfl
@[simp] theorem updTimebase_station (f : Timebase → Timebase) (s : State) : (updTimebase f s).station = s.station := rfl
@[simp] theorem updTimebase_roster (f : Timebase → Timebase) (s : State) : (updTimebase f s).roster = s.roster := rfl
@[simp] theorem updTimebase_pubs (f : Timebase → Timebase) (s : State) : (updTimebase f s).pubs = s.pubs := rfl
@[simp] theorem updTimebase_partials (f : Timebase → Timebase) (s : State) : (updTimebase f s).partials = s.partials := rfl
@[simp] theorem updTimebase_fifo (f : Timebase → Timebase) (s : State) : (updTimebase f s).fifo = s.fifo := rfl
@[simp] theorem updTimebase_portRejects (f : Timebase → Timebase) (s : State) : (updTimebase f s).portRejects = s.portRejects := rfl
@[simp] theorem updTimebase_unknownPulls (f : Timebase → Timebase) (s : State) : (updTimebase f s).unknownPulls = s.unknownPulls := rfl
@[simp] theorem updTimebase_store (f : Timebase → Timebase) (s : State) : (updTimebase f s).store = s.store := rfl
@[simp] theorem updTimebase_subs (f : Timebase → Timebase) (s : State) : (updTimebase f s).subs = s.subs := rfl
@[simp] theorem updTimebase_schedule (f : Timebase → Timebase) (s : State) : (updTimebase f s).schedule = s.schedule := rfl
@[simp] theorem updTimebase_engines (f : Timebase → Timebase) (s : State) : (updTimebase f s).engines = s.engines := rfl
@[simp] theorem updTimebase_gens (f : Timebase → Timebase) (s : State) : (updTimebase f s).gens = s.gens := rfl
@[simp] theorem updTimebase_compares (f : Timebase → Timebase) (s : State) : (updTimebase f s).compares = s.compares := rfl
@[simp] theorem updTimebase_monitor (f : Timebase → Timebase) (s : State) : (updTimebase f s).monitor = s.monitor := rfl
@[simp] theorem updTimebase_port (f : Timebase → Timebase) (s : State) : (updTimebase f s).port = s.port := rfl
@[simp] theorem updTimebase_due (f : Timebase → Timebase) (s : State) : (updTimebase f s).due = s.due := rfl
@[simp] theorem updTimebase_freeCount (f : Timebase → Timebase) (s : State) : (updTimebase f s).freeCount = s.freeCount := rfl
@[simp] theorem updTimebase_pending (f : Timebase → Timebase) (s : State) : (updTimebase f s).pending = s.pending := rfl

/-! ### updSelector -/

@[simp] theorem updSelector_pins (f : Selector → Selector) (s : State) : (updSelector f s).pins = s.pins := rfl
@[simp] theorem updSelector_timebase (f : Selector → Selector) (s : State) : (updSelector f s).timebase = s.timebase := rfl
@[simp] theorem updSelector_selector (f : Selector → Selector) (s : State) : (updSelector f s).selector = f s.selector := rfl
@[simp] theorem updSelector_cable (f : Selector → Selector) (s : State) : (updSelector f s).cable = s.cable := rfl
@[simp] theorem updSelector_txQueue (f : Selector → Selector) (s : State) : (updSelector f s).txQueue = s.txQueue := rfl
@[simp] theorem updSelector_station (f : Selector → Selector) (s : State) : (updSelector f s).station = s.station := rfl
@[simp] theorem updSelector_roster (f : Selector → Selector) (s : State) : (updSelector f s).roster = s.roster := rfl
@[simp] theorem updSelector_pubs (f : Selector → Selector) (s : State) : (updSelector f s).pubs = s.pubs := rfl
@[simp] theorem updSelector_partials (f : Selector → Selector) (s : State) : (updSelector f s).partials = s.partials := rfl
@[simp] theorem updSelector_fifo (f : Selector → Selector) (s : State) : (updSelector f s).fifo = s.fifo := rfl
@[simp] theorem updSelector_portRejects (f : Selector → Selector) (s : State) : (updSelector f s).portRejects = s.portRejects := rfl
@[simp] theorem updSelector_unknownPulls (f : Selector → Selector) (s : State) : (updSelector f s).unknownPulls = s.unknownPulls := rfl
@[simp] theorem updSelector_store (f : Selector → Selector) (s : State) : (updSelector f s).store = s.store := rfl
@[simp] theorem updSelector_subs (f : Selector → Selector) (s : State) : (updSelector f s).subs = s.subs := rfl
@[simp] theorem updSelector_schedule (f : Selector → Selector) (s : State) : (updSelector f s).schedule = s.schedule := rfl
@[simp] theorem updSelector_engines (f : Selector → Selector) (s : State) : (updSelector f s).engines = s.engines := rfl
@[simp] theorem updSelector_gens (f : Selector → Selector) (s : State) : (updSelector f s).gens = s.gens := rfl
@[simp] theorem updSelector_compares (f : Selector → Selector) (s : State) : (updSelector f s).compares = s.compares := rfl
@[simp] theorem updSelector_monitor (f : Selector → Selector) (s : State) : (updSelector f s).monitor = s.monitor := rfl
@[simp] theorem updSelector_port (f : Selector → Selector) (s : State) : (updSelector f s).port = s.port := rfl
@[simp] theorem updSelector_due (f : Selector → Selector) (s : State) : (updSelector f s).due = s.due := rfl
@[simp] theorem updSelector_freeCount (f : Selector → Selector) (s : State) : (updSelector f s).freeCount = s.freeCount := rfl
@[simp] theorem updSelector_pending (f : Selector → Selector) (s : State) : (updSelector f s).pending = s.pending := rfl

/-! ### updCable -/

@[simp] theorem updCable_pins (f : Cable → Cable) (s : State) : (updCable f s).pins = s.pins := rfl
@[simp] theorem updCable_timebase (f : Cable → Cable) (s : State) : (updCable f s).timebase = s.timebase := rfl
@[simp] theorem updCable_selector (f : Cable → Cable) (s : State) : (updCable f s).selector = s.selector := rfl
@[simp] theorem updCable_cable (f : Cable → Cable) (s : State) : (updCable f s).cable = f s.cable := rfl
@[simp] theorem updCable_txQueue (f : Cable → Cable) (s : State) : (updCable f s).txQueue = s.txQueue := rfl
@[simp] theorem updCable_station (f : Cable → Cable) (s : State) : (updCable f s).station = s.station := rfl
@[simp] theorem updCable_roster (f : Cable → Cable) (s : State) : (updCable f s).roster = s.roster := rfl
@[simp] theorem updCable_pubs (f : Cable → Cable) (s : State) : (updCable f s).pubs = s.pubs := rfl
@[simp] theorem updCable_partials (f : Cable → Cable) (s : State) : (updCable f s).partials = s.partials := rfl
@[simp] theorem updCable_fifo (f : Cable → Cable) (s : State) : (updCable f s).fifo = s.fifo := rfl
@[simp] theorem updCable_portRejects (f : Cable → Cable) (s : State) : (updCable f s).portRejects = s.portRejects := rfl
@[simp] theorem updCable_unknownPulls (f : Cable → Cable) (s : State) : (updCable f s).unknownPulls = s.unknownPulls := rfl
@[simp] theorem updCable_store (f : Cable → Cable) (s : State) : (updCable f s).store = s.store := rfl
@[simp] theorem updCable_subs (f : Cable → Cable) (s : State) : (updCable f s).subs = s.subs := rfl
@[simp] theorem updCable_schedule (f : Cable → Cable) (s : State) : (updCable f s).schedule = s.schedule := rfl
@[simp] theorem updCable_engines (f : Cable → Cable) (s : State) : (updCable f s).engines = s.engines := rfl
@[simp] theorem updCable_gens (f : Cable → Cable) (s : State) : (updCable f s).gens = s.gens := rfl
@[simp] theorem updCable_compares (f : Cable → Cable) (s : State) : (updCable f s).compares = s.compares := rfl
@[simp] theorem updCable_monitor (f : Cable → Cable) (s : State) : (updCable f s).monitor = s.monitor := rfl
@[simp] theorem updCable_port (f : Cable → Cable) (s : State) : (updCable f s).port = s.port := rfl
@[simp] theorem updCable_due (f : Cable → Cable) (s : State) : (updCable f s).due = s.due := rfl
@[simp] theorem updCable_freeCount (f : Cable → Cable) (s : State) : (updCable f s).freeCount = s.freeCount := rfl
@[simp] theorem updCable_pending (f : Cable → Cable) (s : State) : (updCable f s).pending = s.pending := rfl

/-! ### updMonitor -/

@[simp] theorem updMonitor_pins (f : Monitor → Monitor) (s : State) : (updMonitor f s).pins = s.pins := rfl
@[simp] theorem updMonitor_timebase (f : Monitor → Monitor) (s : State) : (updMonitor f s).timebase = s.timebase := rfl
@[simp] theorem updMonitor_selector (f : Monitor → Monitor) (s : State) : (updMonitor f s).selector = s.selector := rfl
@[simp] theorem updMonitor_cable (f : Monitor → Monitor) (s : State) : (updMonitor f s).cable = s.cable := rfl
@[simp] theorem updMonitor_txQueue (f : Monitor → Monitor) (s : State) : (updMonitor f s).txQueue = s.txQueue := rfl
@[simp] theorem updMonitor_station (f : Monitor → Monitor) (s : State) : (updMonitor f s).station = s.station := rfl
@[simp] theorem updMonitor_roster (f : Monitor → Monitor) (s : State) : (updMonitor f s).roster = s.roster := rfl
@[simp] theorem updMonitor_pubs (f : Monitor → Monitor) (s : State) : (updMonitor f s).pubs = s.pubs := rfl
@[simp] theorem updMonitor_partials (f : Monitor → Monitor) (s : State) : (updMonitor f s).partials = s.partials := rfl
@[simp] theorem updMonitor_fifo (f : Monitor → Monitor) (s : State) : (updMonitor f s).fifo = s.fifo := rfl
@[simp] theorem updMonitor_portRejects (f : Monitor → Monitor) (s : State) : (updMonitor f s).portRejects = s.portRejects := rfl
@[simp] theorem updMonitor_unknownPulls (f : Monitor → Monitor) (s : State) : (updMonitor f s).unknownPulls = s.unknownPulls := rfl
@[simp] theorem updMonitor_store (f : Monitor → Monitor) (s : State) : (updMonitor f s).store = s.store := rfl
@[simp] theorem updMonitor_subs (f : Monitor → Monitor) (s : State) : (updMonitor f s).subs = s.subs := rfl
@[simp] theorem updMonitor_schedule (f : Monitor → Monitor) (s : State) : (updMonitor f s).schedule = s.schedule := rfl
@[simp] theorem updMonitor_engines (f : Monitor → Monitor) (s : State) : (updMonitor f s).engines = s.engines := rfl
@[simp] theorem updMonitor_gens (f : Monitor → Monitor) (s : State) : (updMonitor f s).gens = s.gens := rfl
@[simp] theorem updMonitor_compares (f : Monitor → Monitor) (s : State) : (updMonitor f s).compares = s.compares := rfl
@[simp] theorem updMonitor_monitor (f : Monitor → Monitor) (s : State) : (updMonitor f s).monitor = f s.monitor := rfl
@[simp] theorem updMonitor_port (f : Monitor → Monitor) (s : State) : (updMonitor f s).port = s.port := rfl
@[simp] theorem updMonitor_due (f : Monitor → Monitor) (s : State) : (updMonitor f s).due = s.due := rfl
@[simp] theorem updMonitor_freeCount (f : Monitor → Monitor) (s : State) : (updMonitor f s).freeCount = s.freeCount := rfl
@[simp] theorem updMonitor_pending (f : Monitor → Monitor) (s : State) : (updMonitor f s).pending = s.pending := rfl

end Sys2Proof.Machine
end

