-- ==== Sys2Proof/Laws/Frames.lean ====
section
/-! SUPPORT. For each shared operation, the parts of the state it can change: the operation as an update of those parts
alone, and one lemma for each part it leaves as it was. -/

namespace Sys2Proof.Machine

/-- A fold of updates that each change only some parts changes only those parts: `P` relates a state to one that
differs from it in those parts. -/
theorem foldl_keeps {α : Type} (P : State → State → Prop) (f : State → α → State) (refl : ∀ s, P s s)
    (trans : ∀ a b c, P a b → P b c → P a c) (one : ∀ s x, P s (f s x)) (xs : List α) (s : State) :
    P s (xs.foldl f s) := by
  induction xs generalizing s with
  | nil => exact refl s
  | cons x rest ih => exact trans _ _ _ (one s x) (ih (f s x))

/-! ### mark -/

/-- A step that falls due: what it can change. -/
theorem mark_frame (d : Due) (s : State) :
    mark d s = { s with due := (mark d s).due } := by
  unfold mark; split <;> rfl

@[simp] theorem mark_pins (d : Due) (s : State) : (mark d s).pins = s.pins := by
  rw [mark_frame]
@[simp] theorem mark_timebase (d : Due) (s : State) : (mark d s).timebase = s.timebase := by
  rw [mark_frame]
@[simp] theorem mark_selector (d : Due) (s : State) : (mark d s).selector = s.selector := by
  rw [mark_frame]
@[simp] theorem mark_cable (d : Due) (s : State) : (mark d s).cable = s.cable := by
  rw [mark_frame]
@[simp] theorem mark_txQueue (d : Due) (s : State) : (mark d s).txQueue = s.txQueue := by
  rw [mark_frame]
@[simp] theorem mark_station (d : Due) (s : State) : (mark d s).station = s.station := by
  rw [mark_frame]
@[simp] theorem mark_roster (d : Due) (s : State) : (mark d s).roster = s.roster := by
  rw [mark_frame]
@[simp] theorem mark_pubs (d : Due) (s : State) : (mark d s).pubs = s.pubs := by
  rw [mark_frame]
@[simp] theorem mark_partials (d : Due) (s : State) : (mark d s).partials = s.partials := by
  rw [mark_frame]
@[simp] theorem mark_fifo (d : Due) (s : State) : (mark d s).fifo = s.fifo := by
  rw [mark_frame]
@[simp] theorem mark_portRejects (d : Due) (s : State) : (mark d s).portRejects = s.portRejects := by
  rw [mark_frame]
@[simp] theorem mark_unknownPulls (d : Due) (s : State) : (mark d s).unknownPulls = s.unknownPulls := by
  rw [mark_frame]
@[simp] theorem mark_store (d : Due) (s : State) : (mark d s).store = s.store := by
  rw [mark_frame]
@[simp] theorem mark_subs (d : Due) (s : State) : (mark d s).subs = s.subs := by
  rw [mark_frame]
@[simp] theorem mark_schedule (d : Due) (s : State) : (mark d s).schedule = s.schedule := by
  rw [mark_frame]
@[simp] theorem mark_engines (d : Due) (s : State) : (mark d s).engines = s.engines := by
  rw [mark_frame]
@[simp] theorem mark_gens (d : Due) (s : State) : (mark d s).gens = s.gens := by
  rw [mark_frame]
@[simp] theorem mark_compares (d : Due) (s : State) : (mark d s).compares = s.compares := by
  rw [mark_frame]
@[simp] theorem mark_monitor (d : Due) (s : State) : (mark d s).monitor = s.monitor := by
  rw [mark_frame]
@[simp] theorem mark_port (d : Due) (s : State) : (mark d s).port = s.port := by
  rw [mark_frame]
@[simp] theorem mark_freeCount (d : Due) (s : State) : (mark d s).freeCount = s.freeCount := by
  rw [mark_frame]
@[simp] theorem mark_pending (d : Due) (s : State) : (mark d s).pending = s.pending := by
  rw [mark_frame]

/-! ### markIf -/

/-- A step that may fall due: what it can change. -/
theorem markIf_frame (c : Bool) (d : Due) (s : State) :
    markIf c d s = { s with due := (markIf c d s).due } := by
  unfold markIf; split
  · exact mark_frame d s
  · rfl

@[simp] theorem markIf_pins (c : Bool) (d : Due) (s : State) : (markIf c d s).pins = s.pins := by
  rw [markIf_frame]
@[simp] theorem markIf_timebase (c : Bool) (d : Due) (s : State) : (markIf c d s).timebase = s.timebase := by
  rw [markIf_frame]
@[simp] theorem markIf_selector (c : Bool) (d : Due) (s : State) : (markIf c d s).selector = s.selector := by
  rw [markIf_frame]
@[simp] theorem markIf_cable (c : Bool) (d : Due) (s : State) : (markIf c d s).cable = s.cable := by
  rw [markIf_frame]
@[simp] theorem markIf_txQueue (c : Bool) (d : Due) (s : State) : (markIf c d s).txQueue = s.txQueue := by
  rw [markIf_frame]
@[simp] theorem markIf_station (c : Bool) (d : Due) (s : State) : (markIf c d s).station = s.station := by
  rw [markIf_frame]
@[simp] theorem markIf_roster (c : Bool) (d : Due) (s : State) : (markIf c d s).roster = s.roster := by
  rw [markIf_frame]
@[simp] theorem markIf_pubs (c : Bool) (d : Due) (s : State) : (markIf c d s).pubs = s.pubs := by
  rw [markIf_frame]
@[simp] theorem markIf_partials (c : Bool) (d : Due) (s : State) : (markIf c d s).partials = s.partials := by
  rw [markIf_frame]
@[simp] theorem markIf_fifo (c : Bool) (d : Due) (s : State) : (markIf c d s).fifo = s.fifo := by
  rw [markIf_frame]
@[simp] theorem markIf_portRejects (c : Bool) (d : Due) (s : State) : (markIf c d s).portRejects = s.portRejects := by
  rw [markIf_frame]
@[simp] theorem markIf_unknownPulls (c : Bool) (d : Due) (s : State) : (markIf c d s).unknownPulls = s.unknownPulls := by
  rw [markIf_frame]
@[simp] theorem markIf_store (c : Bool) (d : Due) (s : State) : (markIf c d s).store = s.store := by
  rw [markIf_frame]
@[simp] theorem markIf_subs (c : Bool) (d : Due) (s : State) : (markIf c d s).subs = s.subs := by
  rw [markIf_frame]
@[simp] theorem markIf_schedule (c : Bool) (d : Due) (s : State) : (markIf c d s).schedule = s.schedule := by
  rw [markIf_frame]
@[simp] theorem markIf_engines (c : Bool) (d : Due) (s : State) : (markIf c d s).engines = s.engines := by
  rw [markIf_frame]
@[simp] theorem markIf_gens (c : Bool) (d : Due) (s : State) : (markIf c d s).gens = s.gens := by
  rw [markIf_frame]
@[simp] theorem markIf_compares (c : Bool) (d : Due) (s : State) : (markIf c d s).compares = s.compares := by
  rw [markIf_frame]
@[simp] theorem markIf_monitor (c : Bool) (d : Due) (s : State) : (markIf c d s).monitor = s.monitor := by
  rw [markIf_frame]
@[simp] theorem markIf_port (c : Bool) (d : Due) (s : State) : (markIf c d s).port = s.port := by
  rw [markIf_frame]
@[simp] theorem markIf_freeCount (c : Bool) (d : Due) (s : State) : (markIf c d s).freeCount = s.freeCount := by
  rw [markIf_frame]
@[simp] theorem markIf_pending (c : Bool) (d : Due) (s : State) : (markIf c d s).pending = s.pending := by
  rw [markIf_frame]

/-! ### raise -/

/-- An event: what it can change. -/
theorem raise_frame (k : EventKind) (n : Option Nat) (d : BitVec 16) (s : State) :
    raise k n d s = { s with port := (raise k n d s).port } := by
  unfold raise; split <;> rfl

@[simp] theorem raise_pins (k : EventKind) (n : Option Nat) (d : BitVec 16) (s : State) : (raise k n d s).pins = s.pins := by
  rw [raise_frame]
@[simp] theorem raise_timebase (k : EventKind) (n : Option Nat) (d : BitVec 16) (s : State) : (raise k n d s).timebase = s.timebase := by
  rw [raise_frame]
@[simp] theorem raise_selector (k : EventKind) (n : Option Nat) (d : BitVec 16) (s : State) : (raise k n d s).selector = s.selector := by
  rw [raise_frame]
@[simp] theorem raise_cable (k : EventKind) (n : Option Nat) (d : BitVec 16) (s : State) : (raise k n d s).cable = s.cable := by
  rw [raise_frame]
@[simp] theorem raise_txQueue (k : EventKind) (n : Option Nat) (d : BitVec 16) (s : State) : (raise k n d s).txQueue = s.txQueue := by
  rw [raise_frame]
@[simp] theorem raise_station (k : EventKind) (n : Option Nat) (d : BitVec 16) (s : State) : (raise k n d s).station = s.station := by
  rw [raise_frame]
@[simp] theorem raise_roster (k : EventKind) (n : Option Nat) (d : BitVec 16) (s : State) : (raise k n d s).roster = s.roster := by
  rw [raise_frame]
@[simp] theorem raise_pubs (k : EventKind) (n : Option Nat) (d : BitVec 16) (s : State) : (raise k n d s).pubs = s.pubs := by
  rw [raise_frame]
@[simp] theorem raise_partials (k : EventKind) (n : Option Nat) (d : BitVec 16) (s : State) : (raise k n d s).partials = s.partials := by
  rw [raise_frame]
@[simp] theorem raise_fifo (k : EventKind) (n : Option Nat) (d : BitVec 16) (s : State) : (raise k n d s).fifo = s.fifo := by
  rw [raise_frame]
@[simp] theorem raise_portRejects (k : EventKind) (n : Option Nat) (d : BitVec 16) (s : State) : (raise k n d s).portRejects = s.portRejects := by
  rw [raise_frame]
@[simp] theorem raise_unknownPulls (k : EventKind) (n : Option Nat) (d : BitVec 16) (s : State) : (raise k n d s).unknownPulls = s.unknownPulls := by
  rw [raise_frame]
@[simp] theorem raise_store (k : EventKind) (n : Option Nat) (d : BitVec 16) (s : State) : (raise k n d s).store = s.store := by
  rw [raise_frame]
@[simp] theorem raise_subs (k : EventKind) (n : Option Nat) (d : BitVec 16) (s : State) : (raise k n d s).subs = s.subs := by
  rw [raise_frame]
@[simp] theorem raise_schedule (k : EventKind) (n : Option Nat) (d : BitVec 16) (s : State) : (raise k n d s).schedule = s.schedule := by
  rw [raise_frame]
@[simp] theorem raise_engines (k : EventKind) (n : Option Nat) (d : BitVec 16) (s : State) : (raise k n d s).engines = s.engines := by
  rw [raise_frame]
@[simp] theorem raise_gens (k : EventKind) (n : Option Nat) (d : BitVec 16) (s : State) : (raise k n d s).gens = s.gens := by
  rw [raise_frame]
@[simp] theorem raise_compares (k : EventKind) (n : Option Nat) (d : BitVec 16) (s : State) : (raise k n d s).compares = s.compares := by
  rw [raise_frame]
@[simp] theorem raise_monitor (k : EventKind) (n : Option Nat) (d : BitVec 16) (s : State) : (raise k n d s).monitor = s.monitor := by
  rw [raise_frame]
@[simp] theorem raise_due (k : EventKind) (n : Option Nat) (d : BitVec 16) (s : State) : (raise k n d s).due = s.due := by
  rw [raise_frame]
@[simp] theorem raise_freeCount (k : EventKind) (n : Option Nat) (d : BitVec 16) (s : State) : (raise k n d s).freeCount = s.freeCount := by
  rw [raise_frame]
@[simp] theorem raise_pending (k : EventKind) (n : Option Nat) (d : BitVec 16) (s : State) : (raise k n d s).pending = s.pending := by
  rw [raise_frame]

/-! ### countUp -/

/-- A counter raised: what it can change. -/
theorem countUp_frame (m : Nat) (i : Fin 4) (s : State) :
    countUp m i s = { s with monitor := (countUp m i s).monitor } := by
  rfl

@[simp] theorem countUp_pins (m : Nat) (i : Fin 4) (s : State) : (countUp m i s).pins = s.pins := by
  rw [countUp_frame]
@[simp] theorem countUp_timebase (m : Nat) (i : Fin 4) (s : State) : (countUp m i s).timebase = s.timebase := by
  rw [countUp_frame]
@[simp] theorem countUp_selector (m : Nat) (i : Fin 4) (s : State) : (countUp m i s).selector = s.selector := by
  rw [countUp_frame]
@[simp] theorem countUp_cable (m : Nat) (i : Fin 4) (s : State) : (countUp m i s).cable = s.cable := by
  rw [countUp_frame]
@[simp] theorem countUp_txQueue (m : Nat) (i : Fin 4) (s : State) : (countUp m i s).txQueue = s.txQueue := by
  rw [countUp_frame]
@[simp] theorem countUp_station (m : Nat) (i : Fin 4) (s : State) : (countUp m i s).station = s.station := by
  rw [countUp_frame]
@[simp] theorem countUp_roster (m : Nat) (i : Fin 4) (s : State) : (countUp m i s).roster = s.roster := by
  rw [countUp_frame]
@[simp] theorem countUp_pubs (m : Nat) (i : Fin 4) (s : State) : (countUp m i s).pubs = s.pubs := by
  rw [countUp_frame]
@[simp] theorem countUp_partials (m : Nat) (i : Fin 4) (s : State) : (countUp m i s).partials = s.partials := by
  rw [countUp_frame]
@[simp] theorem countUp_fifo (m : Nat) (i : Fin 4) (s : State) : (countUp m i s).fifo = s.fifo := by
  rw [countUp_frame]
@[simp] theorem countUp_portRejects (m : Nat) (i : Fin 4) (s : State) : (countUp m i s).portRejects = s.portRejects := by
  rw [countUp_frame]
@[simp] theorem countUp_unknownPulls (m : Nat) (i : Fin 4) (s : State) : (countUp m i s).unknownPulls = s.unknownPulls := by
  rw [countUp_frame]
@[simp] theorem countUp_store (m : Nat) (i : Fin 4) (s : State) : (countUp m i s).store = s.store := by
  rw [countUp_frame]
@[simp] theorem countUp_subs (m : Nat) (i : Fin 4) (s : State) : (countUp m i s).subs = s.subs := by
  rw [countUp_frame]
@[simp] theorem countUp_schedule (m : Nat) (i : Fin 4) (s : State) : (countUp m i s).schedule = s.schedule := by
  rw [countUp_frame]
@[simp] theorem countUp_engines (m : Nat) (i : Fin 4) (s : State) : (countUp m i s).engines = s.engines := by
  rw [countUp_frame]
@[simp] theorem countUp_gens (m : Nat) (i : Fin 4) (s : State) : (countUp m i s).gens = s.gens := by
  rw [countUp_frame]
@[simp] theorem countUp_compares (m : Nat) (i : Fin 4) (s : State) : (countUp m i s).compares = s.compares := by
  rw [countUp_frame]
@[simp] theorem countUp_port (m : Nat) (i : Fin 4) (s : State) : (countUp m i s).port = s.port := by
  rw [countUp_frame]
@[simp] theorem countUp_due (m : Nat) (i : Fin 4) (s : State) : (countUp m i s).due = s.due := by
  rw [countUp_frame]
@[simp] theorem countUp_freeCount (m : Nat) (i : Fin 4) (s : State) : (countUp m i s).freeCount = s.freeCount := by
  rw [countUp_frame]
@[simp] theorem countUp_pending (m : Nat) (i : Fin 4) (s : State) : (countUp m i s).pending = s.pending := by
  rw [countUp_frame]

/-! ### openGates -/

/-- Gates opened: what it can change. -/
theorem openGates_frame (s : State) :
    openGates s = { s with monitor := (openGates s).monitor } := by
  rfl

@[simp] theorem openGates_pins (s : State) : (openGates s).pins = s.pins := by
  rw [openGates_frame]
@[simp] theorem openGates_timebase (s : State) : (openGates s).timebase = s.timebase := by
  rw [openGates_frame]
@[simp] theorem openGates_selector (s : State) : (openGates s).selector = s.selector := by
  rw [openGates_frame]
@[simp] theorem openGates_cable (s : State) : (openGates s).cable = s.cable := by
  rw [openGates_frame]
@[simp] theorem openGates_txQueue (s : State) : (openGates s).txQueue = s.txQueue := by
  rw [openGates_frame]
@[simp] theorem openGates_station (s : State) : (openGates s).station = s.station := by
  rw [openGates_frame]
@[simp] theorem openGates_roster (s : State) : (openGates s).roster = s.roster := by
  rw [openGates_frame]
@[simp] theorem openGates_pubs (s : State) : (openGates s).pubs = s.pubs := by
  rw [openGates_frame]
@[simp] theorem openGates_partials (s : State) : (openGates s).partials = s.partials := by
  rw [openGates_frame]
@[simp] theorem openGates_fifo (s : State) : (openGates s).fifo = s.fifo := by
  rw [openGates_frame]
@[simp] theorem openGates_portRejects (s : State) : (openGates s).portRejects = s.portRejects := by
  rw [openGates_frame]
@[simp] theorem openGates_unknownPulls (s : State) : (openGates s).unknownPulls = s.unknownPulls := by
  rw [openGates_frame]
@[simp] theorem openGates_store (s : State) : (openGates s).store = s.store := by
  rw [openGates_frame]
@[simp] theorem openGates_subs (s : State) : (openGates s).subs = s.subs := by
  rw [openGates_frame]
@[simp] theorem openGates_schedule (s : State) : (openGates s).schedule = s.schedule := by
  rw [openGates_frame]
@[simp] theorem openGates_engines (s : State) : (openGates s).engines = s.engines := by
  rw [openGates_frame]
@[simp] theorem openGates_gens (s : State) : (openGates s).gens = s.gens := by
  rw [openGates_frame]
@[simp] theorem openGates_compares (s : State) : (openGates s).compares = s.compares := by
  rw [openGates_frame]
@[simp] theorem openGates_port (s : State) : (openGates s).port = s.port := by
  rw [openGates_frame]
@[simp] theorem openGates_due (s : State) : (openGates s).due = s.due := by
  rw [openGates_frame]
@[simp] theorem openGates_freeCount (s : State) : (openGates s).freeCount = s.freeCount := by
  rw [openGates_frame]
@[simp] theorem openGates_pending (s : State) : (openGates s).pending = s.pending := by
  rw [openGates_frame]

/-! ### notifyOverflow -/

/-- A notifying overflow: what it can change. -/
theorem notifyOverflow_frame (i : Fin 4) (x : Subject) (s : State) :
    notifyOverflow i x s = { s with monitor := (notifyOverflow i x s).monitor, port := (notifyOverflow i x s).port } := by
  unfold notifyOverflow; simp only [updMonitor]; rw [raise_frame]

@[simp] theorem notifyOverflow_pins (i : Fin 4) (x : Subject) (s : State) : (notifyOverflow i x s).pins = s.pins := by
  rw [notifyOverflow_frame]
@[simp] theorem notifyOverflow_timebase (i : Fin 4) (x : Subject) (s : State) : (notifyOverflow i x s).timebase = s.timebase := by
  rw [notifyOverflow_frame]
@[simp] theorem notifyOverflow_selector (i : Fin 4) (x : Subject) (s : State) : (notifyOverflow i x s).selector = s.selector := by
  rw [notifyOverflow_frame]
@[simp] theorem notifyOverflow_cable (i : Fin 4) (x : Subject) (s : State) : (notifyOverflow i x s).cable = s.cable := by
  rw [notifyOverflow_frame]
@[simp] theorem notifyOverflow_txQueue (i : Fin 4) (x : Subject) (s : State) : (notifyOverflow i x s).txQueue = s.txQueue := by
  rw [notifyOverflow_frame]
@[simp] theorem notifyOverflow_station (i : Fin 4) (x : Subject) (s : State) : (notifyOverflow i x s).station = s.station := by
  rw [notifyOverflow_frame]
@[simp] theorem notifyOverflow_roster (i : Fin 4) (x : Subject) (s : State) : (notifyOverflow i x s).roster = s.roster := by
  rw [notifyOverflow_frame]
@[simp] theorem notifyOverflow_pubs (i : Fin 4) (x : Subject) (s : State) : (notifyOverflow i x s).pubs = s.pubs := by
  rw [notifyOverflow_frame]
@[simp] theorem notifyOverflow_partials (i : Fin 4) (x : Subject) (s : State) : (notifyOverflow i x s).partials = s.partials := by
  rw [notifyOverflow_frame]
@[simp] theorem notifyOverflow_fifo (i : Fin 4) (x : Subject) (s : State) : (notifyOverflow i x s).fifo = s.fifo := by
  rw [notifyOverflow_frame]
@[simp] theorem notifyOverflow_portRejects (i : Fin 4) (x : Subject) (s : State) : (notifyOverflow i x s).portRejects = s.portRejects := by
  rw [notifyOverflow_frame]
@[simp] theorem notifyOverflow_unknownPulls (i : Fin 4) (x : Subject) (s : State) : (notifyOverflow i x s).unknownPulls = s.unknownPulls := by
  rw [notifyOverflow_frame]
@[simp] theorem notifyOverflow_store (i : Fin 4) (x : Subject) (s : State) : (notifyOverflow i x s).store = s.store := by
  rw [notifyOverflow_frame]
@[simp] theorem notifyOverflow_subs (i : Fin 4) (x : Subject) (s : State) : (notifyOverflow i x s).subs = s.subs := by
  rw [notifyOverflow_frame]
@[simp] theorem notifyOverflow_schedule (i : Fin 4) (x : Subject) (s : State) : (notifyOverflow i x s).schedule = s.schedule := by
  rw [notifyOverflow_frame]
@[simp] theorem notifyOverflow_engines (i : Fin 4) (x : Subject) (s : State) : (notifyOverflow i x s).engines = s.engines := by
  rw [notifyOverflow_frame]
@[simp] theorem notifyOverflow_gens (i : Fin 4) (x : Subject) (s : State) : (notifyOverflow i x s).gens = s.gens := by
  rw [notifyOverflow_frame]
@[simp] theorem notifyOverflow_compares (i : Fin 4) (x : Subject) (s : State) : (notifyOverflow i x s).compares = s.compares := by
  rw [notifyOverflow_frame]
@[simp] theorem notifyOverflow_due (i : Fin 4) (x : Subject) (s : State) : (notifyOverflow i x s).due = s.due := by
  rw [notifyOverflow_frame]
@[simp] theorem notifyOverflow_freeCount (i : Fin 4) (x : Subject) (s : State) : (notifyOverflow i x s).freeCount = s.freeCount := by
  rw [notifyOverflow_frame]
@[simp] theorem notifyOverflow_pending (i : Fin 4) (x : Subject) (s : State) : (notifyOverflow i x s).pending = s.pending := by
  rw [notifyOverflow_frame]

/-! ### overflow -/

/-- An overflow: what it can change. -/
theorem overflow_frame (i : Fin 4) (x : Subject) (s : State) :
    overflow i x s = { s with monitor := (overflow i x s).monitor, port := (overflow i x s).port } := by
  unfold overflow openGates; simp only [updMonitor]
  split <;> split <;> first | rfl | (rw [notifyOverflow_frame])

@[simp] theorem overflow_pins (i : Fin 4) (x : Subject) (s : State) : (overflow i x s).pins = s.pins := by
  rw [overflow_frame]
@[simp] theorem overflow_timebase (i : Fin 4) (x : Subject) (s : State) : (overflow i x s).timebase = s.timebase := by
  rw [overflow_frame]
@[simp] theorem overflow_selector (i : Fin 4) (x : Subject) (s : State) : (overflow i x s).selector = s.selector := by
  rw [overflow_frame]
@[simp] theorem overflow_cable (i : Fin 4) (x : Subject) (s : State) : (overflow i x s).cable = s.cable := by
  rw [overflow_frame]
@[simp] theorem overflow_txQueue (i : Fin 4) (x : Subject) (s : State) : (overflow i x s).txQueue = s.txQueue := by
  rw [overflow_frame]
@[simp] theorem overflow_station (i : Fin 4) (x : Subject) (s : State) : (overflow i x s).station = s.station := by
  rw [overflow_frame]
@[simp] theorem overflow_roster (i : Fin 4) (x : Subject) (s : State) : (overflow i x s).roster = s.roster := by
  rw [overflow_frame]
@[simp] theorem overflow_pubs (i : Fin 4) (x : Subject) (s : State) : (overflow i x s).pubs = s.pubs := by
  rw [overflow_frame]
@[simp] theorem overflow_partials (i : Fin 4) (x : Subject) (s : State) : (overflow i x s).partials = s.partials := by
  rw [overflow_frame]
@[simp] theorem overflow_fifo (i : Fin 4) (x : Subject) (s : State) : (overflow i x s).fifo = s.fifo := by
  rw [overflow_frame]
@[simp] theorem overflow_portRejects (i : Fin 4) (x : Subject) (s : State) : (overflow i x s).portRejects = s.portRejects := by
  rw [overflow_frame]
@[simp] theorem overflow_unknownPulls (i : Fin 4) (x : Subject) (s : State) : (overflow i x s).unknownPulls = s.unknownPulls := by
  rw [overflow_frame]
@[simp] theorem overflow_store (i : Fin 4) (x : Subject) (s : State) : (overflow i x s).store = s.store := by
  rw [overflow_frame]
@[simp] theorem overflow_subs (i : Fin 4) (x : Subject) (s : State) : (overflow i x s).subs = s.subs := by
  rw [overflow_frame]
@[simp] theorem overflow_schedule (i : Fin 4) (x : Subject) (s : State) : (overflow i x s).schedule = s.schedule := by
  rw [overflow_frame]
@[simp] theorem overflow_engines (i : Fin 4) (x : Subject) (s : State) : (overflow i x s).engines = s.engines := by
  rw [overflow_frame]
@[simp] theorem overflow_gens (i : Fin 4) (x : Subject) (s : State) : (overflow i x s).gens = s.gens := by
  rw [overflow_frame]
@[simp] theorem overflow_compares (i : Fin 4) (x : Subject) (s : State) : (overflow i x s).compares = s.compares := by
  rw [overflow_frame]
@[simp] theorem overflow_due (i : Fin 4) (x : Subject) (s : State) : (overflow i x s).due = s.due := by
  rw [overflow_frame]
@[simp] theorem overflow_freeCount (i : Fin 4) (x : Subject) (s : State) : (overflow i x s).freeCount = s.freeCount := by
  rw [overflow_frame]
@[simp] theorem overflow_pending (i : Fin 4) (x : Subject) (s : State) : (overflow i x s).pending = s.pending := by
  rw [overflow_frame]

/-! ### occur -/

/-- An occurrence told to the monitor: what it can change. -/
theorem occur_frame (k : OccKind) (x : Subject) (m : Nat) (s : State) :
    occur k x m s = { s with monitor := (occur k x m s).monitor, port := (occur k x m s).port } := by
  have key : ∀ {α : Type} (f : State → α → State),
      (∀ t y, f t y = { t with monitor := (f t y).monitor, port := (f t y).port }) → ∀ (ys : List α) (t : State),
      ys.foldl f t = { t with monitor := (ys.foldl f t).monitor, port := (ys.foldl f t).port } := by
    intro α f one ys
    induction ys with
    | nil => intro t; rfl
    | cons y rest ih => intro t; rw [List.foldl_cons, ih (f t y)]; simp only; rw [one t y]
  unfold occur
  split
  · rfl
  · simp only
    rw [key _ (fun t y => overflow_frame y x t), key _ (fun t y => countUp_frame m y t)]

@[simp] theorem occur_pins (k : OccKind) (x : Subject) (m : Nat) (s : State) : (occur k x m s).pins = s.pins := by
  rw [occur_frame]
@[simp] theorem occur_timebase (k : OccKind) (x : Subject) (m : Nat) (s : State) : (occur k x m s).timebase = s.timebase := by
  rw [occur_frame]
@[simp] theorem occur_selector (k : OccKind) (x : Subject) (m : Nat) (s : State) : (occur k x m s).selector = s.selector := by
  rw [occur_frame]
@[simp] theorem occur_cable (k : OccKind) (x : Subject) (m : Nat) (s : State) : (occur k x m s).cable = s.cable := by
  rw [occur_frame]
@[simp] theorem occur_txQueue (k : OccKind) (x : Subject) (m : Nat) (s : State) : (occur k x m s).txQueue = s.txQueue := by
  rw [occur_frame]
@[simp] theorem occur_station (k : OccKind) (x : Subject) (m : Nat) (s : State) : (occur k x m s).station = s.station := by
  rw [occur_frame]
@[simp] theorem occur_roster (k : OccKind) (x : Subject) (m : Nat) (s : State) : (occur k x m s).roster = s.roster := by
  rw [occur_frame]
@[simp] theorem occur_pubs (k : OccKind) (x : Subject) (m : Nat) (s : State) : (occur k x m s).pubs = s.pubs := by
  rw [occur_frame]
@[simp] theorem occur_partials (k : OccKind) (x : Subject) (m : Nat) (s : State) : (occur k x m s).partials = s.partials := by
  rw [occur_frame]
@[simp] theorem occur_fifo (k : OccKind) (x : Subject) (m : Nat) (s : State) : (occur k x m s).fifo = s.fifo := by
  rw [occur_frame]
@[simp] theorem occur_portRejects (k : OccKind) (x : Subject) (m : Nat) (s : State) : (occur k x m s).portRejects = s.portRejects := by
  rw [occur_frame]
@[simp] theorem occur_unknownPulls (k : OccKind) (x : Subject) (m : Nat) (s : State) : (occur k x m s).unknownPulls = s.unknownPulls := by
  rw [occur_frame]
@[simp] theorem occur_store (k : OccKind) (x : Subject) (m : Nat) (s : State) : (occur k x m s).store = s.store := by
  rw [occur_frame]
@[simp] theorem occur_subs (k : OccKind) (x : Subject) (m : Nat) (s : State) : (occur k x m s).subs = s.subs := by
  rw [occur_frame]
@[simp] theorem occur_schedule (k : OccKind) (x : Subject) (m : Nat) (s : State) : (occur k x m s).schedule = s.schedule := by
  rw [occur_frame]
@[simp] theorem occur_engines (k : OccKind) (x : Subject) (m : Nat) (s : State) : (occur k x m s).engines = s.engines := by
  rw [occur_frame]
@[simp] theorem occur_gens (k : OccKind) (x : Subject) (m : Nat) (s : State) : (occur k x m s).gens = s.gens := by
  rw [occur_frame]
@[simp] theorem occur_compares (k : OccKind) (x : Subject) (m : Nat) (s : State) : (occur k x m s).compares = s.compares := by
  rw [occur_frame]
@[simp] theorem occur_due (k : OccKind) (x : Subject) (m : Nat) (s : State) : (occur k x m s).due = s.due := by
  rw [occur_frame]
@[simp] theorem occur_freeCount (k : OccKind) (x : Subject) (m : Nat) (s : State) : (occur k x m s).freeCount = s.freeCount := by
  rw [occur_frame]
@[simp] theorem occur_pending (k : OccKind) (x : Subject) (m : Nat) (s : State) : (occur k x m s).pending = s.pending := by
  rw [occur_frame]

/-! ### enqueue -/

/-- An enqueue: what it can change. -/
theorem enqueue_frame (k : EntryKind) (s : State) :
    enqueue k s = { s with txQueue := (enqueue k s).txQueue, monitor := (enqueue k s).monitor, port := (enqueue k s).port } := by
  unfold enqueue; split
  · split
    · split
      · rw [occur_frame]
      · rfl
    · rfl
  · rfl

@[simp] theorem enqueue_pins (k : EntryKind) (s : State) : (enqueue k s).pins = s.pins := by
  rw [enqueue_frame]
@[simp] theorem enqueue_timebase (k : EntryKind) (s : State) : (enqueue k s).timebase = s.timebase := by
  rw [enqueue_frame]
@[simp] theorem enqueue_selector (k : EntryKind) (s : State) : (enqueue k s).selector = s.selector := by
  rw [enqueue_frame]
@[simp] theorem enqueue_cable (k : EntryKind) (s : State) : (enqueue k s).cable = s.cable := by
  rw [enqueue_frame]
@[simp] theorem enqueue_station (k : EntryKind) (s : State) : (enqueue k s).station = s.station := by
  rw [enqueue_frame]
@[simp] theorem enqueue_roster (k : EntryKind) (s : State) : (enqueue k s).roster = s.roster := by
  rw [enqueue_frame]
@[simp] theorem enqueue_pubs (k : EntryKind) (s : State) : (enqueue k s).pubs = s.pubs := by
  rw [enqueue_frame]
@[simp] theorem enqueue_partials (k : EntryKind) (s : State) : (enqueue k s).partials = s.partials := by
  rw [enqueue_frame]
@[simp] theorem enqueue_fifo (k : EntryKind) (s : State) : (enqueue k s).fifo = s.fifo := by
  rw [enqueue_frame]
@[simp] theorem enqueue_portRejects (k : EntryKind) (s : State) : (enqueue k s).portRejects = s.portRejects := by
  rw [enqueue_frame]
@[simp] theorem enqueue_unknownPulls (k : EntryKind) (s : State) : (enqueue k s).unknownPulls = s.unknownPulls := by
  rw [enqueue_frame]
@[simp] theorem enqueue_store (k : EntryKind) (s : State) : (enqueue k s).store = s.store := by
  rw [enqueue_frame]
@[simp] theorem enqueue_subs (k : EntryKind) (s : State) : (enqueue k s).subs = s.subs := by
  rw [enqueue_frame]
@[simp] theorem enqueue_schedule (k : EntryKind) (s : State) : (enqueue k s).schedule = s.schedule := by
  rw [enqueue_frame]
@[simp] theorem enqueue_engines (k : EntryKind) (s : State) : (enqueue k s).engines = s.engines := by
  rw [enqueue_frame]
@[simp] theorem enqueue_gens (k : EntryKind) (s : State) : (enqueue k s).gens = s.gens := by
  rw [enqueue_frame]
@[simp] theorem enqueue_compares (k : EntryKind) (s : State) : (enqueue k s).compares = s.compares := by
  rw [enqueue_frame]
@[simp] theorem enqueue_due (k : EntryKind) (s : State) : (enqueue k s).due = s.due := by
  rw [enqueue_frame]
@[simp] theorem enqueue_freeCount (k : EntryKind) (s : State) : (enqueue k s).freeCount = s.freeCount := by
  rw [enqueue_frame]
@[simp] theorem enqueue_pending (k : EntryKind) (s : State) : (enqueue k s).pending = s.pending := by
  rw [enqueue_frame]

/-! ### removeEntry -/

/-- A removal from the queue: what it can change. -/
theorem removeEntry_frame (k : EntryKind) (s : State) :
    removeEntry k s = { s with txQueue := (removeEntry k s).txQueue, cable := (removeEntry k s).cable } := by
  rfl

@[simp] theorem removeEntry_pins (k : EntryKind) (s : State) : (removeEntry k s).pins = s.pins := by
  rw [removeEntry_frame]
@[simp] theorem removeEntry_timebase (k : EntryKind) (s : State) : (removeEntry k s).timebase = s.timebase := by
  rw [removeEntry_frame]
@[simp] theorem removeEntry_selector (k : EntryKind) (s : State) : (removeEntry k s).selector = s.selector := by
  rw [removeEntry_frame]
@[simp] theorem removeEntry_station (k : EntryKind) (s : State) : (removeEntry k s).station = s.station := by
  rw [removeEntry_frame]
@[simp] theorem removeEntry_roster (k : EntryKind) (s : State) : (removeEntry k s).roster = s.roster := by
  rw [removeEntry_frame]
@[simp] theorem removeEntry_pubs (k : EntryKind) (s : State) : (removeEntry k s).pubs = s.pubs := by
  rw [removeEntry_frame]
@[simp] theorem removeEntry_partials (k : EntryKind) (s : State) : (removeEntry k s).partials = s.partials := by
  rw [removeEntry_frame]
@[simp] theorem removeEntry_fifo (k : EntryKind) (s : State) : (removeEntry k s).fifo = s.fifo := by
  rw [removeEntry_frame]
@[simp] theorem removeEntry_portRejects (k : EntryKind) (s : State) : (removeEntry k s).portRejects = s.portRejects := by
  rw [removeEntry_frame]
@[simp] theorem removeEntry_unknownPulls (k : EntryKind) (s : State) : (removeEntry k s).unknownPulls = s.unknownPulls := by
  rw [removeEntry_frame]
@[simp] theorem removeEntry_store (k : EntryKind) (s : State) : (removeEntry k s).store = s.store := by
  rw [removeEntry_frame]
@[simp] theorem removeEntry_subs (k : EntryKind) (s : State) : (removeEntry k s).subs = s.subs := by
  rw [removeEntry_frame]
@[simp] theorem removeEntry_schedule (k : EntryKind) (s : State) : (removeEntry k s).schedule = s.schedule := by
  rw [removeEntry_frame]
@[simp] theorem removeEntry_engines (k : EntryKind) (s : State) : (removeEntry k s).engines = s.engines := by
  rw [removeEntry_frame]
@[simp] theorem removeEntry_gens (k : EntryKind) (s : State) : (removeEntry k s).gens = s.gens := by
  rw [removeEntry_frame]
@[simp] theorem removeEntry_compares (k : EntryKind) (s : State) : (removeEntry k s).compares = s.compares := by
  rw [removeEntry_frame]
@[simp] theorem removeEntry_monitor (k : EntryKind) (s : State) : (removeEntry k s).monitor = s.monitor := by
  rw [removeEntry_frame]
@[simp] theorem removeEntry_port (k : EntryKind) (s : State) : (removeEntry k s).port = s.port := by
  rw [removeEntry_frame]
@[simp] theorem removeEntry_due (k : EntryKind) (s : State) : (removeEntry k s).due = s.due := by
  rw [removeEntry_frame]
@[simp] theorem removeEntry_freeCount (k : EntryKind) (s : State) : (removeEntry k s).freeCount = s.freeCount := by
  rw [removeEntry_frame]
@[simp] theorem removeEntry_pending (k : EntryKind) (s : State) : (removeEntry k s).pending = s.pending := by
  rw [removeEntry_frame]

/-! ### enterTimebase -/

/-- A timebase state entered: what it can change. -/
theorem enterTimebase_frame (n : TimebaseState) (f : Timebase → Timebase) (s : State) :
    enterTimebase n f s = { s with timebase := (enterTimebase n f s).timebase, port := (enterTimebase n f s).port } := by
  unfold enterTimebase; simp only [updTimebase]; split
  · rfl
  · rw [raise_frame]

@[simp] theorem enterTimebase_pins (n : TimebaseState) (f : Timebase → Timebase) (s : State) : (enterTimebase n f s).pins = s.pins := by
  rw [enterTimebase_frame]
@[simp] theorem enterTimebase_selector (n : TimebaseState) (f : Timebase → Timebase) (s : State) : (enterTimebase n f s).selector = s.selector := by
  rw [enterTimebase_frame]
@[simp] theorem enterTimebase_cable (n : TimebaseState) (f : Timebase → Timebase) (s : State) : (enterTimebase n f s).cable = s.cable := by
  rw [enterTimebase_frame]
@[simp] theorem enterTimebase_txQueue (n : TimebaseState) (f : Timebase → Timebase) (s : State) : (enterTimebase n f s).txQueue = s.txQueue := by
  rw [enterTimebase_frame]
@[simp] theorem enterTimebase_station (n : TimebaseState) (f : Timebase → Timebase) (s : State) : (enterTimebase n f s).station = s.station := by
  rw [enterTimebase_frame]
@[simp] theorem enterTimebase_roster (n : TimebaseState) (f : Timebase → Timebase) (s : State) : (enterTimebase n f s).roster = s.roster := by
  rw [enterTimebase_frame]
@[simp] theorem enterTimebase_pubs (n : TimebaseState) (f : Timebase → Timebase) (s : State) : (enterTimebase n f s).pubs = s.pubs := by
  rw [enterTimebase_frame]
@[simp] theorem enterTimebase_partials (n : TimebaseState) (f : Timebase → Timebase) (s : State) : (enterTimebase n f s).partials = s.partials := by
  rw [enterTimebase_frame]
@[simp] theorem enterTimebase_fifo (n : TimebaseState) (f : Timebase → Timebase) (s : State) : (enterTimebase n f s).fifo = s.fifo := by
  rw [enterTimebase_frame]
@[simp] theorem enterTimebase_portRejects (n : TimebaseState) (f : Timebase → Timebase) (s : State) : (enterTimebase n f s).portRejects = s.portRejects := by
  rw [enterTimebase_frame]
@[simp] theorem enterTimebase_unknownPulls (n : TimebaseState) (f : Timebase → Timebase) (s : State) : (enterTimebase n f s).unknownPulls = s.unknownPulls := by
  rw [enterTimebase_frame]
@[simp] theorem enterTimebase_store (n : TimebaseState) (f : Timebase → Timebase) (s : State) : (enterTimebase n f s).store = s.store := by
  rw [enterTimebase_frame]
@[simp] theorem enterTimebase_subs (n : TimebaseState) (f : Timebase → Timebase) (s : State) : (enterTimebase n f s).subs = s.subs := by
  rw [enterTimebase_frame]
@[simp] theorem enterTimebase_schedule (n : TimebaseState) (f : Timebase → Timebase) (s : State) : (enterTimebase n f s).schedule = s.schedule := by
  rw [enterTimebase_frame]
@[simp] theorem enterTimebase_engines (n : TimebaseState) (f : Timebase → Timebase) (s : State) : (enterTimebase n f s).engines = s.engines := by
  rw [enterTimebase_frame]
@[simp] theorem enterTimebase_gens (n : TimebaseState) (f : Timebase → Timebase) (s : State) : (enterTimebase n f s).gens = s.gens := by
  rw [enterTimebase_frame]
@[simp] theorem enterTimebase_compares (n : TimebaseState) (f : Timebase → Timebase) (s : State) : (enterTimebase n f s).compares = s.compares := by
  rw [enterTimebase_frame]
@[simp] theorem enterTimebase_monitor (n : TimebaseState) (f : Timebase → Timebase) (s : State) : (enterTimebase n f s).monitor = s.monitor := by
  rw [enterTimebase_frame]
@[simp] theorem enterTimebase_due (n : TimebaseState) (f : Timebase → Timebase) (s : State) : (enterTimebase n f s).due = s.due := by
  rw [enterTimebase_frame]
@[simp] theorem enterTimebase_freeCount (n : TimebaseState) (f : Timebase → Timebase) (s : State) : (enterTimebase n f s).freeCount = s.freeCount := by
  rw [enterTimebase_frame]
@[simp] theorem enterTimebase_pending (n : TimebaseState) (f : Timebase → Timebase) (s : State) : (enterTimebase n f s).pending = s.pending := by
  rw [enterTimebase_frame]

/-! ### failHandover -/

/-- A handover that fails: what it can change. -/
theorem failHandover_frame (c : Nat) (s : State) :
    failHandover c s = { s with selector := (failHandover c s).selector, port := (failHandover c s).port } := by
  unfold failHandover; split
  · rfl
  · simp only [updSelector]; rw [raise_frame]

@[simp] theorem failHandover_pins (c : Nat) (s : State) : (failHandover c s).pins = s.pins := by
  rw [failHandover_frame]
@[simp] theorem failHandover_timebase (c : Nat) (s : State) : (failHandover c s).timebase = s.timebase := by
  rw [failHandover_frame]
@[simp] theorem failHandover_cable (c : Nat) (s : State) : (failHandover c s).cable = s.cable := by
  rw [failHandover_frame]
@[simp] theorem failHandover_txQueue (c : Nat) (s : State) : (failHandover c s).txQueue = s.txQueue := by
  rw [failHandover_frame]
@[simp] theorem failHandover_station (c : Nat) (s : State) : (failHandover c s).station = s.station := by
  rw [failHandover_frame]
@[simp] theorem failHandover_roster (c : Nat) (s : State) : (failHandover c s).roster = s.roster := by
  rw [failHandover_frame]
@[simp] theorem failHandover_pubs (c : Nat) (s : State) : (failHandover c s).pubs = s.pubs := by
  rw [failHandover_frame]
@[simp] theorem failHandover_partials (c : Nat) (s : State) : (failHandover c s).partials = s.partials := by
  rw [failHandover_frame]
@[simp] theorem failHandover_fifo (c : Nat) (s : State) : (failHandover c s).fifo = s.fifo := by
  rw [failHandover_frame]
@[simp] theorem failHandover_portRejects (c : Nat) (s : State) : (failHandover c s).portRejects = s.portRejects := by
  rw [failHandover_frame]
@[simp] theorem failHandover_unknownPulls (c : Nat) (s : State) : (failHandover c s).unknownPulls = s.unknownPulls := by
  rw [failHandover_frame]
@[simp] theorem failHandover_store (c : Nat) (s : State) : (failHandover c s).store = s.store := by
  rw [failHandover_frame]
@[simp] theorem failHandover_subs (c : Nat) (s : State) : (failHandover c s).subs = s.subs := by
  rw [failHandover_frame]
@[simp] theorem failHandover_schedule (c : Nat) (s : State) : (failHandover c s).schedule = s.schedule := by
  rw [failHandover_frame]
@[simp] theorem failHandover_engines (c : Nat) (s : State) : (failHandover c s).engines = s.engines := by
  rw [failHandover_frame]
@[simp] theorem failHandover_gens (c : Nat) (s : State) : (failHandover c s).gens = s.gens := by
  rw [failHandover_frame]
@[simp] theorem failHandover_compares (c : Nat) (s : State) : (failHandover c s).compares = s.compares := by
  rw [failHandover_frame]
@[simp] theorem failHandover_monitor (c : Nat) (s : State) : (failHandover c s).monitor = s.monitor := by
  rw [failHandover_frame]
@[simp] theorem failHandover_due (c : Nat) (s : State) : (failHandover c s).due = s.due := by
  rw [failHandover_frame]
@[simp] theorem failHandover_freeCount (c : Nat) (s : State) : (failHandover c s).freeCount = s.freeCount := by
  rw [failHandover_frame]
@[simp] theorem failHandover_pending (c : Nat) (s : State) : (failHandover c s).pending = s.pending := by
  rw [failHandover_frame]

/-! ### becomeStale -/

/-- A subscription that becomes STALE: what it can change. -/
theorem becomeStale_frame (j : Fin 32) (c : Nat) (s : State) :
    becomeStale j c s = { s with subs := (becomeStale j c s).subs, port := (becomeStale j c s).port } := by
  unfold becomeStale; rw [raise_frame]; rfl

@[simp] theorem becomeStale_pins (j : Fin 32) (c : Nat) (s : State) : (becomeStale j c s).pins = s.pins := by
  rw [becomeStale_frame]
@[simp] theorem becomeStale_timebase (j : Fin 32) (c : Nat) (s : State) : (becomeStale j c s).timebase = s.timebase := by
  rw [becomeStale_frame]
@[simp] theorem becomeStale_selector (j : Fin 32) (c : Nat) (s : State) : (becomeStale j c s).selector = s.selector := by
  rw [becomeStale_frame]
@[simp] theorem becomeStale_cable (j : Fin 32) (c : Nat) (s : State) : (becomeStale j c s).cable = s.cable := by
  rw [becomeStale_frame]
@[simp] theorem becomeStale_txQueue (j : Fin 32) (c : Nat) (s : State) : (becomeStale j c s).txQueue = s.txQueue := by
  rw [becomeStale_frame]
@[simp] theorem becomeStale_station (j : Fin 32) (c : Nat) (s : State) : (becomeStale j c s).station = s.station := by
  rw [becomeStale_frame]
@[simp] theorem becomeStale_roster (j : Fin 32) (c : Nat) (s : State) : (becomeStale j c s).roster = s.roster := by
  rw [becomeStale_frame]
@[simp] theorem becomeStale_pubs (j : Fin 32) (c : Nat) (s : State) : (becomeStale j c s).pubs = s.pubs := by
  rw [becomeStale_frame]
@[simp] theorem becomeStale_partials (j : Fin 32) (c : Nat) (s : State) : (becomeStale j c s).partials = s.partials := by
  rw [becomeStale_frame]
@[simp] theorem becomeStale_fifo (j : Fin 32) (c : Nat) (s : State) : (becomeStale j c s).fifo = s.fifo := by
  rw [becomeStale_frame]
@[simp] theorem becomeStale_portRejects (j : Fin 32) (c : Nat) (s : State) : (becomeStale j c s).portRejects = s.portRejects := by
  rw [becomeStale_frame]
@[simp] theorem becomeStale_unknownPulls (j : Fin 32) (c : Nat) (s : State) : (becomeStale j c s).unknownPulls = s.unknownPulls := by
  rw [becomeStale_frame]
@[simp] theorem becomeStale_store (j : Fin 32) (c : Nat) (s : State) : (becomeStale j c s).store = s.store := by
  rw [becomeStale_frame]
@[simp] theorem becomeStale_schedule (j : Fin 32) (c : Nat) (s : State) : (becomeStale j c s).schedule = s.schedule := by
  rw [becomeStale_frame]
@[simp] theorem becomeStale_engines (j : Fin 32) (c : Nat) (s : State) : (becomeStale j c s).engines = s.engines := by
  rw [becomeStale_frame]
@[simp] theorem becomeStale_gens (j : Fin 32) (c : Nat) (s : State) : (becomeStale j c s).gens = s.gens := by
  rw [becomeStale_frame]
@[simp] theorem becomeStale_compares (j : Fin 32) (c : Nat) (s : State) : (becomeStale j c s).compares = s.compares := by
  rw [becomeStale_frame]
@[simp] theorem becomeStale_monitor (j : Fin 32) (c : Nat) (s : State) : (becomeStale j c s).monitor = s.monitor := by
  rw [becomeStale_frame]
@[simp] theorem becomeStale_due (j : Fin 32) (c : Nat) (s : State) : (becomeStale j c s).due = s.due := by
  rw [becomeStale_frame]
@[simp] theorem becomeStale_freeCount (j : Fin 32) (c : Nat) (s : State) : (becomeStale j c s).freeCount = s.freeCount := by
  rw [becomeStale_frame]
@[simp] theorem becomeStale_pending (j : Fin 32) (c : Nat) (s : State) : (becomeStale j c s).pending = s.pending := by
  rw [becomeStale_frame]

/-! ### changeReport -/

/-- A change report: what it can change. -/
theorem changeReport_frame (a : Nat) (s : State) :
    changeReport a s = { s with subs := (changeReport a s).subs, port := (changeReport a s).port } := by
  have one : ∀ (t : State) (j : Fin 32),
      rejudge a t j = { t with subs := (rejudge a t j).subs, port := (rejudge a t j).port } := by
    intro t j
    unfold rejudge
    simp only
    split
    · split
      · split
        · exact becomeStale_frame j 2 t
        · split
          · rfl
          · exact becomeStale_frame j 3 t
      · rfl
    · rfl
  have key : ∀ (ys : List (Fin 32)) (t : State), ys.foldl (rejudge a) t
      = { t with subs := (ys.foldl (rejudge a) t).subs, port := (ys.foldl (rejudge a) t).port } := by
    intro ys
    induction ys with
    | nil => intro t; rfl
    | cons y rest ih => intro t; rw [List.foldl_cons, ih (rejudge a t y)]; simp only; rw [one t y]
  exact key _ s

@[simp] theorem changeReport_pins (a : Nat) (s : State) : (changeReport a s).pins = s.pins := by
  rw [changeReport_frame]
@[simp] theorem changeReport_timebase (a : Nat) (s : State) : (changeReport a s).timebase = s.timebase := by
  rw [changeReport_frame]
@[simp] theorem changeReport_selector (a : Nat) (s : State) : (changeReport a s).selector = s.selector := by
  rw [changeReport_frame]
@[simp] theorem changeReport_cable (a : Nat) (s : State) : (changeReport a s).cable = s.cable := by
  rw [changeReport_frame]
@[simp] theorem changeReport_txQueue (a : Nat) (s : State) : (changeReport a s).txQueue = s.txQueue := by
  rw [changeReport_frame]
@[simp] theorem changeReport_station (a : Nat) (s : State) : (changeReport a s).station = s.station := by
  rw [changeReport_frame]
@[simp] theorem changeReport_roster (a : Nat) (s : State) : (changeReport a s).roster = s.roster := by
  rw [changeReport_frame]
@[simp] theorem changeReport_pubs (a : Nat) (s : State) : (changeReport a s).pubs = s.pubs := by
  rw [changeReport_frame]
@[simp] theorem changeReport_partials (a : Nat) (s : State) : (changeReport a s).partials = s.partials := by
  rw [changeReport_frame]
@[simp] theorem changeReport_fifo (a : Nat) (s : State) : (changeReport a s).fifo = s.fifo := by
  rw [changeReport_frame]
@[simp] theorem changeReport_portRejects (a : Nat) (s : State) : (changeReport a s).portRejects = s.portRejects := by
  rw [changeReport_frame]
@[simp] theorem changeReport_unknownPulls (a : Nat) (s : State) : (changeReport a s).unknownPulls = s.unknownPulls := by
  rw [changeReport_frame]
@[simp] theorem changeReport_store (a : Nat) (s : State) : (changeReport a s).store = s.store := by
  rw [changeReport_frame]
@[simp] theorem changeReport_schedule (a : Nat) (s : State) : (changeReport a s).schedule = s.schedule := by
  rw [changeReport_frame]
@[simp] theorem changeReport_engines (a : Nat) (s : State) : (changeReport a s).engines = s.engines := by
  rw [changeReport_frame]
@[simp] theorem changeReport_gens (a : Nat) (s : State) : (changeReport a s).gens = s.gens := by
  rw [changeReport_frame]
@[simp] theorem changeReport_compares (a : Nat) (s : State) : (changeReport a s).compares = s.compares := by
  rw [changeReport_frame]
@[simp] theorem changeReport_monitor (a : Nat) (s : State) : (changeReport a s).monitor = s.monitor := by
  rw [changeReport_frame]
@[simp] theorem changeReport_due (a : Nat) (s : State) : (changeReport a s).due = s.due := by
  rw [changeReport_frame]
@[simp] theorem changeReport_freeCount (a : Nat) (s : State) : (changeReport a s).freeCount = s.freeCount := by
  rw [changeReport_frame]
@[simp] theorem changeReport_pending (a : Nat) (s : State) : (changeReport a s).pending = s.pending := by
  rw [changeReport_frame]

/-! ### liveTest -/

/-- The LIVE test: what it can change. -/
theorem liveTest_frame (j : Fin 32) (s : State) :
    liveTest j s = { s with subs := (liveTest j s).subs, port := (liveTest j s).port } := by
  unfold liveTest; simp only; split
  · rw [raise_frame]; rfl
  · rfl

@[simp] theorem liveTest_pins (j : Fin 32) (s : State) : (liveTest j s).pins = s.pins := by
  rw [liveTest_frame]
@[simp] theorem liveTest_timebase (j : Fin 32) (s : State) : (liveTest j s).timebase = s.timebase := by
  rw [liveTest_frame]
@[simp] theorem liveTest_selector (j : Fin 32) (s : State) : (liveTest j s).selector = s.selector := by
  rw [liveTest_frame]
@[simp] theorem liveTest_cable (j : Fin 32) (s : State) : (liveTest j s).cable = s.cable := by
  rw [liveTest_frame]
@[simp] theorem liveTest_txQueue (j : Fin 32) (s : State) : (liveTest j s).txQueue = s.txQueue := by
  rw [liveTest_frame]
@[simp] theorem liveTest_station (j : Fin 32) (s : State) : (liveTest j s).station = s.station := by
  rw [liveTest_frame]
@[simp] theorem liveTest_roster (j : Fin 32) (s : State) : (liveTest j s).roster = s.roster := by
  rw [liveTest_frame]
@[simp] theorem liveTest_pubs (j : Fin 32) (s : State) : (liveTest j s).pubs = s.pubs := by
  rw [liveTest_frame]
@[simp] theorem liveTest_partials (j : Fin 32) (s : State) : (liveTest j s).partials = s.partials := by
  rw [liveTest_frame]
@[simp] theorem liveTest_fifo (j : Fin 32) (s : State) : (liveTest j s).fifo = s.fifo := by
  rw [liveTest_frame]
@[simp] theorem liveTest_portRejects (j : Fin 32) (s : State) : (liveTest j s).portRejects = s.portRejects := by
  rw [liveTest_frame]
@[simp] theorem liveTest_unknownPulls (j : Fin 32) (s : State) : (liveTest j s).unknownPulls = s.unknownPulls := by
  rw [liveTest_frame]
@[simp] theorem liveTest_store (j : Fin 32) (s : State) : (liveTest j s).store = s.store := by
  rw [liveTest_frame]
@[simp] theorem liveTest_schedule (j : Fin 32) (s : State) : (liveTest j s).schedule = s.schedule := by
  rw [liveTest_frame]
@[simp] theorem liveTest_engines (j : Fin 32) (s : State) : (liveTest j s).engines = s.engines := by
  rw [liveTest_frame]
@[simp] theorem liveTest_gens (j : Fin 32) (s : State) : (liveTest j s).gens = s.gens := by
  rw [liveTest_frame]
@[simp] theorem liveTest_compares (j : Fin 32) (s : State) : (liveTest j s).compares = s.compares := by
  rw [liveTest_frame]
@[simp] theorem liveTest_monitor (j : Fin 32) (s : State) : (liveTest j s).monitor = s.monitor := by
  rw [liveTest_frame]
@[simp] theorem liveTest_due (j : Fin 32) (s : State) : (liveTest j s).due = s.due := by
  rw [liveTest_frame]
@[simp] theorem liveTest_freeCount (j : Fin 32) (s : State) : (liveTest j s).freeCount = s.freeCount := by
  rw [liveTest_frame]
@[simp] theorem liveTest_pending (j : Fin 32) (s : State) : (liveTest j s).pending = s.pending := by
  rw [liveTest_frame]

/-! ### noteOverrun -/

/-- An overrun: what it can change. -/
theorem noteOverrun_frame (j : Fin 32) (s : State) :
    noteOverrun j s = { s with subs := (noteOverrun j s).subs, port := (noteOverrun j s).port } := by
  unfold noteOverrun; simp only; split
  · rfl
  · rw [raise_frame]; rfl

@[simp] theorem noteOverrun_pins (j : Fin 32) (s : State) : (noteOverrun j s).pins = s.pins := by
  rw [noteOverrun_frame]
@[simp] theorem noteOverrun_timebase (j : Fin 32) (s : State) : (noteOverrun j s).timebase = s.timebase := by
  rw [noteOverrun_frame]
@[simp] theorem noteOverrun_selector (j : Fin 32) (s : State) : (noteOverrun j s).selector = s.selector := by
  rw [noteOverrun_frame]
@[simp] theorem noteOverrun_cable (j : Fin 32) (s : State) : (noteOverrun j s).cable = s.cable := by
  rw [noteOverrun_frame]
@[simp] theorem noteOverrun_txQueue (j : Fin 32) (s : State) : (noteOverrun j s).txQueue = s.txQueue := by
  rw [noteOverrun_frame]
@[simp] theorem noteOverrun_station (j : Fin 32) (s : State) : (noteOverrun j s).station = s.station := by
  rw [noteOverrun_frame]
@[simp] theorem noteOverrun_roster (j : Fin 32) (s : State) : (noteOverrun j s).roster = s.roster := by
  rw [noteOverrun_frame]
@[simp] theorem noteOverrun_pubs (j : Fin 32) (s : State) : (noteOverrun j s).pubs = s.pubs := by
  rw [noteOverrun_frame]
@[simp] theorem noteOverrun_partials (j : Fin 32) (s : State) : (noteOverrun j s).partials = s.partials := by
  rw [noteOverrun_frame]
@[simp] theorem noteOverrun_fifo (j : Fin 32) (s : State) : (noteOverrun j s).fifo = s.fifo := by
  rw [noteOverrun_frame]
@[simp] theorem noteOverrun_portRejects (j : Fin 32) (s : State) : (noteOverrun j s).portRejects = s.portRejects := by
  rw [noteOverrun_frame]
@[simp] theorem noteOverrun_unknownPulls (j : Fin 32) (s : State) : (noteOverrun j s).unknownPulls = s.unknownPulls := by
  rw [noteOverrun_frame]
@[simp] theorem noteOverrun_store (j : Fin 32) (s : State) : (noteOverrun j s).store = s.store := by
  rw [noteOverrun_frame]
@[simp] theorem noteOverrun_schedule (j : Fin 32) (s : State) : (noteOverrun j s).schedule = s.schedule := by
  rw [noteOverrun_frame]
@[simp] theorem noteOverrun_engines (j : Fin 32) (s : State) : (noteOverrun j s).engines = s.engines := by
  rw [noteOverrun_frame]
@[simp] theorem noteOverrun_gens (j : Fin 32) (s : State) : (noteOverrun j s).gens = s.gens := by
  rw [noteOverrun_frame]
@[simp] theorem noteOverrun_compares (j : Fin 32) (s : State) : (noteOverrun j s).compares = s.compares := by
  rw [noteOverrun_frame]
@[simp] theorem noteOverrun_monitor (j : Fin 32) (s : State) : (noteOverrun j s).monitor = s.monitor := by
  rw [noteOverrun_frame]
@[simp] theorem noteOverrun_due (j : Fin 32) (s : State) : (noteOverrun j s).due = s.due := by
  rw [noteOverrun_frame]
@[simp] theorem noteOverrun_freeCount (j : Fin 32) (s : State) : (noteOverrun j s).freeCount = s.freeCount := by
  rw [noteOverrun_frame]
@[simp] theorem noteOverrun_pending (j : Fin 32) (s : State) : (noteOverrun j s).pending = s.pending := by
  rw [noteOverrun_frame]

/-! ### appendBlock -/

/-- A block appended to a ring: what it can change. -/
theorem appendBlock_frame (a : BurstEnd) (j : Fin 32) (b : BlockBurst) (m : Nat) (l : Bool) (s : State) :
    appendBlock a j b m l s = { s with subs := (appendBlock a j b m l s).subs, store := (appendBlock a j b m l s).store, port := (appendBlock a j b m l s).port } := by
  unfold appendBlock; simp only; split
  · rw [raise_frame]; rfl
  · rfl

@[simp] theorem appendBlock_pins (a : BurstEnd) (j : Fin 32) (b : BlockBurst) (m : Nat) (l : Bool) (s : State) : (appendBlock a j b m l s).pins = s.pins := by
  rw [appendBlock_frame]
@[simp] theorem appendBlock_timebase (a : BurstEnd) (j : Fin 32) (b : BlockBurst) (m : Nat) (l : Bool) (s : State) : (appendBlock a j b m l s).timebase = s.timebase := by
  rw [appendBlock_frame]
@[simp] theorem appendBlock_selector (a : BurstEnd) (j : Fin 32) (b : BlockBurst) (m : Nat) (l : Bool) (s : State) : (appendBlock a j b m l s).selector = s.selector := by
  rw [appendBlock_frame]
@[simp] theorem appendBlock_cable (a : BurstEnd) (j : Fin 32) (b : BlockBurst) (m : Nat) (l : Bool) (s : State) : (appendBlock a j b m l s).cable = s.cable := by
  rw [appendBlock_frame]
@[simp] theorem appendBlock_txQueue (a : BurstEnd) (j : Fin 32) (b : BlockBurst) (m : Nat) (l : Bool) (s : State) : (appendBlock a j b m l s).txQueue = s.txQueue := by
  rw [appendBlock_frame]
@[simp] theorem appendBlock_station (a : BurstEnd) (j : Fin 32) (b : BlockBurst) (m : Nat) (l : Bool) (s : State) : (appendBlock a j b m l s).station = s.station := by
  rw [appendBlock_frame]
@[simp] theorem appendBlock_roster (a : BurstEnd) (j : Fin 32) (b : BlockBurst) (m : Nat) (l : Bool) (s : State) : (appendBlock a j b m l s).roster = s.roster := by
  rw [appendBlock_frame]
@[simp] theorem appendBlock_pubs (a : BurstEnd) (j : Fin 32) (b : BlockBurst) (m : Nat) (l : Bool) (s : State) : (appendBlock a j b m l s).pubs = s.pubs := by
  rw [appendBlock_frame]
@[simp] theorem appendBlock_partials (a : BurstEnd) (j : Fin 32) (b : BlockBurst) (m : Nat) (l : Bool) (s : State) : (appendBlock a j b m l s).partials = s.partials := by
  rw [appendBlock_frame]
@[simp] theorem appendBlock_fifo (a : BurstEnd) (j : Fin 32) (b : BlockBurst) (m : Nat) (l : Bool) (s : State) : (appendBlock a j b m l s).fifo = s.fifo := by
  rw [appendBlock_frame]
@[simp] theorem appendBlock_portRejects (a : BurstEnd) (j : Fin 32) (b : BlockBurst) (m : Nat) (l : Bool) (s : State) : (appendBlock a j b m l s).portRejects = s.portRejects := by
  rw [appendBlock_frame]
@[simp] theorem appendBlock_unknownPulls (a : BurstEnd) (j : Fin 32) (b : BlockBurst) (m : Nat) (l : Bool) (s : State) : (appendBlock a j b m l s).unknownPulls = s.unknownPulls := by
  rw [appendBlock_frame]
@[simp] theorem appendBlock_schedule (a : BurstEnd) (j : Fin 32) (b : BlockBurst) (m : Nat) (l : Bool) (s : State) : (appendBlock a j b m l s).schedule = s.schedule := by
  rw [appendBlock_frame]
@[simp] theorem appendBlock_engines (a : BurstEnd) (j : Fin 32) (b : BlockBurst) (m : Nat) (l : Bool) (s : State) : (appendBlock a j b m l s).engines = s.engines := by
  rw [appendBlock_frame]
@[simp] theorem appendBlock_gens (a : BurstEnd) (j : Fin 32) (b : BlockBurst) (m : Nat) (l : Bool) (s : State) : (appendBlock a j b m l s).gens = s.gens := by
  rw [appendBlock_frame]
@[simp] theorem appendBlock_compares (a : BurstEnd) (j : Fin 32) (b : BlockBurst) (m : Nat) (l : Bool) (s : State) : (appendBlock a j b m l s).compares = s.compares := by
  rw [appendBlock_frame]
@[simp] theorem appendBlock_monitor (a : BurstEnd) (j : Fin 32) (b : BlockBurst) (m : Nat) (l : Bool) (s : State) : (appendBlock a j b m l s).monitor = s.monitor := by
  rw [appendBlock_frame]
@[simp] theorem appendBlock_due (a : BurstEnd) (j : Fin 32) (b : BlockBurst) (m : Nat) (l : Bool) (s : State) : (appendBlock a j b m l s).due = s.due := by
  rw [appendBlock_frame]
@[simp] theorem appendBlock_freeCount (a : BurstEnd) (j : Fin 32) (b : BlockBurst) (m : Nat) (l : Bool) (s : State) : (appendBlock a j b m l s).freeCount = s.freeCount := by
  rw [appendBlock_frame]
@[simp] theorem appendBlock_pending (a : BurstEnd) (j : Fin 32) (b : BlockBurst) (m : Nat) (l : Bool) (s : State) : (appendBlock a j b m l s).pending = s.pending := by
  rw [appendBlock_frame]

/-! ### What the operations leave in the parts they change -/

/-- The timebase after a state is entered (R24). -/
@[simp] theorem enterTimebase_timebase (n : TimebaseState) (f : Timebase → Timebase) (s : State) :
    (enterTimebase n f s).timebase = { f s.timebase with state := n } := by
  unfold enterTimebase; simp only; split <;> simp

/-- The selector after a handover has failed (R35, R38). -/
@[simp] theorem failHandover_selector (c : Nat) (s : State) :
    (failHandover c s).selector = { s.selector with record := none } := by
  unfold failHandover; split
  · next h => rw [← h]
  · simp

/-- An event is in the queue, or events-lost is set (R198). -/
theorem raise_port (k : EventKind) (n : Option Nat) (d : BitVec 16) (s : State) :
    (raise k n d s).port.events = s.port.events ++
        [{ kind := k, epoch := epoch32 s.timebase, tick := tickInEpoch s.timebase, subject := n, detail := d }]
        ∧ (raise k n d s).port.lost = s.port.lost ∧ s.port.events.length < 32
      ∨ (raise k n d s).port.events = s.port.events ∧ (raise k n d s).port.lost = true
        ∧ 32 ≤ s.port.events.length := by
  unfold raise; split
  · exact .inl ⟨rfl, rfl, by assumption⟩
  · exact .inr ⟨rfl, rfl, by omega⟩

/-- An event leaves the transaction. -/
@[simp] theorem raise_transaction (k : EventKind) (n : Option Nat) (d : BitVec 16) (s : State) :
    (raise k n d s).port.transaction = s.port.transaction := by
  unfold raise; split <;> rfl

/-- An event leaves the held requests. -/
@[simp] theorem raise_held (k : EventKind) (n : Option Nat) (d : BitVec 16) (s : State) :
    (raise k n d s).port.held = s.port.held := by
  unfold raise; split <;> rfl

/-- A bounded event queue stays bounded (R198). -/
theorem raise_bounded (k : EventKind) (n : Option Nat) (d : BitVec 16) (s : State) (h : s.port.events.length ≤ 32) :
    (raise k n d s).port.events.length ≤ 32 := by
  rcases raise_port k n d s with ⟨e, -, l⟩ | ⟨e, -, -⟩
  · rw [e, List.length_append, List.length_singleton]; omega
  · rw [e]; exact h

/-- What is due after a step falls due. -/
theorem mem_mark (d x : Due) (s : State) : x ∈ (mark d s).due ↔ x = d ∨ x ∈ s.due := by
  unfold mark; split
  · constructor
    · exact .inr
    · rintro (rfl | h)
      · assumption
      · exact h
  · simp [or_comm]

/-- What is due after a step may fall due. -/
theorem mem_markIf (c : Bool) (d x : Due) (s : State) :
    x ∈ (markIf c d s).due ↔ (c = true ∧ x = d) ∨ x ∈ s.due := by
  unfold markIf; split
  · next h => simp [mem_mark, h]
  · next h => simp [h]

end Sys2Proof.Machine
end

