-- ==== Sys2Proof/Laws/Port.lean ====
section
/-! SUPPORT. What the host port's operations can do: one lemma for each field under a change of the transaction, what a
response and a held request leave as they were, and when a command finds the state as it stands. -/

namespace Sys2Proof.Machine

/-! ### setTransaction -/

@[simp] theorem setTransaction_pins (t : Transaction) (s : State) : (setTransaction t s).pins = s.pins := rfl
@[simp] theorem setTransaction_timebase (t : Transaction) (s : State) : (setTransaction t s).timebase = s.timebase := rfl
@[simp] theorem setTransaction_selector (t : Transaction) (s : State) : (setTransaction t s).selector = s.selector := rfl
@[simp] theorem setTransaction_cable (t : Transaction) (s : State) : (setTransaction t s).cable = s.cable := rfl
@[simp] theorem setTransaction_txQueue (t : Transaction) (s : State) : (setTransaction t s).txQueue = s.txQueue := rfl
@[simp] theorem setTransaction_station (t : Transaction) (s : State) : (setTransaction t s).station = s.station := rfl
@[simp] theorem setTransaction_roster (t : Transaction) (s : State) : (setTransaction t s).roster = s.roster := rfl
@[simp] theorem setTransaction_pubs (t : Transaction) (s : State) : (setTransaction t s).pubs = s.pubs := rfl
@[simp] theorem setTransaction_partials (t : Transaction) (s : State) : (setTransaction t s).partials = s.partials := rfl
@[simp] theorem setTransaction_fifo (t : Transaction) (s : State) : (setTransaction t s).fifo = s.fifo := rfl
@[simp] theorem setTransaction_portRejects (t : Transaction) (s : State) : (setTransaction t s).portRejects = s.portRejects := rfl
@[simp] theorem setTransaction_unknownPulls (t : Transaction) (s : State) : (setTransaction t s).unknownPulls = s.unknownPulls := rfl
@[simp] theorem setTransaction_store (t : Transaction) (s : State) : (setTransaction t s).store = s.store := rfl
@[simp] theorem setTransaction_subs (t : Transaction) (s : State) : (setTransaction t s).subs = s.subs := rfl
@[simp] theorem setTransaction_schedule (t : Transaction) (s : State) : (setTransaction t s).schedule = s.schedule := rfl
@[simp] theorem setTransaction_engines (t : Transaction) (s : State) : (setTransaction t s).engines = s.engines := rfl
@[simp] theorem setTransaction_gens (t : Transaction) (s : State) : (setTransaction t s).gens = s.gens := rfl
@[simp] theorem setTransaction_compares (t : Transaction) (s : State) : (setTransaction t s).compares = s.compares := rfl
@[simp] theorem setTransaction_monitor (t : Transaction) (s : State) : (setTransaction t s).monitor = s.monitor := rfl
@[simp] theorem setTransaction_due (t : Transaction) (s : State) : (setTransaction t s).due = s.due := rfl
@[simp] theorem setTransaction_freeCount (t : Transaction) (s : State) : (setTransaction t s).freeCount = s.freeCount := rfl
@[simp] theorem setTransaction_pending (t : Transaction) (s : State) : (setTransaction t s).pending = s.pending := rfl

@[simp] theorem setTransaction_events (t : Transaction) (s : State) :
    (setTransaction t s).port.events = s.port.events := rfl

@[simp] theorem setTransaction_lost (t : Transaction) (s : State) : (setTransaction t s).port.lost = s.port.lost := rfl

@[simp] theorem setTransaction_held (t : Transaction) (s : State) : (setTransaction t s).port.held = s.port.held := rfl

@[simp] theorem setTransaction_transaction (t : Transaction) (s : State) :
    (setTransaction t s).port.transaction = t := rfl

@[simp] theorem setTransaction_twice (t u : Transaction) (s : State) :
    setTransaction t (setTransaction u s) = setTransaction t s := rfl

/-! ### Responses -/

/-- A response record does not depend on the transaction (R195). -/
@[simp] theorem responseRecord_setTransaction (status : Status) (body : List Byte) (t : Transaction) (s : State) :
    responseRecord status body (setTransaction t s) = responseRecord status body s := rfl

/-- A response is ready in a transaction that waits for it (R189). -/
theorem respond_waiting (status : Status) (body : List Byte) (s : State) (h : s.port.transaction = .waiting) :
    respond status body s = setTransaction (.responding (responseRecord status body s)) s := by
  simp only [respond, h, setTransaction]

/-- A response whose transaction the host has left is discarded (R192). -/
theorem respond_left (status : Status) (body : List Byte) (s : State) (h : s.port.transaction ≠ .waiting) :
    respond status body s = s := by
  unfold respond; split
  · next e => exact absurd e h
  all_goals rfl

/-- A reply leaves its effect, but for the transaction. -/
theorem answer_effect (s : State) (r : Reply) : ∃ t, answer s r = setTransaction t (r.effect s) := by
  have e (u : State) : u = setTransaction u.port.transaction u := rfl
  cases r with
  | refused status =>
    by_cases h : s.port.transaction = .waiting
    · exact ⟨_, respond_waiting status [] s h⟩
    · exact ⟨_, (respond_left status [] s h).trans (e s)⟩
  | taken body t =>
    by_cases h : t.port.transaction = .waiting
    · exact ⟨_, respond_waiting .ok body t h⟩
    · exact ⟨_, (respond_left .ok body t h).trans (e t)⟩

/-! ### Held requests -/

/-- With no request held nothing is served. -/
theorem serveHeld_none (s : State) (h : s.port.held = []) : serveHeld s = s := if_pos (.inl h)

/-- While the cable side holds the block store no held request is served (R103). -/
theorem serveHeld_busy (s : State) (h : storeBusy s = true) : serveHeld s = s := if_pos (.inr h)

/-- The only held request is served once the block store is free. -/
theorem serveHeld_one (i : Instr) (s : State) (h : s.port.held = [i]) (b : storeBusy s = false) :
    serveHeld s = handleOne i { s with port := { s.port with held := [] } } := by
  simp only [serveHeld, h, b, List.cons_ne_nil, Bool.false_eq_true, or_self, if_false, handleAll]

/-- Two held requests are served in order, and the older one's response is discarded (R191, R192). -/
theorem serveHeld_two (i j : Instr) (s : State) (h : s.port.held = [i, j]) (b : storeBusy s = false) :
    serveHeld s = handleOne j (handleLeft i { s with port := { s.port with held := [] } }) := by
  simp only [serveHeld, h, b, List.cons_ne_nil, Bool.false_eq_true, or_self, if_false, handleAll]

/-! ### The drain before the host port (R103) -/

/-- With nothing in the FIFO the drain does not wait (R109). -/
@[simp] theorem drainWaiting_none (s : State) (h : s.fifo = []) : drainWaiting s = s := by simp [drainWaiting, h]

/-- A commit, made or pending, leaves the FIFO (R112). -/
@[simp] theorem askCommit_fifo (k : Fin 16) (s : State) : (askCommit k s).fifo = s.fifo := by
  have served (t : State) : (servePull k t).fifo = t.fifo := by unfold servePull; split_ifs <;> simp
  have made : (makeCommit k s).fifo = s.fifo := by
    simp only [makeCommit]; generalize (commitBlock s k).gap = g; cases g <;> simp only <;> split_ifs <;> simp [served]
  unfold askCommit; split_ifs <;> simp [made]

/-- A sample that is appended leaves the rest of the FIFO (R110). -/
@[simp] theorem judgeItem_fifo (item : FifoItem) (s : State) : (judgeItem item s).fifo = s.fifo := by
  simp only [judgeItem, countReject, countGap, appendSample]
  split_ifs <;> simp

/-- A grant takes the oldest item and no other (R109). -/
theorem drainOne_fifo (s : State) : (drainOne s).fifo = s.fifo.tail := by
  unfold drainOne; split <;> simp [*]

/-- The waiting drain takes its items one grant after the other (R109). -/
theorem drainWaiting_item (s : State) (h : s.fifo ≠ []) : drainWaiting s = drainWaiting (drainOne s) := by
  obtain ⟨item, rest, e⟩ := List.exists_cons_of_ne_nil h
  simp only [drainWaiting, drainOne_fifo, e, List.foldl_cons, List.tail_cons]

/-- With no block waiting for its ring the cable side asks for no write (R103). -/
@[simp] theorem placeWaiting_none (s : State) (w : ringWriteWaits s = false) : placeWaiting s = s := by
  simp [placeWaiting, w]

/-- With no burst in a receive buffer that waits, no block waits for its ring (R53). -/
theorem ringWriteWaits_none (s : State) (w : waitingBurst s.cable = none) : ringWriteWaits s = false := by
  simp [ringWriteWaits, w]

/-- A block that waits for its ring is handed over, and a recovery that this completes is taken (R83, R103). -/
theorem placeWaiting_waits (s : State) (w : ringWriteWaits s = true) :
    placeWaiting s = takeDue .recoveryComplete (handWaiting s) := if_pos w

/-- With no block waiting for its ring and nothing in the FIFO a request is granted the store at once. -/
theorem grantStore_none (i : Instr) (s : State) (w : ringWriteWaits s = false) (h : s.fifo = []) :
    grantStore i s = s := by
  simp [grantStore, w, h]

/-- A request that needs the store is granted it after the cable side and the drain (R103). -/
theorem grantStore_access (i : Instr) (s : State) (n : needsStore i s = true) :
    grantStore i s = drainWaiting (placeWaiting s) := if_pos n

/-- A request that makes no access to the store waits for no grant (R191). -/
theorem grantStore_noAccess (i : Instr) (s : State) (n : needsStore i s = false) : grantStore i s = s := by
  simp [grantStore, n]

/-- With no block waiting for its ring and nothing in the FIFO a request is handled as it stands. -/
theorem handleOne_none (i : Instr) (s : State) (w : ringWriteWaits s = false) (h : s.fifo = []) :
    handleOne i s = answer s (replyOf i s) := by
  simp only [handleOne, answerNow, grantStore_none i s w h]

/-- A request that makes no access to the store is handled as it stands. -/
theorem handleOne_noAccess (i : Instr) (s : State) (n : needsStore i s = false) :
    handleOne i s = answer s (replyOf i s) := by
  simp only [handleOne, answerNow, grantStore_noAccess i s n]

/-! ### Quiet states -/

/-- With nothing due there is nothing to take. -/
@[simp] theorem dueTaken_none (s : State) (d : s.due = []) : dueTaken s = s := if_pos d

/-- A quiet state is settled. -/
theorem settled_quiet (s : State) (h : quiet s = true) : settled s = s := by
  simp only [quiet, Bool.and_eq_true, Bool.or_eq_true, List.isEmpty_iff] at h
  rw [settled, dueTaken_none s h.1]
  exact if_pos h.2

/-- With nothing due a grant of the drain takes the oldest item, held requests or not, after the ring write of a block that
waits (R103, R109). -/
theorem drainRow_item (s : State) (d : s.due = []) (h : s.fifo ≠ []) : drainRow s = drainOne (placeWaiting s) := by
  simp only [drainRow, dueTaken_none s d, if_neg h]

/-- In a quiet state with an empty FIFO the drain does nothing. -/
theorem drainRow_none (s : State) (q : quiet s = true) (h : s.fifo = []) : drainRow s = s := by
  have := settled_quiet s q
  simp only [quiet, Bool.and_eq_true, List.isEmpty_iff] at q
  rw [settled, dueTaken_none s q.1] at this
  simp only [drainRow, dueTaken_none s q.1, if_pos h, this]

/-- A quiet state is settled for a burst. -/
theorem settledForBurst_quiet (s : State) (h : quiet s = true) : settledForBurst s = s := by
  simp only [quiet, Bool.and_eq_true, Bool.or_eq_true, List.isEmpty_iff] at h
  rw [settledForBurst, if_pos h.1]
  exact if_pos h.2

/-- A part with nothing due and no request held is quiet. -/
theorem quiet_ready (s : State) (d : s.due = []) (h : s.port.held = []) : quiet s = true := by
  simp [quiet, d, h]

/-- With no request held, and the block store free, a request is handled at once (R191). -/
theorem requestRow_now (i : Instr) (s : State) (d : s.due = []) (h : s.port.held = []) (b : storeBusy s = false) :
    requestRow i s = handleNow i s := by
  rw [requestRow, settled_quiet s (quiet_ready s d h), takeRecord, if_pos h, if_neg (by simp [b])]

/-- With no request held, a request that makes no access to the block store is handled at once (R191). -/
theorem requestRow_noAccess (i : Instr) (s : State) (d : s.due = []) (h : s.port.held = [])
    (n : needsStore i s = false) : requestRow i s = handleNow i s := by
  rw [requestRow, settled_quiet s (quiet_ready s d h), takeRecord, if_pos h, if_neg (by simp [n])]

/-- Behind one held request a request waits; a third record is discarded (R190, R191). -/
theorem requestRow_behind (i : Instr) (s : State) (d : s.due = []) (h : s.port.held ≠ [])
    (b : storeBusy s = true) :
    requestRow i s = if s.port.held.length < 2 then holdRequest i s else setTransaction .filler s := by
  rw [requestRow, settled_quiet s (by simp [quiet, d, b]), takeRecord, if_neg h]

end Sys2Proof.Machine
end

