-- ==== Sys2Proof/Laws/Bursts.lean ====
section
/-! SUPPORT. The hand-over of a received burst: what a burst's row comes to in a quiet state, case by case, the moment at
which its reception ended, what the ring write of a block that waits leaves as it was, and what is done to the receive
buffers. -/

namespace Sys2Proof.Machine

/-- A reception that ends now ends at the present rack time (R127). -/
@[simp] theorem arrivalTicks_endsNow (t : Timebase) : arrivalTicks (endsNow t) = ticks48 t := rfl

/-- A reception that ends now ends in the present epoch (R127). -/
@[simp] theorem arrivalEpoch_endsNow (t : Timebase) : arrivalEpoch (endsNow t) = epoch32 t := rfl

/-- A reception that ends now ends in the present timebase state (R127). -/
@[simp] theorem endsNow_state (t : Timebase) : (endsNow t).state = t.state := rfl

/-- In a quiet state nothing comes before a received burst. -/
theorem execGoodBurstReceived_quiet (bytes : List Byte) (hand : HandOver) (s : State) (q : quiet s = true) :
    execGoodBurstReceived bytes s hand = .next (receiveBurst bytes hand s) := by
  rw [execGoodBurstReceived, settledForBurst_quiet s q]

/-- With no burst waiting nothing is handed over before a reception ends (R53). -/
theorem handedBefore_none (settle : State → State) (ends : Cable → Bool) (s : State) (w : waitingBurst s.cable = none) :
    handedBefore settle ends s = s := by
  simp [handedBefore, w]

/-- Where no reception can end nothing is handed over (R53). -/
theorem handedBefore_no_end (settle : State → State) (ends : Cable → Bool) (s : State) (e : ends s.cable = false) :
    handedBefore settle ends s = s := by
  simp [handedBefore, e]

/-- A burst that waits is handed over before the next burst's reception ends (R53). -/
theorem handedBefore_waiting (settle : State → State) (ends : Cable → Bool) (s : State) (e : ends s.cable = true)
    (w : waitingBurst s.cable ≠ none) : handedBefore settle ends s = settle (handWaiting s) := if_pos ⟨e, w⟩

/-- Where no reception of these bytes can end, a row that tells of an end has no effect (R51). -/
theorem receiveBurst_no_end (bytes : List Byte) (hand : HandOver) (s : State) (h : hand ≠ .later)
    (e : endsReceptionOf bytes s.cable = false) : receiveBurst bytes hand s = s := by
  cases hand <;> simp_all [receiveBurst, handedBefore, endBurst]

/-- Bytes that are no good burst end a reception as a failed check (R51). -/
theorem receiveBurst_bad (bytes : List Byte) (hand : HandOver) (s : State) (h : hand ≠ .later)
    (b : readBurst bytes = none) (e : endsReceptionOf bytes s.cable = true) (w : waitingBurst s.cable = none) :
    receiveBurst bytes hand s = takeFailed s := by
  cases hand <;> simp_all [receiveBurst, handedBefore, endBurst]

/-- A good burst handed over at its end (R51, R52). -/
theorem receiveBurst_atEnd (bytes : List Byte) (b : Burst) (s : State) (h : readBurst bytes = some b)
    (e : endsReceptionOf bytes s.cable = true) (w : waitingBurst s.cable = none) :
    receiveBurst bytes .atEnd s = deliver (endsNow s.timebase) b (endGood s) := by
  simp [receiveBurst, handedBefore, w, endBurst, e, h, takeGood]

/-- A good burst that waits in its buffer from its end on (R53). -/
theorem receiveBurst_waits (bytes : List Byte) (b : Burst) (s : State) (h : readBurst bytes = some b)
    (e : endsReceptionOf bytes s.cable = true) (w : waitingBurst s.cable = none) :
    receiveBurst bytes .waits s = keepGood bytes s := by
  simp [receiveBurst, handedBefore, w, endBurst, e, h]

/-- The burst that waits is handed over, its reception ended at the moment kept with it (R53, R127). -/
theorem receiveBurst_later (bytes : List Byte) (m : BurstEnd) (b : Burst) (s : State)
    (w : waitingBurst s.cable = some (bytes, m)) (h : readBurst bytes = some b) :
    receiveBurst bytes .later s = deliver m b (updCable freeWaiting s) := by
  simp [receiveBurst, takeLate, handWaiting, w, h]

/-- A hand-over of a burst that no buffer holds is none (R53). -/
theorem receiveBurst_later_none (bytes : List Byte) (s : State) (w : ∀ m, waitingBurst s.cable ≠ some (bytes, m)) :
    receiveBurst bytes .later s = s := by
  simp only [receiveBurst, takeLate]
  split
  · next burst m h => exact if_neg fun e => w m (by rw [h, e])
  · rfl

/-- A discarded reception frees its buffer, so with no burst waiting both are free (R53). -/
theorem discardReception_free (c : Cable) (w : waitingBurst c = none) :
    discardReception c = { c with rx0 := .empty, rx1 := .empty } := by
  cases h0 : c.rx0 <;> cases h1 : c.rx1 <;> simp_all [waitingBurst, discardReception, discarded]

/-! ### What the ring write of a block that waits leaves as it was (R103) -/

/-- `t` has the publications, the sample port and the port's holders and transaction of `s`, and its pins, schedule and
engines. -/
def KeepsPorts (s t : State) : Prop :=
  t.port.transaction = s.port.transaction ∧ t.port.held = s.port.held ∧ t.fifo = s.fifo ∧ t.pubs = s.pubs
    ∧ t.partials = s.partials ∧ t.portRejects = s.portRejects ∧ t.pins = s.pins ∧ t.schedule = s.schedule
    ∧ t.engines = s.engines ∧ t.timebase = s.timebase ∧ t.cable.binding = s.cable.binding

theorem KeepsPorts.refl (s : State) : KeepsPorts s s := ⟨rfl, rfl, rfl, rfl, rfl, rfl, rfl, rfl, rfl, rfl, rfl⟩

theorem KeepsPorts.trans {s t u : State} (a : KeepsPorts s t) (b : KeepsPorts t u) : KeepsPorts s u := by
  unfold KeepsPorts at *; simp_all

/-- An event keeps them. -/
theorem raise_keepsPorts (k : EventKind) (n : Option Nat) (d : BitVec 16) (s : State) : KeepsPorts s (raise k n d s) := by
  simp [KeepsPorts]

/-- An occurrence keeps them, its MONITOR_OVERFLOW among it. -/
theorem occur_keepsPorts (k : OccKind) (x : Subject) (m : Nat) (s : State) : KeepsPorts s (occur k x m s) := by
  have up (ys : List (Fin 4)) (t : State) : KeepsPorts t (ys.foldl (fun t i => countUp m i t) t) :=
    foldl_keeps KeepsPorts (fun t i => countUp m i t) .refl (fun _ _ _ => .trans) (fun t _ => .refl t) ys t
  have spills (ys : List (Fin 4)) (t : State) : KeepsPorts t (ys.foldl (fun t i => overflow i x t) t) := by
    refine foldl_keeps KeepsPorts _ .refl (fun _ _ _ => .trans) (fun t i => ?_) ys t
    unfold overflow openGates notifyOverflow
    dsimp only
    split <;> split <;> simp [KeepsPorts]
  unfold occur
  split
  · exact .refl s
  · exact (up _ s).trans (spills _ _)

/-- An occurrence that may be made keeps them. -/
theorem occurIf_keepsPorts (c : Bool) (k : OccKind) (x : Subject) (m : Nat) (s : State) :
    KeepsPorts s (occurIf c k x m s) := by
  unfold occurIf; split
  · exact occur_keepsPorts k x m s
  · exact .refl s

/-- The arrival of a block keeps them (R127 to R136). -/
theorem blockArrives_keepsPorts (m : BurstEnd) (b : BlockBurst) (s : State) : KeepsPorts s (blockArrives m b s) := by
  have live (j : Fin 32) (t : State) : KeepsPorts t (liveTest j t) := by
    unfold liveTest; dsimp only; split
    · simp [KeepsPorts]
    · exact .refl t
  have overrun (j : Fin 32) (t : State) : KeepsPorts t (noteOverrun j t) := by
    unfold noteOverrun; dsimp only; split <;> simp [KeepsPorts]
  have app (j : Fin 32) (n : Nat) (l : Bool) (t : State) : KeepsPorts t (appendBlock m j b n l t) := by
    unfold appendBlock; dsimp only; split <;> simp [KeepsPorts]
  have sub (j : Fin 32) (f : Subscription → Subscription) (t : State) : KeepsPorts t (updSub j f t) := .refl t
  have iff (c : Bool) (j : Fin 32) (t : State) : KeepsPorts t (if c then noteOverrun j t else t) := by
    split
    · exact overrun j t
    · exact .refl t
  have dup (j : Fin 32) (t : State) : KeepsPorts t (duplicateBlock j t) :=
    (sub j _ t).trans ((live j _).trans (occur_keepsPorts _ _ _ _))
  have acc (j : Fin 32) (t : State) : KeepsPorts t (acceptBlock m j b t) := by
    unfold acceptBlock
    dsimp only
    refine .trans ?_ (occurIf_keepsPorts _ _ _ _ _)
    refine .trans ?_ (occurIf_keepsPorts _ _ _ _ _)
    refine .trans ?_ (occurIf_keepsPorts _ _ _ _ _)
    refine .trans ?_ (occurIf_keepsPorts _ _ _ _ _)
    refine .trans ?_ (occur_keepsPorts _ _ _ _)
    refine .trans ?_ (live j _)
    refine .trans ?_ (sub j _ _)
    split
    · split
      · exact .trans (.trans (sub j _ t) (iff _ j _)) (overrun j _)
      · refine .trans (.trans ?_ (sub j _ _)) (app j _ _ _)
        exact .trans (.trans (sub j _ t) (iff _ j _)) (overrun j _)
    · exact .trans (.trans (sub j _ t) (iff _ j _)) (app j _ _ _)
  unfold blockArrives
  split
  · exact .refl s
  · dsimp only; split
    · exact (sub _ _ s).trans (dup _ _)
    · exact (sub _ _ s).trans (acc _ _)

/-- The recovery of a SILENCED station keeps them (R83). -/
theorem completeRecovery_keepsPorts (s : State) : KeepsPorts s (completeRecovery s) := by
  unfold completeRecovery; split
  · next h =>
    simp only [changeStation, h.1, driversOn, followReceivers, receiversOn, entryEffects, zeroScore]
    simp only [KeepsPorts]
    split_ifs <;> simp_all
  · exact .refl s

/-- The ring write of a block that waits keeps them: neither the drain nor a request is touched by it (R103). -/
theorem placeWaiting_keepsPorts (s : State) : KeepsPorts s (placeWaiting s) := by
  unfold placeWaiting
  split
  · next w =>
    have hand : KeepsPorts s (handWaiting s) := by
      unfold ringWriteWaits at w
      unfold handWaiting
      split
      · next burst m e =>
        have free : KeepsPorts s (updCable freeWaiting s) := by simp [KeepsPorts, freeWaiting]; split <;> rfl
        simp only [e, Option.bind_some] at w
        dsimp only
        split
        · next b r =>
          cases b <;> simp_all
          · refine free.trans (.trans ?_ (occur_keepsPorts _ _ _ _))
            have clean (t : State) : KeepsPorts t (cleanBurst t) := by
              unfold cleanBurst; split
              · simp [KeepsPorts]
              · exact .refl t
            refine .trans ?_ (clean _)
            unfold handOver; dsimp only; split
            · exact .refl _
            · exact blockArrives_keepsPorts _ _ _
        · exact free
      · exact .refl s
    unfold takeDue takeDueBy
    split
    · exact hand.trans (completeRecovery_keepsPorts _)
    · exact hand
  · exact .refl s

/-! ### The receive buffers (R53) -/

/-- The opening of a buffer changes the buffers alone (R53). -/
theorem openBuffer_frame (bits : List Bool) (c : Cable) :
    openBuffer bits c = { c with rx0 := (openBuffer bits c).rx0, rx1 := (openBuffer bits c).rx1 } := by
  unfold openBuffer; split <;> rfl

/-- So does the freeing of the buffer of a burst that waited (R53). -/
theorem freeWaiting_frame (c : Cable) :
    freeWaiting c = { c with rx0 := (freeWaiting c).rx0, rx1 := (freeWaiting c).rx1 } := by
  unfold freeWaiting; split <;> rfl

/-- So does the keeping of a good burst (R53). -/
theorem keepBurst_frame (bytes : List Byte) (m : BurstEnd) (c : Cable) :
    keepBurst bytes m c = { c with rx0 := (keepBurst bytes m c).rx0, rx1 := (keepBurst bytes m c).rx1 } := by
  unfold keepBurst; dsimp only; split <;> rfl

/-- With no burst waiting, a good burst that is kept is the one that waits (R53). -/
theorem waitingBurst_keepBurst (bytes : List Byte) (m : BurstEnd) (c : Cable) (w : waitingBurst c = none) :
    waitingBurst (keepBurst bytes m c) = some (bytes, m) := by
  cases h0 : c.rx0 <;> cases h1 : c.rx1 <;> simp_all [waitingBurst, keepBurst, discardReception, discarded]

end Sys2Proof.Machine
end

