-- ==== Sys2Proof/Laws/Epochs.lean ====
section
/-! SUPPORT. The 47-bit epoch numbers in words of natural numbers: what `epochPlus`, `epochsUntil` and `epochReached` give,
once for all, so that no proof unfolds a bit vector; and the retire timer of a boundary (R77). -/

namespace Sys2Proof.Machine

/-- The epoch number of a rack time is below 2^47. -/
theorem epochNumber_lt (t : Timebase) : epochNumber t < 2 ^ 47 := by
  have h := t.ticks.isLt
  unfold epochNumber; omega

/-- A sum of epochs is kept in 47 bits. -/
theorem epochPlus_lt (n k : Nat) : epochPlus n k < 2 ^ 47 := Nat.mod_lt _ (by decide)

/-- Its low 16 bits, the detail of HANDOVER_START (R34), are those of the full sum. -/
theorem ofNat16_epochPlus (n k : Nat) : BitVec.ofNat 16 (epochPlus n k) = BitVec.ofNat 16 (n + k) := by
  apply BitVec.eq_of_toNat_eq
  simp only [BitVec.toNat_ofNat, epochPlus, epochModulus]
  exact Nat.mod_mod_of_dvd _ (by decide)

/-- The epochs between two numbers, modulo 2^47. -/
theorem epochsUntil_eq (n e : Nat) : epochsUntil n e = (e + (2 ^ 47 - n % 2 ^ 47)) % 2 ^ 47 := by
  simp only [epochsUntil, BitVec.toNat_sub, BitVec.toNat_ofNat]
  omega

/-- At or after: the difference modulo 2^47 lies in the lower half. -/
theorem epochReached_iff (n e : Nat) :
    epochReached n e = true ↔ (n + (2 ^ 47 - e % 2 ^ 47)) % 2 ^ 47 < 2 ^ 46 := by
  simp only [epochReached, atOrAfter, BitVec.msb_eq_decide, BitVec.toNat_sub, BitVec.toNat_ofNat, Bool.not_eq_true',
    decide_eq_false_iff_not, Nat.not_le]
  omega

/-- An epoch has reached itself. -/
theorem epochReached_self (n : Nat) : epochReached n n = true := by
  rw [epochReached_iff]; omega

/-- The countdown from the epoch a sum starts at is what was added (R34: 16). -/
theorem epochsUntil_epochPlus (n k : Nat) (h : k < 2 ^ 47) : epochsUntil n (epochPlus n k) = k := by
  rw [epochsUntil_eq, epochPlus, epochModulus]; omega

/-- The retire timer rises in RETIRING alone (R77). -/
theorem countRetire_other (s : State) (h : s.station.state ≠ .retiring) : countRetire s = s := if_neg h

/-- In RETIRING it rises by 1, and at 64 its timeout falls due (R77). -/
theorem countRetire_retiring (s : State) (h : s.station.state = .retiring) :
    countRetire s = markIf (decide (64 ≤ s.station.retireTimer + 1)) .retireTimeout
      { s with station := { s.station with retireTimer := min 64 (s.station.retireTimer + 1) } } := if_pos h

/-- At a boundary at which a handover completes it waits for the completion (R77). -/
theorem retireBoundary_completing (s : State) (h : Due.handoverComplete ∈ s.due) : retireBoundary s = s := if_pos h

/-- At every other boundary it rises at once. -/
theorem retireBoundary_other (s : State) (h : Due.handoverComplete ∉ s.due) : retireBoundary s = countRetire s := if_neg h

end Sys2Proof.Machine
end

