-- ==== Sys2Proof/Laws/Memory.lean ====
section
/-! SUPPORT. The two memories: a read after a write, every other place alone, the canonical form kept. -/

namespace Sys2Proof.Machine

section Sparse

variable {α : Type} [DecidableEq α] {d : α}

/-- The canonical form from a higher address on is one from a lower address on. -/
theorem sparseWf_mono {m : List (Nat × α)} {lo lo' : Nat} (h : lo' ≤ lo) (w : sparseWf d lo m = true) :
    sparseWf d lo' m = true := by
  cases m with
  | nil => rfl
  | cons p rest =>
    simp only [sparseWf, Bool.and_eq_true, decide_eq_true_eq] at w ⊢
    exact ⟨⟨by omega, w.1.2⟩, w.2⟩

/-- Below its first possible address a canonical memory lists nothing. -/
theorem sparseRead_below {m : List (Nat × α)} {lo a : Nat} (w : sparseWf d lo m = true) (h : a < lo) :
    sparseRead d m a = d := by
  induction m generalizing lo with
  | nil => rfl
  | cons p rest ih =>
    simp only [sparseWf, Bool.and_eq_true, decide_eq_true_eq] at w
    rw [sparseRead, if_neg (by omega)]
    exact ih w.2 (by omega)

/-- Every write keeps the canonical form. -/
theorem sparseWrite_wf {m : List (Nat × α)} {lo a : Nat} (v : α) (h : lo ≤ a) (w : sparseWf d lo m = true) :
    sparseWf d lo (sparseWrite d m a v) = true := by
  induction m generalizing lo with
  | nil => unfold sparseWrite; split <;> simp_all [sparseWf]
  | cons p rest ih =>
    simp only [sparseWf, Bool.and_eq_true, decide_eq_true_eq] at w
    unfold sparseWrite
    split
    · split <;> simp_all [sparseWf]
    · split
      · split
        · exact sparseWf_mono (by omega) w.2
        · simp_all [sparseWf]
      · simp only [sparseWf, Bool.and_eq_true, decide_eq_true_eq]
        exact ⟨w.1, ih (by omega) w.2⟩

/-- What any address reads after a write. -/
theorem sparseRead_write {m : List (Nat × α)} {lo : Nat} (a b : Nat) (v : α) (w : sparseWf d lo m = true) :
    sparseRead d (sparseWrite d m a v) b = if b = a then v else sparseRead d m b := by
  induction m generalizing lo with
  | nil =>
    unfold sparseWrite
    split
    · next hv => simp [sparseRead, hv]
    · simp only [sparseRead, eq_comm (a := a)]
  | cons p rest ih =>
    obtain ⟨c, x⟩ := p
    simp only [sparseWf, Bool.and_eq_true, decide_eq_true_eq] at w
    unfold sparseWrite
    split
    · split
      · next hv =>
        split
        · next hb =>
          subst hb hv
          rw [sparseRead, if_neg (by omega)]
          exact sparseRead_below w.2 (by omega)
        · rfl
      · simp only [sparseRead, eq_comm (a := a)]
    · split
      · next h1 h2 =>
        subst h2
        split
        · next hv =>
          subst hv
          split
          · next hb => subst hb; exact sparseRead_below w.2 (by omega)
          · next hb => rw [sparseRead, if_neg (fun e => hb e.symm)]
        · simp only [sparseRead, eq_comm (a := a)]
          split <;> rfl
      · next h1 h2 =>
        simp only [sparseRead, ih w.2]
        split
        · next hc => rw [if_neg (by omega)]
        · rfl

end Sparse

/-- One byte written keeps the canonical form of the block store. -/
theorem Memory.write_wf {m : List Host.Cell} (a : Nat) (v : Byte) (w : Memory.wf m = true) :
    Memory.wf (Memory.write m a v) = true := sparseWrite_wf v (Nat.zero_le a) w

/-- What a byte of the block store reads after one is written. -/
theorem Memory.read_write {m : List Host.Cell} (a b : Nat) (v : Byte) (w : Memory.wf m = true) :
    Memory.read (Memory.write m a v) b = if b = a then v else Memory.read m b := sparseRead_write a b v w

/-- Bytes written keep the canonical form of the block store. -/
theorem Memory.writeBytes_wf {m : List Host.Cell} (a : Nat) (bs : List Byte) (w : Memory.wf m = true) :
    Memory.wf (Memory.writeBytes m a bs) = true := by
  induction bs generalizing m a with
  | nil => exact w
  | cons b rest ih => exact ih (a + 1) (Memory.write_wf a b w)

/-- What a byte of the block store reads after bytes are written from `a` on. -/
theorem Memory.read_writeBytes {m : List Host.Cell} (a b : Nat) (bs : List Byte) (w : Memory.wf m = true) :
    Memory.read (Memory.writeBytes m a bs) b
      = if a ≤ b ∧ b < a + bs.length then bs.getD (b - a) 0 else Memory.read m b := by
  induction bs generalizing m a with
  | nil => rw [if_neg (by simp)]; rfl
  | cons x rest ih =>
    rw [Memory.writeBytes, ih (a + 1) (Memory.write_wf a x w), Memory.read_write a b x w]
    by_cases h : b = a
    · subst h; simp
    · rw [if_neg h]
      by_cases h2 : a + 1 ≤ b ∧ b < a + 1 + rest.length
      · rw [if_pos h2, if_pos ⟨by omega, by simp; omega⟩, show b - a = b - (a + 1) + 1 by omega]
        rfl
      · rw [if_neg h2, if_neg (by simp only [List.length_cons]; omega)]

/-- Reading back what was written. -/
theorem Memory.readBytes_writeBytes {m : List Host.Cell} (a : Nat) (bs : List Byte) (w : Memory.wf m = true) :
    Memory.readBytes (Memory.writeBytes m a bs) a bs.length = bs := by
  have key : ∀ (n k : Nat), n + k = bs.length →
      Memory.readBytes (Memory.writeBytes m a bs) (a + k) n = bs.drop k := by
    intro n
    induction n with
    | zero => intro k h; rw [List.drop_of_length_le (by omega)]; rfl
    | succ n ih =>
      intro k h
      have hk : k < bs.length := by omega
      rw [Memory.readBytes, Memory.read_writeBytes a (a + k) bs w, if_pos ⟨by omega, by omega⟩, Nat.add_assoc,
        ih (k + 1) (by omega), Nat.add_sub_cancel_left, List.drop_eq_getElem_cons hk]
      simp [hk]
  simpa using key bs.length 0 (by omega)

/-- Entries written keep the canonical form of schedule memory. -/
theorem schedWrite_wf {m : List (Nat × SchedEntry)} (a : Nat) (es : List SchedEntry)
    (w : sparseWf SchedEntry.halt 0 m = true) : sparseWf SchedEntry.halt 0 (schedWrite m a es) = true := by
  induction es generalizing m a with
  | nil => exact w
  | cons e rest ih => exact ih (a + 1) (sparseWrite_wf e (Nat.zero_le a) w)

/-- What an entry of schedule memory reads after entries are written from `a` on (R160). -/
theorem schedRead_schedWrite {m : List (Nat × SchedEntry)} (a b : Nat) (es : List SchedEntry)
    (w : sparseWf SchedEntry.halt 0 m = true) :
    schedRead (schedWrite m a es) b
      = if a ≤ b ∧ b < a + es.length then es.getD (b - a) .halt else schedRead m b := by
  induction es generalizing m a with
  | nil => rw [if_neg (by simp)]; rfl
  | cons x rest ih =>
    rw [schedWrite, ih (a + 1) (sparseWrite_wf x (Nat.zero_le a) w)]
    simp only [schedRead, sparseRead_write a b x w]
    by_cases h : b = a
    · subst h; simp
    · rw [if_neg h]
      by_cases h2 : a + 1 ≤ b ∧ b < a + 1 + rest.length
      · rw [if_pos h2, if_pos ⟨by omega, by simp; omega⟩, show b - a = b - (a + 1) + 1 by omega]
        rfl
      · rw [if_neg h2, if_neg (by simp only [List.length_cons]; omega)]

/-- Both memories are canonical right after power-on reset. -/
theorem powerOn_memories (p : Pins) (ssn : Bool) :
    Memory.wf (State.powerOn p ssn).store = true ∧ sparseWf SchedEntry.halt 0 (State.powerOn p ssn).schedule = true :=
  ⟨rfl, rfl⟩

/-- The machine's reset state has a canonical block store. -/
theorem reset_store_wf : Memory.wf State.reset.store = true := rfl

end Sys2Proof.Machine
end

