-- ==== Sys2Proof/Tests/Slice0.lean ====
section
/-! SUPPORT. Tests from the manual's examples and tables, the well-formedness smoke test, and for each statement with
hypotheses a witness: a concrete state and operands that meet them, clause by clause, and what the command then leaves
in one or two fields. -/

namespace Sys2Proof.Tests

set_option Elab.async false

open Sys2Proof Sys2Proof.Machine Sys2Proof.Claims

/-! ### Helpers -/

/-- The state a command leaves. -/
def after (c : Instr) (s : State) : State :=
  match exec c s with
  | .next t => t
  | .fault _ | .refused _ => s

/-- The status of the response that stands. -/
def statusOf (s : State) : Option Byte :=
  match s.port.transaction with
  | .responding r => some (byteAt r 0)
  | .closed _ | .ignored | .filler | .waiting => none

/-- The body of the response that stands. -/
def bodyOf (s : State) : List Byte :=
  match s.port.transaction with
  | .responding r => r.drop 6
  | .closed _ | .ignored | .filler | .waiting => []

/-- State.reset in a station state, with a cable state. -/
def at_ (st : StationState) (cs : CableState) : State :=
  { State.reset with station := { State.reset.station with state := st }, cable := { Cable.reset with state := cs } }

/-- A JOINED station with an idle cable. -/
def joined : State := at_ .joined .idle

/-- With a timebase. -/
def withTime (f : Timebase → Timebase) (s : State) : State := { s with timebase := f s.timebase }

/-- With a step due. -/
def withDue (d : Due) (s : State) : State := { s with due := [d] }

/-- The kinds of the events in the queue. -/
def kinds (s : State) : List EventKind := s.port.events.map (·.kind)

/-- With a level on SENSE. -/
def withSense (b : Bool) (s : State) : State := { s with pins := { s.pins with sense := b } }

/-- With the station controller changed. -/
def withStation (f : Station → Station) (s : State) : State := { s with station := f s.station }

/-- With a frozen monitor. -/
def frozen (s : State) : State := { s with monitor := { s.monitor with frozen := true } }

/-! ### Well-formedness: an ill-formed term for each check -/

theorem test_wellFormed_body_too_long : (Instr.fill (List.replicate 65536 0)).wellFormed = false := by
  simp only [Instr.wellFormed, bodyFits, List.length_replicate]; decide

theorem test_wellFormed_burst_too_short : (Instr.goodBurstReceived [0, 1, 2, 3, 4, 5]).wellFormed = false := by decide +kernel

theorem test_wellFormed_burst_too_long : (Instr.goodBurstReceived (List.replicate 1046 0)).wellFormed = false := by
  simp only [Instr.wellFormed, burstFits, List.length_replicate]; decide

theorem test_wellFormed_unknown_kind_is_defined : (Instr.unknownRequest 34 []).wellFormed = false := by decide +kernel

theorem test_wellFormed_unknown_kind : (Instr.unknownRequest 35 [1]).wellFormed = true := by decide +kernel

/-! ### Spelling -/

/-- The table gives no row any bits. -/
theorem test_decodeTableWord_none : decodeTableWord 8 0x0A = none := rfl

/-- A HOLD record of publication 3, byte by byte from 12.4, with a byte too many behind it. -/
theorem test_record_of_hold : commandOfTransaction [0x09, 0x00, 0x01, 0x03, 0xEE] = .hold [0x03] := by decide +kernel

/-- A record cut before its body is complete (R190). -/
theorem test_record_cut : commandOfTransaction [0x09, 0x00, 0x01] = .recordDiscarded .cut := by decide +kernel

/-- The check value that R209 gives for the nine bytes 31 to 39 in hexadecimal. -/
theorem test_crc32_of_the_nine_bytes :
    crc32 (bitsOf [0x31, 0x32, 0x33, 0x34, 0x35, 0x36, 0x37, 0x38, 0x39]) = 0xFC891918 := by decide +kernel

/-- A fill bit after 7 equal levels (R42). -/
theorem test_fill_bit : insertFill [true, true, true, true, true, true, true, true] false 1
    = [true, true, true, true, true, true, true, false, true] := by decide +kernel

/-! ### General -/

theorem witness_CommandsFirstTakeWhatIsDue :
    fromOutside .burstSent = true ∧ (requestBody (.join [])).isSome = true
      ∧ followingStep .lockAchieved = some .lockAchieved ∧ quiet State.reset = true
      ∧ followingStep (.pullDeadline 31) = some (.pullDeadline 31)
      ∧ (settledForBurst { joined with due := [.staleTimeout 3, .slotTick] }).due = [.staleTimeout 3]
      ∧ (dueTaken { joined with due := [.staleTimeout 3, .slotTick] }).due = [] := by decide +kernel

theorem witness_IdleStepAdvancesRackTimeByOnePeriod :
    let clock := fun n : Nat => withTime (fun t => { t with ticks := BitVec.ofNat 64 n }) State.reset
    State.reset.pending = [] ∧ quiet State.reset = true ∧ (idle State.reset).timebase.ticks = 1
      ∧ (idle (clock 2047)).due = [.slotTick] ∧ (idle (clock 65535)).due = [.slotTick, .markerWindowEnd]
      ∧ (idle (clock 131071)).due = [.slotTick, .epochBoundary]
      ∧ (idle (clock 18446744073709551615)).due = [.slotTick, .epochBoundary]
      ∧ (idle (withSense true (withStation (fun x => { x with settle := 4095 }) (at_ .settling .off)))).due
        = [.settleComplete] := by decide +kernel

/-- The rows of the clock let time pass to their steps: a slot tick one period ahead, a window's end at half an epoch, the
last bit of a marker word, and a hold-off that is not there. -/
theorem witness_ClockRowsLetTimePassToTheirStep :
    let late := withTime (fun t => { t with ticks := 2047 }) State.reset
    let near := withTime (fun t => { t with ticks := 65535 }) State.reset
    let word := { joined with selector := { joined.selector with driving := some { word := 0, left := 2 } } }
    clockStep .slotTick = some (.slotTick, fun _ => true, slotWork) ∧ Due.slotTick ∉ late.due
      ∧ Due.slotTick ∈ (idle late).due ∧ (after .slotTick late).timebase.ticks = 2048
      ∧ (after .markerWindowEnd near).timebase.ticks = 65536
      ∧ Due.markerWordSent ∉ word.due ∧ Due.markerWordSent ∉ (idle word).due
      ∧ Due.markerWordSent ∈ (idle (idle word)).due
      ∧ (after .markerWordSent word).timebase.ticks = 2 ∧ (after .markerWordSent word).selector.driving = none
      ∧ (after .holdOffExpiry joined).timebase.ticks = 0 := by
  refine ⟨rfl, ?_⟩; decide +kernel

theorem witness_PowerOnResetSetsEveryBlock :
    kinds (State.powerOn { Pins.atReset with addr := 25 } true) = [.startFault]
      ∧ (State.powerOn { Pins.atReset with addr := 24 } false).port.transaction = .ignored
      ∧ (after (.powerOnReset Pins.atReset false) joined).station.state = .offline := by decide +kernel

theorem witness_RequestRecordsAreReadBack :
    (Instr.hold [3]).wellFormed = true ∧ (Instr.hold [3]).record = some [9, 0, 1, 3]
      ∧ commandOfTransaction ([9, 0, 1, 3].take 0) = .recordDiscarded .cut
      ∧ commandOfTransaction ([9, 0, 1, 3].take 3) = .recordDiscarded .cut := by decide +kernel

/-- Counter 0 selects this kind. -/
def withCounter0 (kind : OccKind) (s : State) : State :=
  { s with monitor := { s.monitor with
      counters := s.monitor.counters.set 0 { Counter.reset with selection := kind.code } } }

/-! ### Rack time: a marker of epoch 5 from station 3, captured `off` fine units after its boundary -/

/-- The marker's fields. -/
def marker5 : MarkerFields := { epoch := 5, source := 3, target := 0, countdown := 0 }

/-- A capture `off` fine units after (before, when negative) the boundary of epoch 5. -/
def capture5 (off : Int) : Nat := (5 * 2 ^ 33 + off).toNat

/-- A JOINED station in a timebase state that holds this capture. -/
def tracking (st : TimebaseState) (off : Int) (run : Nat) : State :=
  withTime (fun t => { t with state := st, capture := some (capture5 off), lockRun := run
                              ticks := BitVec.ofNat 64 (5 * 131072 + 20) }) joined

theorem witness_MarkersCapturedAndDropped :
    receiversOn joined.station.state = true ∧ joined.timebase.state ≠ .source ∧ joined.timebase.capture = none
      ∧ receiversOn State.reset.station.state = false ∧ (tracking .free 0 0).timebase.capture ≠ none
      ∧ readMarker 0 = none ∧ joined.due = []
      ∧ (after (.validMarker 0) (tracking .source 0 0)).timebase.capture = none := by decide +kernel

theorem witness_TrackedMarkersUpdateTheLoop :
    readMarker (markerWord marker5) = some marker5
      ∧ extendsEpoch (capture5 (-16384) / 2 ^ 33) marker5.epoch.toNat 5 ∧ extendsEpoch 5 0xFFFFFFFF 0xFFFFFFFF
      ∧ extendsEpoch (2 ^ 31) 0xFFFFFFFF (2 ^ 32 - 1)
      ∧ (5 * 2 ^ 33 + 0 - capture5 (-16384) : Int).natAbs < 256 * 65536
      ∧ (after (.validMarker (markerWord marker5)) (tracking .track (-16384) 7)).due = [.lockAchieved]
      ∧ (after (.validMarker (markerWord marker5)) (tracking .track (-16385) 7)).timebase.lockRun = 0
      ∧ (after (.validMarker (markerWord marker5)) (tracking .locked 262144 8)).timebase.state = .locked
      ∧ kinds (after (.validMarker (markerWord marker5)) (tracking .locked 262145 8))
        = [.phaseAlarm, .timebaseState] := by
  unfold extendsEpoch; decide +kernel

/-- At the last epoch before rack time wraps, 2^47 - 1, in this timebase state. -/
def lastEpochOf (st : TimebaseState) : State :=
  withTime (fun t => { t with state := st, ticks := BitVec.ofNat 64 (2 ^ 64 - 131072) }) joined

/-- A marker of epoch 2^47 - 1 that names this station with countdown 1: the expectation is epoch 0. -/
theorem witness_TrackedMarkersUpdateTheLoop_wrap :
    let word := markerWord { epoch := 0xFFFFFFFF, source := 3, target := 1, countdown := 1 }
    let t := (after (.validMarker word)
      (withTime (fun t => { t with capture := some ((2 ^ 47 - 1) * 2 ^ 33) }) (lastEpochOf .locked))).timebase
    (2 ^ 47 - 1) % 2 ^ 32 = 0xFFFFFFFF ∧ t.lastEpoch = 2 ^ 47 - 1 ∧ t.expectation = some 0 := by decide +kernel

/-- e = 64 with i = 6 and p = 2: I rises by 1 and A by 1 + 16 (R16). -/
theorem test_loop_update :
    let t := (after (.validMarker (markerWord marker5)) (tracking .track (-64) 0)).timebase
    t.integral = 1 ∧ t.rate = 17 ∧ t.phaseError = 64 ∧ t.believed = 3 := by decide +kernel

theorem witness_SteppedMarkersMoveRackTime :
    let set := fun (deadline : BitVec 48) => { tracking .track (-16777216) 3 with
      cable := { joined.cable with holdOff := true, holdOffDeadline := deadline } }
    extendsEpoch (capture5 1 / 2 ^ 33) marker5.epoch.toNat 5 ∧ (tracking .free 1 0).timebase.state = .free
      ∧ (after (.validMarker (markerWord marker5)) (set 655636)).due = [.holdOffExpiry]
      ∧ (after (.validMarker (markerWord marker5)) (set 655637)).due = []
      ∧ (after (.validMarker (markerWord marker5)) (set 655637)).timebase.phaseError = 16777216
      ∧ (256 * 65536 ≤ (5 * 2 ^ 33 + 0 - capture5 (-16777216) : Int).natAbs)
      ∧ (after (.validMarker (markerWord marker5)) (tracking .free 1310720 0)).timebase.state = .acquire
      ∧ (after (.validMarker (markerWord marker5)) (tracking .track (-16777216) 3)).timebase.state = .track
      ∧ (after (.validMarker (markerWord marker5)) (tracking .holdover (-16777216) 3)).timebase.state = .track
      ∧ (after (.validMarker (markerWord marker5)) (tracking .locked (-16777216) 3)).port.events.map
          (fun v => (v.kind, v.subject, v.detail)) = [(.phaseStep, some 3, 256), (.timebaseState, none, 0x0302)]
      ∧ (after (.validMarker (markerWord marker5)) (tracking .track (32768 * 65536) 3)).port.events.map (·.detail)
        = [BitVec.ofInt 16 (-32767)]
      ∧ (after (.validMarker (markerWord marker5)) (withCounter0 .phaseStep
          (tracking .track (-16777216) 3))).monitor.counters[0].value = 1 := by
  unfold extendsEpoch; decide +kernel

theorem witness_AcquisitionDecidesHoldoverEnds :
    let s := withTime (fun t => { t with searchStep := 524288, decisions := 19 }) (tracking .acquire (-100) 0)
    (after (.validMarker (markerWord marker5)) s).due = [.acquisitionComplete]
      ∧ (after (.validMarker (markerWord marker5)) s).timebase.rate = 524288
      ∧ (after (.validMarker (markerWord marker5)) (tracking .acquire (-100) 0)).due = []
      ∧ (after (.validMarker (markerWord marker5)) (tracking .acquire (-2 ^ 33) 0)).due = [.slotTick, .epochBoundary]
      ∧ (after (.validMarker (markerWord marker5)) (tracking .acquire (-2 ^ 33) 0)).port.events = []
      ∧ (after (.validMarker (markerWord marker5)) (tracking .holdover (-16777215) 0)).timebase.ticks
        = (tracking .holdover 0 0).timebase.ticks := by decide +kernel

theorem witness_WindowsAndCountsMoveTheTimebase :
    let acq := withTime (fun t => { t with decisions := 20, missCount := 3 }) (tracking .acquire 0 0)
    (after .acquisitionComplete (withDue .acquisitionComplete acq)).timebase.state = .track
      ∧ (after .lockAchieved (withDue .lockAchieved (tracking .track 0 8))).timebase.state = .locked
      ∧ (after .acquisitionAbandoned (withDue .acquisitionAbandoned acq)).timebase.state = .free
      ∧ (after .timebaseHoldover (withDue .timebaseHoldover
          (withTime (fun t => { t with missCount := 3 }) (tracking .track 0 0)))).timebase.state = .holdover
      ∧ (after .timebaseHoldover (withDue .timebaseHoldover
          (withTime (fun t => { t with missCount := 3 }) (tracking .locked 0 8)))).timebase.state = .holdover
      ∧ (after .markerWindowEnd (withDue .markerWindowEnd
          (withTime (fun t => { t with missCount := 2 }) (tracking .locked 0 8)))).due = [.timebaseHoldover]
      ∧ (after .markerWindowEnd (withDue .markerWindowEnd (tracking .source 0 0))).timebase.missCount = 0 := by
  decide +kernel

/-! ### The source role -/

theorem witness_GradesRankAndTheSearchFindsTheFirst :
    let s := { State.reset with
      station := { State.reset.station with straps := { addr := 1, refclass := 3, elig := true, prefer := true } } }
    (after (.refokChange true) s).selector.grade = 7 ∧ (after (.refokChange false) s).selector.grade = 5
      ∧ (after (.refokChange true) State.reset).selector.grade = 0 := by decide +kernel

/-- A roster with the peers 2 and 5 PRESENT, eligible and LOCKED. -/
def withPeers (s : State) : State :=
  let e := { RosterEntry.cleared false with state := .present, eligible := true, timebase := .locked, grade := 5 }
  { s with roster := (s.roster.set 1 e).set 4 { e with grade := 6 } }

theorem witness_GradesRankAndTheSearchFindsTheFirst_ranking :
    ranksAbove ⟨5, false, 2⟩ ⟨5, false, 3⟩ = true ∧ ranksAbove ⟨5, true, 3⟩ ⟨5, false, 2⟩ = true
      ∧ successor State.reset = none ∧ (successor (withPeers State.reset)).map (·.address) = some 5
      ∧ ranksFirst { joined with selector := { joined.selector with eligible := true } } = true
      ∧ ranksFirst (withPeers { joined with selector := { joined.selector with eligible := true } }) = false
      ∧ (peerCandidate (withTime (fun t => { t with believed := 2 }) (withPeers joined)) 1).incumbent = true
      ∧ targetFault (withPeers joined) 2 = none ∧ targetFault joined 24 = some 1 := by
  decide +kernel

/-- A source with a handover to station 2 at this epoch, in epoch 5. -/
def handing (E : Nat) : State :=
  let s := withPeers (tracking .source 0 0)
  { s with selector := { s.selector with record := some { target := 2, epoch := E } } }

/-- In RETIRING, the RETIRE sent or not. -/
def leaving (sent : Bool) (s : State) : State := withStation (fun x => { x with state := .retiring, retireSent := sent }) s

theorem witness_SourceRoleIsTakenAndPassedOn :
    let claim := fun st => withDue .claimExpiry { tracking st 0 0 with
      selector := { joined.selector with countdown := some 0 } }
    let takes := fun st => withDue .handoverTakeover (withTime (fun t => { t with expectation := some 5 }) (tracking st 0 0))
    (after .claimExpiry (claim .free)).timebase.state = .source
      ∧ (after .claimExpiry (claim .holdover)).selector.firstDrive = some 6
      ∧ (after .claimExpiry (withDue .claimExpiry { lastEpochOf .free with
          selector := { joined.selector with countdown := some 0 } })).selector.firstDrive = some 0
      ∧ epochAtOrAfter 5 5 = true ∧ epochAtOrAfter 5 6 = false ∧ epochAtOrAfter (2 ^ 47 - 1) 0 = false
      ∧ epochAtOrAfter 0 (2 ^ 47 - 1) = true
      ∧ (after .handoverTakeover (takes .locked)).timebase.state = .source
      ∧ (after .handoverTakeover (takes .locked)).selector.driving.isSome = true
      ∧ (after .handoverTakeover (takes .track)).timebase.expectation = none
      ∧ (handing 5).timebase.ticks.toNat / 131072 = 5
      ∧ (after .handoverComplete (withDue .handoverComplete (handing 5))).timebase.state = .track
      ∧ kinds (after .handoverComplete (withDue .handoverComplete (leaving true (handing 5))))
        = [.timebaseState, .stationState, .timebaseState]
      ∧ (let at63 := withDue .handoverComplete (withStation (fun x => { x with retireTimer := 63 }) (leaving false (handing 5)))
        (after .handoverComplete at63).due = [.retireTimeout] ∧ (after .handoverComplete at63).station.retireTimer = 64
          ∧ kinds (after .retireTimeout at63) = [.timebaseState, .stationState, .timebaseState]
          ∧ (after .retireTimeout at63).station.state = .detached) := by
  decide +kernel

/-- A source that drives its marker word. -/
def driving (s : State) : State :=
  { s with selector := { s.selector with driving := some { word := markerWord marker5, left := 16 } } }

theorem witness_ClashesEndTheSourceRole :
    let near := withTime (fun t => { t with ticks := BitVec.ofNat 64 (6 * 131072 - 65536) }) (handing 6)
    let nearWrap := withTime (fun t => { t with ticks := BitVec.ofNat 64 (2 ^ 64 - 65536) }) (handing 0)
    kinds (after (.markerClash .readBack) (driving (tracking .source 0 0))) = [.markerClash, .timebaseState]
      ∧ kinds (after (.markerClash .foreignEdge) (handing 9)) = [.markerClash, .handoverFail, .timebaseState]
      ∧ kinds (after (.markerClash .readBack) (leaving true (driving (tracking .source 0 0))))
        = [.markerClash, .timebaseState, .stationState]
      ∧ (after (.markerClash .readBack) (leaving false (driving (tracking .source 0 0)))).station.state = .retiring
      ∧ near.timebase.state = .source ∧ near.selector.driving = none
      ∧ (after (.markerClash .foreignEdge) near).timebase.state = .source
      ∧ (after (.markerClash .foreignEdge) nearWrap).timebase.state = .source
      ∧ (after (.markerClash .foreignEdge) (handing 5)).timebase.state = .holdover := by decide +kernel

theorem witness_BoundariesDriveMarkersAndCountClaims :
    let at5 := fun s : State => withDue .epochBoundary s
    let claim := fun c => at5 { tracking .free 0 0 with
      selector := { joined.selector with eligible := true, countdown := c } }
    (after (.epochBoundary true) (at5 (tracking .source 0 0))).selector.driving
        = some { word := markerWord { epoch := 5, source := 1, target := 0, countdown := 0 }, left := 16 }
      ∧ targetFault (handing 6) 2 = none
      ∧ (after (.epochBoundary true) (at5 (handing 6))).selector.driving
        = some { word := markerWord { epoch := 5, source := 1, target := 2, countdown := 1 }, left := 16 }
      ∧ (after (.epochBoundary false) (at5 { handing 6 with roster := State.reset.roster })).selector.record = none
      ∧ (after (.epochBoundary true) (at5 (handing 5))).due = [.handoverComplete]
      ∧ (after (.epochBoundary true) (claim none)).selector.countdown = some 2
      ∧ (after (.epochBoundary true) (claim (some 1))).due = [.claimExpiry]
      ∧ (after .markerWordSent (withDue .markerWordSent (driving joined))).selector.driving = none := by
  decide +kernel

/-- Presence-interval boundaries, epoch 8: a source's search, JOINED and RETIRING, and the order of R98. -/
theorem witness_BoundariesDriveMarkersAndCountClaims_search :
    let eight := fun s : State => withDue .epochBoundary
      (withTime (fun t => { t with state := .source, ticks := BitVec.ofNat 64 (8 * 131072) }) s)
    let unheard := { RosterEntry.cleared false with
      state := .present, missed := 2, eligible := true, timebase := .locked, grade := 5 }
    let fading := { joined with roster := joined.roster.set 1 unheard }
    (after (.epochBoundary true) (eight (withPeers joined))).selector.record = some { target := 5, epoch := 24 }
      ∧ (after (.epochBoundary true) (withDue .epochBoundary (withTime (fun t => { t with
          state := .source, ticks := BitVec.ofNat 64 (2 ^ 64 - 8 * 131072) }) (withPeers joined)))).selector
        = { joined.selector with
            record := some { target := 5, epoch := 8 }
            driving := some { word := markerWord { epoch := 0xFFFFFFF8, source := 1, target := 5, countdown := 16 }
                              left := 16 } }
      ∧ (after (.epochBoundary true) (withDue .epochBoundary (withTime (fun t => { t with ticks := 0 }) (handing 2)))).due
        = []
      ∧ (after (.epochBoundary true) (eight (leaving false (withPeers joined)))).selector.record.isSome = true
      ∧ (after (.epochBoundary true) (eight (leaving false joined))).selector.release = true
      ∧ (after (.epochBoundary true) (eight fading)).selector.record = none
      ∧ (after (.epochBoundary false) (eight fading)).selector.record = some { target := 2, epoch := 24 }
      ∧ (after (.epochBoundary true) (withDue .epochBoundary
          (withTime (fun t => { t with expectation := some 5 }) (tracking .locked 0 0)))).due = [.handoverTakeover] := by
  decide +kernel

/-- A PRESENCE entry. -/
def presenceEntry : TxEntry := { kind := .presence, cls := 0 }

/-- A JOINED station with subscription 31 in a state, to publication 2 of station 5. -/
def sub31 (st : SubState) (f : Subscription → Subscription) : State :=
  let x := { Subscription.cleared false with state := st, publisher := 5, index := 2, staleTimeout := 32 }
  { joined with subs := joined.subs.set 31 (f x) }

theorem witness_BoundariesCountAgeAndAnnounce :
    let at_n := fun (n : Nat) (s : State) => withDue .epochBoundary
      (withTime (fun t => { t with ticks := BitVec.ofNat 64 (n * 131072) }) s)
    let heard := { RosterEntry.cleared false with state := .present, heard := true }
    let retiring := withTime (fun t => { t with state := .source }) (leaving true joined)
    (after (.epochBoundary true) (at_n 5 (withStation (fun x => { x with listen := 23 }) (at_ .listen .idle)))).due
        = [.listenComplete]
      ∧ (after (.epochBoundary true) (at_n 5 (withStation (fun x => { x with retireTimer := 63 }) (leaving true joined)))).due
        = [.retireTimeout]
      ∧ (after (.epochBoundary true) (withDue .epochBoundary
          (withStation (fun x => { x with retireTimer := 63 }) (leaving true (handing 5))))).due = [.handoverComplete]
      ∧ (after (.epochBoundary true) (at_n 8 (withStation (fun x => { x with interval := 2, lapse := 1 }) joined))).due
        = [.serviceLapsed]
      ∧ (after (.epochBoundary true) (at_n 8 joined)).txQueue = [presenceEntry]
      ∧ (after (.epochBoundary true) (at_n 8 { joined with txQueue := [presenceEntry] })).txQueue = [presenceEntry]
      ∧ (after (.epochBoundary true) (at_n 8 (leaving true joined))).txQueue = []
      ∧ (after (.epochBoundary true) (at_n 8 { joined with roster := joined.roster.set 7 heard })).roster[7].heard = false
      ∧ (after (.epochBoundary true) (at_n 32 (sub31 .live id))).due = [.staleTimeout 31]
      ∧ (after (.epochBoundary true) (at_n 4 (sub31 .live fun x => { x with pull := some ⟨1, 4⟩ }))).due
        = [.pullDeadline 31]
      ∧ (after (.epochBoundary true) (at_n 5
          { joined with gens := joined.gens.set 1 { Generator.reset with state := .armed, armEpoch := 5 } })).due
        = [.generatorStart 1]
      ∧ successor (selectorView true (at_n 5 retiring)) = none
      ∧ (after (.epochBoundary true) (at_n 5 retiring)).station.state = .detached := by decide +kernel

/-! ### The cable -/

/-- A queue entry of class 4 for publication 2. -/
def blockEntry : TxEntry := { kind := .block 2, cls := 4 }

/-- A JOINED station that claims for an entry, or sends it. -/
def claiming (e : TxEntry) (w : Bool) : State :=
  { joined with txQueue := [e], cable := { Cable.reset with state := .claiming, claim := some ⟨e, w⟩ } }

/-- The burst of an entry in flight. -/
def flying (e : TxEntry) : Flight :=
  { entry := e, withdrawn := false, fresh := false, claimByte := 0, body := [], check := 0 }

/-- A JOINED station that sends an entry's burst. -/
def sending (e : TxEntry) : State :=
  { joined with txQueue := [e], cable := { Cable.reset with
      state := .sending, flight := some (flying e), binding := bindingOf e.kind } }

/-- Publication 2 in a state, with a ready block or without. -/
def withPub (st : PubState) (ready : Option Block) (s : State) : State :=
  { s with pubs := s.pubs.set 2 { Publication.cleared 2 false with
      state := st, samples := 4, ready := ready, isNew := ready.isSome } }

/-- A block of two samples. -/
def block1 : Block := { seq := 7, time := 0, capture := .locked, count := 2, gap := none, hostSilent := false }

theorem witness_GuardClaimAndAbortFollowThePair :
    let levels := fun (e : TxEntry) => insertFill (byteBits (claimField e.cls joined.station.own)) false 1
    (after .guardComplete (at_ .joined .guard)).cable.state = .idle
      ∧ (after .guardRestart (at_ .joined .guard)).cable.guardCount = 0
      ∧ (after .startBitSeen joined).cable.rx0 = .receiving []
      ∧ (after .abortPatternEnd (at_ .joined .aborting)).cable.state = .guard
      ∧ queueHead { joined with txQueue := [blockEntry] } = some blockEntry
      ∧ (after .claimStart { joined with txQueue := [blockEntry] }).cable.state = .claiming
      ∧ queueHead joined = none ∧ (after .claimStart joined).cable.state = .idle
      ∧ (levels blockEntry)[0]? = some true ∧ removeFill [false] false 1 = some [false]
      ∧ (after (.claimLost 0) (claiming blockEntry false)).cable.rx0 = .receiving [false]
      ∧ (levels blockEntry)[7]? = some true
      ∧ (after (.claimLost 7) (claiming blockEntry false)).txQueue = [blockEntry]
      ∧ (levels blockEntry)[8]? = none ∧ (after (.claimLost 8) (claiming blockEntry false)).cable.state = .claiming
      ∧ (levels presenceEntry)[6]? = some true
      ∧ removeFill ((levels presenceEntry).take 6 ++ [false]) false 1 = none
      ∧ (after (.claimLost 6) (claiming presenceEntry false)).cable.state = .guard
      ∧ (levels presenceEntry)[8]? = some true
      ∧ (after (.claimLost 8) (claiming presenceEntry false)).cable.rx0 = .receiving (List.replicate 8 false) := by
  decide +kernel

theorem witness_BurstsAreBuiltAtTheirStart :
    (after .burstStart (claiming blockEntry true)).cable.state = .aborting
      ∧ (after .burstStart (claiming presenceEntry false)).cable.state = .sending
      ∧ (after .burstStart (claiming { kind := .retire, cls := 1 } false)).cable.flight.map (·.body.length) = some 2
      ∧ (after .burstStart (claiming { kind := .pull 31, cls := 2 } false)).cable.flight.map (·.body.length) = some 3
      ∧ (after .burstStart (withPub .active (some block1) (claiming blockEntry false))).cable.binding = some 2
      ∧ (after .burstStart (withPub .held (some block1) (claiming blockEntry false))).txQueue = []
      ∧ (after .burstStart (withPub .active none (claiming blockEntry false))).cable.state = .aborting := by
  decide +kernel

/-- The announcements of a station with publication 2 HELD. -/
theorem witness_BurstsAreBuiltAtTheirStart_list :
    let s := withPub .held (some block1) joined
    Announces s (announcements s) ∧ (announcements s).map (fun a => (a.index, a.held)) = [(2, true)] := by
  unfold Announces; decide +kernel

theorem witness_SentBurstsLeaveTheQueue :
    let pub := withPub .active (some block1) (sending blockEntry)
    let pends := updPub 2 (fun p => { p with commitPending := true, fillCount := 1 }) pub
    let retire := leaving false (sending { kind := .retire, cls := 1 })
    let source := withTime (fun t => { t with state := .source }) retire
    (after .burstSent (sending presenceEntry)).txQueue = []
      ∧ kinds (after .burstSent (withStation (fun x => { x with faultScore := 96, caution := true }) (sending presenceEntry)))
        = [.cautionOff]
      ∧ kinds (after .burstSent (withStation (fun x => { x with faultScore := 96 }) (sending presenceEntry)))
        = [.cautionOff]
      ∧ (after .burstSent (sending { kind := .retire, cls := 1 })).txQueue.map (·.kind) = [.presence]
      ∧ (after .burstSent retire).station.state = .detached
      ∧ (after .burstSent source).station.retireSent = true ∧ (after .burstSent source).station.state = .retiring
      ∧ (after .burstSent { source with selector := { source.selector with release := true } }).station.state = .detached
      ∧ (after .burstSent (sending { kind := .pull 0, cls := 2 })).cable.state = .guard
      ∧ pub.cable.binding = some 2 ∧ pub.pubs[2].commitPending = false
      ∧ (after .burstSent pub).pubs[2].isNew = false
      ∧ (after .burstSent pends).pubs[2].commitPending = false
      ∧ (after .burstSent pends).pubs[2].isNew = true := by decide +kernel

/-- Bursts whose entry was removed while they ran: a RETIRE withdrawn by a JOIN, a BLOCK of a publication withdrawn by
UNPUBLISH, a PULL of a subscription that has ended. -/
theorem witness_SentBurstsLeaveTheQueue_withdrawn :
    let gone := fun e => { sending e with
      txQueue := [], cable := { (sending e).cable with flight := some { flying e with withdrawn := true } } }
    let retire := after (.join []) (leaving false (sending { kind := .retire, cls := 1 }))
    let block := after (.unpublish [2]) (withPub .active (some block1) (sending blockEntry))
    retire.cable.flight.map (·.withdrawn) = some true ∧ retire.station.state = .joined ∧ retire.txQueue = []
      ∧ (after .burstSent retire).station.freshPending = true
      ∧ (after .burstSent retire).station.retireSent = false
      ∧ (after .burstSent retire).txQueue.map (·.kind) = [.presence]
      ∧ block.cable.flight.map (·.withdrawn) = some true ∧ block.cable.binding = some 2
      ∧ block.pubs[2].state = .unused ∧ block.pubs[2].commitPending = false
      ∧ (after .burstSent block).cable.binding = none
      ∧ (after .burstSent { gone blockEntry with txQueue := [blockEntry] }).txQueue = [blockEntry]
      ∧ (after .burstSent (gone { kind := .pull 0, cls := 2 })).cable.state = .guard := by decide +kernel

theorem witness_TransmitFaultsAbortAndHoldOff :
    let scored := fun (n : Nat) (s : State) => withStation (fun x => { x with faultScore := n }) s
    let clashed := withStation (fun x => { x with clash := 1 }) (sending presenceEntry)
    let pends := updPub 2 (fun p => { p with commitPending := true, fillCount := 1, gap := 2 })
      (withPub .active (some block1) (scored 120 (sending blockEntry)))
    (after .txFault (sending blockEntry)).station.faultScore = 8
      ∧ (after .txFault (sending blockEntry)).cable.holdOffDeadline = 131072
      ∧ (after .txFault (sending blockEntry)).txQueue = [blockEntry]
      ∧ (after .txFault (claiming blockEntry false)).cable.state = .aborting
      ∧ (after .txFault (sending presenceEntry)).station.clash = 1
      ∧ kinds (after .txFault (scored 119 (sending blockEntry))) = []
      ∧ kinds (after .txFault (scored 120 (leaving false (sending presenceEntry)))) = [.cautionOn]
      ∧ kinds (after .txFault pends) = [.sourceGap, .cautionOn]
      ∧ (after .txFault (scored 246 (sending blockEntry))).station.state = .joined
      ∧ (after .txFault (scored 247 (sending blockEntry))).station.state = .silenced
      ∧ (after .txFault clashed).station.state = .duplicate
      ∧ clashed.cable.binding = none
      ∧ (after .txFault { clashed with
          timebase := (handing 9).timebase, selector := (handing 9).selector }).port.events.map
            (fun v => (v.kind, v.detail))
        = [(.stationState, 0x4707), (.handoverFail, 5), (.timebaseState, 0x0504)]
      ∧ (after .holdOffExpiry (withDue .holdOffExpiry
          { joined with cable := { joined.cable with holdOff := true } })).cable.holdOff = false := by decide +kernel

/-- The bytes of a burst of this class, as a peer sends them. -/
def sentBurst (cls : Nat) (b : Burst) : List Byte :=
  let head := claimField cls b.sender :: burstBody b
  head ++ beBytes 4 (crc32 (bitsOf head)).toNat

theorem witness_ReceptionsEndInGuard :
    let scored := fun (n : Nat) (st : StationState) => withStation (fun x => { x with faultScore := n }) (at_ st .idle)
    let bytes := sentBurst 2 (.pull 5 3 15)
    let read := fun bits => { joined with cable := { joined.cable with state := .receiving, rx0 := .receiving bits } }
    (after .abortedBurstReceived (at_ .joined .receiving)).cable.state = .guard
      ∧ (after .failedCheckReceived (at_ .joined .guard)).station.faultScore = 1
      ∧ kinds (after .failedCheckReceived (scored 126 .listen)) = []
      ∧ kinds (after .failedCheckReceived (scored 127 .listen)) = [.cautionOn]
      ∧ (after .failedCheckReceived (scored 254 .duplicate)).station.faultScore = 254
      ∧ (after .failedCheckReceived (scored 254 .retiring)).station.state = .silenced
      ∧ (after .failedCheckReceived (at_ .isolated .guard)).station.faultScore = 0
      ∧ readBurst [1, 2, 3] = none ∧ (after (.goodBurstReceived [1, 2, 3]) joined).station.faultScore = 1
      ∧ (after .failedCheckReceived (at_ .silenced .idle)).station.recovery = 0
      ∧ readBurst bytes = some (.pull 5 3 15) ∧ (after (.goodBurstReceived bytes) joined).cable.state = .guard
      ∧ (after (.goodBurstReceived bytes) (at_ .silenced .idle)).station.recovery = 1
      ∧ (after (.goodBurstReceived bytes)
          (withStation (fun x => { x with recovery := 31 }) (at_ .silenced .idle))).due = [.recoveryComplete]
      ∧ (after (.goodBurstReceived bytes) (read ((bitsOf bytes).take 9))).cable.state = .guard
      ∧ (after (.goodBurstReceived bytes) (read [true])).cable.state = .receiving
      ∧ (after .abortedBurstReceived (sending blockEntry)).cable.state = .sending
      ∧ (after (.goodBurstReceived [1, 2, 3]) (sending blockEntry)).station.faultScore = 0
      ∧ (after (.goodBurstReceived bytes) (withCounter0 .burstReceived (sending blockEntry))).monitor.counters[0].value = 0
      ∧ (after (.goodBurstReceived bytes .later) (withCounter0 .burstReceived joined)).monitor.counters[0].value = 0
      ∧ (after (.goodBurstReceived bytes) (sending blockEntry)).cable.state = .sending := by decide +kernel

theorem witness_ReceptionsEndInGuard_takes :
    takesBurst { joined.cable with state := .receiving, rx0 := .receiving [false] } [1, 2, 3]
      ∧ takesBurst joined.cable [1, 2, 3] ∧ ¬ takesBurst { joined.cable with state := .receiving, rx0 := .receiving [true] } [1, 2, 3]
      ∧ ¬ takesBurst (sending blockEntry).cable [1, 2, 3] := by
  refine ⟨.inr (.inr ⟨rfl, by decide +kernel⟩), .inr (.inl rfl), ?_, ?_⟩ <;> rintro (h | h | ⟨h, h2⟩)
  all_goals first | exact absurd h (by decide +kernel) | exact absurd h2 (by decide +kernel)

/-- The interface with a good burst in its second receive buffer that waits for its owner. -/
def keeping (bytes : List Byte) (m : BurstEnd) (s : State) : State :=
  { s with cable := { s.cable with rx1 := .waiting bytes m } }

/-- The ways in which a good burst is handed over: at its end, and later, during this station's own burst, out of one or
the other receive buffer. -/
theorem witness_ReceptionsEndInGuard_handsOver (bytes : List Byte) :
    let late := keeping bytes ⟨9, .locked⟩ (sending blockEntry)
    let first := { sending blockEntry with cable := { (sending blockEntry).cable with rx0 := .waiting bytes ⟨9, .locked⟩ } }
    HandsOver bytes .atEnd ⟨0, .free⟩ joined { joined with cable := { receptionEnded joined.cable with holdOff := false } }
      ∧ HandsOver bytes .later ⟨9, .locked⟩ late (sending blockEntry)
      ∧ HandsOver bytes .later ⟨9, .locked⟩ first (sending blockEntry) := by
  refine ⟨.inl ⟨rfl, .inr (.inl rfl), ?_, rfl, rfl⟩, .inr ⟨rfl, .inr ⟨?_, rfl, rfl⟩⟩, .inr ⟨rfl, .inl ⟨rfl, rfl⟩⟩⟩
  · intro other n; exact ⟨by simp [joined, at_, State.reset, Cable.reset], by simp [joined, at_, State.reset, Cable.reset]⟩
  · intro other n; simp [keeping, sending, Cable.reset]

/-- A burst that waits stays in its buffer while the next is received in the other, and its hand-over, of a reception that
ended before, leaves that one alone; at the latest it comes before the end of the next (R53). -/
theorem witness_ReceptionsEndInGuard_waits :
    let bytes := sentBurst 2 (.pull 5 3 15)
    let waiting := after (.goodBurstReceived bytes .waits) (withCounter0 .burstReceived joined)
    let next := after .startBitSeen (after .guardComplete waiting)
    waiting.cable.rx0 = .waiting bytes ⟨0, .free⟩ ∧ waiting.cable.state = .guard
      ∧ waiting.monitor.counters[0].value = 0
      ∧ next.cable.rx0 = .waiting bytes ⟨0, .free⟩ ∧ next.cable.rx1 = .receiving []
      ∧ (after (.goodBurstReceived bytes .later) next).cable.state = .receiving
      ∧ (after (.goodBurstReceived bytes .later) next).cable.rx0 = .empty
      ∧ (after (.goodBurstReceived bytes .later) next).monitor.counters[0].value = 1
      ∧ (after (.goodBurstReceived bytes .waits) next).cable.rx1 = .waiting bytes ⟨0, .free⟩
      ∧ (after (.goodBurstReceived bytes) next).monitor.counters[0].value = 2
      ∧ (after .abortedBurstReceived next).monitor.counters[0].value = 1
      ∧ (after .failedCheckReceived next).cable.rx0 = .empty
      ∧ (after .senseDrop (withSense true next)).cable.rx0 = .empty := by decide +kernel

/-- A presence of this station's own address, and pulls of station 5 for this station's publication 2. -/
theorem witness_OwnAddressAndPullsForThisStation :
    let own := sentBurst 0 (.presence { sender := 1, grade := 0, eligible := false, timebase := .free, believed := 0,
                                        hostAlive := true, fresh := false, pubs := [] })
    let pull := sentBurst 2 (.pull 5 1 2)
    let got := fun (bytes : List Byte) (s : State) => after (.goodBurstReceived bytes) s
    let late := fun (bytes : List Byte) (s : State) => after (.goodBurstReceived bytes .later) (keeping bytes ⟨0, .free⟩ s)
    (readBurst own).map (·.sender) = some 1 ∧ readBurst pull = some (.pull 5 1 2)
      ∧ (got own joined).station.state = .duplicate ∧ (got own (at_ .silenced .idle)).station.state = .duplicate
      ∧ kinds (got own (tracking .source 0 0)) = [.stationState, .timebaseState]
      ∧ (got own (at_ .duplicate .idle)).port.events = []
      ∧ (got (sentBurst 1 (.retire 1 0)) joined).station.state = .joined
      ∧ (got pull joined).unknownPulls = 1
      ∧ (got pull (withPub .active (some block1) (at_ .listen .idle))).pubs[2].pullPending = false
      ∧ (got pull (withPub .held (some block1) joined)).pubs[2].pullPending = true
      ∧ (got pull (withPub .active none joined)).pubs[2].pullPending = true
      ∧ (got pull (withPub .active (some block1) { joined with cable := { joined.cable with binding := some 2 } })).txQueue
        = []
      ∧ (got pull (withPub .active (some block1) joined)).txQueue = [blockEntry]
      ∧ (let own9 := { sending { kind := .block 9, cls := 4 } with txQueue := [] }
        (late pull own9).unknownPulls = 1 ∧ (late pull (withPub .held (some block1) own9)).pubs[2].pullPending = true
          ∧ (late pull (withPub .active (some block1) own9)).txQueue = [blockEntry]
          ∧ (late own own9).cable.state = .guard ∧ (late own own9).station.state = .duplicate)
      ∧ (late pull (withPub .active (some block1) (sending blockEntry))).txQueue = [blockEntry] := by decide +kernel

/-- A presence of station 24 that announces publication 15. -/
def presence24 : Presence :=
  { sender := 24, grade := 7, eligible := true, timebase := .locked, believed := 24, hostAlive := false, fresh := true,
    pubs := [{ index := 15, width := .w24, samples := 341, urgent := true, held := false }] }

/-- A BLOCK of station 5, publication 2. -/
def block5 (seq : Seq) : BlockBurst :=
  { publisher := 5, index := 2, seq := seq, time := 4096, width := .w16, count := 2,
    flags := { isRepeat := false, gap := some 65535, hostSilent := true, capture := .locked }, payload := [1, 2, 3, 4] }

theorem witness_BurstsAreReadAsSent :
    burstInRange (.presence presence24) ∧ 0 ∈ burstClasses (.presence presence24)
      ∧ burstInRange (.retire 24 0) ∧ 1 ∈ burstClasses (.retire 24 0)
      ∧ burstInRange (.pull 1 24 15) ∧ 2 ∈ burstClasses (.pull 1 24 15)
      ∧ 4 ∈ burstClasses (.block (block5 9)) ∧ (block5 9).payload.length = 2 * Width.w16.bytes
      ∧ readBurst (sentBurst 0 (.presence presence24)) = some (.presence presence24)
      ∧ readBurst (sentBurst 4 (.block (block5 9))) = some (.block (block5 9)) := by
  refine ⟨by simp [burstInRange, presence24, Width.limit], by decide, by simp [burstInRange], by decide,
    by simp [burstInRange], by decide, by decide, by decide, by decide +kernel, by decide +kernel⟩

theorem witness_BurstsAreReadAsSent_block : burstInRange (.block (block5 9)) := by
  simp [burstInRange, block5, Width.limit, Width.bytes]

/-! ### The station -/

theorem witness_SenseAndCountsMoveTheStation :
    (after .senseRise (at_ .isolated .off)).station.state = .settling
      ∧ (after .senseRise (at_ .offline .off)).pins.sense = true
      ∧ (after .senseDrop (withSense true (withStation (fun x => { x with settle := 9 }) (at_ .settling .off)))).station.settle
        = 0
      ∧ (after .senseDrop (withSense true (at_ .duplicate .idle))).station.state = .duplicate
      ∧ (after .senseDrop (withSense true (withPeers joined))).roster[4].state = .silent
      ∧ joined.cable.binding = none
      ∧ (after .senseDrop (withSense true (withStation (fun x => { x with caution := true, faultScore := 130 })
          { handing 9 with subs := (sub31 .live id).subs }))).port.events.map (fun v => (v.kind, v.subject, v.detail))
        = [(.stationState, none, 0x4105), (.handoverFail, some 2, 5), (.timebaseState, none, 0x0504),
           (.cautionOff, none, 0), (.peerSilent, some 2, 2), (.peerSilent, some 5, 2), (.subStale, some 31, 2)]
      ∧ (after .senseDrop (withSense true (at_ .retiring .idle))).station.state = .detached
      ∧ (after .settleComplete (withDue .settleComplete
          (withStation (fun x => { x with settle := 4096 }) (at_ .settling .off)))).station.state = .listen
      ∧ (after .listenComplete (withDue .listenComplete
          (withStation (fun x => { x with listen := 24 }) (at_ .listen .idle)))).txQueue = [presenceEntry]
      ∧ kinds (after .recoveryComplete (withDue .recoveryComplete
          (withStation (fun x => { x with recovery := 32, faultScore := 255, caution := true }) (at_ .silenced .idle))))
        = [.stationState, .cautionOff]
      ∧ (after .retireTimeout (withDue .retireTimeout
          (withStation (fun x => { x with retireTimer := 64 }) (at_ .retiring .idle)))).station.state = .detached
      ∧ (after .serviceLapsed (withDue .serviceLapsed
          (withStation (fun x => { x with interval := 1, lapse := 1 }) joined))).station.hostAlive = false := by
  decide +kernel

theorem witness_JoinAndRetireByStationState :
    (after (.join []) State.reset).station.state = .isolated
      ∧ (after (.join []) (withSense true (at_ .detached .off))).station.state = .settling
      ∧ statusOf (after (.join []) (withStation (fun x => { x with startFault := true }) State.reset)) = some 1
      ∧ statusOf (after (.join []) joined) = some 1
      ∧ (after (.join []) (withStation (fun x => { x with retireSent := true }) (at_ .retiring .idle))).txQueue
        = [presenceEntry]
      ∧ statusOf (after (.retire []) State.reset) = some 1
      ∧ (after (.retire []) (at_ .silenced .idle)).station.state = .detached
      ∧ (after (.retire []) joined).txQueue.map (·.kind) = [.retire]
      ∧ (after (.retire []) (tracking .source 0 0)).selector.release = true
      ∧ (after (.retire []) (withPeers (tracking .source 0 0))).selector.record = some { target := 5, epoch := 22 }
      ∧ (after (.retire []) (withPeers (lastEpochOf .source))).port.events.map (fun v => (v.kind, v.subject, v.detail))
        = [(.stationState, none, 0x4508), (.handoverStart, some 5, 16)]
      ∧ (after (.join []) (leaving true (handing 9))).port.events.map (fun v => (v.kind, v.subject, v.detail))
        = [(.stationState, none, 0x5401), (.handoverFail, some 2, 6)]
      ∧ (after (.retire []) (withStation (fun x => { x with listen := 9, recovery := 3 })
          (at_ .listen .receiving))).station.listen = 0
      ∧ (after (.retire []) (at_ .listen .receiving)).cable = interfaceOff (at_ .listen .receiving).cable := by
  decide +kernel

theorem witness_RestartClearsEveryBlock :
    joined.due = [] ∧ (after (.restart []) (withPeers (withPub .active (some block1) joined))).pubs[2].state = .unused
      ∧ (after (.restart []) (withPeers joined)).port.events = [] := by decide +kernel

/-- SETUP with every value above its range: p, i, L, W, S and T are limited (R5). -/
theorem witness_SetupLimitsAndServiceRevives :
    let body : List Byte := [16, 255, 255, 0, 0, 0, 0, 0, 0, 1, 0xFF, 0xFF, 0x80, 0, 0, 0, 9]
    body.length = 17 ∧ statusOf (after (.setup body) joined) = some 1
      ∧ bodyOf (after (.setup body) State.reset) = [15, 15, 1, 0, 0, 0, 1, 0, 0, 0, 0x3F, 0xFF, 0xFF, 0xF0, 0, 0, 9]
      ∧ (after (.service []) joined).station.hostAlive = true := by decide +kernel

/-! ### The roster -/

/-- A peer of address 24 in a state. -/
def withPeer24 (st : PeerState) (s : State) : State :=
  { s with roster := s.roster.set 23 { RosterEntry.cleared false with state := st, missed := 1 } }

theorem witness_PeersAreFollowedByTheirBursts :
    let s := fun st => withPeer24 st (frozen joined)
    let live := { Subscription.cleared false with state := .live, publisher := 24, index := 2, last := some 7 }
    let subs := fun st => { s st with subs := joined.subs.set 31 live }
    let full := { s .present with subs := Vector.ofFn fun _ => live }
    let presence := after (.goodBurstReceived (sentBurst 0 (.presence presence24)))
    let retire := after (.goodBurstReceived (sentBurst 1 (.retire 24 3)))
    (s .absent).monitor.frozen = true ∧ (s .absent).port.events = [] ∧ 23 + 1 ≠ (s .absent).station.own
      ∧ kinds (presence (s .absent)) = [.peerNew, .peerHostSilent] ∧ (presence (s .absent)).roster[23].state = .seen
      ∧ kinds (presence (s .retired)) = [.peerFresh, .peerHostSilent]
      ∧ kinds (presence (subs .present)) = [.peerFresh, .peerHostSilent, .subStale]
      ∧ (presence (subs .present)).port.events.map (·.detail) = [2, 0, 3]
      ∧ (presence (subs .present)).subs[31].last = none
      ∧ (presence (subs .absent)).port.events.map (·.detail) = [0, 0, 2]
      ∧ (presence full).port.events.length = 32 ∧ (presence full).port.lost = true
      ∧ (presence (withCounter0 .burstReceived joined)).monitor.counters[0].value = 1
      ∧ (retire (withStation (fun x => { x with recovery := 31 }) (at_ .silenced .idle))).due = [.recoveryComplete]
      ∧ (presence (at_ .silenced .idle)).station.recovery = 1
      ∧ kinds (retire (s .absent)) = [] ∧ kinds (retire (s .retired)) = []
      ∧ kinds (retire (s .silent)) = [.peerRetired]
      ∧ kinds (retire (subs .present)) = [.peerRetired, .subStale]
      ∧ (retire (subs .present)).subs[31].last = some 7 := by decide +kernel

theorem witness_IntervalChecksAgeUnheardPeers :
    let live := { Subscription.cleared false with state := .live, publisher := 24 }
    let s := fun st m => { joined with
      roster := joined.roster.set 23 { RosterEntry.cleared true with state := st, missed := m }
      subs := joined.subs.set 0 live }
    (checkPeer (s .seen 1) 23).roster[23] = RosterEntry.cleared true
      ∧ (checkPeer (s .seen 0) 23).roster[23].missed = 1
      ∧ (checkPeer (s .present 1) 23).subs[0].state = .live
      ∧ ageReports (s .present 2) 23 = true ∧ ageReports (s .present 1) 23 = false
      ∧ (checkPeer (s .present 2) 23).port.events.map (fun v => (v.kind, v.subject, v.detail))
        = [(.peerSilent, some 24, 1), (.subStale, some 0, 2)]
      ∧ (checkPeer (s .present 2) 23).roster[23].state = .silent ∧ (checkPeer (s .present 2) 23).subs[0].state = .stale
      ∧ (checkPeer (s .retired 6) 23).roster[23].state = .retired
      ∧ (checkPeer (s .retired 7) 23).roster[23].state = .absent := by decide +kernel

theorem witness_IntervalChecksAgeUnheardPeers_all :
    let e := fun st m => { RosterEntry.cleared false with state := st, missed := m }
    let s := { joined with roster := ((joined.roster.set 1 (e .present 2)).set 4 (e .silent 7)).set 23 (e .retired 7) }
    kinds (intervalCheck s) = [.peerSilent, .peerGone, .peerGone]
      ∧ (intervalCheck s).port.events.map (·.subject) = [some 2, some 5, some 24] := by decide +kernel

/-! ### Publications -/

/-- Publication 15 changed. -/
def pub15 (f : Publication → Publication) (s : State) : State := updPub 15 f s

/-- Publication 15 ACTIVE, of width 24 and 3 samples per block, as in the example of 6.11. -/
def stream : State := pub15 (fun p => { p with state := .active, width := .w24, samples := 3, policy := .repeatLast }) joined

/-- A two-word sample item of publication 15. -/
def item15 : FifoItem :=
  { tag := 15, first := 0x1234, second := some 0xAB56, stamp := { time := 77, capture := .locked } }

/-- 64 one-word items. -/
def fullFifo : List FifoItem := List.replicate 64 { item15 with second := none }

theorem witness_SamplesAreStrobedAndDrained :
    let held := { stream with partials := stream.partials.set 15 { high := some (0x1234, item15.stamp), voidLow := false } }
    let void := { stream with partials := stream.partials.set 15 { high := none, voidLow := true } }
    let queued := { stream with fifo := [item15] }
    (after (.sampleStrobe 0 7) stream).fifo.length = 1
      ∧ (after (.sampleStrobe 0 7) { stream with fifo := fullFifo.drop 1 }).fifo.length = 64
      ∧ (after (.sampleStrobe 0 7) { stream with fifo := fullFifo }).portRejects = 1
      ∧ (after (.sampleStrobe 15 7) void).partials[15].voidLow = false
      ∧ (after (.sampleStrobe 15 7) stream).partials[15].high.isSome = true
      ∧ (after (.sampleStrobe 15 0xAB56) held).fifo = [item15]
      ∧ (after (.sampleStrobe 15 0xAB56) { held with fifo := fullFifo.drop 1 }).pubs[15].gap = 1
      ∧ (after .drainSample { queued with pubs := joined.pubs }).portRejects = 1
      ∧ (after .drainSample { queued with fifo := [{ item15 with second := none }] }).portRejects = 1
      ∧ (after .drainSample (pub15 (fun p => { p with commitPending := true }) queued)).pubs[15].gap = 1
      ∧ Memory.readBytes (after .drainSample queued).store (1024 * 31) 3 = [0x12, 0x34, 0x56]
      ∧ (after .drainSample queued).pubs[15].fillTime = 77
      ∧ (after .drainSample (pub15 (fun p => { p with fillCount := 1 }) queued)).pubs[15].fillCount = 2
      ∧ (after .drainSample (pub15 (fun p => { p with fillCount := 2 }) queued)).pubs[15].ready.map (·.count) = some 3 := by
  decide +kernel

theorem witness_CommitsMakeTheFillTheReadyBlock :
    let full := pub15 (fun p => { p with fillCount := 3, gap := 1 }) stream
    let bound := { full with cable := { full.cable with binding := some 15 } }
    let pulled := pub15 (fun p => { p with pullPending := true }) full
    full.cable.binding ≠ some 15 ∧ kinds (askCommit 15 full) = [.sourceGap]
      ∧ (askCommit 15 full).pubs[15].readySlot = 31 ∧ kinds (askCommit 15 stream) = []
      ∧ (askCommit 15 bound).pubs[15].commitPending = true
      ∧ (askCommit 15 pulled).txQueue.map (·.kind) = [.block 15]
      ∧ (endBinding true (askCommit 15 bound)).pubs[15].isNew = true
      ∧ (endBinding false bound).cable.binding = none := by decide +kernel

theorem witness_PublicationsAreSetHeldAndWithdrawn :
    let bound := { stream with cable := { stream.cable with binding := some 15 } }
    let ask := Instr.publish [15, 1, 2, 1, 1, 1, 1]
    let held := pub15 (fun p => { p with state := .held, pullPending := true, ready := some block1 }) stream
    statusOf (after ask bound) = some 3 ∧ bodyOf (after ask joined) = [1, 0] ∧ bodyOf (after ask stream) = [1, 0]
      ∧ bodyOf (after (.publish [15, 0, 0, 0, 0, 0, 0]) joined) = [0, 1]
      ∧ statusOf (after (.publish [16, 0, 0, 0, 0, 0, 0]) joined) = some 2
      ∧ statusOf (after (.publish [15, 2, 0, 0, 0, 0, 0]) joined) = some 2
      ∧ statusOf (after (.publish [15, 0, 3, 0, 0, 0, 0]) joined) = some 2
      ∧ statusOf (after (.publish [15, 0, 0, 0, 0, 0, 2]) joined) = some 2
      ∧ statusOf (after (.hold [16]) joined) = some 2 ∧ statusOf (after (.unpublish [15]) joined) = some 7
      ∧ (after (.unpublish [15]) stream).pubs[15].state = .unused
      ∧ (after (.unpublish [2]) (withPub .active (some block1) (sending blockEntry))).cable.state = .sending
      ∧ (after (.unpublish [2]) (withPub .active none (claiming blockEntry false))).cable.claim
        = some ⟨blockEntry, true⟩
      ∧ (after (.hold [15]) stream).pubs[15].state = .held
      ∧ statusOf (after (.release [15]) stream) = some 0
      ∧ (after (.release [15]) held).txQueue.map (·.kind) = [.block 15]
      ∧ (after (.release [15]) (pub15 (fun p => { p with ready := none }) held)).txQueue = [] := by decide +kernel

theorem witness_FillAndCommitRequests :
    let fed := pub15 (fun p => { p with feed := .requestFed, width := .w16 }) stream
    let half := { pub15 (fun p => { p with fillCount := 1 }) stream with
      partials := stream.partials.set 15 { high := some (1, item15.stamp), voidLow := false } }
    let fill := fun k => Instr.fill [k, 1, 0, 0, 0, 0, 0, 9, 1, 2, 3, 4, 5, 6, 7, 8, 9]
    [1, 2, 3, 4, 5, 6, 7, 8, 9].length ≤ 1528
      ∧ statusOf (after (fill 16) fed) = some 2 ∧ statusOf (after (fill 15) joined) = some 7
      ∧ statusOf (after (fill 15) stream) = some 1
      ∧ statusOf (after (fill 15) (pub15 (fun p => { p with commitPending := true }) fed)) = some 3
      ∧ bodyOf (after (fill 15) fed) = [0, 3] ∧ (after (fill 15) fed).pubs[15].fillTime = 9
      ∧ Memory.readBytes (after (fill 15) fed).store (1024 * 31) 7 = [1, 2, 3, 4, 5, 6, 0]
      ∧ statusOf (after (.commit [15]) (pub15 (fun p => { p with commitPending := true }) fed)) = some 3
      ∧ statusOf (after (.commit [15]) fed) = some 4
      ∧ (after (.commit [15]) half).partials[15].voidLow = true
      ∧ (after (.commit [15]) half).pubs[15].ready.map (·.gap) = some (some 1) := by decide +kernel

/-! ### Subscriptions -/

/-- A ring entry. -/
def ringEntry (slot : Nat) (seq : Seq) : RingEntry :=
  { slot := slot, seq := seq, time := 5, width := .w16, count := 2, flags := (block5 0).flags, arrival := 6, missed := 255,
    late := true }

/-- Every subscription in use. -/
def allSubs : State :=
  { joined with subs := Vector.ofFn fun j =>
      { Subscription.cleared false with state := .waiting, publisher := 5, index := ⟨j.val % 16, by omega⟩ } }

theorem witness_SubscriptionsAreMadeAndEnded :
    let ask := fun a i m => Instr.subscribe [a, i, m, 1, 0, 0, 1, 0, 0]
    statusOf (after (ask 0 2 1) joined) = some 2 ∧ statusOf (after (ask 25 2 1) joined) = some 2
      ∧ statusOf (after (ask 1 2 1) joined) = some 2 ∧ statusOf (after (ask 5 16 1) joined) = some 2
      ∧ statusOf (after (ask 5 2 2) joined) = some 2
      ∧ statusOf (after (ask 5 2 1) (sub31 .stale id)) = some 6
      ∧ statusOf (after (ask 24 15 0) allSubs) = some 5
      ∧ bodyOf (after (ask 24 15 1) (sub31 .live id)) = [0, 1, 0, 0, 0, 0, 32]
      ∧ (after (ask 24 15 1) (sub31 .live id)).subs[0].state = .waiting
      ∧ statusOf (after (.unsubscribe [32]) joined) = some 2 ∧ statusOf (after (.unsubscribe [31]) joined) = some 7
      ∧ (after (.unsubscribe [31]) (sub31 .live id)).subs[31].state = .unused
      ∧ (let pull := { kind := .pull 31, cls := 2 }
        (after (.unsubscribe [31]) { sending pull with subs := (sub31 .live id).subs }).cable
          = { (sending pull).cable with flight := some { flying pull with withdrawn := true } }) := by decide +kernel

theorem witness_TakeAndPullRequests :
    let ring := sub31 .stale fun x => { x with ring := [ringEntry 3 9, ringEntry 0 10], overrunReported := true }
    let last := sub31 .live fun x => { x with ring := [ringEntry 3 9], overrunReported := true, pull := some ⟨2, 7⟩ }
    statusOf (after (.take [32]) joined) = some 2 ∧ statusOf (after (.take [31]) joined) = some 7
      ∧ statusOf (after (.take [31]) (sub31 .live id)) = some 4
      ∧ bodyOf (after (.take [31]) ring)
        = [0, 9, 0, 0, 0, 0, 0, 5, 0, 0, 2, 0x36, 0xFF, 0xFF, 0, 0, 0, 0, 0, 6, 255, 1, 1, 0, 0, 0, 0]
      ∧ (after (.take [31]) ring).subs[31].overrunReported = true
      ∧ (after (.take [31]) last).subs[31].overrunReported = false
      ∧ statusOf (after (.pull [31]) { last with station := State.reset.station }) = some 1
      ∧ (after (.pull [31]) ring).subs[31].pull = some ⟨1, 4⟩ ∧ (after (.pull [31]) last).subs[31].pull = some ⟨2, 7⟩
      ∧ (after (.pull [31]) ring).txQueue.map (·.kind) = [.pull 31] := by decide +kernel

theorem witness_StaleTimeoutsAndPullDeadlines :
    let epoch := fun n (s : State) => withTime (fun t => { t with ticks := BitVec.ofNat 64 (n * 131072) }) s
    let stale := fun n => withDue (.staleTimeout 31) (epoch n (sub31 .live id))
    let pull := fun k n => withDue (.pullDeadline 31) (epoch n (sub31 .live fun x => { x with pull := some ⟨k, 4⟩ }))
    (∀ i : Fin 32, i < 31 → Due.staleTimeout i ∉ (stale 32).due)
      ∧ (∀ i : Fin 32, i < 31 → Due.pullDeadline i ∉ (pull 1 4).due)
      ∧ (after (.staleTimeout 31) (stale 32)).subs[31].state = .stale
      ∧ (after (.staleTimeout 31) (stale 31)).subs[31].state = .live
      ∧ (after (.pullDeadline 31) (pull 2 4)).subs[31].pull = some ⟨3, 8⟩
      ∧ kinds (after (.pullDeadline 31) (pull 3 4)) = [.pullFailed]
      ∧ (after (.pullDeadline 31) (pull 3 3)).subs[31].pull = some ⟨3, 4⟩ := by decide +kernel

/-- A block of the boundary of its own stale timeout, here 1, before the test and after it. -/
theorem witness_StaleTimeoutsAndPullDeadlines_block :
    let live := fun st => withTime (fun t => { t with ticks := BitVec.ofNat 64 (9 * 131072) })
      (withDue (.staleTimeout 31) (frozen (sub31 st fun x => { x with staleTimeout := 1, lastBlock := 8 })))
    let got := after (.goodBurstReceived (sentBurst 4 (.block (block5 9))))
    (∀ h : Fin 32, (live .live).subs[h].state ≠ .unused ∧ (live .live).subs[h].publisher = 5
        ∧ (live .live).subs[h].index = 2 ↔ h = 31)
      ∧ (got (live .live)).due = [.staleTimeout 31] ∧ (got (live .live)).subs[31].lastBlock = 9
      ∧ (after (.staleTimeout 31) (got (live .live))).subs[31].state = .live
      ∧ (after (.staleTimeout 31) (live .live)).subs[31].state = .stale
      ∧ (let bytes := sentBurst 4 (.block (block5 9))
        (after (.staleTimeout 31) (after (.goodBurstReceived bytes .later)
          (keeping bytes ⟨8 * 131072, .free⟩ (live .live)))).subs[31].state = .stale) := by decide +kernel

/-- The KEEP_NEWEST ring of 7.7 before block 105, here in subscription 31. -/
def ring104 (mode : RingMode) : State :=
  frozen (sub31 .live fun x => { x with
    mode := mode, last := some 104, ring := [ringEntry 0 101, ringEntry 1 102, ringEntry 2 104, ringEntry 3 99] })

theorem witness_BlocksArriveInTheirRing :
    let got := fun seq s => after (.goodBurstReceived (sentBurst 4 (.block (block5 seq)))) s
    let peer := { RosterEntry.cleared false with state := .present, pubs := [⟨2, .w16, 2, false, false⟩] }
    let seqs := fun (s : State) => s.subs[31].ring.map (·.seq)
    readBurst (sentBurst 4 (.block (block5 105))) = some (.block (block5 105))
      ∧ ringSound (ring104 .keepNewest).subs[31].ring
      ∧ (got 105 (frozen joined)).cable.state = .guard
      ∧ (got 104 (ring104 .keepNewest)).subs[31].duplicates = 1
      ∧ seqs (got 105 (ring104 .keepNewest)) = [102, 104, 99, 105]
      ∧ kinds (got 105 (ring104 .keepNewest)) = [.ringOverrun]
      ∧ seqs (got 105 (ring104 .keepOldest)) = [101, 102, 104, 99]
      ∧ (got 105 (ring104 .keepOldest)).subs[31].last = some 105
      ∧ seqs (got 99 (ring104 .keepOldest)) = [101, 102, 104, 99]
      ∧ kinds (got 9 (frozen (sub31 .waiting id))) = [.ringReady]
      ∧ kinds (got 9 (frozen (sub31 .waiting fun x => { x with ring := [ringEntry 3 9] }))) = [.ringOverrun, .ringReady]
      ∧ kinds (got 9 { frozen (sub31 .waiting id) with roster := joined.roster.set 4 peer })
        = [.ringReady, .subLive]
      ∧ (got 105 { ring104 .keepOldest with monitor := { joined.monitor with
          counters := joined.monitor.counters.set 3 { Counter.reset with selection := OccKind.ringOverrun.code }
          } }).monitor.counters[3].value = 1 := by
  refine ⟨by decide +kernel, by unfold ringSound; decide +kernel, ?_⟩
  decide +kernel

/-- A block handed over during this station's own burst whose reception ended earlier, in another timebase state: it is
judged at that end (R127, R130). -/
theorem witness_BlocksArriveInTheirRing_late :
    let own := { sending { kind := .pull 0, cls := 2 } with
      subs := (sub31 .live fun x => { x with lateThreshold := 10 }).subs }
    let bytes := sentBurst 4 (.block (block5 9))
    let got := fun (n : Nat) (st : TimebaseState) =>
      (after (.goodBurstReceived bytes .later) (keeping bytes ⟨BitVec.ofNat 64 n, st⟩ own)).subs[31]
    own.timebase.state = .free ∧ (got 4107 .locked).ring.map (fun r => (r.arrival, r.late)) = [(4107, true)]
      ∧ (got 4106 .locked).ring.map (·.late) = [false] ∧ (got 4107 .holdover).ring.map (·.late) = [false]
      ∧ (got 262144 .free).lastBlock = 2 := by decide +kernel

/-- The MISSED value (R129): one block lost between 102 and 104, and a block behind the last one. -/
theorem test_missed : missedOf (some 102) 104 = 1 ∧ missedOf (some 5) 4 = 255 ∧ missedOf none 9 = 0 := by decide +kernel

/-! ### Engines -/

/-- A JOINED station whose engine 3 is in a state at address 255 of a list. -/
def engine3 (f : Engine → Engine) (entry : SchedEntry) : State :=
  { joined with engines := joined.engines.set 3 (f { Engine.reset with run := .run, pointer := 255 })
                schedule := schedWrite [] 255 [entry], due := [.engine 3] }

theorem witness_LoopJumpsWhileItsCountLasts :
    (after (.scheduleLoop 3) (engine3 (fun x => { x with loopStart := some 4, loopCount := 1 }) .loop)).engines[3].pointer = 4
      ∧ (after (.scheduleLoop 3) (engine3 (fun x => { x with loopStart := some 4 }) .loop)).engines[3].loopStart = none
      ∧ (after (.scheduleLoop 3) (engine3 id .loop)).engines[3].pointer = 0
      ∧ takesEntryBy 3 (.scheduleLoop 3) (engine3 id .loop)
      ∧ (after (.alignComplete 3) (engine3 (fun x => { x with run := .aligning, loopStart := some 4, loopCount := 1 })
          .loop)).engines[3].pointer = 4
      ∧ takesEntryBy 3 (.alignComplete 3) (engine3 (fun x => { x with run := .aligning }) .loop)
      ∧ ∀ k, Due.compareFired k ∉ (engine3 id .loop).due := by
  unfold takesEntryBy; decide +kernel

theorem witness_HaltStopsAtTheEntryAfterIt :
    schedRead (engine3 id .halt).schedule 255 = .halt
      ∧ kinds (after (.scheduleHalt 3) (engine3 id .halt)) = [.scheduleHalted]
      ∧ (after (.scheduleHalt 3) (engine3 id .halt)).engines[3].run = .stopped
      ∧ (after (.alignComplete 3) (engine3 (fun x => { x with run := .aligning }) .halt)).engines[3].run = .stopped := by
  decide +kernel

theorem witness_EngineEntriesAndHoldsAsTaken :
    let ended := { engine3 (fun x => { x with run := .holding }) .halt with due := [.holdEnd 3] }
    (after (.scheduleHold 3) (engine3 id (.hold 0))).engines[3].run = .run
      ∧ (after (.scheduleHold 3) (engine3 id (.hold 65535))).engines[3].hold = 65535
      ∧ (after (.scheduleRepeat 3) (engine3 id (.repeat_ 4095))).engines[3].loopStart = some 0
      ∧ kinds (after (.scheduleNotify 3) (engine3 id (.notify 9))) = [.scheduleNote]
      ∧ (after (.scheduleAlign 3) (engine3 id .align)).engines[3].run = .aligning
      ∧ (after (.holdEnd 3) ended).engines[3].run = .run ∧ (after (.holdEnd 3) ended).engines[3].pointer = 255
      ∧ (after (.alignComplete 3) (engine3 (fun x => { x with run := .aligning }) (.repeat_ 2))).engines[3].loopCount = 2
      ∧ (after (.alignComplete 3) (engine3 (fun x => { x with run := .aligning }) (.emit 15))).engines[3].run = .run
      ∧ (after (.alignComplete 3) (engine3 (fun x => { x with run := .aligning }) (.hold 7))).engines[3].hold = 7 := by
  decide +kernel

theorem witness_EngineEntriesAndHoldsAsTaken_units :
    let x := { Engine.reset with run := .holding, hold := 2, prescale := 1 }
    x.hold = 2 ∧ x.prescaleCount = 0 ∧ holdRunsOut (countHold (countHold (countHold x))) = true
      ∧ holdRunsOut (countHold (countHold x)) = false := by decide +kernel

theorem witness_EmitsAreSkippedEnqueuedOrMerged :
    let pub := fun f (s : State) => updPub 2 f (withPub .active (some block1) s)
    let run := fun (f : Publication → Publication) => pub f (engine3 id (.emit 2))
    (after (.scheduleEmit 3) (run id)).txQueue = [blockEntry]
      ∧ (after (.scheduleEmit 3) (run fun p => { p with isNew := false })).txQueue = []
      ∧ (after (.scheduleEmit 3) (run fun p => { p with isNew := false, policy := .repeatLast })).txQueue = [blockEntry]
      ∧ (after (.scheduleEmit 3) (run fun p => { p with state := .held })).engines[3].pointer = 0
      ∧ (enqueue (.block 2) { joined with txQueue := [presenceEntry, { kind := .block 9, cls := 4 }] }).txQueue
        = [presenceEntry, { kind := .block 9, cls := 4 }, blockEntry]
      ∧ (enqueue (.block 2) { joined with txQueue := [blockEntry] }).txQueue = [blockEntry]
      ∧ (enqueue (.block 2) State.reset).txQueue = [] := by decide +kernel

theorem witness_EngineAndListRequests :
    (after (.engineStart [3]) joined).engines[3].run = .run
      ∧ (after (.engineStop [3]) (after (.engineStart [3]) joined)).engines[3].run = .stopped
      ∧ (after (.enginePoint [3, 0, 255]) joined).engines[3].pointer = 255
      ∧ statusOf (after (.enginePoint [3, 1, 0]) joined) = some 2
      ∧ statusOf (after (.enginePrescale [4, 0, 1]) joined) = some 2
      ∧ sparseWf SchedEntry.halt 0 joined.schedule = true
      ∧ bodyOf (after (.loadList [0, 255, 2, 0, 9]) joined) = [255, 0, 1]
      ∧ schedRead (after (.loadList [0, 255, 2, 0, 9]) joined).schedule 255 = .hold 9
      ∧ statusOf (after (.loadList [1, 0, 2, 0, 9]) joined) = some 2
      ∧ statusOf (after (.loadList [0, 255]) joined) = some 2
      ∧ statusOf (after (.loadList [0, 255, 2, 0, 9, 2, 0, 9]) joined) = some 2
      ∧ statusOf (after (.loadList [0, 0, 3, 16, 0]) joined) = some 2
      ∧ scheduleEntry 1 15 = some (.emit 15) ∧ scheduleEntry 1 16 = none ∧ scheduleEntry 3 4095 = some (.repeat_ 4095)
      ∧ scheduleEntry 3 4096 = none ∧ scheduleEntry 7 0 = some .halt ∧ scheduleEntry 7 1 = none
      ∧ scheduleEntry 0 0 = none ∧ scheduleEntry 8 0 = none := by decide +kernel

theorem witness_SlotTickReachesComparesAndEngines :
    let s := { engine3 (fun x => { x with run := .holding, hold := 1 }) .halt with
      due := [.slotTick], compares := joined.compares.set 3 { Compare.reset with state := .armed } }
    (after .slotTick s).due = [.compareFired 3, .holdEnd 3]
      ∧ (after .slotTick { engine3 (fun x => { x with run := .aligning }) .halt with due := [.slotTick] }).due
        = [.engine 3]
      ∧ (after .slotTick { s with monitor := { s.monitor with
          counters := s.monitor.counters.set 0 { Counter.reset with selection := OccKind.slotTick.code }
          } }).monitor.counters[0].value = 1 := by decide +kernel

/-! ### Module clocks and compares -/

/-- Generator 1 changed, at this rack time. -/
def gen1 (ticks : BitVec 64) (g : Generator) : State :=
  { joined with gens := joined.gens.set 1 g, timebase := { joined.timebase with ticks := ticks } }

theorem witness_ClockRequestsAndGeneratorsFollowTheirGrid :
    (after (.clockSet [1, 0, 1, 0, 1, 0, 0, 0, 0]) joined).gens[1].stagedPeriod = 65536
      ∧ (after (.clockSet [1, 0, 0, 0, 0, 0, 1, 0, 0]) joined).gens[1].stagedHigh = 65535
      ∧ (after (.clockArm [1, 0, 0, 0, 9]) joined).gens[1].state = .armed
      ∧ (after (.clockOff [1]) joined).gens[1].out = false
      ∧ statusOf (after (.clockOff [2]) joined) = some 2 := by decide +kernel

theorem witness_ClockRequestsAndGeneratorsFollowTheirGrid_grid :
    let run := { Generator.reset with state := .running, period := 8, high := 3, stagedPeriod := 4, stagedHigh := 9, out := true }
    let arm := { run with state := .armed, armEpoch := 1, out := false }
    (after (.generatorWrap 1) (withDue (.generatorWrap 1) (gen1 8 run))).gens[1].high = 3
      ∧ (after (.generatorWrap 1) (withDue (.generatorWrap 1) (gen1 8 run))).gens[1].out = true
      ∧ (after (.highTimeEnd 1) (withDue (.highTimeEnd 1) (gen1 3 run))).gens[1].out = false
      ∧ (after (.generatorStart 1) (withDue (.generatorStart 1) (gen1 131072 arm))).gens[1].out = true
      ∧ (after (.generatorStart 1) (withDue (.generatorStart 1) (gen1 262147 arm))).gens[1].out = false
      ∧ (after (.generatorStart 1) (withDue (.generatorStart 1)
          (gen1 131077 { arm with armEpoch := 0xFFFFFFFF, stagedPeriod := 3 }))).gens[1].wrapBase = 131076
      ∧ (realign 21 run).wrapBase = 16 ∧ (realign 21 arm).wrapBase = 0 := by decide +kernel

theorem witness_ComparesAreSetAndFire :
    let arm := fun a t => withDue (.compareFired 3) { gen1 (2048 * 10) Generator.reset with
      compares := joined.compares.set 3 { state := .armed, target := t, action := a } }
    (after (.compareSet [3, 0, 0, 0, 1, 63, 0, 9]) joined).compares[3].target = 127
      ∧ (after (.compareSet [3, 0, 0, 0, 0, 0, 1, 3]) joined).compares[3].action = .start 3
      ∧ statusOf (after (.compareSet [3, 0, 0, 0, 1, 64, 0, 0]) joined) = some 2
      ∧ statusOf (after (.compareSet [3, 0, 0, 0, 1, 0, 1, 4]) joined) = some 2
      ∧ statusOf (after (.compareSet [4, 0, 0, 0, 1, 0, 0, 0]) joined) = some 2
      ∧ (after (.compareCancel [3]) (arm .notify 1)).compares[3].state = .idle
      ∧ (after (.compareFired 3) (arm .notify 10)).compares[3].state = .fired
      ∧ (after (.compareFired 3) (arm (.start 2) 3)).due = [.engine 2]
      ∧ (after (.compareFired 3) { arm (.start 3) 3 with engines := (engine3 id .halt).engines }).due = [] := by
  decide +kernel

/-- Two compares of one tick start the same engine, and its HALT comes between their rows: both have fired before it acts,
and it takes one entry (R146, R173). -/
theorem witness_ComparesAreSetAndFire_one_entry :
    let both := { joined with
      compares := (joined.compares.set 0 { state := .armed, target := 0, action := .start 3 }).set 1
        { state := .armed, target := 0, action := .start 3 }
      due := [.compareFired 0, .compareFired 1] }
    let halted := after (.scheduleHalt 3) (after (.compareFired 0) both)
    (after (.compareFired 0) both).due = [.compareFired 1, .engine 3] ∧ halted.due = []
      ∧ kinds halted = [.compareFired, .compareFired, .scheduleHalted]
      ∧ (after (.compareFired 1) halted).engines[3].pointer = 1 := by decide +kernel

/-! ### Monitor and host port -/

/-- A monitor whose counter 0 counts slot ticks and stands one below the overflow. -/
def counting (f : Monitor → Monitor) : State :=
  let c := { Counter.reset with value := 2147483647, selection := 1, notify := true }
  let m := { Monitor.reset with
    counters := (Monitor.reset.counters.set 0 c).set 1 { Counter.reset with selection := 1, await0 := true } }
  { joined with monitor := f m }

theorem witness_OccurrencesRaiseTheCountersThatSelectThem :
    let t := occur .slotTick .none 1 (counting id)
    t.monitor.counters[0].value = 2147483648 ∧ t.monitor.counters[1].gateOpen = true ∧ t.monitor.counters[1].value = 0
      ∧ kinds t = [.monitorOverflow]
      ∧ (occur .slotTick .none 1 (counting fun m => { m with marked := true })).monitor.counters[0].value = 2147483647
      ∧ (occur .slotTick .none 1 (counting fun m => { m with frozen := true })).monitor.counters[0].value = 2147483647 := by
  decide +kernel

/-- Two notifying counters overflow at one occurrence, with FREEZE: the first sets the snapshot, the second counts as a
further one, with bit 15 in its detail (R183 to R185). -/
theorem witness_OccurrencesRaiseTheCountersThatSelectThem_notify :
    let c := { Counter.reset with value := 2147483647, selection := 1, notify := true }
    let s := counting fun m => { m with counters := (m.counters.set 2 c).set 3 { c with notify := false }, freeze := true }
    let t := occur .slotTick .none 2 s
    t.port.events.map (·.detail) = [1, 32769] ∧ t.monitor.snapshot.map (·.counter) = some 0 ∧ t.monitor.further = 1
      ∧ t.monitor.frozen = true ∧ t.monitor.counters[3].value = 2147483649
      ∧ (occur .slotTick .none 1 t).monitor.counters[3].value = 2147483649 := by decide +kernel

theorem witness_MonitorRequestsSetReadAndMark :
    (after (.monitorSet [1, 1, 8, 0x80, 0, 0, 0, 15, 3]) joined).monitor.counters[3].value = 2147483648
      ∧ (after (.monitorSet [1, 1, 8, 0x80, 0, 0, 0, 15, 3]) joined).monitor.counters[3].await0 = true
      ∧ (let two := after (.monitorSet [0, 0, 0xF9, 0, 0, 0, 7, 2, 1, 0, 0, 1, 0, 3, 2]) (frozen joined);
        two.monitor.counters[0].value = 7 ∧ two.monitor.counters[3].value = 256 ∧ two.monitor.counters[1] = Counter.reset
          ∧ two.monitor.counters[3].await0 = true ∧ two.monitor.frozen = false)
      ∧ statusOf (after (.monitorSet [2, 1, 8, 0, 0, 0, 0, 15, 3]) joined) = some 2
      ∧ statusOf (after (.monitorSet [1, 1, 8, 0, 0, 0, 0, 16, 3]) joined) = some 2
      ∧ statusOf (after (.monitorSet [1, 1, 1, 0, 0, 0, 0, 15, 2]) joined) = some 2
      ∧ (after (.monitorSet [0, 0, 0]) (frozen joined)).monitor.frozen = false
      ∧ statusOf (after (.monitorRead [1]) joined) = some 0
      ∧ (after (.mark [0, 24, 1]) joined).roster[23].marked = true ∧ (after (.mark [1, 15, 1]) joined).pubs[15].marked = true
      ∧ (after (.mark [2, 31, 1]) joined).subs[31].marked = true
      ∧ statusOf (after (.mark [0, 1, 1]) joined) = some 2 ∧ statusOf (after (.mark [0, 25, 1]) joined) = some 2
      ∧ statusOf (after (.mark [1, 16, 1]) joined) = some 2 ∧ statusOf (after (.mark [2, 32, 1]) joined) = some 2
      ∧ statusOf (after (.mark [3, 0, 1]) joined) = some 2 := by decide +kernel

theorem witness_PortChecksRefuseBeforeTheOwner :
    requestBody (.join [0]) = some ([0], false) ∧ statusOf (after (.join [0]) joined) = some 2
      ∧ statusOf (after (.unknownRequest 0 []) joined) = some 8 ∧ statusOf (after (.unknownRequest 35 []) joined) = some 8
      ∧ statusOf (after (.monitorSet [0, 0, 1]) joined) = some 2
      ∧ sentByte (after (.recordDiscarded .cut) (after (.join []) joined)) 0 = none
      ∧ transactionByte 2 (after (.recordDiscarded .cut) joined) 1 = some 0xFF
      ∧ transactionByte 2 (after (.recordDiscarded .cut) joined) 2 = none := by decide +kernel

/-- While the store is held a TAKE waits, or is granted it: `waits` is the state in which it waits. A request behind it
is held too, a third is discarded; once the store is free both are handled in order (11.7). -/
theorem witness_RequestsWaitForTheBlockStore :
    let ring := sub31 .stale fun x => { x with ring := [ringEntry 3 9, ringEntry 0 10] }
    let busy := { ring with cable := { ring.cable with binding := some 2 } }
    let waits := { busy with port := { busy.port with transaction := .waiting, held := [.take [31]] } }
    let left := after (.responseAbandoned 0) waits
    let two := after (.readEvents [1]) left
    let free := fun s : State => { s with cable := ring.cable }
    quiet waits = true ∧ needsStore (.take [31]) busy = true ∧ needsStore (.readEvents [1]) busy = false
      ∧ needsStore (.fill [2, 0, 0, 0, 0, 0, 0, 0, 1, 2]) (updPub 2 (fun p => { p with feed := .requestFed })
          (withPub .active none busy)) = true
      ∧ sentByte waits 4 = some 0xFF ∧ left.port.held = [.take [31]] ∧ sentByte left 0 = none
      ∧ two.port.held = [.take [31], .readEvents [1]] ∧ quiet two = true ∧ two.subs[31].ring.length = 2
      ∧ (after (.status []) two).port.held.length = 2 ∧ sentByte (after (.status []) two) 0 = some 0xFF
      ∧ (settled (free left)).subs[31].ring.length = 1 ∧ (settled (free left)).port.transaction = .closed []
      ∧ bodyOf (settled (free two)) = [0, 0] ∧ (settled (free two)).subs[31].ring.length = 1
      ∧ (settled (free two)).port.held = []
      ∧ sentByte (after (.responseAbandoned 0) (after (.status []) two)) 0 = none := by decide +kernel

/-- The port falls free at a burst's end while a TAKE and a sample in the FIFO wait: the drain comes first, by its own row
or before the TAKE is handled (R103). -/
theorem witness_RequestsWaitForTheBlockStore_drain :
    let ring := sub31 .stale fun x => { x with ring := [ringEntry 3 9, ringEntry 0 10] }
    let waits := { ring with
      fifo := [item15, item15], pubs := stream.pubs
      port := { ring.port with transaction := .waiting, held := [.take [31]] } }
    let once := after .drainSample waits
    once.port.held = [.take [31]] ∧ once.fifo = [item15] ∧ once.pubs[15].fillCount = 1
      ∧ (settled once).fifo = [] ∧ (settled once).pubs[15].fillCount = 2 ∧ (settled once).port.held = []
      ∧ (settled waits) = settled once ∧ (settled waits).subs[31].ring.length = 1
      ∧ (after (.take [31]) { waits with port := ring.port }).pubs[15].fillCount = 2
      ∧ (after (.status []) { waits with port := ring.port }).fifo.length = 2 := by decide +kernel

/-- A block waits in a receive buffer for its full KEEP_NEWEST ring while a TAKE of it, held or new, and a sample in the
FIFO wait: the cable side's write comes first, by the hand-over's own row or before the drain and the TAKE (R103). -/
theorem witness_RequestsWaitForTheBlockStore_cable :
    let bytes := sentBurst 4 (.block (block5 105))
    let s := keeping bytes ⟨9, .locked⟩ { ring104 .keepNewest with fifo := [item15], pubs := stream.pubs }
    let held := { s with port := { s.port with transaction := .waiting, held := [.take [31]] } }
    let seqs := fun (t : State) => t.subs[31].ring.map (·.seq)
    let left := fun (t : State) => seqs t = [104, 99, 105] ∧ t.cable.rx1 = .empty ∧ t.fifo = []
    readBurst bytes = some (.block (block5 105)) ∧ ringWriteWaits s = true
      ∧ ringWriteWaits (keeping bytes ⟨9, .locked⟩ (ring104 .keepOldest)) = false
      ∧ ringWriteWaits (keeping (sentBurst 4 (.block (block5 104))) ⟨9, .locked⟩ s) = false
      ∧ left (after (.take [31]) s) ∧ left (settled held) ∧ left (after (.goodBurstReceived bytes .later) held)
      ∧ seqs (after .drainSample s) = [102, 104, 99, 105] ∧ (after .drainSample s).fifo = []
      ∧ left (after .drainSample held |> settled)
      ∧ (after (.take [31]) (after (.goodBurstReceived bytes .later) s)) = after (.take [31]) s
      ∧ seqs (after (.status []) s) = [101, 102, 104, 99] := by decide +kernel

/-- The state of `witness_RequestsWaitForTheBlockStore_cable`, in the words of the statement. -/
theorem witness_RequestsWaitForTheBlockStore_waits :
    let bytes := sentBurst 4 (.block (block5 105))
    let s := keeping bytes ⟨9, .locked⟩ (ring104 .keepNewest)
    WaitsForItsRing s bytes ∧ Ready s ∧ ChannelsDistinct s ∧ OneWaits s.cable := by
  refine ⟨⟨.inr ⟨fun other n h => ?_, _, rfl⟩, block5 105, 31, by decide +kernel⟩, by unfold Ready; decide +kernel,
    by unfold ChannelsDistinct; decide +kernel, fun a m b n h => ?_⟩
  · exact RxBuffer.noConfusion h
  · exact RxBuffer.noConfusion h.1

/-- A response: status, station state, timebase state, flag and count, length, body. -/
theorem witness_ResponseAndEventRecordsAreLaidOut :
    responseRecord .full [7, 8] { joined with port := { joined.port with lost := true } } = [5, 4, 0, 128, 0, 2, 7, 8]
      ∧ sentByte (responded .ok [] joined) 0 = some 0xA5 ∧ sentByte (responded .ok [] joined) 7 = some 0xFF
      ∧ sentByte joined 0 = none ∧ transactionByte 3 (responded .ok [] joined) 2 = some 0xFF
      ∧ transactionByte 3 (responded .ok [] joined) 3 = some 0xA5
      ∧ eventBytes { kind := .ringReady, epoch := 258, tick := 131071, subject := none, detail := 3 }
        = [21, 0, 0, 1, 2, 1, 0xFF, 0xFF, 255, 0, 3] := by decide +kernel

/-- A queue of 32 events. -/
def fullQueue : State := { joined with port := { joined.port with
  events := List.replicate 32 { kind := .phaseStep, epoch := 0, tick := 0, subject := none, detail := 0 } } }

/-- The states of a running engine in an open loop and of a generator, byte by byte (R161, R169, R213). -/
theorem test_unit_bytes :
    engineBytes { Engine.reset with run := .run, resume := .aligning, pointer := 255, loopStart := some 3, hold := 258 }
        = [1, 3, 0, 255, 1, 0, 3, 0, 0, 1, 2, 0, 0]
      ∧ generatorBytes { Generator.reset with stagedPeriod := 4, stagedHigh := 9, wrapBase := 1, armEpoch := 7 }
        = [0] ++ beBytes 4 Generator.reset.period ++ beBytes 4 Generator.reset.high
          ++ [0, 0, 0, 4, 0, 0, 0, 9, 0, 0, 0, 3, 0, 0, 0, 0, 0, 0, 0, 1, 0, 0, 0, 7]
      ∧ compareBytes Timebase.reset { state := .fired, target := 258, action := .start 2 }
        = [2, 0, 0, 0, 1, 2, 1, 2, 0, 0, 0, 0, 0]
      ∧ (monitorBytes (counting id).monitor).take 10 = [0x7F, 0xFF, 0xFF, 0xFF, 0, 1, 1, 0, 0, 0]
      ∧ (monitorBytes (counting id).monitor).drop 36 = List.replicate 18 0 := by decide +kernel

theorem witness_ResponseAndEventRecordsAreLaidOut_events :
    (raise .peerNew (some 3) 0 joined).port.events.length = 1 ∧ (raise .peerNew (some 3) 0 fullQueue).port.lost = true
      ∧ (raise .peerNew (some 3) 0 fullQueue).port.events.length = 32 ∧ attnPin fullQueue = true := by decide +kernel

theorem witness_ReadEventsRemovesTheOldest :
    statusOf (after (.readEvents [0]) fullQueue) = some 2 ∧ statusOf (after (.readEvents [9]) fullQueue) = some 2
      ∧ (after (.readEvents [8]) fullQueue).port.events.length = 24
      ∧ (bodyOf (after (.readEvents [8]) fullQueue)).length = 90
      ∧ bodyOf (after (.readEvents [1]) joined) = [0, 0]
      ∧ sentByte (after (.responseAbandoned 3) (after (.readEvents [8]) fullQueue)) 2 = some 4
      ∧ sentByte (after (.responseAbandoned 3) (after (.readEvents [8]) fullQueue)) 3 = none
      ∧ (after (.responseAbandoned 0) (after (.readEvents [8]) fullQueue)).port.events.length = 24
      ∧ (let whole := after (.responseAbandoned 99) (after (.readEvents [8]) fullQueue);
        sentByte whole 96 ≠ none ∧ sentByte whole 98 = some 0xFF ∧ sentByte whole 99 = none) := by decide +kernel

/-- A snapshot with a subject and one without, behind its presence byte (R184, R213): the tick in 4 bytes. -/
theorem test_snapshot_bytes :
    snapshotBytes ⟨3, 258, 131071, 14, .subscription 31⟩ = [3, 0, 0, 1, 2, 0, 1, 0xFF, 0xFF, 14, 1, 2, 31]
      ∧ snapshotBytes ⟨0, 0, 1, 1, .none⟩ = [0, 0, 0, 0, 0, 0, 0, 0, 1, 1, 0, 0, 0] := by decide +kernel

theorem witness_ReadingsChangeNothing :
    (bodyOf (after (.readRoster [0]) joined)).length = 97 ∧ statusOf (after (.readRoster [24]) joined) = some 0
      ∧ statusOf (after (.readRoster [1]) joined) = some 2 ∧ statusOf (after (.readRoster [25]) joined) = some 2
      ∧ statusOf (after (.readPublication [15]) joined) = some 0 ∧ statusOf (after (.readPublication [16]) joined) = some 2
      ∧ statusOf (after (.readSubscription [31]) joined) = some 0
      ∧ statusOf (after (.readSubscription [32]) joined) = some 2 ∧ statusOf (after (.status []) joined) = some 0
      ∧ byteAt (bodyOf (after (.readTimebase []) joined)) 0 = 0 := by decide +kernel

/-! ### Invariants: a state that meets them, and a step from it -/

theorem witness_every_step_answers : ∃ t, step State.reset = .next t := ⟨_, rfl⟩

theorem witness_CanonicalMemoriesAreKept : CanonicalMemories State.reset := ⟨rfl, rfl⟩

theorem witness_BoundsOfQueuesAndLoopsAreKept :
    BoundedEvents fullQueue ∧ FifoFits { fullQueue with fifo := fullFifo } ∧ LoopsClosed fullQueue
      ∧ HoldersBounded { fullQueue with port := { fullQueue.port with held := [.service [], .status []] } } := by
  refine ⟨?_, ?_, ?_, ?_⟩ <;> simp only [BoundedEvents, FifoFits, LoopsClosed, HoldersBounded] <;> decide +kernel

theorem witness_RatesStayInRange : RatesInRange (tracking .locked 0 8) := by
  unfold RatesInRange; decide +kernel

/-- A RUNNING generator at the ends of its ranges. -/
def running1 : State :=
  gen1 0 { Generator.reset with state := .running, period := 65536, high := 65535, stagedPeriod := 65536, stagedHigh := 65535 }

theorem witness_GeneratorsStayInRange : ClocksInRange running1 ∧ StoppedClocksLow running1 := by
  refine ⟨?_, ?_⟩ <;> simp only [ClocksInRange, StoppedClocksLow] <;> decide +kernel

/-- A full ring of a LIVE subscription whose publisher announces the channel. -/
def liveRing : State :=
  let peer := { RosterEntry.cleared false with state := .present, pubs := [⟨2, .w16, 2, false, false⟩] }
  { ring104 .keepOldest with roster := joined.roster.set 4 peer }

theorem witness_SubscriptionsStaySound :
    RingsSound liveRing ∧ ChannelsDistinct liveRing ∧ LiveIsAnnounced liveRing := by
  refine ⟨?_, ?_, ?_⟩ <;> simp only [RingsSound, ringSound, ChannelsDistinct, LiveIsAnnounced] <;> decide +kernel

/-- A member of the rack with two entries queued. -/
def member : State := { joined with txQueue := [presenceEntry, blockEntry] }

theorem witness_MembershipAndQueueStaySound :
    QueueDistinct member ∧ QueueOrdered member ∧ RetiringSendsNoData (leaving false { member with txQueue := [presenceEntry] })
      ∧ MembersOnly member ∧ ScoreTellsSilence member := by
  refine ⟨?_, ?_, ?_, ?_, ?_⟩ <;>
    simp only [QueueDistinct, QueueOrdered, RetiringSendsNoData, MembersOnly, ScoreTellsSilence] <;> decide +kernel

end Sys2Proof.Tests
end

