-- ==== Sys2Proof/Proofs/Seen.lean ====
section
/-! PROOF. What events and occurrences read of the state, so that they come out the same in states alike in those parts. -/

namespace Sys2Proof.Machine
open Sys2Proof.Claims

/-! ### What events and occurrences see of the state -/

/-- `t` differs from `s` in no part that an event record or an occurrence reads or changes: rack time, the subjects'
MARKED flags, the monitor, the event queue (R178, R180, R199). -/
structure SeenAlike (s t : State) : Prop where
  ticks : t.timebase.ticks = s.timebase.ticks
  roster : t.roster = s.roster
  pubs : t.pubs = s.pubs
  subs : t.subs = s.subs
  monitor : t.monitor = s.monitor
  port : t.port = s.port

theorem SeenAlike.refl (s : State) : SeenAlike s s := ⟨rfl, rfl, rfl, rfl, rfl, rfl⟩

theorem SeenAlike.symm {s t : State} (h : SeenAlike s t) : SeenAlike t s :=
  ⟨h.ticks.symm, h.roster.symm, h.pubs.symm, h.subs.symm, h.monitor.symm, h.port.symm⟩

theorem SeenAlike.trans {s t u : State} (h : SeenAlike s t) (g : SeenAlike t u) : SeenAlike s u :=
  ⟨g.ticks.trans h.ticks, g.roster.trans h.roster, g.pubs.trans h.pubs, g.subs.trans h.subs,
    g.monitor.trans h.monitor, g.port.trans h.port⟩

/-- The rack time of an event is the same in states seen alike. -/
theorem SeenAlike.moment {s t : State} (h : SeenAlike s t) :
    epoch32 t.timebase = epoch32 s.timebase ∧ tickInEpoch t.timebase = tickInEpoch s.timebase := by
  simp only [epoch32, epochNumber, tickInEpoch, h.ticks, and_self]

/-- A timebase at the same rack time makes no difference. -/
theorem SeenAlike.withTimebase {s t : State} (h : SeenAlike s t) (x : Timebase) (e : x.ticks = s.timebase.ticks) :
    SeenAlike s { t with timebase := x } := ⟨e, h.roster, h.pubs, h.subs, h.monitor, h.port⟩

/-- An event is the same in states seen alike. -/
theorem SeenAlike.raise {s t : State} (h : SeenAlike s t) (k : EventKind) (n : Option Nat) (d : BitVec 16) :
    SeenAlike (raise k n d s) (raise k n d t) := by
  refine ⟨by simpa using h.ticks, by simpa using h.roster, by simpa using h.pubs, by simpa using h.subs,
    by simpa using h.monitor, ?_⟩
  simp only [Machine.raise, h.port, h.moment]
  split <;> rfl

/-- A change of the monitor is the same in states seen alike. -/
theorem SeenAlike.updMonitor {s t : State} (h : SeenAlike s t) (f : Monitor → Monitor) :
    SeenAlike (updMonitor f s) (updMonitor f t) := by
  exact ⟨h.ticks, h.roster, h.pubs, h.subs, congrArg f h.monitor, h.port⟩

/-- A notifying overflow is the same in states seen alike. -/
theorem SeenAlike.notifyOverflow {s t : State} (h : SeenAlike s t) (i : Fin 4) (x : Subject) :
    SeenAlike (notifyOverflow i x s) (notifyOverflow i x t) := by
  simp only [Machine.notifyOverflow, h.moment, h.monitor]
  exact ((h.updMonitor _).raise _ _ _).updMonitor _

/-- An overflow of a counter is the same in states seen alike. -/
theorem SeenAlike.overflow {s t : State} (h : SeenAlike s t) (i : Fin 4) (x : Subject) :
    SeenAlike (overflow i x s) (overflow i x t) := by
  have notified {s t : State} (h : SeenAlike s t) :
      SeenAlike (if s.monitor.counters[i].notify then Machine.notifyOverflow i x s else s)
        (if t.monitor.counters[i].notify then Machine.notifyOverflow i x t else t) := by
    rw [h.monitor]
    split
    · exact h.notifyOverflow i x
    · exact h
  unfold Machine.overflow
  by_cases first : i.val = 0
  · simp only [if_pos first]; exact notified (h.updMonitor _)
  · simp only [if_neg first]; exact notified h

/-- A fold of changes that are the same in states seen alike is the same. -/
theorem SeenAlike.foldl {α : Type} (f : State → α → State)
    (one : ∀ {s t}, SeenAlike s t → ∀ x, SeenAlike (f s x) (f t x)) (xs : List α) {s t : State} (h : SeenAlike s t) :
    SeenAlike (xs.foldl f s) (xs.foldl f t) := by
  induction xs generalizing s t with
  | nil => exact h
  | cons x rest ih => exact ih (one h x)

/-- An occurrence is the same in states seen alike (R180). -/
theorem SeenAlike.occur {s t : State} (h : SeenAlike s t) (k : OccKind) (x : Subject) (n : Nat) :
    SeenAlike (occur k x n s) (occur k x n t) := by
  have marked : subjectMarked t x = subjectMarked s x := by
    cases x <;> simp only [subjectMarked, peerEntry, h.roster, h.pubs, h.subs]
  have same : counts t k x = counts s k x := by
    funext i; simp only [counts, h.monitor, marked]
  simp only [Machine.occur, h.monitor, same]
  split
  · exact h
  · have up := h.foldl (fun t i => countUp n i t) (fun h i => h.updMonitor _)
      ((List.finRange 4).filter fun i => counts s k x i)
    simp only [up.monitor]
    exact up.foldl (fun t i => Machine.overflow i x t) (fun h i => h.overflow i x) _

/-- Events raised in turn are the same in states seen alike. -/
theorem SeenAlike.raised {s t : State} (h : SeenAlike s t) (es : List (EventKind × Option Nat × BitVec 16)) :
    SeenAlike (raised es s) (raised es t) :=
  h.foldl (fun u (v : EventKind × Option Nat × BitVec 16) => Machine.raise v.1 v.2.1 v.2.2 u)
    (fun h _ => h.raise _ _ _) es
end Sys2Proof.Machine
end

