-- ==== Sys2Proof/Proofs/Reset.lean ====
section
/-! PROOF. Power-on reset: the values of every block, and the invariants that it meets. -/

namespace Sys2Proof.Machine
open Sys2Proof.Claims

/-- The event queue of power-on reset holds at most START_FAULT (R63). -/
theorem portReset_events_le (p : Pins) (ssn : Bool) : (HostPort.reset p ssn).events.length ≤ 32 := by
  unfold HostPort.reset; dsimp only; split <;> simp

/-- The port holds no request after power-on reset (R203). -/
theorem portReset_held (p : Pins) (ssn : Bool) : (HostPort.reset p ssn).held = [] := rfl

/-- Every invariant holds right after power-on reset. -/
theorem powerOn_invariants (p : Pins) (ssn : Bool) :
    let s := State.powerOn p ssn
    CanonicalMemories s ∧ BoundedEvents s ∧ FifoFits s ∧ HoldersBounded s ∧ LoopsClosed s ∧ RatesInRange s
    ∧ ClocksInRange s ∧ StoppedClocksLow s ∧ RingsSound s ∧ ChannelsDistinct s ∧ LiveIsAnnounced s
    ∧ QueueDistinct s ∧ QueueOrdered s ∧ RetiringSendsNoData s ∧ MembersOnly s ∧ ScoreTellsSilence s := by
  simp [State.powerOn, CanonicalMemories, BoundedEvents, portReset_events_le, portReset_held, FifoFits, fifoWords,
    HoldersBounded, LoopsClosed, Engine.reset, RatesInRange, Timebase.reset, rateBound, ClocksInRange,
    Generator.reset, StoppedClocksLow, RingsSound, ringSound, Subscription.cleared, ChannelsDistinct, LiveIsAnnounced,
    QueueDistinct, QueueOrdered, RetiringSendsNoData, MembersOnly, ScoreTellsSilence, Station.reset, Cable.reset,
    Selector.reset, Memory.wf, sparseWf]

/-- Settles O45: both kinds of state are power-on resets. -/
theorem invariantsHoldAtReset : Obligations.InvariantsHoldAtReset := by
  rintro s (rfl | ⟨p, ssn, rfl⟩)
  · exact powerOn_invariants Pins.atReset true
  · exact powerOn_invariants p ssn

/-- SDO is at high impedance after power-on reset (R203). -/
theorem powerOn_sentByte (p : Pins) (ssn : Bool) (n : Nat) : sentByte (State.powerOn p ssn) n = none := by
  cases ssn <;> simp [sentByte, State.powerOn, HostPort.reset]

/-- Settles O5, block by block. -/
theorem powerOnResetSetsEveryBlock : Obligations.PowerOnResetSetsEveryBlock := by
  intro p ssn s
  refine ⟨_, rfl, rfl, rfl, rfl, ⟨rfl, rfl, rfl, rfl, rfl, ?port⟩, powerOn_sentByte p ssn, rfl, ?roster,
    fun k => ⟨?partials, ?pubs⟩, ⟨rfl, rfl, rfl, fun _ => rfl⟩, ?subs, fun _ => rfl, ?engines, ?gens, ?compares,
    ?counters, rfl, rfl, rfl, rfl, rfl⟩
  case port => simp [State.powerOn, HostPort.reset, addrInRange]
  case roster => simp [State.powerOn, RosterEntry.cleared]
  case partials => simp [State.powerOn, Partial.cleared]
  case pubs => simp [State.powerOn, Publication.cleared]
  case subs => simp [State.powerOn, Subscription.cleared]
  case engines => simp [State.powerOn, Engine.reset]
  case gens => simp [State.powerOn, Generator.reset]
  case compares => simp [State.powerOn, Compare.reset]
  case counters => simp [State.powerOn, Monitor.reset, Counter.reset]

end Sys2Proof.Machine
end

