-- ==== Sys2Proof/Proofs/TimebaseRows.lean ====
section
/-! PROOF. The rows of the timebase unit: markers captured and dropped, the counts, the marker windows. -/

namespace Sys2Proof.Machine
open Sys2Proof.Claims

/-- In a quiet state a row that tells of something outside acts on the state as it stands. -/
theorem outsideRow_quiet (act : State → State) (s : State) (q : quiet s = true) : outsideRow act s = act s := by
  rw [outsideRow, settled_quiet s q]

/-- With no edge captured a marker word is not received (R7). -/
theorem markerComplete_uncaptured (word : BitVec 64) (s : State) (h : s.timebase.capture = none) :
    markerComplete word s = s := by
  simp [markerComplete, h]

/-- A word that is not valid, or meets a SOURCE, drops the capture (R7). -/
theorem markerComplete_dropped (word : BitVec 64) (s : State)
    (h : readMarker word = none ∨ s.timebase.state = .source) (c : s.timebase.capture ≠ none) :
    markerComplete word s = dropCapture s := by
  obtain ⟨C, e⟩ := Option.ne_none_iff_exists'.mp c
  simp only [markerComplete, e]
  rcases h with h | h
  · simp [h]
  · exact if_pos h

/-- Outside a SOURCE a valid word is taken with the capture (R7). -/
theorem markerComplete_taken (word : BitVec 64) (m : MarkerFields) (C : Nat) (s : State)
    (h : readMarker word = some m) (c : s.timebase.capture = some C) (n : s.timebase.state ≠ .source) :
    markerComplete word s = takeMarker m C s := by
  simp [markerComplete, c, n, h]

/-- Settles O7, by the cases of R6 and R7. -/
theorem markersCapturedAndDropped : Obligations.MarkersCapturedAndDropped := by
  intro s q
  have row (act : State → State) : Host.Outcome.next (φ := Fault) (ρ := Refusal) (outsideRow act s) = .next (act s) :=
    congrArg _ (outsideRow_quiet act s q)
  refine ⟨fun on notSource free => ?_, fun h => ?_, row _, fun word => ⟨fun h c => ?_, fun c => ?_⟩⟩
  · exact (row _).trans (congrArg _ (if_pos ⟨on, notSource, free⟩))
  · refine (row _).trans (congrArg _ (if_neg ?_))
    rintro ⟨on, notSource, free⟩
    rcases h with h | h | h
    · simp [on] at h
    · exact notSource h
    · exact h free
  · exact (row _).trans (congrArg _ (markerComplete_dropped word s h c))
  · exact (row _).trans (congrArg _ (markerComplete_uncaptured word s c))

/-- A step that is due is taken by its row. -/
theorem dueRow_due (d : Due) (is : State → Bool) (s : State) (h : d ∈ s.due) (i : is s = true) :
    dueRow d is s = perform d (clearDue d s) := by
  rw [dueRow, if_pos ⟨h, i⟩, takeDue, takeDueBy, if_pos h]

/-- A clock row whose step is due takes it. -/
theorem clockRow_due (d : Due) (comes : State → Bool) (fuel : Nat) (act : State → State) (s : State) (h : d ∈ s.due) :
    clockRow d comes fuel act s = act (clearDue d s) := by
  rw [clockRow, if_pos h, takeDueBy, if_pos h]

/-- Another timebase state is entered with its TIMEBASE_STATE (R24). -/
theorem enterTimebase_change (new : TimebaseState) (f : Timebase → Timebase) (s : State) (h : s.timebase.state ≠ new) :
    enterTimebase new f s
      = raise .timebaseState none (timebaseDetail s.timebase.state new)
          { s with timebase := { f s.timebase with state := new } } := by
  simp only [enterTimebase, updTimebase, if_neg h]

/-- The same, by the state that is left. -/
theorem enterTimebase_from {old new : TimebaseState} {f : Timebase → Timebase} {s : State}
    (h : s.timebase.state = old) (n : old ≠ new) :
    enterTimebase new f s
      = raise .timebaseState none (timebaseDetail old new) { s with timebase := { f s.timebase with state := new } } := by
  subst h; exact enterTimebase_change new f s n

/-- The same timebase state is entered without an event (R24). -/
theorem enterTimebase_same (new : TimebaseState) (f : Timebase → Timebase) (s : State) (h : s.timebase.state = new) :
    enterTimebase new f s = { s with timebase := { f s.timebase with state := new } } := by
  simp only [enterTimebase, updTimebase, if_pos h]

/-! ### The counts and windows of the timebase unit -/

@[simp] theorem clearDue_pins (d : Due) (s : State) : (clearDue d s).pins = s.pins := rfl
@[simp] theorem clearDue_timebase (d : Due) (s : State) : (clearDue d s).timebase = s.timebase := rfl
@[simp] theorem clearDue_selector (d : Due) (s : State) : (clearDue d s).selector = s.selector := rfl
@[simp] theorem clearDue_cable (d : Due) (s : State) : (clearDue d s).cable = s.cable := rfl
@[simp] theorem clearDue_txQueue (d : Due) (s : State) : (clearDue d s).txQueue = s.txQueue := rfl
@[simp] theorem clearDue_station (d : Due) (s : State) : (clearDue d s).station = s.station := rfl
@[simp] theorem clearDue_roster (d : Due) (s : State) : (clearDue d s).roster = s.roster := rfl
@[simp] theorem clearDue_pubs (d : Due) (s : State) : (clearDue d s).pubs = s.pubs := rfl
@[simp] theorem clearDue_partials (d : Due) (s : State) : (clearDue d s).partials = s.partials := rfl
@[simp] theorem clearDue_fifo (d : Due) (s : State) : (clearDue d s).fifo = s.fifo := rfl
@[simp] theorem clearDue_portRejects (d : Due) (s : State) : (clearDue d s).portRejects = s.portRejects := rfl
@[simp] theorem clearDue_unknownPulls (d : Due) (s : State) : (clearDue d s).unknownPulls = s.unknownPulls := rfl
@[simp] theorem clearDue_store (d : Due) (s : State) : (clearDue d s).store = s.store := rfl
@[simp] theorem clearDue_subs (d : Due) (s : State) : (clearDue d s).subs = s.subs := rfl
@[simp] theorem clearDue_schedule (d : Due) (s : State) : (clearDue d s).schedule = s.schedule := rfl
@[simp] theorem clearDue_engines (d : Due) (s : State) : (clearDue d s).engines = s.engines := rfl
@[simp] theorem clearDue_gens (d : Due) (s : State) : (clearDue d s).gens = s.gens := rfl
@[simp] theorem clearDue_compares (d : Due) (s : State) : (clearDue d s).compares = s.compares := rfl
@[simp] theorem clearDue_monitor (d : Due) (s : State) : (clearDue d s).monitor = s.monitor := rfl
@[simp] theorem clearDue_port (d : Due) (s : State) : (clearDue d s).port = s.port := rfl
@[simp] theorem clearDue_freeCount (d : Due) (s : State) : (clearDue d s).freeCount = s.freeCount := rfl
@[simp] theorem clearDue_pending (d : Due) (s : State) : (clearDue d s).pending = s.pending := rfl

/-- Whether a step is due, events and occurrences do not see. -/
theorem clearDue_seen (d : Due) (s : State) : SeenAlike (clearDue d s) s := ⟨rfl, rfl, rfl, rfl, rfl, rfl⟩

/-- What is due once a step has been cleared. -/
theorem mem_clearDue (d x : Due) (s : State) : x ∈ (clearDue d s).due ↔ x ∈ s.due ∧ x ≠ d := by
  simp [clearDue]

/-- A window that is not judged (R9): no receivers, or SOURCE. -/
theorem endWindow_unjudged (s : State) (h : receiversOn s.station.state = false ∨ s.timebase.state = .source) :
    endWindow s = { s with timebase := { s.timebase with missCount := 0, windowMark := false, windowSkip := false } } := by
  have c : (!receiversOn s.station.state || s.timebase.state == .source) = true := by simpa using h
  simp [endWindow, c, updTimebase]

/-- A window with a mark, or one in progress as the receivers came on or SOURCE was left (R9). -/
theorem endWindow_marked (s : State) (on : receiversOn s.station.state = true) (n : s.timebase.state ≠ .source)
    (h : s.timebase.windowSkip = true ∨ s.timebase.windowMark = true) :
    endWindow s = { s with timebase := { s.timebase with windowMark := false, windowSkip := false } } := by
  have c : (!receiversOn s.station.state || s.timebase.state == .source) = false := by simp [on, n]
  have d : (s.timebase.windowSkip || s.timebase.windowMark) = true := by simpa using h
  simp [endWindow, c, d, updTimebase]

/-- A window without a mark (R9). -/
theorem endWindow_missed (s : State) (on : receiversOn s.station.state = true) (n : s.timebase.state ≠ .source)
    (k : s.timebase.windowSkip = false) (m : s.timebase.windowMark = false) :
    endWindow s = updTimebase (fun t => { t with windowMark := false, windowSkip := false }) (missWindow s) := by
  have c : (!receiversOn s.station.state || s.timebase.state == .source) = false := by simp [on, n]
  have d : (s.timebase.windowSkip || s.timebase.windowMark) = false := by simp [k, m]
  simp [endWindow, c, d]

/-- The timebase after a missed window (R9). -/
@[simp] theorem missWindow_timebase (s : State) :
    (missWindow s).timebase = { s.timebase with missCount := satAdd s.timebase.missCount 1 255 } := by
  simp [missWindow]

/-- What a missed window can change (R9). -/
theorem missWindow_frame (s : State) :
    missWindow s = { s with timebase := (missWindow s).timebase, monitor := (missWindow s).monitor
                            port := (missWindow s).port, due := (missWindow s).due } := by
  unfold missWindow; dsimp only
  rw [occur_frame, markIf_frame, markIf_frame]; rfl

/-- The monitor is told of a missed window with the believed source, as the state stands (R9, R177). -/
theorem missWindow_seen (s : State) :
    let b := s.timebase.believed
    SeenAlike (occur .markerMissed (if b = 0 then .none else .peer b) 1 s) (missWindow s) := by
  exact SeenAlike.occur ⟨by simp, by simp, by simp, by simp, by simp, by simp⟩ _ _ _

/-- The third miss brings the end of acquisition in ACQUIRE, the holdover in TRACK and LOCKED (R14, R18). -/
theorem mem_missWindow (d : Due) (s : State) :
    d ∈ (missWindow s).due ↔
      (3 ≤ satAdd s.timebase.missCount 1 255 ∧ (s.timebase.state = .track ∨ s.timebase.state = .locked)
        ∧ d = .timebaseHoldover)
      ∨ (3 ≤ satAdd s.timebase.missCount 1 255 ∧ s.timebase.state = .acquire ∧ d = .acquisitionAbandoned)
      ∨ d ∈ s.due := by
  simp only [missWindow, occur_due, mem_markIf, Bool.and_eq_true, decide_eq_true_eq]
  simp [and_assoc]

/-- The row of a window's end whose step is due. -/
theorem exec_markerWindowEnd (s : State) (h : Due.markerWindowEnd ∈ s.due) :
    exec .markerWindowEnd s = .next (endWindow (clearDue .markerWindowEnd s)) :=
  congrArg _ (clockRow_due _ _ _ _ s h)

/-- The row of a step of the timebase unit that is due. -/
theorem next_dueRow (d : Due) (s : State) (h : d ∈ s.due) :
    Host.Outcome.next (φ := Fault) (ρ := Refusal) (dueRow d (fun _ => true) s) = .next (perform d (clearDue d s)) :=
  congrArg _ (dueRow_due d _ s h rfl)

/-- The counts of the timebase unit bring their changes of state (R13, R14, R17, R18). -/
theorem timebase_counts (s : State) :
    let x := s.timebase
    (Due.acquisitionComplete ∈ s.due → x.state = .acquire → 20 ≤ x.decisions →
      exec .acquisitionComplete s = .next (raise .timebaseState none 0x0102 { clearDue .acquisitionComplete s with
        timebase := { x with state := .track, integral := x.rate, lockRun := 0 } }))
    ∧ (Due.lockAchieved ∈ s.due → x.state = .track → 8 ≤ x.lockRun →
      exec .lockAchieved s = .next (raise .timebaseState none 0x0203 { clearDue .lockAchieved s with
        timebase := { x with state := .locked } }))
    ∧ (Due.acquisitionAbandoned ∈ s.due → x.state = .acquire → 3 ≤ x.missCount →
      exec .acquisitionAbandoned s = .next (raise .timebaseState none 0x0100 { clearDue .acquisitionAbandoned s with
        timebase := { x with state := .free, rate := 0, integral := 0, searchStep := 0, decisions := 0, believed := 0,
                             expectation := none } }))
    ∧ (Due.timebaseHoldover ∈ s.due → 3 ≤ x.missCount →
      let u := { clearDue .timebaseHoldover s with
        timebase := { x with state := .holdover, rate := x.integral, believed := 0, expectation := none } }
      (x.state = .track → exec .timebaseHoldover s = .next (raise .timebaseState none 0x0204 u))
      ∧ (x.state = .locked → exec .timebaseHoldover s = .next (raise .timebaseState none 0x0304 u))) := by
  refine ⟨fun h state count => ?_, fun h state count => ?_, fun h state count => ?_,
    fun h count => ⟨fun state => ?_, fun state => ?_⟩⟩
  all_goals
    refine (next_dueRow _ s h).trans (congrArg _ ((if_pos ?_).trans ?_))
    on_goal 2 => exact enterTimebase_from (s := clearDue _ s) state nofun
  exacts [⟨state, count⟩, ⟨state, count⟩, ⟨state, count⟩, ⟨.inl state, count⟩, ⟨.inr state, count⟩]

/-- Settles O11: the counts, and a window that is not judged, that has a mark, or that is missed. -/
theorem windowsAndCountsMoveTheTimebase : Obligations.WindowsAndCountsMoveTheTimebase := by
  refine ⟨timebase_counts, fun s due => ?_⟩
  intro x judged missed misses b told
  refine ⟨_, exec_markerWindowEnd s due, ?_⟩
  have other (d : Due) (n : d ≠ .markerWindowEnd) : d ∈ (clearDue .markerWindowEnd s).due ↔ d ∈ s.due := by
    simp [mem_clearDue, n]
  by_cases j : judged
  · by_cases m : missed
    · rw [endWindow_missed (clearDue .markerWindowEnd s) j.1 j.2 m.2.1 m.2.2]
      have seen : SeenAlike (missWindow (clearDue .markerWindowEnd s)) told :=
        SeenAlike.trans (missWindow_seen _).symm ((clearDue_seen _ s).occur _ _ _)
      have count : satAdd s.timebase.missCount 1 255 = misses := by simp only [misses, j, m, satAdd]; rfl
      refine ⟨?_, ?_, ?_, ?_, ?_, ?_⟩
      · simp [count, x]
      · simp [m, seen.monitor]
      · simp [m, seen.port]
      · simp [mem_missWindow, other, m, count, or_comm, x]
      · simp [mem_missWindow, other, m, count, or_comm, x]
      · rw [missWindow_frame]; rfl
    · have marked : s.timebase.windowSkip = true ∨ s.timebase.windowMark = true := by
        by_contra h
        simp only [not_or, Bool.not_eq_true] at h
        exact m ⟨j, h⟩
      rw [endWindow_marked (clearDue .markerWindowEnd s) j.1 j.2 marked]
      simp [j, m, misses, other, x]
  · rw [endWindow_unjudged (clearDue .markerWindowEnd s) (by simpa [judged, or_iff_not_imp_left] using j)]
    have m : ¬ missed := fun h => j h.1
    simp [j, m, misses, other, x]
end Sys2Proof.Machine
end

