-- ==== Sys2Proof/Proofs/TrackedMarkers.lean ====
section
/-! PROOF. A valid marker up to the rule of the timebase state, and the loop update of TRACK and LOCKED. -/

namespace Sys2Proof.Machine
open Sys2Proof.Claims

/-! ### A valid marker, up to the rule of the timebase state -/

/-- A limited value in words of `max` and `min`. -/
theorem limitInt_eq (x lo hi : Int) (h : lo ≤ hi) : limitInt x lo hi = max lo (min hi x) := by
  unfold limitInt; split_ifs <;> omega

/-- A limited number in words of `max` and `min`. -/
theorem limitNat_eq (x lo hi : Nat) (h : lo ≤ hi) : limitNat x lo hi = max lo (min hi x) := by
  unfold limitNat; split_ifs <;> omega

/-- A limited rate (R2). -/
theorem limitRate_eq (x : Int) : limitRate x = max (-2 ^ 20) (min (2 ^ 20) x) :=
  limitInt_eq x _ _ (by decide)

/-- The epoch of a marker at full width is the one that R8 names. -/
theorem extendEpoch_eq {own : Nat} {field : Epoch32} {E : Nat} (h : extendsEpoch own field.toNat E) :
    extendEpoch own field = E := by
  obtain ⟨low, near, far⟩ := h
  have d : (field - BitVec.ofNat 32 own).toNat = (field.toNat + (2 ^ 32 - own % 2 ^ 32)) % 2 ^ 32 := by
    simp only [BitVec.toNat_sub, BitVec.toNat_ofNat]; omega
  simp only [extendEpoch, d]
  split_ifs <;> omega

/-- What every valid marker sets, before the rule of the timebase state (R7, R8, R21, R30). -/
def afterMarker (m : MarkerFields) (E : Nat) (s : State) : State :=
  { s with timebase := markerTaken m E s, selector := { s.selector with countdown := none } }

/-- A valid marker is taken by the rule of the timebase state, with the phase error of its extended epoch (R8). -/
theorem takeMarker_eq {m : MarkerFields} {C E : Nat} {s : State} (c : s.timebase.capture = some C)
    (x : extendsEpoch (C / 2 ^ 33) m.epoch.toNat E) :
    takeMarker m C s =
      let e : Int := (E * 2 ^ 33 : Nat) + s.timebase.settings.trim - C
      match s.timebase.state with
      | .free => markerInFree m.source e (afterMarker m E s)
      | .acquire => markerInAcquire e (afterMarker m E s)
      | .track | .locked => markerInTrack m.source e (afterMarker m E s)
      | .holdover => markerInHoldover m.source e (afterMarker m E s)
      | .source => s := by
  have own : C / 65536 / 131072 = C / 2 ^ 33 := by omega
  have error (T : Int) : phaseErrorOf C E T = (E * 2 ^ 33 : Nat) + T - C := by
    unfold phaseErrorOf; omega
  have set : afterMarker m E s = updSelector (fun x => { x with countdown := none }) (updTimebase (fun t =>
      { t with missCount := 0, windowMark := true, believed := m.source, lastEpoch := E % epochModulus,
               lastTarget := m.target, lastCountdown := m.countdown, capture := none,
               phaseError := keptError (phaseErrorOf C E s.timebase.settings.trim),
               expectation := expectationOf s.station.own m E }) s) := by
    simp only [afterMarker, markerTaken, updSelector, updTimebase, keptError, error, c, Option.getD_some, expectationOf,
      epochPlus, limitInt_eq _ (-9223372036854775808) 9223372036854775807 (by decide)]
    rfl
  rw [takeMarker, own, extendEpoch_eq x]
  simp only [← set, ← error]
  rfl

/-- A step that may fall due where nothing else is due. -/
theorem markIf_due_nil (c : Bool) (d : Due) (s : State) (h : s.due = []) :
    (markIf c d s).due = if c then [d] else [] := by
  cases c <;> simp [markIf, mark, h]

/-- The row of a valid marker that is taken in a quiet state (R7). -/
theorem exec_validMarker {word : BitVec 64} {m : MarkerFields} {C : Nat} {s : State} (q : quiet s = true)
    (r : readMarker word = some m) (c : s.timebase.capture = some C) (n : s.timebase.state ≠ .source) :
    exec (.validMarker word) s = .next (takeMarker m C s) :=
  congrArg _ ((outsideRow_quiet _ s q).trans (markerComplete_taken word m C s r c n))

/-- In a quiet state nothing is due. -/
theorem due_of_quiet {s : State} (q : quiet s = true) : s.due = [] := by
  simp only [quiet, Bool.and_eq_true, List.isEmpty_iff] at q; exact q.1

/-! ### Markers in TRACK and LOCKED -/

/-- Below the step threshold the loop is updated and the lock checked (R15, R16, R17). -/
theorem markerInTrack_loop (source : Nat) (e : Int) (s : State) (h : e.natAbs < s.timebase.settings.step * 65536) :
    markerInTrack source e s = lockCheck source e (updTimebase (loopUpdate e) s) := by
  have c : stepNeeded s.timebase e = false := by simpa [stepNeeded] using h
  simp [markerInTrack, c]

/-- In TRACK a phase error within the lock threshold lengthens the lock run, any other ends it (R17). -/
theorem lockCheck_track (source : Nat) (e : Int) (s : State) (h : s.timebase.state = .track) (d : s.due = []) :
    lockCheck source e s =
      let within := e.natAbs ≤ s.timebase.settings.lock
      { s with
        timebase := { s.timebase with lockRun := if within then min 8 (s.timebase.lockRun + 1) else 0 }
        due := if within ∧ 7 ≤ s.timebase.lockRun then [.lockAchieved] else [] } := by
  simp only [lockCheck, h]
  rw [markIf_frame, markIf_due_nil _ _ _ (by simpa using d)]
  by_cases w : e.natAbs ≤ s.timebase.settings.lock
  · have full : 8 ≤ s.timebase.lockRun + 1 ↔ 7 ≤ s.timebase.lockRun := by omega
    simp [w, full, updTimebase, h]
  · simp [w, updTimebase, h]

/-- In LOCKED a phase error within the alarm threshold changes nothing (R17). -/
theorem lockCheck_locked_within (source : Nat) (e : Int) (s : State) (h : s.timebase.state = .locked)
    (w : e.natAbs ≤ s.timebase.settings.alarm) : lockCheck source e s = s := by
  simp [lockCheck, h, w]

/-- In LOCKED a larger one raises PHASE_ALARM and the lock is lost (R17). -/
theorem lockCheck_locked_alarm (source : Nat) (e : Int) (s : State) (h : s.timebase.state = .locked)
    (w : s.timebase.settings.alarm < e.natAbs) :
    lockCheck source e s =
      let alarmed := raise .phaseAlarm (some source) (alarmDetail e) s
      raise .timebaseState none 0x0302 { alarmed with timebase := { s.timebase with state := .track, lockRun := 0 } } := by
  simp only [lockCheck, h, if_neg (Nat.not_le.mpr w)]
  have left : (raise .phaseAlarm (some source) (alarmDetail e) s).timebase.state = .locked := by simpa using h
  rw [enterTimebase_from (new := .track) left nofun, raise_timebase]
  rfl

/-- Settles O8: the loop update, then the lock check of TRACK or of LOCKED. -/
theorem trackedMarkersUpdateTheLoop : Obligations.TrackedMarkersUpdateTheLoop := by
  intro word m C E s q r c state ext x e small I A
  have notSource : s.timebase.state ≠ .source := by rcases state with h | h <;> simp [h]
  have taken : takeMarker m C s = lockCheck m.source e (updTimebase (loopUpdate e) (afterMarker m E s)) := by
    rw [← markerInTrack_loop m.source e (afterMarker m E s) small, takeMarker_eq c ext]
    rcases state with h | h <;> simp only [h] <;> rfl
  let u : State := { afterMarker m E s with timebase := { markerTaken m E s with integral := I, rate := A } }
  have looped : updTimebase (loopUpdate e) (afterMarker m E s) = u := by
    simp only [updTimebase, loopUpdate, limitRate_eq]; rfl
  have nodue : u.due = [] := due_of_quiet q
  refine ⟨_, (exec_validMarker q r c notSource).trans (congrArg _ (taken.trans (congrArg _ looped))), ?_⟩
  rcases state with h | h
  · rw [lockCheck_track m.source e u h nodue]
    simp [h, x, u, afterMarker, markerTaken]
  · by_cases w : e.natAbs ≤ x.settings.alarm
    · rw [lockCheck_locked_within m.source e u h w]
      simp [h, x, u, afterMarker, markerTaken, w, due_of_quiet q]
    · rw [lockCheck_locked_alarm m.source e u h (Nat.not_le.mp w)]
      have seen : SeenAlike s u := ⟨rfl, rfl, rfl, rfl, rfl, rfl⟩
      have fell := (seen.raise .phaseAlarm (some m.source) (alarmDetail e)).withTimebase
        { u.timebase with state := .track, lockRun := 0 } (by simp [u, markerTaken])
      refine ⟨?_, ?_, ?_, ?_⟩
      · simp [u]
      · simp [h, x]
      · exact fun _ => ⟨by simpa using nodue, fun within => absurd within w,
          fun _ => ⟨by simp, by simp, (fell.raise .timebaseState none 0x0302).port⟩⟩
      · rw [raise_frame, raise_frame]; rfl

end Sys2Proof.Machine
end

