-- ==== Sys2Proof/Proofs/PhaseSteps.lean ====
section
/-! PROOF. Phase steps: where rack time, the generators and what is due come to stand. -/

namespace Sys2Proof.Machine
open Sys2Proof.Claims

/-! ### Phase steps -/

/-- At or after, in words of the difference (00, Conventions). -/
theorem atOrAfter_iff {w : Nat} (a b : BitVec (w + 1)) : atOrAfter a b = true ↔ (a - b).toNat < 2 ^ w := by
  simp only [atOrAfter, BitVec.msb_eq_decide, Bool.not_eq_true', decide_eq_false_iff_not, Nat.not_le,
    Nat.add_sub_cancel]

/-- Rack time set to a total is that total modulo 2^96 (R1). -/
theorem rackTotal_setRack (total : Int) (t : Timebase) : (rackTotal (setRack total t) : Int) = total % 2 ^ 96 := by
  simp only [rackTotal, setRack, BitVec.toNat_ofInt]
  omega

/-- A phase step of `e` moves rack time by `e` fine units and keeps the bottom of the fraction (R10). -/
theorem steppedRack_setRack (e : Int) (t : Timebase) : SteppedRack e t (setRack (steppedTotal t e) t) := by
  refine ⟨rackTotal_setRack _ t, ?_⟩
  simp only [setRack, steppedTotal, rackTotal, BitVec.toNat_ofInt]
  omega

/-- A step that may fall due where it is not due yet. -/
theorem markIf_due (c : Bool) (d : Due) (s : State) (h : d ∉ s.due) :
    (markIf c d s).due = s.due ++ if c then [d] else [] := by
  cases c <;> simp [markIf, mark, h]

@[simp] theorem realignAll_timebase (s : State) : (realignAll s).timebase = s.timebase := rfl
@[simp] theorem realignAll_cable (s : State) : (realignAll s).cable = s.cable := rfl
@[simp] theorem realignAll_due (s : State) : (realignAll s).due = s.due := rfl

/-- The deadline of the hold-off is judged by the rack time and the interface alone (R60). -/
theorem holdOffReached_congr {s t : State} (x : s.timebase = t.timebase) (c : s.cable = t.cable) :
    holdOffReached s = holdOffReached t := by
  simp only [holdOffReached, x, c]

/-- A phase step where nothing is due (R10, R11, R60, R168). -/
theorem phaseStep_eq (e : Int) (s : State) (h : s.due = []) :
    phaseStep e s =
      let moved := setRack (steppedTotal s.timebase e) s.timebase
      { s with timebase := moved, gens := updAll s.gens (realign moved.ticks), due := stepDues e s } := by
  have deadline : holdOffReached { s with timebase := setRack (steppedTotal s.timebase e) s.timebase } = true
      ↔ s.cable.holdOff = true
        ∧ (BitVec.ofInt 48 (steppedTotal s.timebase e / 2 ^ 32) - s.cable.holdOffDeadline).toNat < 2 ^ 47 := by
    have low : ticks48 (setRack (steppedTotal s.timebase e) s.timebase)
        = BitVec.ofInt 48 (steppedTotal s.timebase e / 2 ^ 32) := by
      apply BitVec.eq_of_toNat_eq
      simp only [ticks48, setRack, BitVec.toNat_setWidth, BitVec.toNat_ofInt]
      omega
    rw [holdOffReached, Bool.and_eq_true, ← low]
    exact and_congr_right fun _ => atOrAfter_iff (w := 47) _ _
  have due : (phaseStep e s).due = stepDues e s := by
    simp only [phaseStep]
    rw [holdOffReached_congr (t := { s with timebase := setRack (steppedTotal s.timebase e) s.timebase }) (by simp)
      (by simp), markIf_due _ _ _ (by simp [mem_markIf, h]), markIf_due _ _ _ (by simp [mem_markIf, h]),
      markIf_due _ _ _ (by simp [h])]
    simp only [decide_eq_true_eq, deadline]
    simp only [realignAll_due, updTimebase_due, h, List.nil_append]
    rfl
  rw [← due]
  unfold phaseStep
  dsimp only
  rw [markIf_frame, markIf_frame, markIf_frame]
  rfl

/-- A marker that steps rack time and enters a timebase state: PHASE_STEP, TIMEBASE_STATE, the occurrence (R10, R12, R15,
R19). -/
def stepInto (new : TimebaseState) (f : Timebase → Timebase) (source : Nat) (e : Int) (s : State) : State :=
  countPhaseStep source (enterTimebase new f (raisePhaseStep source e (phaseStep e s)))

/-- Where a marker that steps rack time leaves what is due, the generators and the timebase, and what it leaves alone. -/
theorem stepInto_eq (new : TimebaseState) (f : Timebase → Timebase) (source : Nat) (e : Int) (s : State)
    (h : s.due = []) :
    let t := stepInto new f source e s
    let moved := setRack (steppedTotal s.timebase e) s.timebase
    t = { s with timebase := { f moved with state := new }, gens := updAll s.gens (realign moved.ticks)
                 monitor := t.monitor, port := t.port, due := stepDues e s } := by
  dsimp only
  unfold stepInto countPhaseStep
  rw [occur_frame, enterTimebase_frame, enterTimebase_timebase]
  unfold raisePhaseStep
  rw [raise_frame, phaseStep_eq e s h]

/-- The events and the occurrence of a marker that steps rack time, as the state it leaves would tell them. -/
theorem stepInto_seen (new : TimebaseState) (f : Timebase → Timebase) (source : Nat) (e : Int) (s : State)
    (keeps : ∀ t, (f t).ticks = t.ticks) (u : State) (seen : SeenAlike u (phaseStep e s)) :
    let stepped := raise .phaseStep (some source) (stepDetail e) u
    SeenAlike
      (occur .phaseStep (.peer source) 1
        (if s.timebase.state = new then stepped
          else raise .timebaseState none (timebaseDetail s.timebase.state new) stepped))
      (stepInto new f source e s) := by
  have raised := seen.raise .phaseStep (some source) (stepDetail e)
  have state : (raisePhaseStep source e (phaseStep e s)).timebase.state = s.timebase.state := by
    simp [raisePhaseStep, phaseStep, realignAll, setRack]
  refine SeenAlike.occur ?_ _ _ _
  have moved := raised.withTimebase { f (raisePhaseStep source e (phaseStep e s)).timebase with state := new }
    ((keeps _).trans raised.ticks)
  split
  · next same => rw [enterTimebase_same new f _ (state.trans same)]; exact moved
  · next other =>
    rw [enterTimebase_change new f _ (by rwa [state]), state]
    exact moved.raise _ _ _
end Sys2Proof.Machine
end

