-- ==== Sys2Proof/Proofs/SteppedMarkers.lean ====
section
/-! PROOF. The markers that step rack time with PHASE_STEP. -/

namespace Sys2Proof.Machine
open Sys2Proof.Claims

/-! ### Markers that move rack time -/

/-- What a valid marker that steps rack time with PHASE_STEP leaves, whatever timebase state it enters (R10, R11, R168,
R177). -/
theorem stepInto_afterMarker (new : TimebaseState) (f : Timebase → Timebase) (m : MarkerFields) (E : Nat) (e : Int)
    (s : State) (nodue : s.due = []) (keeps : ∀ t, (f t).ticks = t.ticks ∧ (f t).frac = t.frac) :
    let t := stepInto new f m.source e (afterMarker m E s)
    SteppedRack e s.timebase t.timebase
    ∧ (∀ g : Fin 2, t.gens[g] = realign t.timebase.ticks s.gens[g])
    ∧ t.due = stepDues e s
    ∧ t.timebase = { f { markerTaken m E s with ticks := t.timebase.ticks, frac := t.timebase.frac } with state := new }
    ∧ (let stepped := raise .phaseStep (some m.source) (stepDetail e) { s with timebase := t.timebase }
      let told := occur .phaseStep (.peer m.source) 1
        (if s.timebase.state = new then stepped
          else raise .timebaseState none (timebaseDetail s.timebase.state new) stepped)
      t.port = told.port ∧ t.monitor = told.monitor)
    ∧ t = { s with timebase := t.timebase, selector := { s.selector with countdown := none }, gens := t.gens
                   monitor := t.monitor, port := t.port, due := t.due } := by
  intro t
  have eq := stepInto_eq new f m.source e (afterMarker m E s) nodue
  have timebase := congrArg State.timebase eq
  have gens := congrArg State.gens eq
  have due := congrArg State.due eq
  dsimp only at timebase gens due
  have ticks := (congrArg Timebase.ticks timebase).trans (keeps _).1
  have frac := (congrArg Timebase.frac timebase).trans (keeps _).2
  have rack := steppedRack_setRack e (markerTaken m E s)
  have seen := stepInto_seen new f m.source e (afterMarker m E s) (fun t => (keeps t).1)
    { s with timebase := t.timebase }
    (by rw [phaseStep_eq e (afterMarker m E s) nodue]; exact ⟨ticks.symm, rfl, rfl, rfl, rfl, rfl⟩)
  refine ⟨?_, fun g => ?_, due, ?_, ⟨seen.port, seen.monitor⟩, ?_⟩
  · unfold SteppedRack rackTotal; rw [ticks, frac]; exact rack
  · rw [gens, ticks]; exact updAll_get _ _ _
  · rw [ticks, frac]; exact timebase
  · exact eq.trans (by rw [timebase, gens, due]; rfl)

/-- Settles O9: each timebase state steps rack time in its own way into the next one. -/
theorem steppedMarkersMoveRackTime : Obligations.SteppedMarkersMoveRackTime := by
  intro word m C E s q r c ext x e steps
  have notSource : s.timebase.state ≠ .source := by
    rcases steps with h | ⟨h | h | h, -⟩ <;> simp [x] at h <;> simp [h]
  have row := exec_validMarker q r c notSource
  rw [takeMarker_eq c ext] at row
  have needed (h : x.settings.step * 65536 ≤ e.natAbs) : stepNeeded (afterMarker m E s).timebase e = true := by
    simpa [stepNeeded, afterMarker, markerTaken] using h
  have detail : stepDetail e = BitVec.ofInt 16 (max (-32767) (min 32767 (e / 65536))) := by
    rw [stepDetail, limitInt_eq _ _ _ (by decide)]
  rw [← detail]
  have left := fun new f => stepInto_afterMarker new f m E e s (due_of_quiet q)
  rcases steps with h | ⟨h | h | h, big⟩
  all_goals simp only [x] at h; simp only [h] at row left
  · have l := left .acquire (fun t =>
      { t with rate := 0, integral := 0, searchStep := 524288, decisions := 0, lockRun := 0 }) fun _ => ⟨rfl, rfl⟩
    rw [if_neg nofun] at l
    simp only [x, h]
    exact ⟨_, row, l⟩
  · have l := left .track (fun t => { t with rate := t.integral, lockRun := 0 }) fun _ => ⟨rfl, rfl⟩
    rw [if_pos rfl] at l
    simp only [x, h]
    exact ⟨_, row.trans (congrArg _ (if_pos (needed big))), l⟩
  · have l := left .track (fun t => { t with rate := t.integral, lockRun := 0 }) fun _ => ⟨rfl, rfl⟩
    rw [if_neg nofun] at l
    simp only [x, h]
    exact ⟨_, row.trans (congrArg _ (if_pos (needed big))), l⟩
  · have l := left .track (fun t => { t with lockRun := 0 }) fun _ => ⟨rfl, rfl⟩
    rw [if_neg nofun] at l
    simp only [x, h]
    exact ⟨_, row.trans (congrArg _ (if_pos (needed big))), l⟩
end Sys2Proof.Machine
end

