-- ==== Sys2Proof/Proofs/Acquisition.lean ====
section
/-! PROOF. The markers of ACQUIRE, and the end of HOLDOVER. -/

namespace Sys2Proof.Machine
open Sys2Proof.Claims

/-- No phase step makes the end of acquisition fall due (R11, R60). -/
theorem not_mem_stepDues_complete (e : Int) (s : State) : Due.acquisitionComplete ∉ stepDues e s := by
  unfold stepDues; dsimp only; split_ifs <;> simp

/-- The rate after an acquisition decision (R13). -/
theorem decide13_eq (rate e : Int) (step : Nat) :
    decide13 rate e step = rate + (if 0 < e then (step : Int) else if e < 0 then -step else 0) := by
  unfold decide13; split_ifs <;> omega

/-- A marker in ACQUIRE where nothing is due: the decision, the re-centring, the end of acquisition (R10, R13). -/
theorem markerInAcquire_eq (e : Int) (s : State) (h : s.due = []) :
    markerInAcquire e s =
      let moved := setRack (steppedTotal s.timebase e) s.timebase
      { s with
        timebase := { moved with
          rate := decide13 s.timebase.rate e s.timebase.searchStep, searchStep := s.timebase.searchStep / 2
          decisions := s.timebase.decisions + 1 }
        gens := updAll s.gens (realign moved.ticks)
        due := stepDues e s ++ if 20 ≤ s.timebase.decisions + 1 then [.acquisitionComplete] else [] } := by
  let decided : State := updTimebase (fun t => { t with rate := decide13 t.rate e t.searchStep }) s
  have moved := phaseStep_eq e decided h
  have rest : (updTimebase (fun t => { t with searchStep := t.searchStep / 2, decisions := t.decisions + 1 })
      (phaseStep e decided)).due = stepDues e s := by
    rw [moved]; rfl
  unfold markerInAcquire
  dsimp only
  rw [markIf_frame, markIf_due _ _ _ (by rw [rest]; exact not_mem_stepDues_complete e s), rest, moved]
  simp only [decide_eq_true_eq]
  rfl

/-- Settles O10: the decision of ACQUIRE, and the marker that ends HOLDOVER below the step threshold. -/
theorem acquisitionDecidesHoldoverEnds : Obligations.AcquisitionDecidesHoldoverEnds := by
  intro word m C E s q r c ext x e y
  have nodue : (afterMarker m E s).due = [] := due_of_quiet q
  refine ⟨fun h => ?acquire, fun h small => ?holdover⟩
  all_goals
    have row := exec_validMarker q r c (by simp only [x] at h; simp [h])
    rw [takeMarker_eq c ext] at row
    simp only [x] at h
    simp only [h] at row
  case acquire =>
    rw [markerInAcquire_eq e (afterMarker m E s) nodue, decide13_eq] at row
    exact ⟨_, row, steppedRack_setRack e (markerTaken m E s), fun g => updAll_get _ _ _, rfl, rfl, rfl⟩
  case holdover =>
    have c : ¬ stepNeeded (afterMarker m E s).timebase e = true := by
      simpa [stepNeeded, afterMarker, markerTaken] using small
    have entered : markerInHoldover m.source e (afterMarker m E s)
        = raise .timebaseState none 0x0402
            { afterMarker m E s with timebase := { y with state := .track, lockRun := 0 } } :=
      (if_neg c).trans (enterTimebase_from (new := .track) (s := afterMarker m E s) h nofun)
    have seen : SeenAlike s { afterMarker m E s with timebase := { y with state := .track, lockRun := 0 } } :=
      ⟨rfl, rfl, rfl, rfl, rfl, rfl⟩
    refine ⟨_, row.trans (congrArg _ entered), ?_, (seen.raise _ _ _).port, ?_, ?_⟩
    · simp
    · simpa using nodue
    · rw [raise_frame]; simp [afterMarker, due_of_quiet q]
end Sys2Proof.Machine
end

