-- ==== Sys2Proof/Proofs/Requests.lean ====
section
/-! PROOF. Fields laid out one after the other, requests in a part that is ready; SETUP and SERVICE. -/

namespace Sys2Proof.Machine
open Sys2Proof.Claims

/-! ### Fields laid out one after the other (R205, R213) -/

/-- A field of `n` bytes has `n` bytes. -/
@[simp] theorem length_beBytes (n v : Nat) : (beBytes n v).length = n := by
  induction n with
  | zero => rfl
  | succ n ih => simp [beBytes, ih]

/-- The value read so far stands in front of the bytes to come. -/
theorem beNat_cons (b : Byte) (bs : List Byte) : beNat (b :: bs) = b.toNat * 256 ^ bs.length + beNat bs := by
  have key (bs : List Byte) (a : Nat) :
      bs.foldl (fun acc b => acc * 256 + b.toNat) a = a * 256 ^ bs.length + beNat bs := by
    induction bs generalizing a with
    | nil => simp [beNat]
    | cons c rest ih => simp only [beNat, List.foldl_cons, ih (_ * _ + _), List.length_cons]; ring
  simpa [beNat] using key bs b.toNat

/-- A field of `n` bytes reads as the low `8 n` bits of its value. -/
theorem beNat_beBytes (n v : Nat) : beNat (beBytes n v) = v % 256 ^ n := by
  induction n with
  | zero => simp [beBytes, beNat, Nat.mod_one]
  | succ n ih =>
    rw [beBytes, beNat_cons, ih, length_beBytes, BitVec.toNat_ofNat, show 256 ^ (n + 1) = 256 ^ n * 256 from rfl,
      Nat.mod_mul, Nat.mul_comm, Nat.add_comm]

/-- The value of a string of bytes is below 256 to its length. -/
theorem beNat_lt (bs : List Byte) : beNat bs < 256 ^ bs.length := by
  induction bs with
  | nil => simp [beNat]
  | cons b rest ih =>
    have top : (b.toNat + 1) * 256 ^ rest.length ≤ 256 * 256 ^ rest.length := Nat.mul_le_mul_right _ b.isLt
    rw [beNat_cons, List.length_cons, Nat.pow_succ, Nat.mul_comm (256 ^ _) 256]
    linarith

/-- A field of `n` bytes is below `256 ^ n`. -/
theorem field_lt (bs : List Byte) (start n : Nat) : field bs start n < 256 ^ n :=
  lt_of_lt_of_le (beNat_lt _) (Nat.pow_le_pow_right (by decide) (by simp [fieldBytes]))

/-- A field of a record, from what stands before it and behind it. -/
theorem field_middle (before bytes after : List Byte) :
    field (before ++ (bytes ++ after)) before.length bytes.length = beNat bytes := by
  simp [field, fieldBytes]

/-- These fields, each in its bytes, one after the other. -/
def laid (fields : List (Nat × Nat)) : List Byte := fields.flatMap fun f => beBytes f.1 f.2

@[simp] theorem laid_nil : laid [] = [] := rfl

@[simp] theorem laid_cons (n v : Nat) (fields : List (Nat × Nat)) : laid ((n, v) :: fields) = beBytes n v ++ laid fields :=
  rfl

@[simp] theorem laid_append (a b : List (Nat × Nat)) : laid (a ++ b) = laid a ++ laid b := by simp [laid]

/-- Fields laid out from an offset on are read there. -/
theorem laidOut_append (before : List Byte) (fields : List (Nat × Nat)) :
    laidOut (before ++ laid fields) before.length fields := by
  induction fields generalizing before with
  | nil => simp [laidOut]
  | cons f rest ih =>
    obtain ⟨n, v⟩ := f
    refine ⟨?_, ?_⟩
    · have read := field_middle before (beBytes n v) (laid rest)
      rwa [length_beBytes, beNat_beBytes] at read
    · have behind := ih (before ++ beBytes n v)
      rwa [List.length_append, length_beBytes, List.append_assoc] at behind

/-- A record of these fields is laid out so. -/
theorem laidOut_laid (fields : List (Nat × Nat)) : laidOut (laid fields) 0 fields := laidOut_append [] fields

/-- A field of one byte. -/
theorem byteOf_eq (n : Nat) : byteOf n = beBytes 1 n := by simp [byteOf, beBytes]

/-- A flag as a field of one byte. -/
theorem flagOf_eq (b : Bool) : flagOf b = beBytes 1 (flagValue b) := by cases b <;> rfl

/-! ### Requests in a part that is ready -/

/-- The row of a request that makes no access to the block store, where nothing is due and none is held (R191). -/
theorem exec_request {c : Instr} {s : State} (row : exec c s = .next (requestRow c s)) (r : Ready s)
    (n : needsStore c s = false) :
    exec c s = .next (answer (setTransaction .waiting s) (replyOf c (setTransaction .waiting s))) := by
  rw [row, requestRow_noAccess c s r.1 r.2 n, handleNow, grantStore_noAccess c s n, answerNow]

/-- A request that is taken leaves what its reply leaves, with its response ready. -/
theorem taken_of_reply {c : Instr} {s t : State} {body : List Byte} (row : exec c s = .next (requestRow c s))
    (r : Ready s) (n : needsStore c s = false)
    (reply : replyOf c (setTransaction .waiting s) = .taken body (setTransaction .waiting t)) : Taken c s body t := by
  rw [Taken, exec_request row r n, reply, answer, respond_waiting _ _ _ rfl]
  rfl

/-- A request that is refused leaves nothing but its response. -/
theorem refused_of_reply {c : Instr} {s : State} {status : Status} (row : exec c s = .next (requestRow c s))
    (r : Ready s) (n : needsStore c s = false)
    (reply : replyOf c (setTransaction .waiting s) = .refused status) : RefusedWith c s status := by
  rw [RefusedWith, exec_request row r n, reply, answer, respond_waiting _ _ _ rfl]
  rfl

/-- A body of the length of its kind comes to the owning rule (R193, R211). -/
theorem checked_ok {fits : List Byte → Bool} (act : List Byte → State → Reply) {body : List Byte} (s : State)
    (h : fits body = true) (l : body.length ≤ 1536) : checked fits act body s = act body s := by
  rw [checked, if_neg]
  simp [h, l]

/-! ### SETUP and SERVICE -/

/-- The effective settings of a SETUP (R5). -/
theorem setupSettings_eq (body : List Byte) :
    setupSettings body =
      let lock := max 1 (min (2 ^ 24) (field body 2 4))
      { p := min 15 (field body 0 1), i := min 15 (field body 1 1), lock := lock,
        alarm := max lock (min (2 ^ 28) (field body 6 4)), step := max 1 (min 16383 (field body 10 2)),
        trim := max (-2 ^ 20) (min (2 ^ 20) (BitVec.ofNat 32 (field body 12 4)).toInt) } := by
  simp (disch := omega) only [setupSettings, signed32, field, limitNat_eq, limitInt_eq]
  rfl

/-- The echo of a SETUP, as fields in the layout of the request (R212). -/
theorem setupEcho_laid (t : Settings) (v : Nat) :
    setupEcho t v = laid [(1, t.p), (1, t.i), (4, t.lock), (4, t.alarm), (2, t.step),
      (4, (t.trim % (256 ^ 4 : Nat)).toNat), (1, v)] := by
  simp [setupEcho, byteOf_eq, beSigned]

/-- A signed field of 4 bytes holds every trim (R5). -/
theorem signed_field (x : Int) (l : -2 ^ 20 ≤ x) (h : x ≤ 2 ^ 20) (n : Nat)
    (e : n = (x % (256 ^ 4 : Nat)).toNat % 256 ^ 4) : (BitVec.ofNat 32 n).toInt = x := by
  rw [BitVec.toInt_ofNat']
  subst e
  simp only [Int.bmod]
  omega

/-- Settles O28. -/
theorem setupLimitsAndServiceRevives : Obligations.SetupLimitsAndServiceRevives := by
  intro body s r len lock want served
  have fits : exactly 17 body = true := by simp [exactly, len]
  have reply : replyOf (.setup body) (setTransaction .waiting s) = setupAct body (setTransaction .waiting s) :=
    checked_ok setupAct _ fits (by omega)
  have effective : setupSettings body = want := setupSettings_eq body
  refine ⟨fun off => ?taken, fun on => ?refused, ?service⟩
  case refused => exact refused_of_reply rfl r rfl (reply.trans (if_neg on))
  case service => exact taken_of_reply rfl r rfl rfl
  case taken =>
    refine ⟨setupEcho want (field body 16 1), ?_, ?_⟩
    · refine taken_of_reply rfl r rfl (reply.trans ((if_pos off).trans ?_))
      rw [effective]; rfl
    · have laid := laidOut_laid [(1, want.p), (1, want.i), (4, want.lock), (4, want.alarm), (2, want.step),
        (4, (want.trim % (256 ^ 4 : Nat)).toNat), (1, field body 16 1)]
      rw [← setupEcho_laid] at laid
      obtain ⟨p, i, L, W, S, T, V, n⟩ := laid
      refine ⟨n, p.trans (Nat.mod_eq_of_lt ?_), i.trans (Nat.mod_eq_of_lt ?_), L.trans (Nat.mod_eq_of_lt ?_),
        W.trans (Nat.mod_eq_of_lt ?_), S.trans (Nat.mod_eq_of_lt ?_), signed_field want.trim ?_ ?_ _ T,
        V.trans (Nat.mod_eq_of_lt (field_lt body 16 1))⟩
      all_goals simp only [want, lock]; omega
end Sys2Proof.Machine
end

