-- ==== Sys2Proof/Proofs/SlotTick.lean ====
section
/-! PROOF. A slot tick at the monitor, the compares and the engines. -/

namespace Sys2Proof.Machine
open Sys2Proof.Claims

/-! ### A slot tick at the compares and the engines -/

/-- The compares' part of a slot tick changes what is due alone. -/
theorem tickCompares_frame (ks : List (Fin 4)) (s : State) :
    ks.foldl tickCompare s = { s with due := (ks.foldl tickCompare s).due } :=
  foldl_keeps (fun s t => t = { s with due := t.due }) tickCompare (fun _ => rfl)
    (fun a b c p q => by rw [q, p]) (fun s k => markIf_frame _ _ s) ks s

/-- What the compares' part of a slot tick makes fall due (R172). -/
theorem mem_tickCompares (ks : List (Fin 4)) (s : State) (d : Due) :
    d ∈ (ks.foldl tickCompare s).due
      ↔ d ∈ s.due ∨ ∃ k ∈ ks, d = .compareFired k ∧ compareReached s.timebase s.compares[k] = true := by
  induction ks generalizing s with
  | nil => simp
  | cons k rest ih =>
    rw [List.foldl_cons, ih]
    simp only [tickCompare, mem_markIf, markIf_timebase, markIf_compares, List.mem_cons, exists_eq_or_imp]
    tauto

/-- What a slot tick makes fall due at an engine (R146, R149). -/
def tickBrings (t : Timebase) (e : Fin 4) (x : Engine) (d : Due) : Prop :=
  (d = .engine e ∧ (x.run = .run ∨ x.run = .aligning ∧ slotInEpoch t = 0))
    ∨ (d = .holdEnd e ∧ x.run = .holding ∧ holdRunsOut x = true)

/-- A slot tick at one engine: a hold counts it (R149). -/
theorem tickEngine_engines (s : State) (e : Fin 4) :
    (tickEngine s e).engines = if s.engines[e].run = .holding then upd s.engines e countHold else s.engines := by
  unfold tickEngine; dsimp only; split <;> simp_all

/-- A slot tick at one engine: what falls due. -/
theorem mem_tickEngine (s : State) (e : Fin 4) (d : Due) :
    d ∈ (tickEngine s e).due ↔ d ∈ s.due ∨ tickBrings s.timebase e s.engines[e] d := by
  unfold tickEngine tickBrings
  dsimp only
  split <;> simp_all [mem_mark, mem_markIf, or_comm, and_comm]

/-- A slot tick at one engine: what it can change. -/
theorem tickEngine_frame (s : State) (e : Fin 4) :
    tickEngine s e = { s with engines := (tickEngine s e).engines, due := (tickEngine s e).due } := by
  unfold tickEngine; dsimp only; split
  · rfl
  · rw [mark_frame]
  · rw [markIf_frame]
  · rw [markIf_frame]; rfl

/-- The engines' part of a slot tick, over engines that stand in a list once each. -/
theorem tickEngines (es : List (Fin 4)) (s : State) (n : es.Nodup) :
    let t := es.foldl tickEngine s
    t = { s with engines := t.engines, due := t.due }
    ∧ (∀ e, t.engines[e] = if e ∈ es ∧ s.engines[e].run = .holding then countHold s.engines[e] else s.engines[e])
    ∧ ∀ d, d ∈ t.due ↔ d ∈ s.due ∨ ∃ e ∈ es, tickBrings s.timebase e s.engines[e] d := by
  induction es generalizing s with
  | nil => simp
  | cons x rest ih =>
    obtain ⟨notIn, n⟩ := List.nodup_cons.mp n
    obtain ⟨frame, engines, due⟩ := ih (tickEngine s x) n
    have timebase : (tickEngine s x).timebase = s.timebase := by rw [tickEngine_frame]
    have one (e : Fin 4) : (tickEngine s x).engines[e]
        = if e = x ∧ s.engines[e].run = .holding then countHold s.engines[e] else s.engines[e] := by
      rw [tickEngine_engines]
      by_cases h : s.engines[x].run = .holding
      · rw [if_pos h, upd_get_if]
        by_cases same : e = x
        · subst same; rw [if_pos rfl, if_pos ⟨rfl, h⟩]
        · rw [if_neg same, if_neg fun c => same c.1]
      · rw [if_neg h, if_neg]
        rintro ⟨rfl, c⟩
        exact h c
    have other (e : Fin 4) (h : e ∈ rest) : (tickEngine s x).engines[e] = s.engines[e] := by
      rw [one, if_neg]
      rintro ⟨rfl, -⟩
      exact notIn h
    refine ⟨?_, fun e => ?_, fun d => ?_⟩
    · rw [List.foldl_cons, frame, tickEngine_frame]
    · rw [List.foldl_cons, engines]
      by_cases here : e = x
      · subst here
        rw [if_neg fun c => notIn c.1, one]
        simp
      · by_cases later : e ∈ rest
        · rw [other e later]; simp [later]
        · rw [if_neg fun c => later c.1, one, if_neg fun c => here c.1, if_neg]
          simp [here, later]
    · rw [List.foldl_cons, due, mem_tickEngine, timebase, or_assoc]
      simp only [List.mem_cons, exists_eq_or_imp]
      refine or_congr_right (or_congr_right (exists_congr fun e => and_congr_right fun later => ?_))
      rw [other e later]

/-- What a slot tick leaves: the monitor is told first (R177), then the compares and the engines see the tick. -/
theorem slotWork_eq (s : State) :
    let told := occur .slotTick .none 1 s
    let t := slotWork s
    t = { s with engines := t.engines, monitor := told.monitor, port := told.port, due := t.due }
    ∧ (∀ e : Fin 4, t.engines[e] = if s.engines[e].run = .holding then countHold s.engines[e] else s.engines[e])
    ∧ ∀ d, d ∈ t.due ↔ d ∈ s.due ∨ (∃ k, d = .compareFired k ∧ compareReached s.timebase s.compares[k] = true)
        ∨ ∃ e, tickBrings s.timebase e s.engines[e] d := by
  have told := occur_frame .slotTick .none 1 s
  unfold slotWork
  dsimp only
  generalize occur .slotTick .none 1 s = u at *
  have compares := tickCompares_frame (List.finRange 4) u
  have compareDue := mem_tickCompares (List.finRange 4) u
  generalize (List.finRange 4).foldl tickCompare u = v at *
  obtain ⟨frame, hold, engineDue⟩ := tickEngines (List.finRange 4) v (List.nodup_finRange 4)
  generalize (List.finRange 4).foldl tickEngine v = t at *
  have engines : v.engines = s.engines := by rw [compares, told]
  have timebase : v.timebase = s.timebase := by rw [compares, told]
  refine ⟨?_, fun e => ?_, fun d => ?_⟩
  · rw [frame, compares, told]
  · rw [hold e, engines]; simp
  · rw [engineDue, engines, timebase, compareDue]
    have due : u.due = s.due := by rw [told]
    have same : u.compares = s.compares ∧ u.timebase = s.timebase := by rw [told]; exact ⟨rfl, rfl⟩
    simp [due, same, or_assoc]

/-- The row of a slot tick that is due. -/
theorem exec_slotTick (s : State) (h : Due.slotTick ∈ s.due) :
    exec .slotTick s = .next (slotWork (clearDue .slotTick s)) := by
  rw [exec, execSlotTick, clockRow_due _ _ _ _ s h]

/-- A compare is reached at or after its target, modulo 2^38 (R172). -/
theorem compareReached_iff (t : Timebase) (c : Compare) :
    compareReached t c = true ↔ c.state = .armed ∧ (slot38 t - c.target).toNat < 2 ^ 37 := by
  rw [compareReached, Bool.and_eq_true, beq_iff_eq]
  exact and_congr_right fun _ => atOrAfter_iff (w := 37) _ _

/-- Settles O51. -/
theorem slotTickReachesComparesAndEngines : Obligations.SlotTickReachesComparesAndEngines := by
  intro s h
  have row := exec_slotTick s h
  obtain ⟨frame, hold, due⟩ := slotWork_eq (clearDue .slotTick s)
  have told := (clearDue_seen .slotTick s).occur .slotTick .none 1
  generalize slotWork (clearDue .slotTick s) = t at *
  refine ⟨t, row, hold, fun k => ?_, fun e => ?_, fun e => ?_, fun d notCompare notEngine => ?_, ?_, ?_⟩
  · rw [due]; simp [mem_clearDue, tickBrings, compareReached_iff]
  · rw [due]; simp [mem_clearDue, tickBrings, slotInEpoch, slotCount]
  · simp only [due, tickBrings, holdRunsOut, unitEnds, Bool.and_eq_true, decide_eq_true_eq]; simp [mem_clearDue]
  · rw [due, mem_clearDue]
    simp [tickBrings, notCompare, notEngine]
  · rw [frame]; exact ⟨told.monitor.symm, told.port.symm⟩
  · have monitor := congrArg State.monitor frame
    have port := congrArg State.port frame
    rw [monitor, port]
    exact frame
end Sys2Proof.Machine
end

