-- ==== Sys2Proof/Proofs/BurstEnds.lean ====
section
/-! PROOF. What the end of a bound burst and a cut can change, and that events enter behind those that wait. -/

namespace Sys2Proof.Machine
open Sys2Proof.Claims

/-! ### What the end of a bound burst and a cut can change -/

/-- A pull that is served: what it can change (R122). -/
theorem servePull_frame (k : Fin 16) (s : State) :
    servePull k s = { s with pubs := (servePull k s).pubs, txQueue := (servePull k s).txQueue
                             monitor := (servePull k s).monitor, port := (servePull k s).port } := by
  unfold servePull; split
  · rw [enqueue_frame]; rfl
  · rfl

/-- A commit that is made: what it can change (R113). -/
theorem makeCommit_frame (k : Fin 16) (s : State) :
    makeCommit k s = { s with pubs := (makeCommit k s).pubs, txQueue := (makeCommit k s).txQueue
                              monitor := (makeCommit k s).monitor, port := (makeCommit k s).port } := by
  unfold makeCommit
  dsimp only
  cases (commitBlock s k).gap <;> dsimp only
  · split
    · rw [servePull_frame]; rfl
    · rfl
  · split
    · rw [servePull_frame, raise_frame]; rfl
    · rw [raise_frame]; rfl

/-- A pending commit that is made: what it can change (R117). -/
theorem completeCommit_frame (k : Fin 16) (s : State) :
    completeCommit k s = { s with pubs := (completeCommit k s).pubs, txQueue := (completeCommit k s).txQueue
                                  monitor := (completeCommit k s).monitor, port := (completeCommit k s).port } := by
  unfold completeCommit; split
  · exact makeCommit_frame k s
  · rfl

/-- The end of a bound burst: the binding is released, and a pending commit made (R117). -/
theorem endBinding_frame (sent : Bool) (s : State) :
    endBinding sent s = { s with
      pubs := (endBinding sent s).pubs, txQueue := (endBinding sent s).txQueue
      monitor := (endBinding sent s).monitor, port := (endBinding sent s).port
      cable := { s.cable with binding := none } } := by
  unfold endBinding; split
  · next h => rw [← h]
  · rw [completeCommit_frame]; dsimp only; split <;> rfl

/-- The interface after a cut (R61): a claim, a burst or an abort pattern in progress ends in GUARD. -/
def cutCable (c : Cable) : Cable :=
  match c.state with
  | .claiming | .sending | .aborting =>
    { c with state := .guard, guardCount := 0, claim := none, flight := none, binding := none }
  | .off | .guard | .idle | .receiving => c

/-- A cut: what it can change (R61). -/
theorem cutBurst_frame (s : State) :
    cutBurst s = { s with
      pubs := (cutBurst s).pubs, txQueue := (cutBurst s).txQueue, monitor := (cutBurst s).monitor
      port := (cutBurst s).port, cable := cutCable s.cable } := by
  have cut : enterGuard (updCable (fun c => { c with claim := none, flight := none }) (endBinding false s)) = { s with
      pubs := (endBinding false s).pubs, txQueue := (endBinding false s).txQueue
      monitor := (endBinding false s).monitor, port := (endBinding false s).port
      cable := { s.cable with state := .guard, guardCount := 0, claim := none, flight := none, binding := none } } := by
    unfold enterGuard updCable
    rw [endBinding_frame]
  cases h : s.cable.state <;> simp only [cutBurst, cutCable, h]
  all_goals rw [cut]

/-- The loss of the drivers (R60, R65, R73). -/
theorem leaveDrivers_frame (s : State) :
    leaveDrivers s = { s with
      pubs := (leaveDrivers s).pubs, txQueue := [], monitor := (leaveDrivers s).monitor
      port := (leaveDrivers s).port, cable := { cutCable s.cable with holdOff := false }
      station := { s.station with freshPending := false, retireSent := false, clash := 0, retireTimer := 0 } } := by
  unfold leaveDrivers updStation updCable
  dsimp only
  rw [cutBurst_frame]

/-! ### Events enter behind those that wait -/

/-- An event enters last (R198). -/
theorem raise_prefix (k : EventKind) (n : Option Nat) (d : BitVec 16) (s : State) :
    s.port.events <+: (raise k n d s).port.events := by
  rcases raise_port k n d s with ⟨e, -, -⟩ | ⟨e, -, -⟩
  · exact e ▸ List.prefix_append _ _
  · exact e ▸ List.prefix_refl _

/-- A fold of changes whose events enter last. -/
theorem foldl_prefix {α : Type} (f : State → α → State) (one : ∀ s x, s.port.events <+: (f s x).port.events)
    (xs : List α) (s : State) : s.port.events <+: (xs.foldl f s).port.events :=
  foldl_keeps (fun s t => s.port.events <+: t.port.events) f (fun _ => List.prefix_refl _)
    (fun _ _ _ => List.IsPrefix.trans) one xs s

/-- The MONITOR_OVERFLOW of an overflow enters last (R185). -/
theorem overflow_prefix (i : Fin 4) (x : Subject) (s : State) : s.port.events <+: (overflow i x s).port.events := by
  have told (t : State) : t.port.events <+: (notifyOverflow i x t).port.events := by
    refine List.IsPrefix.trans ?_ (raise_prefix .monitorOverflow (some i.val) _ _)
    rfl
  have both (t : State) : t.port.events
      <+: (if t.monitor.counters[i].notify then notifyOverflow i x t else t).port.events := by
    split
    · exact told t
    · exact List.prefix_refl _
  unfold overflow
  by_cases first : i.val = 0
  · simp only [if_pos first]; exact both (openGates s)
  · simp only [if_neg first]; exact both s

/-- So do those of an occurrence. -/
theorem occur_prefix (k : OccKind) (x : Subject) (n : Nat) (s : State) :
    s.port.events <+: (occur k x n s).port.events := by
  unfold occur
  dsimp only
  split
  · exact List.prefix_refl _
  · exact (foldl_prefix (fun t i => countUp n i t) (fun _ _ => List.prefix_refl _) _ s).trans
      (foldl_prefix (fun t i => overflow i x t) (fun t i => overflow_prefix i x t) _ _)

/-- So does that of a merging enqueue (R55). -/
theorem enqueue_prefix (k : EntryKind) (s : State) : s.port.events <+: (enqueue k s).port.events := by
  unfold enqueue
  split_ifs
  · split
    · exact occur_prefix _ _ _ s
    · exact List.prefix_refl _
  all_goals exact List.prefix_refl _
end Sys2Proof.Machine
end

