-- ==== Sys2Proof/Proofs/ReceiversOff.lean ====
section
/-! PROOF. The parts of a change of station state: the timebase states, the receiver-off entry, the score. -/

namespace Sys2Proof.Machine
open Sys2Proof.Claims

/-! ### The parts of a change of station state -/

/-- The events of a pull that is served enter last. -/
theorem servePull_prefix (k : Fin 16) (s : State) : s.port.events <+: (servePull k s).port.events := by
  unfold servePull
  split
  · exact enqueue_prefix _ (updPub k (fun p => { p with pullPending := false }) s)
  · exact List.prefix_refl _

/-- The events of a commit enter last. -/
theorem makeCommit_prefix (k : Fin 16) (s : State) : s.port.events <+: (makeCommit k s).port.events := by
  have served (t : State) :
      t.port.events <+: (if t.pubs[k].state = .active then servePull k t else t).port.events := by
    split
    · exact servePull_prefix k t
    · exact List.prefix_refl _
  have noted (block : Block) (t : State) : t.port.events <+: (match block.gap with
      | some g => raise .sourceGap (some k.val) (BitVec.ofNat 16 g) t
      | none => t).port.events := by
    split
    · exact raise_prefix _ _ _ t
    · exact List.prefix_refl _
  exact (noted (commitBlock s k) (updPub k _ s)).trans (served _)

/-- The events of the end of a bound burst enter last. -/
theorem endBinding_prefix (sent : Bool) (s : State) : s.port.events <+: (endBinding sent s).port.events := by
  have completed (k : Fin 16) (t : State) : t.port.events <+: (completeCommit k t).port.events := by
    unfold completeCommit
    split
    · exact makeCommit_prefix k t
    · exact List.prefix_refl _
  unfold endBinding
  split
  · exact List.prefix_refl _
  · next k e =>
    refine List.IsPrefix.trans ?_ (completed k _)
    split <;> exact List.prefix_refl _

/-- The events of the loss of the drivers enter last. -/
theorem leaveDrivers_prefix (s : State) : s.port.events <+: (leaveDrivers s).port.events := by
  have cut : s.port.events <+: (cutBurst s).port.events := by
    unfold cutBurst
    cases s.cable.state with
    | claiming => exact endBinding_prefix false s
    | sending => exact endBinding_prefix false s
    | aborting => exact endBinding_prefix false s
    | off => exact List.prefix_refl _
    | guard => exact List.prefix_refl _
    | idle => exact List.prefix_refl _
    | receiving => exact List.prefix_refl _
  exact cut

/-! ### The receivers go off (R22) -/

/-- The receiver-off entry: the timebase unit. -/
theorem receiverOff_timebase (s : State) : ReceiversOff s.timebase (receiverOff s).timebase := by
  cases h : s.timebase.state <;> simp [receiverOff, h, ReceiversOff, receiverOffCommon, leaveRole]

/-- The receiver-off entry: the selector loses what a SOURCE holds. -/
theorem receiverOff_selector (s : State) : (receiverOff s).selector = selectorOff s := by
  cases h : s.timebase.state <;> simp [receiverOff, h, selectorOff, leaveRole]

/-- The receiver-off entry: what it can change. -/
theorem receiverOff_frame (s : State) :
    receiverOff s = { s with timebase := (receiverOff s).timebase, selector := selectorOff s
                             port := (receiverOff s).port } := by
  rw [← receiverOff_selector]
  unfold receiverOff
  split
  all_goals rw [enterTimebase_frame]
  unfold leaveRole updSelector
  rw [failHandover_frame]

/-- A handover that fails raises HANDOVER_FAIL for a record that is held (R38). -/
theorem failHandover_seen {u s : State} (h : SeenAlike u s) (cause : Nat) :
    SeenAlike (raised (match s.selector.record with
      | none => []
      | some r => [(.handoverFail, some r.target, BitVec.ofNat 16 cause)]) u) (failHandover cause s) := by
  unfold failHandover
  cases s.selector.record with
  | none => exact h
  | some r =>
    exact SeenAlike.raise (t := updSelector (fun x => { x with record := none }) s)
      ⟨h.ticks, h.roster, h.pubs, h.subs, h.monitor, h.port⟩ _ _ _

/-- Another timebase state raises TIMEBASE_STATE (R24). -/
theorem enterTimebase_seen {u s : State} (h : SeenAlike u s) {old new : TimebaseState} (f : Timebase → Timebase)
    (left : s.timebase.state = old) (n : old ≠ new) (keeps : ∀ t, (f t).ticks = t.ticks) :
    SeenAlike (raise .timebaseState none (timebaseDetail old new) u) (enterTimebase new f s) := by
  rw [enterTimebase_from left n]
  exact (h.withTimebase { f s.timebase with state := new } ((keeps _).trans h.ticks)).raise _ _ _

/-- The same timebase state raises nothing. -/
theorem enterTimebase_same_seen {u s : State} (h : SeenAlike u s) {new : TimebaseState} (f : Timebase → Timebase)
    (same : s.timebase.state = new) (keeps : ∀ t, (f t).ticks = t.ticks) : SeenAlike u (enterTimebase new f s) := by
  rw [enterTimebase_same new f s same]
  exact h.withTimebase { f s.timebase with state := new } ((keeps _).trans h.ticks)

/-- The timebase of a receiver-off entry that leaves the rate at the integral. -/
def offHeld (t : Timebase) : Timebase := { receiverOffCommon t with rate := t.integral }

/-- The events of the receiver-off entry (R22, R24, R38). -/
theorem receiverOff_seen {u s : State} (h : SeenAlike u s) :
    SeenAlike (raised (receiversOffEvents s) u) (receiverOff s) := by
  have held {v t : State} (h : SeenAlike v t) (old : TimebaseState) (e : t.timebase.state = old) (n : old ≠ .holdover) :
      SeenAlike (raise .timebaseState none (timebaseDetail old .holdover) v) (enterTimebase .holdover offHeld t) :=
    enterTimebase_seen h offHeld e n fun _ => rfl
  cases e : s.timebase.state <;> simp only [receiverOff, receiversOffEvents, e]
  case source =>
    have failed := failHandover_seen h 5
    have left : SeenAlike _ (leaveRole (failHandover 5 s)) :=
      ⟨failed.ticks, failed.roster, failed.pubs, failed.subs, failed.monitor, failed.port⟩
    rw [roleEvents, if_pos e, raised, List.foldl_append]
    exact held left .source (by simpa [leaveRole] using e) nofun
  case free => exact enterTimebase_same_seen h receiverOffCommon e fun _ => rfl
  case holdover => exact enterTimebase_same_seen h receiverOffCommon e fun _ => rfl
  case acquire =>
    exact enterTimebase_seen (new := .free) h (fun t => { receiverOffCommon t with rate := 0, integral := 0 }) e nofun
      fun _ => rfl
  case track => exact held h .track e nofun
  case locked => exact held h .locked e nofun

/-- The events of the receiver-off entry enter last. -/
theorem receiverOff_prefix (s : State) : s.port.events <+: (receiverOff s).port.events := by
  rw [(receiverOff_seen (SeenAlike.refl s)).port]
  exact foldl_prefix (fun u (v : EventKind × Option Nat × BitVec 16) => raise v.1 v.2.1 v.2.2 u)
    (fun _ _ => raise_prefix _ _ _ _) _ s

/-- The score's return to 0 (R80, R81). -/
theorem zeroScore_eq (s : State) :
    zeroScore s = { s with station := { s.station with faultScore := 0, caution := false }
                           port := (raised (cautionEvents s) s).port } := by
  unfold zeroScore cautionEvents
  dsimp only
  split
  · rw [raise_frame]
    have seen : SeenAlike s (updStation (fun x => { x with faultScore := 0, caution := false }) s) :=
      ⟨rfl, rfl, rfl, rfl, rfl, rfl⟩
    rw [(seen.raise .cautionOff none 0).port]
    rfl
  · rfl
end Sys2Proof.Machine
end

