-- ==== Sys2Proof/Proofs/StationChanges.lean ====
section
/-! PROOF. Changes of station state to a state with the receivers off. -/

namespace Sys2Proof.Machine
open Sys2Proof.Claims

/-! ### Changes of station state to a state with the receivers off -/

/-- STATION_STATE, the first event of a change of station state (R66). -/
def announceStation (new : StationState) (cause : Nat) (s : State) : State :=
  raise .stationState none (stationDetail s.station.state new cause) (updStation (fun x => { x with state := new }) s)

/-- What it changes. -/
theorem announceStation_frame (new : StationState) (cause : Nat) (s : State) :
    announceStation new cause s = { s with station := { s.station with state := new }
                                           port := (announceStation new cause s).port } := by
  unfold announceStation; rw [raise_frame]; rfl

/-- The event of a change of station state. -/
theorem announceStation_seen {u s : State} (h : SeenAlike u s) (new : StationState) (cause : Nat) :
    SeenAlike (raise .stationState none (stationDetail s.station.state new cause) u) (announceStation new cause s) :=
  SeenAlike.raise (t := updStation (fun x => { x with state := new }) s)
    ⟨h.ticks, h.roster, h.pubs, h.subs, h.monitor, h.port⟩ _ _ _

/-- The receivers go off, and the interface with them (R22, R44). -/
def receiversGoOff (s : State) : State := cableOff (receiverOff s)

/-- What their going off changes. -/
theorem receiversGoOff_frame (s : State) :
    receiversGoOff s = { s with timebase := (receiverOff s).timebase, selector := selectorOff s
                                port := (receiverOff s).port, cable := interfaceOff s.cable } := by
  unfold receiversGoOff; rw [receiverOff_frame]; rfl

/-- Its events. -/
theorem receiversGoOff_seen {u s : State} (h : SeenAlike u s) :
    SeenAlike (raised (receiversOffEvents s) u) (receiversGoOff s) := by
  have off := receiverOff_seen h
  exact ⟨off.ticks, off.roster, off.pubs, off.subs, off.monitor, off.port⟩

/-- A station without drivers enters a state without receivers (R22, R44, R65). -/
theorem changeStation_off (new : StationState) (cause : Nat) (s : State) (d : driversOn s.station.state = false)
    (r : receiversOn new = false) :
    changeStation new cause s
      = entryEffects s.station.state new (receiversGoOff (announceStation new cause s)) := by
  have notJoined : s.station.state ≠ .joined := by rintro e; simp [e, driversOn] at d
  have notTold : ¬ (new = .duplicate ∨ new = .silenced) := by rintro (rfl | rfl) <;> simp [receiversOn] at r
  unfold changeStation
  dsimp only
  simp only [d, Bool.false_and, Bool.false_eq_true, if_false, if_neg notJoined, if_neg notTold, followReceivers, r,
    Bool.not_false, if_true]
  rfl

/-- The events of that: STATION_STATE, then those of the receiver-off entry (R66). -/
theorem receiversGoOff_announced_seen (new : StationState) (cause : Nat) (s : State) :
    SeenAlike (raised ((.stationState, none, stationCode s.station.state new cause) :: receiversOffEvents s) s)
      (receiversGoOff (announceStation new cause s)) := by
  have off := receiversGoOff_seen (announceStation_seen (SeenAlike.refl s) new cause)
  have same : receiversOffEvents (announceStation new cause s) = receiversOffEvents s := by
    rw [announceStation_frame]; rfl
  rwa [same] at off

/-- A RETIRING station enters DETACHED (R65, R74, R76). -/
theorem changeStation_detached (cause : Nat) (s : State) (h : s.station.state = .retiring) :
    changeStation .detached cause s
      = updStation (fun x => { x with clash := 0, recovery := 0, listen := 0, retireTimer := 0, retireSent := false })
          (zeroScore (receiversGoOff (leaveDrivers (announceStation .detached cause s)))) := by
  simp only [changeStation, h, announceStation, driversOn, receiversOn, followReceivers, entryEffects, receiversGoOff]
  simp

/-- What it leaves (R65, R74, R76). -/
theorem detached_leftTheRack (cause : Nat) (s : State) (h : s.station.state = .retiring) :
    let t := changeStation .detached cause s
    LeftTheRack s t ∧ t.selector = selectorOff s ∧ t.roster = s.roster ∧ t.subs = s.subs := by
  have off := receiverOff_timebase (leaveDrivers (announceStation .detached cause s))
  rw [changeStation_detached cause s h, zeroScore_eq, receiversGoOff_frame, leaveDrivers_frame, announceStation_frame] at *
  refine ⟨⟨rfl, rfl, rfl, rfl, rfl, rfl, rfl, rfl, rfl, rfl, rfl, rfl, off⟩, rfl, rfl, rfl⟩

/-- STATION_STATE enters before every other event of it (R66). -/
theorem detached_prefix (cause : Nat) (s : State) (h : s.station.state = .retiring) :
    (announceStation .detached cause s).port.events <+: (changeStation .detached cause s).port.events := by
  have zeroed (t : State) : t.port.events <+: (zeroScore t).port.events := by
    unfold zeroScore
    dsimp only
    split
    · exact raise_prefix _ _ _ (updStation _ t)
    · exact List.prefix_refl _
  rw [changeStation_detached cause s h]
  exact (leaveDrivers_prefix _).trans
    ((receiverOff_prefix _).trans (zeroed (receiversGoOff (leaveDrivers (announceStation .detached cause s)))))
end Sys2Proof.Machine
end

