-- ==== Sys2Proof/Proofs/SourceRole.lean ====
section
/-! PROOF. The source role taken and passed on. -/

namespace Sys2Proof.Machine
open Sys2Proof.Claims

/-! ### The source role is taken -/

/-- The row of a claim's expiry that is due, at a countdown of 0 (R20, R31). -/
theorem exec_claimExpiry {old : TimebaseState} (s : State) (h : Due.claimExpiry ∈ s.due)
    (zero : s.selector.countdown = some 0) (e : s.timebase.state = old) (n : old ≠ .source) :
    exec .claimExpiry s = .next (raise .timebaseState none (timebaseDetail old .source) { clearDue .claimExpiry s with
      timebase := { s.timebase with
        state := .source, rate := s.timebase.integral, missCount := 0, lockRun := 0, searchStep := 0, decisions := 0
        believed := s.station.own, expectation := none, capture := none }
      selector := { s.selector with
        countdown := none, firstDrive := some (epochPlus (epochNumber s.timebase) 1) } }) := by
  refine (next_dueRow _ s h).trans (congrArg _ ((if_pos zero).trans ?_))
  exact enterTimebase_from (new := .source) e n

/-- An expectation that is reached outside LOCKED and JOINED is dropped (R21, R37). -/
theorem exec_takeover_fails (s : State) (h : Due.handoverTakeover ∈ s.due)
    (e : s.timebase.expectation = some (epochNumber s.timebase))
    (n : ¬ (s.timebase.state = .locked ∧ s.station.state = .joined)) :
    exec .handoverTakeover s = .next { clearDue .handoverTakeover s with
      timebase := { s.timebase with expectation := none } } :=
  (next_dueRow _ s h).trans (congrArg _ ((if_pos e).trans (if_neg n)))

/-- A takeover (R21, R37). -/
theorem exec_takeover (s : State) (h : Due.handoverTakeover ∈ s.due)
    (e : s.timebase.expectation = some (epochNumber s.timebase))
    (locked : s.timebase.state = .locked) (joined : s.station.state = .joined) :
    exec .handoverTakeover s = .next (driveMarker (epochNumber s.timebase) (raise .timebaseState none 0x0305
      { clearDue .handoverTakeover s with
        timebase := { s.timebase with
          state := .source, rate := s.timebase.integral, missCount := 0, lockRun := 0, searchStep := 0, decisions := 0
          believed := s.station.own, expectation := none, capture := none } })) := by
  refine (next_dueRow _ s h).trans (congrArg _ ((if_pos e).trans ((if_pos ⟨locked, joined⟩).trans ?_)))
  exact congrArg (driveMarker _) (enterTimebase_from (new := .source) (s := clearDue _ s) locked nofun)

/-! ### The source role is passed on (R36) -/

/-- The old source's selector and timebase after the completion, with its TIMEBASE_STATE (R20, R36). -/
theorem sourceToTrack_eq (s : State) (h : s.timebase.state = .source) :
    sourceToTrack s = raise .timebaseState none 0x0502 { s with
      timebase := { s.timebase with
        state := .track, rate := s.timebase.integral, lockRun := 0, missCount := 0, believed := 0 }
      selector := { s.selector with record := none, driving := none, release := false } } :=
  enterTimebase_from (new := .track) (s := updSelector (fun x => { x with record := none }) (leaveRole s)) h nofun

/-- The row of a handover that completes (R36, R76, R77). -/
theorem exec_handoverComplete (s : State) (h : Due.handoverComplete ∈ s.due) (e : s.timebase.state = .source)
    (r : Handover) (held : s.selector.record = some r) (reached : epochReached (epochNumber s.timebase) r.epoch = true) :
    exec .handoverComplete s
      = .next (countRetire (checkRetired (sourceToTrack (clearDue .handoverComplete s)))) := by
  refine (next_dueRow _ s h).trans (congrArg (fun u => Host.Outcome.next (countRetire u)) ?_)
  unfold leaveSource
  simp only [clearDue_selector, held]
  exact if_pos ⟨e, reached⟩

/-- The receiver-off entry of a timebase that has just left SOURCE for TRACK is that of the SOURCE (R22). -/
theorem receiversOff_of_track {x y z : Timebase} (h : x.state = .source)
    (e : y = { x with state := .track, rate := x.integral, lockRun := 0, missCount := 0, believed := 0 })
    (off : ReceiversOff y z) : ReceiversOff x z := by
  subst e
  simpa [ReceiversOff, h] using off

/-- What the events of the queue tell, each with its detail. -/
def told (s : State) : List (EventKind × BitVec 16) := s.port.events.map fun v => (v.kind, v.detail)

/-- An event is told last while the queue has room (R198, R199). -/
theorem told_raise (k : EventKind) (n : Option Nat) (d : BitVec 16) (s : State) (room : s.port.events.length < 32) :
    told (raise k n d s) = told s ++ [(k, d)] := by
  unfold told raise
  rw [if_pos room]
  simp

/-- What enters behind is told behind. -/
theorem told_of_prefix {s t : State} (h : s.port.events <+: t.port.events) : ∃ rest, told t = told s ++ rest := by
  obtain ⟨rest, e⟩ := h
  exact ⟨rest.map fun v => (v.kind, v.detail), by simp [told, ← e]⟩

/-- A retirement that ends is told with STATION_STATE, cause 9, behind what was told (R66, R76). -/
theorem detached_told (s : State) (h : s.station.state = .retiring) (room : s.port.events.length < 32) :
    ∃ rest, told (changeStation .detached 9 s) = told s ++ (.stationState, 0x5609) :: rest := by
  obtain ⟨rest, e⟩ := told_of_prefix (detached_prefix 9 s h)
  have first : told (announceStation .detached 9 s) = told s ++ [(.stationState, 0x5609)] := by
    unfold announceStation
    rw [told_raise _ _ _ (updStation _ s) room, h]
    rfl
  exact ⟨rest, by rw [e, first, List.append_assoc]; rfl⟩

/-- The end of a retirement whose RETIRE was sent, outside SOURCE (R76). -/
theorem checkRetired_sent (s : State) (h : s.station.state = .retiring) (sent : s.station.retireSent = true)
    (n : s.timebase.state ≠ .source) : checkRetired s = changeStation .detached 9 s :=
  if_pos ⟨h, sent, .inl n⟩

/-- Outside RETIRING no retirement ends. -/
theorem checkRetired_other (s : State) (h : s.station.state ≠ .retiring) : checkRetired s = s :=
  if_neg fun c => h c.1

/-- Before the RETIRE is sent no retirement ends. -/
theorem checkRetired_unsent (s : State) (h : s.station.retireSent = false) : checkRetired s = s :=
  if_neg fun c => by simp [h] at c

/-- A step that falls due is due last. -/
theorem markIf_new (c : Bool) (d : Due) (s : State) (h : d ∉ s.due) :
    markIf c d s = { s with due := s.due ++ if c then [d] else [] } := by
  cases c <;> simp [markIf, mark, h]

/-- Settles O13: the expiry, the takeover and its failing, the completion at each station state. -/
theorem sourceRoleIsTakenAndPassedOn : Obligations.SourceRoleIsTakenAndPassedOn := by
  intro s x n source
  refine ⟨?_, ?_, ?_⟩
  · intro h zero u
    exact ⟨fun e => exec_claimExpiry s h zero e nofun, fun e => exec_claimExpiry s h zero e nofun⟩
  · intro h e
    refine ⟨fun locked joined => ?_, fun other => exec_takeover_fails s h e (by rwa [not_and_or])⟩
    refine ⟨_, exec_takeover s h e locked joined, ?_, ?_, fun none => ?_, ?_, ?_⟩
    · simp [driveMarker, source, x]
    · simp [driveMarker, markerFields, markerPeriods, epochNumber, n, x]
    · simp [driveMarker, markerFields, none]
    · have seen : SeenAlike s { clearDue .handoverTakeover s with timebase := source } := ⟨rfl, rfl, rfl, rfl, rfl, rfl⟩
      exact (seen.raise _ _ _).port
    · simp only [driveMarker, updSelector]
      rw [raise_frame]
  · intro h e r held reached passed
    have row := exec_handoverComplete s h e r held ((epochReached_iff _ _).2 (of_decide_eq_true reached))
    have passes : sourceToTrack (clearDue .handoverComplete s) = passed := sourceToTrack_eq _ e
    rw [passes] at row
    have station : passed.station = s.station := by simp [passed]
    refine ⟨fun other => ?_, fun retiring unsent noTimeout => ?_, fun retiring sent => ?_⟩
    · rw [row, checkRetired_other _ (by rwa [station]), countRetire_other _ (by rwa [station])]
    · have absent : Due.retireTimeout ∉ passed.due := by simpa [passed, mem_clearDue] using noTimeout
      rw [row, checkRetired_unsent _ (by rwa [station]), countRetire_retiring _ (by rwa [station]),
        markIf_new _ _ _ (by exact absent),
        station]
      by_cases last : 63 ≤ s.station.retireTimer <;> simp [last]
    · have retires : passed.station.state = .retiring := by rwa [station]
      rw [checkRetired_sent _ retires (by rwa [station]) (by simp [passed])] at row
      obtain ⟨left, selector, roster, subs⟩ := detached_leftTheRack 9 passed retires
      rw [countRetire_other _ (by rw [left.1]; nofun)] at row
      have off : selectorOff passed = { s.selector with record := none, driving := none, release := false } := by
        simp [selectorOff, passed]
      refine ⟨_, row, ?_, ?_, ?_, ?_, ?_, fun empty => ?_⟩
      · obtain ⟨a, b, c, d, f, g, i, j, k, l, m, o, timebase⟩ := left
        exact ⟨a, b, c, d, f, g, i, j, k, l, m, o, receiversOff_of_track e (by simp [passed, x]) timebase⟩
      · rw [selector, off]
      · rw [selector, off]
      · exact roster.trans (by simp [passed])
      · exact subs.trans (by simp [passed])
      · have room : passed.port.events.length < 32 := by
          simp [passed, raise, empty]
        obtain ⟨rest, e⟩ := detached_told passed retires room
        refine ⟨rest, e.trans ?_⟩
        rw [show told passed = _ from told_raise _ _ _ _ (by simp [empty])]
        simp [told, empty]
end Sys2Proof.Machine
end

