-- ==== Sys2Proof/Proofs/Clashes.lean ====
section
/-! PROOF. Marker clashes. -/

namespace Sys2Proof.Machine
open Sys2Proof.Claims

/-! ### Marker clashes (R33, R36) -/

/-- A SOURCE that a clash takes the role from, before the test of R76. -/
def clashed (cause : ClashCause) (s : State) : State :=
  sourceToHoldover (leaveRole (updSelector (fun x => { x with firstDrive := none })
    (failHandover 4 (raise .markerClash none (BitVec.ofNat 16 (clashCode cause)) s))))

/-- The timebase of a SOURCE that a clash takes the role from (R20). -/
theorem clashed_timebase (cause : ClashCause) (s : State) :
    (clashed cause s).timebase = { s.timebase with
      state := .holdover, rate := s.timebase.integral, believed := 0, windowSkip := true } := by
  simp [clashed, sourceToHoldover, leaveRole]

/-- Its selector (R33, R38). -/
theorem clashed_selector (cause : ClashCause) (s : State) :
    (clashed cause s).selector = { s.selector with
      record := none, driving := none, release := false, firstDrive := none } := by
  simp [clashed, sourceToHoldover, leaveRole]

/-- What else a clash can change. -/
theorem clashed_frame (cause : ClashCause) (s : State) :
    clashed cause s = { s with timebase := (clashed cause s).timebase, selector := (clashed cause s).selector
                               port := (clashed cause s).port } := by
  rw [clashed_timebase, clashed_selector]
  unfold clashed
  unfold sourceToHoldover leaveRole updSelector
  rw [enterTimebase_frame, failHandover_frame, raise_frame]
  simp

/-- Its events (R20, R33, R38). -/
theorem clashed_seen (cause : ClashCause) (s : State) (h : s.timebase.state = .source) :
    SeenAlike (raise .timebaseState none 0x0504
      (raised (match s.selector.record with
          | none => []
          | some r => [(.handoverFail, some r.target, BitVec.ofNat 16 4)])
        (raise .markerClash none (BitVec.ofNat 16 (clashCode cause)) s)))
      (clashed cause s) := by
  have failed := failHandover_seen (SeenAlike.refl (raise .markerClash none (BitVec.ofNat 16 (clashCode cause)) s)) 4
  rw [raise_selector] at failed
  refine enterTimebase_seen (new := .holdover)
    (s := leaveRole (updSelector (fun x => { x with firstDrive := none })
      (failHandover 4 (raise .markerClash none (BitVec.ofNat 16 (clashCode cause)) s))))
    (f := fun t => { t with rate := t.integral, believed := 0, windowSkip := true }) (old := .source)
    ⟨failed.ticks, failed.roster, failed.pubs, failed.subs, failed.monitor, failed.port⟩ ?_ nofun fun _ => rfl
  simp [leaveRole, h]

/-- The last half epoch before a held handover epoch, modulo 2^64 (R36). -/
theorem lastHalfEpoch_iff (s : State) :
    lastHalfEpoch s = true ↔ ∃ h, s.selector.record = some h
      ∧ (s.timebase.ticks.toNat + 2 ^ 16 + (2 ^ 64 - h.epoch * 2 ^ 17 % 2 ^ 64)) % 2 ^ 64 < 2 ^ 16 := by
  unfold lastHalfEpoch
  split
  · next r e =>
    simp only [decide_eq_true_eq, e, Option.some.injEq, exists_eq_left', BitVec.toNat_add, BitVec.toNat_sub,
      BitVec.toNat_ofNat, show (65536 : BitVec 64).toNat = 65536 from rfl]
    omega
  · next e => simp [e]

/-- The receiver-off entry of a timebase that has just left SOURCE for HOLDOVER is that of the SOURCE (R22). -/
theorem receiversOff_of_holdover {x y z : Timebase} (h : x.state = .source)
    (e : y = { x with state := .holdover, rate := x.integral, believed := 0, windowSkip := true })
    (off : ReceiversOff y z) : ReceiversOff x z := by
  subst e
  simpa [ReceiversOff, h] using off

/-- The row of a clash that is detected. -/
theorem exec_markerClash (cause : ClashCause) (s : State) (q : quiet s = true) (h : clashDetected cause s = true) :
    exec (.markerClash cause) s = .next (checkRetired (clashed cause s)) :=
  congrArg Host.Outcome.next ((outsideRow_quiet _ s q).trans (if_pos h))

/-- What a clash leaves at a station that goes on (R20, R33, R38). -/
theorem clash_goesOn (cause : ClashCause) (s : State)
    (n : ¬ (s.station.state = .retiring ∧ s.station.retireSent = true)) :
    checkRetired (clashed cause s) = clashed cause s := by
  refine if_neg fun c => n ?_
  rw [clashed_frame] at c
  exact ⟨c.1, c.2.1⟩

/-- What a clash leaves at a station whose RETIRE was sent (R33, R76). -/
theorem clash_retires (cause : ClashCause) (s : State) (src : s.timebase.state = .source)
    (retiring : s.station.state = .retiring) (sent : s.station.retireSent = true) :
    let t := checkRetired (clashed cause s)
    LeftTheRack s t ∧ t.selector.record = none ∧ t.selector.driving = none
      ∧ (s.port.events = [] → s.selector.record = none → ∃ rest,
        told t = (.markerClash, BitVec.ofNat 16 (clashCode cause)) :: (.timebaseState, 0x0504)
          :: (.stationState, 0x5609) :: rest) := by
  have station : (clashed cause s).station = s.station := by rw [clashed_frame]
  have state : (clashed cause s).station.state = .retiring := by rwa [station]
  rw [checkRetired_sent _ state (by rwa [station]) (by simp [clashed_timebase])]
  obtain ⟨left, selector, -, -⟩ := detached_leftTheRack 9 (clashed cause s) state
  have off : selectorOff (clashed cause s) = (clashed cause s).selector := by
    simp [selectorOff, clashed_timebase]
  refine ⟨?_, ?_, ?_, fun empty none => ?_⟩
  · obtain ⟨a, b, c, d, f, g, i, j, k, l, m, o, timebase⟩ := left
    exact ⟨a, b, c, d, f, g, i, j, k, l, m, o, receiversOff_of_holdover src (clashed_timebase cause s) timebase⟩
  · rw [selector, off, clashed_selector]
  · rw [selector, off, clashed_selector]
  · have seen := clashed_seen cause s src
    have first : told (clashed cause s)
        = [(.markerClash, BitVec.ofNat 16 (clashCode cause)), (.timebaseState, 0x0504)] := by
      rw [none] at seen
      rw [told, seen.port]
      simp [raised, raise, empty]
    have room : (clashed cause s).port.events.length < 32 := by
      have := congrArg List.length first
      simp only [told, List.length_map, List.length_cons, List.length_nil] at this
      omega
    obtain ⟨rest, e⟩ := detached_told (clashed cause s) state room
    exact ⟨rest, by rw [e, first]; rfl⟩

/-- Settles O14: the two causes, and the exception of R36. -/
theorem clashesEndTheSourceRole : Obligations.ClashesEndTheSourceRole := by
  intro s q src x retired nearHandover after
  have row (cause : ClashCause) (h : clashDetected cause s = true) :
      ∃ t, exec (.markerClash cause) s = .next t ∧ after (BitVec.ofNat 16 (clashCode cause)) t := by
    refine ⟨_, exec_markerClash cause s q h, fun n => ?_, fun y => clash_retires cause s src y.1 y.2⟩
    have seen := clashed_seen cause s src
    rw [clash_goesOn cause s n]
    refine ⟨clashed_timebase cause s, clashed_selector cause s, fun none => ?_, fun r held => ?_, clashed_frame cause s⟩
    · rw [seen.port, none]; rfl
    · rw [seen.port, held]; rfl
  refine ⟨fun driving => row .readBack ?_, fun released far => row .foreignEdge ?_, fun released near => ?_⟩
  · simp [clashDetected, src, Option.isSome_iff_ne_none, driving]
  · have out : lastHalfEpoch s = false := Bool.eq_false_iff.2 fun h => far ((lastHalfEpoch_iff s).1 h)
    simp [clashDetected, src, released, out]
  · have inside : lastHalfEpoch s = true := (lastHalfEpoch_iff s).2 near
    refine congrArg Host.Outcome.next ((outsideRow_quiet _ s q).trans (if_neg ?_))
    simp [clashDetected, inside]
end Sys2Proof.Machine
end

