-- ==== Sys2Proof/Proofs/Joining.lean ====
section
/-! PROOF. Requests that raise events, and JOIN in every station state. -/

namespace Sys2Proof.Machine
open Sys2Proof.Claims

/-! ### Requests that raise events -/

/-- The transaction makes no difference to an event. -/
theorem raise_setTransaction (x : Transaction) (k : EventKind) (n : Option Nat) (d : BitVec 16) (s : State) :
    raise k n d (setTransaction x s) = setTransaction x (raise k n d s) := by
  unfold raise setTransaction
  dsimp only
  split <;> rfl

/-- Nor to events raised in turn. -/
theorem raised_setTransaction (x : Transaction) (es : List (EventKind × Option Nat × BitVec 16)) (s : State) :
    raised es (setTransaction x s) = setTransaction x (raised es s) := by
  induction es generalizing s with
  | nil => rfl
  | cons e rest ih => exact (congrArg (raised rest) (raise_setTransaction x _ _ _ s)).trans (ih _)

/-- Events raised behind others. -/
theorem raised_append (es fs : List (EventKind × Option Nat × BitVec 16)) (s : State) :
    raised (es ++ fs) s = raised fs (raised es s) := List.foldl_append

/-- A request that raises these events and is taken. -/
theorem taken_raising {c : Instr} {s u : State} {body : List Byte} (es : List (EventKind × Option Nat × BitVec 16))
    (row : exec c s = .next (requestRow c s)) (r : Ready s) (n : needsStore c s = false)
    (reply : replyOf c (setTransaction .waiting s) = .taken body u)
    (events : u.port = (raised es (setTransaction .waiting s)).port) :
    Taken c s body { u with port := (raised es s).port } := by
  refine taken_of_reply row r n (reply.trans (congrArg (Reply.taken body) ?_))
  rw [raised_setTransaction] at events
  show u = { u with port := (setTransaction .waiting (raised es s)).port }
  rw [← events]

/-! ### JOIN (R67) -/

/-- JOIN from OFFLINE or DETACHED with the cable sensed. -/
theorem joinRack_sensed (s : State) (off : s.station.state = .offline ∨ s.station.state = .detached)
    (sense : s.pins.sense = true) :
    joinRack s = updStation (fun x => { x with settle := 0 }) (receiversGoOff (announceStation .settling 1 s)) := by
  rw [joinRack, if_pos sense, changeStation_off _ _ _ (by rcases off with e | e <;> rw [e] <;> rfl) rfl]
  rfl

/-- JOIN from OFFLINE or DETACHED without the cable. -/
theorem joinRack_isolated (s : State) (off : s.station.state = .offline ∨ s.station.state = .detached)
    (sense : s.pins.sense = false) :
    joinRack s = zeroScore (receiversGoOff (announceStation .isolated 1 s)) := by
  rw [joinRack, if_neg (by simp [sense]), changeStation_off _ _ _ (by rcases off with e | e <;> rw [e] <;> rfl) rfl]
  rcases off with e | e <;> rw [e] <;> rfl

/-- What the score's return to 0 raises behind other events (R81). -/
theorem zeroScore_port {u s : State} {es : List (EventKind × Option Nat × BitVec 16)} (h : SeenAlike (raised es u) s)
    (same : s.station.caution = u.station.caution) : (zeroScore s).port = (raised (es ++ cautionEvents u) u).port := by
  have caution : cautionEvents s = cautionEvents u := by rw [cautionEvents, same]; rfl
  rw [zeroScore_eq, raised_append, caution]
  exact (h.raised _).port

/-- The station after STATION_STATE and the receiver-off entry. -/
theorem receiversGoOff_announced (new : StationState) (cause : Nat) (s : State) :
    receiversGoOff (announceStation new cause s) = { s with
      station := { s.station with state := new }
      timebase := (receiverOff (announceStation new cause s)).timebase, selector := selectorOff s
      cable := interfaceOff s.cable, port := (receiversGoOff (announceStation new cause s)).port } := by
  have off : selectorOff (announceStation new cause s) = selectorOff s := by rw [announceStation_frame]; rfl
  rw [receiversGoOff_frame, off, announceStation_frame]

/-- The receiver-off entry of the timebase unit behind STATION_STATE (R22). -/
theorem receiverOff_announced (new : StationState) (cause : Nat) (s : State) :
    ReceiversOff s.timebase (receiverOff (announceStation new cause s)).timebase := by
  have off := receiverOff_timebase (announceStation new cause s)
  have same : (announceStation new cause s).timebase = s.timebase := by rw [announceStation_frame]
  rwa [same] at off

/-- JOIN from OFFLINE or DETACHED (R67, R68). -/
theorem taken_join (s : State) (r : Ready s) (off : s.station.state = .offline ∨ s.station.state = .detached)
    (ok : s.station.startFault = false) :
    let x := s.station
    ∃ t, Taken (.join []) s [] t
      ∧ t.station = (if s.pins.sense then { x with state := .settling, settle := 0 }
          else { x with state := .isolated, faultScore := 0, caution := false })
      ∧ safePin t = false ∧ t.cable = interfaceOff s.cable ∧ ReceiversOff s.timebase t.timebase ∧ t.selector = selectorOff s
      ∧ t.port = (raised ((.stationState, none, stationCode x.state t.station.state 1) :: receiversOffEvents s
          ++ (if s.pins.sense then [] else cautionEvents s)) s).port
      ∧ t = { s with station := t.station, timebase := t.timebase, selector := t.selector, cable := t.cable
                     port := t.port } := by
  intro x
  have reply : replyOf (.join []) (setTransaction .waiting s) = .taken [] (joinRack (setTransaction .waiting s)) := by
    have act := checked_ok (fits := exactly 0) joinAct (body := []) (setTransaction .waiting s) rfl (by simp)
    refine act.trans ?_
    rcases off with e | e <;> simp [joinAct, e, ok]
  cases sense : s.pins.sense
  · rw [joinRack_isolated (setTransaction .waiting s) off sense] at reply
    have seen := receiversGoOff_announced_seen .isolated 1 (setTransaction .waiting s)
    have port := zeroScore_port seen (by rw [receiversGoOff_announced])
    refine ⟨_, taken_raising _ rfl r rfl reply port, ?_⟩
    rw [zeroScore_eq, receiversGoOff_announced]
    exact ⟨rfl, rfl, rfl, receiverOff_announced .isolated 1 (setTransaction .waiting s), rfl, rfl, rfl⟩
  · rw [joinRack_sensed (setTransaction .waiting s) off sense] at reply
    have seen := receiversGoOff_announced_seen .settling 1 (setTransaction .waiting s)
    refine ⟨_, taken_raising _ rfl r rfl reply seen.port, ?_⟩
    rw [receiversGoOff_announced]
    exact ⟨rfl, rfl, rfl, receiverOff_announced .settling 1 (setTransaction .waiting s), rfl,
      by simp only [if_true, List.append_nil]; rfl, rfl⟩

/-! ### JOIN in RETIRING (R40, R78) -/

/-- From RETIRING a station enters JOINED with STATION_STATE alone. -/
theorem changeStation_rejoin (cause : Nat) (s : State) (h : s.station.state = .retiring) :
    changeStation .joined cause s = announceStation .joined cause s := by
  simp only [changeStation, h, announceStation, driversOn, receiversOn, followReceivers, entryEffects]
  simp

/-- The kinds withdrawn from the interface by a removal from the queue (R57). -/
theorem removeEntry_withdrawn (k : EntryKind) (s : State) :
    removeEntry k s = { s with txQueue := s.txQueue.filter fun e => decide (e.kind ≠ k)
                               cable := withdrawnFrom k s.cable } := by
  have queue : (fun e : TxEntry => !(e.kind == k)) = fun e => decide (e.kind ≠ k) := by
    funext e; by_cases h : e.kind = k <;> simp [h]
  have claim : (fun c : Claim => if c.entry.kind == k then { c with withdrawn := true } else c)
      = fun c => { c with withdrawn := c.withdrawn || decide (c.entry.kind = k) } := by
    funext c; by_cases h : c.entry.kind = k <;> simp [h]
  have flight : (fun c : Flight => if c.entry.kind == k then { c with withdrawn := true } else c)
      = fun c => { c with withdrawn := c.withdrawn || decide (c.entry.kind = k) } := by
    funext c; by_cases h : c.entry.kind = k <;> simp [h]
  simp only [removeEntry, withdrawnFrom, queue, claim, flight]

/-- An entry inserted joins those that wait. -/
theorem mem_insertEntry (a e : TxEntry) (q : List TxEntry) : a ∈ insertEntry e q ↔ a = e ∨ a ∈ q := by
  induction q with
  | nil => simp [insertEntry]
  | cons x rest ih =>
    unfold insertEntry
    split
    · rw [List.mem_cons]
    · simp only [List.mem_cons, ih]
      exact or_left_comm

/-- A station's own burst waits after its enqueue: a new entry, or the one that waits (R55). -/
theorem enqueue_own (k : EntryKind) (own : k = .presence ∨ k = .retire) (s : State) (on : driversOn s.station.state = true) :
    enqueue k s = { s with
      txQueue := if queued s k then s.txQueue else insertEntry { kind := k, cls := entryClass s k } s.txQueue } := by
  rcases own with rfl | rfl
  all_goals
    simp only [enqueue, enqueueTaken, on, if_true]
    split <;> rfl

/-- So one of its kind waits. -/
theorem mem_enqueue_own (k : EntryKind) (own : k = .presence ∨ k = .retire) (s : State)
    (on : driversOn s.station.state = true) : ∃ e ∈ (enqueue k s).txQueue, e.kind = k := by
  rw [enqueue_own k own s on]
  dsimp only
  split
  · next h => simpa [queued] using h
  · exact ⟨_, (mem_insertEntry _ _ _).2 (.inl rfl), rfl⟩

/-- And no other enters. -/
theorem of_mem_enqueue_own (k : EntryKind) (own : k = .presence ∨ k = .retire) (s : State)
    (on : driversOn s.station.state = true) (e : TxEntry) (n : e.kind ≠ k) :
    e ∈ (enqueue k s).txQueue ↔ e ∈ s.txQueue := by
  rw [enqueue_own k own s on]
  dsimp only
  split
  · rfl
  · have other : e ≠ { kind := k, cls := entryClass s k } := by rintro rfl; exact n rfl
    simp [mem_insertEntry, other]

/-- A RETIRING station back in JOINED, before the FRESH presence of R78. -/
def rejoined (s : State) : State :=
  { s with
    station := { s.station with state := .joined, retireTimer := 0, retireSent := false
                                freshPending := s.station.freshPending || s.station.retireSent }
    selector := { s.selector with record := none, release := false }
    txQueue := s.txQueue.filter fun e => decide (e.kind ≠ .retire)
    cable := withdrawnFrom .retire s.cable
    port := (failHandover 6 (announceStation .joined 1 s)).port }

/-- JOIN in RETIRING (R40, R78). -/
theorem rejoin_eq (s : State) (h : s.station.state = .retiring) :
    rejoin s = if s.station.retireSent then enqueue .presence (rejoined s) else rejoined s := by
  have back : removeEntry .retire (updStation (fun x => { x with retireTimer := 0, retireSent := false })
      (selectorRejoin (changeStation .joined 1 s))) = { s with
      station := { s.station with state := .joined, retireTimer := 0, retireSent := false }
      selector := { s.selector with record := none, release := false }
      txQueue := s.txQueue.filter fun e => decide (e.kind ≠ .retire)
      cable := withdrawnFrom .retire s.cable
      port := (failHandover 6 (announceStation .joined 1 s)).port } := by
    rw [changeStation_rejoin 1 s h, removeEntry_withdrawn]
    unfold selectorRejoin updSelector updStation
    rw [failHandover_frame, announceStation_frame]
    simp
  unfold rejoin rejoined setFresh
  dsimp only
  rw [back]
  cases s.station.retireSent
  · simp only [Bool.or_false]; rfl
  · simp only [Bool.or_true]; rfl

/-- Its events (R38, R66). -/
theorem rejoined_port (s : State) (h : s.station.state = .retiring) :
    (rejoined s).port = (raised ((.stationState, none, 0x5401) :: match s.selector.record with
      | none => []
      | some r => [(.handoverFail, some r.target, 6)]) s).port := by
  have seen := failHandover_seen (announceStation_seen (SeenAlike.refl s) .joined 1) 6
  have selector : (announceStation .joined 1 s).selector = s.selector := by rw [announceStation_frame]
  rw [selector, h] at seen
  exact seen.port

/-- JOIN in RETIRING, taken. -/
theorem taken_rejoin (s : State) (r : Ready s) (h : s.station.state = .retiring) :
    let x := s.station
    ∃ t, Taken (.join []) s [] t
      ∧ t.station = { x with state := .joined, retireTimer := 0, retireSent := false
                             freshPending := x.freshPending || x.retireSent }
      ∧ t.selector = { s.selector with record := none, release := false } ∧ t.timebase = s.timebase
      ∧ (∀ e ∈ t.txQueue, e.kind ≠ .retire) ∧ (x.retireSent = true → ∃ e ∈ t.txQueue, e.kind = .presence)
      ∧ (x.retireSent = false → t.txQueue = s.txQueue.filter fun e => decide (e.kind ≠ .retire))
      ∧ t.cable = withdrawnFrom .retire s.cable
      ∧ t.port = (raised ((.stationState, none, 0x5401) :: match s.selector.record with
          | none => []
          | some h => [(.handoverFail, some h.target, 6)]) s).port
      ∧ t = { s with station := t.station, selector := t.selector, txQueue := t.txQueue, cable := t.cable
                     port := t.port } := by
  intro x
  have on : driversOn (rejoined (setTransaction .waiting s)).station.state = true := rfl
  have act : replyOf (.join []) (setTransaction .waiting s) = .taken [] (rejoin (setTransaction .waiting s)) := by
    refine (checked_ok (fits := exactly 0) joinAct (body := []) (setTransaction .waiting s) rfl (by simp)).trans ?_
    simp [joinAct, h]
  have port := rejoined_port (setTransaction .waiting s) h
  rw [rejoin_eq (setTransaction .waiting s) h] at act
  rcases Bool.eq_false_or_eq_true s.station.retireSent with sent | sent
  · rw [if_pos (by simp [sent])] at act
    have waits := mem_enqueue_own .presence (.inl rfl) _ on
    have others := of_mem_enqueue_own .presence (.inl rfl) _ on
    rw [enqueue_own .presence (.inl rfl) _ on] at act waits others
    refine ⟨_, taken_raising _ rfl r rfl act port, rfl, rfl, rfl, fun e mem => ?_, fun _ => waits,
      fun unsent => absurd (sent.symm.trans unsent) nofun, rfl, rfl, rfl⟩
    by_cases p : e.kind = .presence
    · rw [p]; nofun
    · have waited := (others e p).1 mem
      simp only [rejoined, List.mem_filter, decide_eq_true_eq] at waited
      exact waited.2
  · rw [if_neg (by simp [sent])] at act
    refine ⟨_, taken_raising _ rfl r rfl act port, rfl, rfl, rfl, ?_, fun h => absurd (sent.symm.trans h) nofun,
      fun _ => rfl, rfl, rfl, rfl⟩
    simp [rejoined]
end Sys2Proof.Machine
end

