-- ==== Sys2Proof/Proofs/Retiring.lean ====
section
/-! PROOF. RETIRE in every station state. -/

namespace Sys2Proof.Machine
open Sys2Proof.Claims

/-! ### RETIRE (R75, R76) -/

/-- A station without drivers enters DETACHED (R74). -/
theorem changeStation_detached_off (cause : Nat) (s : State) (off : driversOn s.station.state = false) :
    changeStation .detached cause s
      = updStation (fun x => { x with clash := 0, recovery := 0, listen := 0, retireTimer := 0, retireSent := false })
          (zeroScore (receiversGoOff (announceStation .detached cause s))) :=
  changeStation_off .detached cause s off rfl

/-- RETIRE outside the rack's own traffic (R75). -/
theorem taken_detach (s : State) (r : Ready s)
    (away : s.station.state = .listen ∨ s.station.state = .settling ∨ s.station.state = .isolated
      ∨ s.station.state = .silenced ∨ s.station.state = .duplicate) :
    let x := s.station
    ∃ t, Taken (.retire []) s [] t
      ∧ t.station = { x with
          state := .detached, faultScore := 0, caution := false, clash := 0, recovery := 0, listen := 0
          retireTimer := 0, retireSent := false }
      ∧ t.cable = interfaceOff s.cable ∧ ReceiversOff s.timebase t.timebase
      ∧ t.selector = selectorOff s
      ∧ t.port = (raised ((.stationState, none, stationCode x.state .detached 8)
          :: receiversOffEvents s ++ cautionEvents s) s).port
      ∧ t = { s with station := t.station, timebase := t.timebase, selector := t.selector, cable := t.cable
                     port := t.port } := by
  intro x
  have off : driversOn (setTransaction .waiting s).station.state = false := by
    rcases away with e | e | e | e | e <;> simp [e, driversOn]
  have act : replyOf (.retire []) (setTransaction .waiting s)
      = .taken [] (changeStation .detached 8 (setTransaction .waiting s)) := by
    refine (checked_ok (fits := exactly 0) retireAct (body := []) (setTransaction .waiting s) rfl (by simp)).trans ?_
    rcases away with e | e | e | e | e <;> simp [retireAct, e]
  rw [changeStation_detached_off 8 _ off] at act
  have seen := receiversGoOff_announced_seen .detached 8 (setTransaction .waiting s)
  have port := zeroScore_port seen (by rw [receiversGoOff_announced])
  refine ⟨_, taken_raising _ rfl r rfl act port, ?_⟩
  rw [zeroScore_eq, receiversGoOff_announced]
  exact ⟨rfl, rfl, receiverOff_announced .detached 8 (setTransaction .waiting s), rfl, rfl, rfl⟩

/-- A JOINED station enters RETIRING: STATION_STATE, and the claim countdown goes (R31, R65). -/
theorem changeStation_retiring (cause : Nat) (s : State) (h : s.station.state = .joined) :
    changeStation .retiring cause s
      = updSelector (fun x => { x with countdown := none }) (announceStation .retiring cause s) := by
  simp only [changeStation, h, announceStation, driversOn, receiversOn, followReceivers, entryEffects]
  simp

/-- The interface with the BLOCKs and PULLs withdrawn (R57). -/
def dataWithdrawn (c : Cable) : Cable :=
  { c with
    claim := c.claim.map fun x =>
      if x.entry.kind = .presence ∨ x.entry.kind = .retire then x else { x with withdrawn := true }
    flight := c.flight.map fun x =>
      if x.entry.kind = .presence ∨ x.entry.kind = .retire then x else { x with withdrawn := true } }

/-- Data is what is neither a PRESENCE nor a RETIRE. -/
theorem isData_iff (k : EntryKind) : k.isData = true ↔ ¬ (k = .presence ∨ k = .retire) := by
  cases k <;> simp [EntryKind.isData]

/-- What the purge of BLOCKs and PULLs leaves (R57, R76). -/
theorem purgeData_eq (s : State) :
    purgeData s = { s with txQueue := s.txQueue.filter fun e => !e.kind.isData, cable := dataWithdrawn s.cable } := by
  have claim : (fun c : Claim => if c.entry.kind.isData then { c with withdrawn := true } else c)
      = fun c => if c.entry.kind = .presence ∨ c.entry.kind = .retire then c else { c with withdrawn := true } := by
    funext c; simp only [isData_iff, ite_not]
  have flight : (fun c : Flight => if c.entry.kind.isData then { c with withdrawn := true } else c)
      = fun c => if c.entry.kind = .presence ∨ c.entry.kind = .retire then c else { c with withdrawn := true } := by
    funext c; simp only [isData_iff, ite_not]
  simp only [purgeData, dataWithdrawn, claim, flight]

/-- The peer that a SOURCE without a record finds on its entry to RETIRING (R39). -/
def foundOnEntry (s : State) : Option Candidate :=
  if s.timebase.state = .source ∧ s.selector.record = none then successor s else none

/-- The events of the search on entry (R39). -/
def searchEvents (found : Option Candidate) (epoch : Nat) : List (EventKind × Option Nat × BitVec 16) :=
  match found with
  | none => []
  | some c => [(.handoverStart, some c.address, BitVec.ofNat 16 epoch)]

/-- The record after the search on entry (R39). -/
def recordFound (found : Option Candidate) (epoch : Nat) (before : Option Handover) : Option Handover :=
  match found with
  | none => before
  | some c => some { target := c.address, epoch := epoch }

/-- The search on entry (R39). -/
theorem retiringSearch_eq (s : State) :
    let E := (s.timebase.ticks.toNat / 131072 + 17) % 2 ^ 47
    retiringSearch s = { s with
      selector := { s.selector with
        record := recordFound (foundOnEntry s) E s.selector.record
        release := s.selector.release || decide (s.timebase.state = .source ∧ s.selector.record = none
          ∧ successor s = none) }
      port := (raised (searchEvents (foundOnEntry s) E) s).port } := by
  intro E
  unfold retiringSearch foundOnEntry
  by_cases searches : s.timebase.state = .source ∧ s.selector.record = none
  · rw [if_pos (by simp [searches]), if_pos searches]
    unfold searchAny
    cases found : successor s with
    | none => simp [updSelector, recordFound, searchEvents, raised, searches]
    | some c =>
      have seen : SeenAlike s (updSelector (fun x => { x with record := some { target := c.address, epoch := E } }) s) :=
        ⟨rfl, rfl, rfl, rfl, rfl, rfl⟩
      have port := (seen.raise .handoverStart (some c.address) (BitVec.ofNat 16 E)).port
      show startHandover c.address E s = _
      unfold startHandover
      rw [raise_frame, port]
      simp [updSelector, recordFound, searchEvents, raised]
  · rw [if_neg (by simpa using searches), if_neg searches]
    have stays : ¬ (s.timebase.state = .source ∧ s.selector.record = none ∧ successor s = none) :=
      fun h => searches ⟨h.1, h.2.1⟩
    simp [recordFound, searchEvents, raised, stays]

/-- The queue of a station that begins to retire (R57, R76). -/
def retiringQueue (s : State) : List TxEntry :=
  (enqueue .retire (purgeData (changeStation .retiring 8 s))).txQueue

/-- RETIRE in JOINED (R76). -/
theorem beginRetirement_eq (s : State) (h : s.station.state = .joined) :
    let E := (s.timebase.ticks.toNat / 131072 + 17) % 2 ^ 47
    beginRetirement s = { s with
      station := { s.station with state := .retiring, retireTimer := 0, retireSent := false }
      selector := { s.selector with
        countdown := none
        record := recordFound (foundOnEntry s) E s.selector.record
        release := s.selector.release || decide (s.timebase.state = .source ∧ s.selector.record = none
          ∧ successor s = none) }
      txQueue := retiringQueue s, cable := dataWithdrawn s.cable
      port := (raised ((.stationState, none, 0x4508) :: searchEvents (foundOnEntry s) E) s).port } := by
  intro E
  have entered : updStation (fun x => { x with retireTimer := 0, retireSent := false })
      (enqueue .retire (purgeData (changeStation .retiring 8 s))) = { s with
        station := { s.station with state := .retiring, retireTimer := 0, retireSent := false }
        selector := { s.selector with countdown := none }
        txQueue := retiringQueue s, cable := dataWithdrawn s.cable
        port := (announceStation .retiring 8 s).port } := by
    have on : driversOn (purgeData (changeStation .retiring 8 s)).station.state = true := by
      rw [changeStation_retiring 8 s h, purgeData_eq, announceStation_frame]; rfl
    unfold retiringQueue
    rw [enqueue_own .retire (.inr rfl) _ on, changeStation_retiring 8 s h,
      purgeData_eq, announceStation_frame]
    rfl
  unfold beginRetirement
  rw [entered, retiringSearch_eq, checkRetired_unsent _ rfl]
  have announced := announceStation_seen (SeenAlike.refl s) .retiring 8
  rw [h] at announced
  have seen : SeenAlike (raise .stationState none 0x4508 s) { s with
      station := { s.station with state := .retiring, retireTimer := 0, retireSent := false }
      selector := { s.selector with countdown := none }
      txQueue := retiringQueue s, cable := dataWithdrawn s.cable
      port := (announceStation .retiring 8 s).port } :=
    ⟨by simp, by simp, by simp, by simp, by simp, announced.port⟩
  have port := (seen.raised (searchEvents (foundOnEntry s) E)).port
  exact congrArg (fun p : HostPort => { s with
    station := { s.station with state := .retiring, retireTimer := 0, retireSent := false }
    selector := { s.selector with
      countdown := none
      record := recordFound (foundOnEntry s) E s.selector.record
      release := s.selector.release || decide (s.timebase.state = TimebaseState.source ∧ s.selector.record = none
        ∧ successor s = none) }
    txQueue := retiringQueue s, cable := dataWithdrawn s.cable, port := p }) port

/-- What waits in the queue of a station that begins to retire: its own bursts, the RETIRE among them (R57, R76). -/
theorem mem_retiringQueue (s : State) (h : s.station.state = .joined) :
    (∀ e ∈ retiringQueue s, e.kind = .presence ∨ e.kind = .retire) ∧ (∃ e ∈ retiringQueue s, e.kind = .retire)
      ∧ ∀ e, e.kind = .presence → (e ∈ retiringQueue s ↔ e ∈ s.txQueue) := by
  have purged : (purgeData (changeStation .retiring 8 s)).txQueue = s.txQueue.filter fun e => !e.kind.isData := by
    rw [changeStation_retiring 8 s h, purgeData_eq, announceStation_frame]; rfl
  have on : driversOn (purgeData (changeStation .retiring 8 s)).station.state = true := by
    rw [changeStation_retiring 8 s h, purgeData_eq, announceStation_frame]; rfl
  have others := of_mem_enqueue_own .retire (.inr rfl) _ on
  refine ⟨fun e mem => ?_, mem_enqueue_own .retire (.inr rfl) _ on, fun e own => ?_⟩
  · by_cases retire : e.kind = .retire
    · exact .inr retire
    · have waited := (others e retire).1 mem
      rw [purged, List.mem_filter, Bool.not_eq_true', Bool.eq_false_iff, ne_eq, isData_iff, not_not] at waited
      exact waited.2
  · refine (others e (by rw [own]; nofun)).trans ?_
    rw [purged, List.mem_filter, own]
    exact and_iff_left rfl

/-- RETIRE in JOINED, taken (R76). -/
theorem taken_retire (s : State) (r : Ready s) (h : s.station.state = .joined) :
    let x := s.station
    ∃ t, Taken (.retire []) s [] t
      ∧ t.station = { x with state := .retiring, retireTimer := 0, retireSent := false } ∧ t.timebase = s.timebase
      ∧ (∀ e ∈ t.txQueue, e.kind = .presence ∨ e.kind = .retire) ∧ (∃ e ∈ t.txQueue, e.kind = .retire)
      ∧ (∀ e, e.kind = .presence → (e ∈ t.txQueue ↔ e ∈ s.txQueue))
      ∧ (let found := foundOnEntry s
        let E := (s.timebase.ticks.toNat / 131072 + 17) % 2 ^ 47
        t.selector = { s.selector with
          countdown := none
          record := recordFound found E s.selector.record
          release := s.selector.release || decide (s.timebase.state = .source ∧ s.selector.record = none
            ∧ successor s = none) }
        ∧ t.port = (raised ((.stationState, none, 0x4508) :: searchEvents found E) s).port)
      ∧ t.cable = dataWithdrawn s.cable
      ∧ t = { s with station := t.station, selector := t.selector, txQueue := t.txQueue, cable := t.cable
                     port := t.port } := by
  intro x
  have act : replyOf (.retire []) (setTransaction .waiting s)
      = .taken [] (beginRetirement (setTransaction .waiting s)) := by
    refine (checked_ok (fits := exactly 0) retireAct (body := []) (setTransaction .waiting s) rfl (by simp)).trans ?_
    simp [retireAct, h]
  rw [beginRetirement_eq (setTransaction .waiting s) h] at act
  obtain ⟨own, retire, presence⟩ := mem_retiringQueue (setTransaction .waiting s) h
  exact ⟨_, taken_raising _ rfl r rfl act rfl, rfl, rfl, own, retire, presence, ⟨rfl, rfl⟩, rfl, rfl⟩

/-- Settles O26. -/
theorem joinAndRetireByStationState : Obligations.JoinAndRetireByStationState := by
  intro s r x
  have joins : replyOf (.join []) (setTransaction .waiting s) = joinAct [] (setTransaction .waiting s) :=
    checked_ok (fits := exactly 0) joinAct (body := []) _ rfl (by simp)
  have retires : replyOf (.retire []) (setTransaction .waiting s) = retireAct [] (setTransaction .waiting s) :=
    checked_ok (fits := exactly 0) retireAct (body := []) _ rfl (by simp)
  refine ⟨taken_join s r, fun off fault => ?_, fun a b c => ?_, taken_rejoin s r, fun off => ?_, taken_detach s r,
    taken_retire s r⟩
  · refine refused_of_reply rfl r rfl (joins.trans ?_)
    rcases off with e | e <;> simp [joinAct, show s.station.state = _ from e, show s.station.startFault = _ from fault]
  · refine refused_of_reply rfl r rfl (joins.trans ?_)
    simp only [joinAct, setTransaction_station]
    split <;> simp_all [x]
  · refine refused_of_reply rfl r rfl (retires.trans ?_)
    rcases off with e | e | e <;> simp [retireAct, show s.station.state = _ from e]
end Sys2Proof.Machine
end

