-- ==== Sys2Proof/Proofs/BoundaryRoster.lean ====
section
/-! PROOF. The interval check, the station controller and the steps that follow, at an epoch boundary. -/

namespace Sys2Proof.Machine
open Sys2Proof.Claims

/-! ### The interval check (R93) -/

/-- A roster entry changed alike. -/
theorem SeenAlike.updPeer {s t : State} (h : SeenAlike s t) (i : Fin 24) (f : RosterEntry → RosterEntry) :
    SeenAlike (updPeer i f s) (updPeer i f t) :=
  ⟨h.ticks, by simp only [Machine.updPeer, h.roster], h.pubs, h.subs, h.monitor, h.port⟩

/-- A subscription changed alike. -/
theorem SeenAlike.updSub {s t : State} (h : SeenAlike s t) (j : Fin 32) (f : Subscription → Subscription) :
    SeenAlike (updSub j f s) (updSub j f t) :=
  ⟨h.ticks, h.roster, h.pubs, by simp only [Machine.updSub, h.subs], h.monitor, h.port⟩

/-- A change report is the same in states seen alike. -/
theorem SeenAlike.changeReport {s t : State} (h : SeenAlike s t) (a : Nat) :
    SeenAlike (changeReport a s) (changeReport a t) := by
  have stale {s t : State} (h : SeenAlike s t) (j : Fin 32) (c : Nat) :
      SeenAlike (becomeStale j c s) (becomeStale j c t) := (h.updSub j _).raise _ _ _
  refine h.foldl (rejudge a) (fun {s t} h j => ?_) _
  have entry : peerEntry t a = peerEntry s a := by simp only [peerEntry, h.roster]
  unfold rejudge
  dsimp only
  rw [entry, h.subs]
  split
  · split
    · split
      · exact stale h j 2
      · split
        · exact h
        · exact stale h j 3
    · exact h
  · exact h

/-- The interval check of one entry is the same in states seen alike. -/
theorem SeenAlike.checkPeer {s t : State} (h : SeenAlike s t) (i : Fin 24) :
    SeenAlike (checkPeer s i) (checkPeer t i) := by
  unfold Machine.checkPeer clearPeer
  dsimp only
  rw [h.roster]
  split
  · exact h
  · split
    · exact h.updPeer i _
    · have missed := h.updPeer i (fun e => { e with missed := e.missed + 1 })
      split
      · split
        · exact (missed.updPeer i _).changeReport _
        · exact missed
      · split
        · exact ((missed.updPeer i _).raise _ _ _).changeReport _
        · exact missed
      · split
        · exact ((missed.updPeer i _).raise _ _ _).changeReport _
        · exact missed
      · split
        · exact ((missed.updPeer i _).raise _ _ _).changeReport _
        · exact missed
      · exact missed

/-- So is the interval check. -/
theorem SeenAlike.intervalCheck {s t : State} (h : SeenAlike s t) : SeenAlike (intervalCheck s) (intervalCheck t) :=
  h.foldl Machine.checkPeer (fun h i => h.checkPeer i) _

/-- The interval check of one entry: what it can change. -/
theorem checkPeer_frame (s : State) (i : Fin 24) :
    checkPeer s i = { s with roster := (checkPeer s i).roster, subs := (checkPeer s i).subs
                             port := (checkPeer s i).port } := by
  have report (a : Nat) (t : State) (e : t = { s with roster := t.roster, subs := t.subs, port := t.port }) :
      changeReport a t = { s with roster := (changeReport a t).roster, subs := (changeReport a t).subs
                                  port := (changeReport a t).port } := by
    rw [changeReport_frame, e]
  have event (k : EventKind) (n : Option Nat) (d : BitVec 16) (t : State)
      (e : t = { s with roster := t.roster, subs := t.subs, port := t.port }) :
      raise k n d t = { s with roster := (raise k n d t).roster, subs := (raise k n d t).subs
                               port := (raise k n d t).port } := by
    rw [raise_frame, e]
  unfold checkPeer clearPeer
  dsimp only
  split
  · rfl
  · split
    · rfl
    · split
      · split
        · exact report _ _ rfl
        · rfl
      · split
        · exact report _ _ (event _ _ _ _ rfl)
        · rfl
      · split
        · exact report _ _ (event _ _ _ _ rfl)
        · rfl
      · split
        · exact report _ _ (event _ _ _ _ rfl)
        · rfl
      · rfl

/-- The interval check: what it can change (R93). -/
theorem intervalCheck_frame (s : State) :
    intervalCheck s = { s with roster := (intervalCheck s).roster, subs := (intervalCheck s).subs
                               port := (intervalCheck s).port } :=
  foldl_keeps (fun s t => t = { s with roster := t.roster, subs := t.subs, port := t.port }) checkPeer
    (fun _ => rfl) (fun a b c h g => by rw [g, h]) checkPeer_frame _ s

/-! ### The station controller at a boundary -/

/-- The listen count: what it can change (R70). -/
theorem countListen_frame (s : State) :
    countListen s = { s with station := { s.station with listen := (countListen s).station.listen }
                             due := (countListen s).due } := by
  unfold countListen
  split
  · rw [markIf_frame]; rfl
  · rfl

/-- The presence of a boundary: what it can change (R72). -/
theorem schedulePresence_frame (s : State) :
    schedulePresence s = { s with txQueue := (schedulePresence s).txQueue } := by
  unfold schedulePresence
  split
  · next h => rw [enqueue_own .presence (.inl rfl) s (by rcases h with e | ⟨e, -⟩ <;> rw [e] <;> rfl)]
  · rfl

/-- The host service check: what it can change (R84). -/
theorem serviceCheck_frame (s : State) :
    serviceCheck s = { s with station := { s.station with lapse := (serviceCheck s).station.lapse }
                              due := (serviceCheck s).due } := by
  unfold serviceCheck
  dsimp only
  split
  · rw [markIf_frame]; rfl
  · rfl

/-- The station controller at a boundary: what it can change. -/
theorem controllerBoundary_frame (n : Nat) (s : State) :
    controllerBoundary n s = { s with
      station := { s.station with listen := (controllerBoundary n s).station.listen
                                  lapse := (controllerBoundary n s).station.lapse }
      txQueue := (controllerBoundary n s).txQueue, due := (controllerBoundary n s).due } := by
  unfold controllerBoundary
  dsimp only
  split
  · rw [serviceCheck_frame, schedulePresence_frame, countListen_frame]
  · rw [countListen_frame]

/-- What it makes fall due: the listen count's end and the lapse (R70, R84). -/
theorem mem_controllerBoundary (d : Due) (n : Nat) (s : State) (listen : d ≠ .listenComplete) (lapse : d ≠ .serviceLapsed) :
    d ∈ (controllerBoundary n s).due ↔ d ∈ s.due := by
  have counted : d ∈ (countListen s).due ↔ d ∈ s.due := by
    unfold countListen
    split
    · simp [mem_markIf, listen, updStation]
    · rfl
  have scheduled (t : State) : (schedulePresence t).due = t.due := by rw [schedulePresence_frame]
  have checked (t : State) : d ∈ (serviceCheck t).due ↔ d ∈ t.due := by
    unfold serviceCheck
    dsimp only
    split
    · simp [mem_markIf, lapse, updStation]
    · rfl
  unfold controllerBoundary
  dsimp only
  split
  · rw [checked, scheduled, counted]
  · exact counted

/-! ### The steps that follow a boundary -/

/-- Steps that fall due by units: what they change. -/
theorem markWhere_frame {α : Type} (units : List α) (c : State → α → Bool) (f : α → Due) (s : State) :
    markWhere units c f s = { s with due := (markWhere units c f s).due } :=
  foldl_keeps (fun s t => t = { s with due := t.due }) (fun t u => markIf (c t u) (f u) t) (fun _ => rfl)
    (fun a b c h g => by rw [g, h]) (fun t u => markIf_frame (c t u) (f u) t) units s

/-- Another step they leave as it was. -/
theorem mem_markWhere_other {α : Type} (units : List α) (c : State → α → Bool) (f : α → Due) (d : Due)
    (other : ∀ u, f u ≠ d) (s : State) : d ∈ (markWhere units c f s).due ↔ d ∈ s.due :=
  foldl_keeps (fun s t => d ∈ t.due ↔ d ∈ s.due) (fun t u => markIf (c t u) (f u) t) (fun _ => Iff.rfl)
    (fun a b c h g => g.trans h) (fun t u => by simp [mem_markIf, (other u).symm]) units s

/-- The retire timer of a boundary: what it can change (R77). -/
theorem retireBoundary_frame (s : State) :
    retireBoundary s = { s with station := { s.station with retireTimer := (retireBoundary s).station.retireTimer }
                                due := (retireBoundary s).due } := by
  unfold retireBoundary countRetire
  split
  · rfl
  · split
    · rw [markIf_frame]; rfl
    · rfl

/-- What it makes fall due: the retire timeout (R77). -/
theorem mem_retireBoundary (d : Due) (s : State) (other : d ≠ .retireTimeout) :
    d ∈ (retireBoundary s).due ↔ d ∈ s.due := by
  unfold retireBoundary countRetire
  split
  · rfl
  · split
    · simp [mem_markIf, other, updStation]
    · rfl
end Sys2Proof.Machine
end

