-- ==== Sys2Proof/Proofs/BoundarySelector.lean ====
section
/-! PROOF. The source selector at an epoch boundary. -/

namespace Sys2Proof.Machine
open Sys2Proof.Claims

/-! ### The source selector at the boundary of epoch `n` -/

/-- The peer that the search of a boundary finds (R34, R39). -/
def boundaryFound (n : Nat) (u : State) : Option Candidate :=
  if u.station.state = .joined ∧ n % 8 = 0 then (successor u).filter fun c => decide (u.selector.grade < c.grade)
  else if u.station.state = .retiring ∧ u.selector.release = false then successor u
  else none

/-- The record after the checks of a SOURCE (R34, R35, R39). -/
def boundaryRecord (n : Nat) (u : State) : Option Handover :=
  match u.selector.record with
  | none => (boundaryFound n u).map fun c => { target := c.address, epoch := (n + 16) % 2 ^ 47 }
  | some h => if epochAtOrAfter n h.epoch = false ∧ targetFault u h.target ≠ none then none else some h

/-- The handover of a SOURCE completes at this boundary (R36). -/
def boundaryCompletes (n : Nat) (u : State) : Bool :=
  match u.selector.record with
  | none => false
  | some h => epochAtOrAfter n h.epoch

/-- The events of a SOURCE's checks (R34, R38). -/
def boundaryEvents (n : Nat) (u : State) : List (EventKind × Option Nat × BitVec 16) :=
  match u.selector.record with
  | none => match boundaryFound n u with
    | none => []
    | some c => [(.handoverStart, some c.address, BitVec.ofNat 16 (n + 16))]
  | some h =>
    if epochAtOrAfter n h.epoch then []
    else
      match targetFault u h.target with
      | none => []
      | some cause => [(.handoverFail, some h.target, BitVec.ofNat 16 cause)]

/-- A RETIRING SOURCE that finds no successor sets the release (R39). -/
def boundaryReleases (u : State) : Bool :=
  decide (u.selector.record = none ∧ u.station.state = .retiring ∧ successor u = none)

/-- The boundary ends a retirement, as the selector sees the roster now (R39, R76). -/
def RetirementEndsNow (u : State) : Prop :=
  u.station.state = .retiring ∧ u.station.retireSent = true ∧ u.timebase.state = .source ∧ u.selector.record = none
    ∧ u.selector.release = false ∧ successor u = none

/-- At or after, in the words of the statements. -/
theorem epochReached_eq (n e : Nat) : epochReached n e = epochAtOrAfter n e :=
  Bool.eq_iff_iff.2 ((epochReached_iff n e).trans decide_eq_true_iff.symm)

/-- A SOURCE after its checks. -/
def checkedSource (n : Nat) (u : State) : State :=
  { u with selector := { u.selector with record := boundaryRecord n u
                                         release := u.selector.release || boundaryReleases u }
           port := (raised (boundaryEvents n u) u).port }

/-- A handover that starts, with its event (R34). -/
theorem startHandover_eq (target n : Nat) (u : State) :
    startHandover target (epochPlus n 16) u = { u with
      selector := { u.selector with record := some { target := target, epoch := (n + 16) % 2 ^ 47 } }
      port := (raise .handoverStart (some target) (BitVec.ofNat 16 (n + 16)) u).port } := by
  have seen : SeenAlike u
      (updSelector (fun x => { x with record := some { target := target, epoch := epochPlus n 16 } }) u) :=
    ⟨rfl, rfl, rfl, rfl, rfl, rfl⟩
  rw [startHandover, raise_frame, ← (seen.raise _ _ _).port, ofNat16_epochPlus]
  rfl

/-- The search of a JOINED source (R34). -/
theorem searchBetter_eq (n : Nat) (u : State) (free : u.selector.record = none) (joined : u.station.state = .joined)
    (interval : n % 8 = 0) : searchBetter n u = checkedSource n u := by
  unfold searchBetter checkedSource boundaryRecord boundaryEvents boundaryFound boundaryReleases
  simp only [free, joined, interval, and_self, if_true]
  cases successor u with
  | none => simp [raised, ← free]
  | some c =>
    by_cases better : u.selector.grade < c.grade
    · simp only [better, if_true, startHandover_eq]
      simp [Option.filter, better, raised]
    · simp [Option.filter, better, raised, ← free]

/-- The search of a RETIRING source (R39). -/
theorem searchAny_eq (n : Nat) (u : State) (free : u.selector.record = none) (retiring : u.station.state = .retiring)
    (held : u.selector.release = false) : searchAny (epochPlus n 16) u = checkedSource n u := by
  unfold searchAny checkedSource boundaryRecord boundaryEvents boundaryFound boundaryReleases
  simp only [free, retiring, held]
  cases successor u with
  | none => simp [raised, ← free, updSelector]
  | some c => simp [startHandover_eq, raised, held]

/-- A SOURCE whose checks find nothing to do. -/
theorem checkedSource_idle (n : Nat) (u : State) (record : boundaryRecord n u = u.selector.record)
    (release : (u.selector.release || boundaryReleases u) = u.selector.release) (quiet : boundaryEvents n u = []) :
    checkedSource n u = u := by
  unfold checkedSource
  rw [record, release, quiet]
  rfl

/-- Without a record a SOURCE that finds no peer has nothing to record and nothing to tell. -/
theorem boundary_unfound (n : Nat) (u : State) (free : u.selector.record = none) (found : boundaryFound n u = none) :
    boundaryRecord n u = u.selector.record ∧ boundaryEvents n u = [] := by
  simp [boundaryRecord, boundaryEvents, free, found]

/-- The checks of a SOURCE at a boundary (R34, R35, R39). -/
theorem sourceChecks_eq (n : Nat) (u : State) (source : u.timebase.state = .source) (goesOn : ¬ RetirementEndsNow u) :
    sourceChecks n u = markIf (boundaryCompletes n u) .handoverComplete (checkedSource n u) := by
  cases record : u.selector.record with
  | some h =>
    have kept : boundaryReleases u = false := by simp [boundaryReleases, record]
    by_cases reached : epochAtOrAfter n h.epoch = true
    · have same : checkedSource n u = u :=
        checkedSource_idle n u (by simp [boundaryRecord, record, reached]) (by simp [kept])
          (by simp [boundaryEvents, record, reached])
      rw [same]
      simp [sourceChecks, record, epochReached_eq, reached, boundaryCompletes, markIf]
    · have checks : sourceChecks n u = recheckTarget h u := by
        simp [sourceChecks, record, epochReached_eq, reached]
      have goes : boundaryCompletes n u = false := by simpa [boundaryCompletes, record] using reached
      rw [checks, goes]
      show recheckTarget h u = checkedSource n u
      cases fault : targetFault u h.target with
      | none =>
        rw [checkedSource_idle n u (by simp [boundaryRecord, record, fault]) (by simp [kept])
          (by simp [boundaryEvents, record, reached, fault])]
        simp [recheckTarget, fault]
      | some cause =>
        have fails : recheckTarget h u = failHandover cause u := by simp [recheckTarget, fault]
        have failed := failHandover_seen (SeenAlike.refl u) cause
        have events : boundaryEvents n u = [(.handoverFail, some h.target, BitVec.ofNat 16 cause)] := by
          simp [boundaryEvents, record, reached, fault]
        have lost : boundaryRecord n u = none := by simp [boundaryRecord, record, reached, fault]
        rw [record] at failed
        rw [fails, failHandover_frame, failed.port, checkedSource, events, lost, kept, Bool.or_false]
        simp
  | none =>
    have goes : boundaryCompletes n u = false := by simp [boundaryCompletes, record]
    rw [goes]
    show sourceChecks n u = checkedSource n u
    by_cases joined : u.station.state = .joined
    · have kept : boundaryReleases u = false := by simp [boundaryReleases, joined]
      by_cases interval : n % 8 = 0
      · rw [← searchBetter_eq n u record joined interval]
        simp [sourceChecks, record, joined, presenceBoundary, interval]
      · have unfound := boundary_unfound n u record (by simp [boundaryFound, joined, interval])
        rw [checkedSource_idle n u unfound.1 (by simp [kept]) unfound.2]
        simp [sourceChecks, record, joined, presenceBoundary, interval]
    · by_cases retiring : u.station.state = .retiring
      · cases release : u.selector.release with
        | true =>
          have unfound := boundary_unfound n u record (by simp [boundaryFound, retiring, release])
          rw [checkedSource_idle n u unfound.1 (by simp [release]) unfound.2]
          simp [sourceChecks, record, retiring, release]
        | false =>
          have search := searchAny_eq n u record retiring release
          have stays : checkRetired (checkedSource n u) = checkedSource n u := by
            refine if_neg fun ⟨_, sent, off⟩ => ?_
            simp only [checkedSource, source, ne_eq, not_true, false_or, release, Bool.false_or, boundaryReleases,
              decide_eq_true_eq] at off
            exact goesOn ⟨retiring, sent, source, record, release, off.2.2⟩
          simp [sourceChecks, record, retiring, release, search, stays]
      · have unfound := boundary_unfound n u record (by simp [boundaryFound, joined, retiring])
        rw [checkedSource_idle n u unfound.1 (by simp [boundaryReleases, retiring]) unfound.2]
        unfold sourceChecks
        rw [record]
        dsimp only
        split
        · exact absurd ‹_› joined
        · exact absurd ‹_› retiring
        · rfl

/-! ### The claim test (R29) -/

/-- The claim conditions (R29). -/
def claimsNow (u : State) : Bool :=
  u.station.state == .joined && u.selector.eligible
    && (u.timebase.state == .free || u.timebase.state == .holdover) && ranksFirst u

/-- The countdown after the claim test (R29). -/
def claimCount (u : State) : Option Nat :=
  if claimsNow u then
    match u.selector.countdown with
    | none => some (2 * u.station.own)
    | some k => some (k - 1)
  else none

/-- The countdown falls to 0 (R31). -/
def claimExpires (u : State) : Bool :=
  claimsNow u && match u.selector.countdown with
    | none => false
    | some k => decide (k ≤ 1)

/-- The claim test (R29, R31). -/
theorem claimTest_eq (u : State) :
    claimTest u = markIf (claimExpires u) .claimExpiry { u with
      selector := { u.selector with countdown := claimCount u } } := by
  unfold claimTest claimExpires claimCount
  dsimp only
  change (if claimsNow u = true then _ else _) = _
  cases claimsNow u
  · simp [markIf, updSelector]
  · cases count : u.selector.countdown with
    | none => simp [markIf, updSelector]
    | some k =>
      have zero : decide (k - 1 = 0) = decide (k ≤ 1) := decide_eq_decide.2 (by omega)
      simp only [if_true, Bool.true_and, zero]
      rfl

/-! ### The boundary -/

/-- The marker word of epoch `n` with this source and this handover record (R32). -/
def wordOf (n own : Nat) (record : Option Handover) : BitVec 64 :=
  match record with
  | none => markerWord { epoch := BitVec.ofNat 32 n, source := own, target := 0, countdown := 0 }
  | some h => markerWord
    { epoch := BitVec.ofNat 32 n, source := own, target := h.target, countdown := (h.epoch + 2 ^ 47 - n) % 2 ^ 47 }

/-- The marker word of a SOURCE's boundary (R32). -/
def boundaryWord (n : Nat) (u : State) : BitVec 64 := wordOf n u.station.own (boundaryRecord n u)

/-- A SOURCE after its boundary, before the claim test: its checks, and its marker unless it completes (R32, R36). -/
def drivenSource (n : Nat) (u : State) : State :=
  { checkedSource n u with
    selector := { (checkedSource n u).selector with
      driving := if boundaryCompletes n u then u.selector.driving else some { word := boundaryWord n u, left := 16 } } }

/-- The marker word that a SOURCE drives after its checks (R32). -/
theorem boundaryWord_eq (n : Nat) (lt : n < 2 ^ 47) (u : State) :
    markerWord (markerFields (checkedSource n u) n) = boundaryWord n u := by
  have record : (checkedSource n u).selector.record = boundaryRecord n u := rfl
  unfold markerFields boundaryWord
  rw [record]
  cases boundaryRecord n u with
  | none => rfl
  | some h =>
    have left : epochsUntil n h.epoch = (h.epoch + 2 ^ 47 - n) % 2 ^ 47 := by rw [epochsUntil_eq]; omega
    dsimp only
    rw [left]
    rfl

/-- The marker of a boundary follows the checks (R32, R36). -/
theorem sourceMarker_eq (n : Nat) (lt : n < 2 ^ 47) (u : State) (source : u.timebase.state = .source)
    (goesOn : ¬ RetirementEndsNow u) (idle : Due.handoverComplete ∉ u.due) :
    sourceMarker n (sourceChecks n u) = markIf (boundaryCompletes n u) .handoverComplete (drivenSource n u) := by
  rw [sourceChecks_eq n u source goesOn]
  have clear : Due.handoverComplete ∉ (checkedSource n u).due := idle
  cases goes : boundaryCompletes n u
  · have drives : (checkedSource n u).timebase.state = .source ∧ Due.handoverComplete ∉ (checkedSource n u).due :=
      ⟨source, clear⟩
    rw [show markIf false .handoverComplete (checkedSource n u) = checkedSource n u from rfl, sourceMarker, if_pos drives]
    simp only [driveMarker, updSelector, boundaryWord_eq n lt, drivenSource, goes]
    rfl
  · rw [sourceMarker, if_neg (by simp [mem_markIf])]
    simp only [drivenSource, goes, if_true]
    rfl

/-- Whether a station's source role ends at the boundary (R36). -/
def roleCompletes (n : Nat) (u : State) : Bool := u.timebase.state == .source && boundaryCompletes n u

/-- A SOURCE's part of the boundary; any other station has none. -/
def sourcePart (n : Nat) (u : State) : State := if u.timebase.state = .source then drivenSource n u else u

/-- What it can change. -/
theorem sourcePart_frame (n : Nat) (u : State) :
    sourcePart n u = { u with
      selector := { u.selector with record := (sourcePart n u).selector.record
                                    release := (sourcePart n u).selector.release
                                    driving := (sourcePart n u).selector.driving }
      port := (sourcePart n u).port } := by
  unfold sourcePart
  split <;> rfl

/-- The source selector at the boundary of epoch `n` (R29, R32, R37). -/
theorem selectorBoundary_eq (n : Nat) (lt : n < 2 ^ 47) (u : State) (goesOn : ¬ RetirementEndsNow u)
    (idle : Due.handoverComplete ∉ u.due) :
    selectorBoundary n u = markIf (u.timebase.expectation == some n) .handoverTakeover
      (markIf (claimExpires u) .claimExpiry { markIf (roleCompletes n u) .handoverComplete (sourcePart n u) with
        selector := { (sourcePart n u).selector with countdown := claimCount u } }) := by
  have part : (if u.timebase.state = .source then sourceMarker n (sourceChecks n u) else u)
      = markIf (roleCompletes n u) .handoverComplete (sourcePart n u) := by
    unfold roleCompletes sourcePart
    by_cases source : u.timebase.state = .source
    · simp only [source, if_true, sourceMarker_eq n lt u source goesOn idle]
      rfl
    · simp [source, markIf]
  have claims : claimsNow (markIf (roleCompletes n u) .handoverComplete (sourcePart n u)) = claimsNow u := by
    rw [markIf_frame, sourcePart_frame]; rfl
  have expires : claimExpires (markIf (roleCompletes n u) .handoverComplete (sourcePart n u)) = claimExpires u := by
    unfold claimExpires
    rw [claims, markIf_frame, sourcePart_frame]
  have counts : claimCount (markIf (roleCompletes n u) .handoverComplete (sourcePart n u)) = claimCount u := by
    unfold claimCount
    rw [claims, markIf_frame, sourcePart_frame]
  have expected : (markIf (roleCompletes n u) .handoverComplete (sourcePart n u)).timebase = u.timebase := by
    rw [markIf_frame, sourcePart_frame]
  unfold selectorBoundary
  dsimp only
  rw [part, claimTest_eq, expires, counts, expected]
  simp

/-- The selector after the boundary. -/
theorem selectorBoundary_selector (n : Nat) (lt : n < 2 ^ 47) (u : State) (goesOn : ¬ RetirementEndsNow u)
    (idle : Due.handoverComplete ∉ u.due) :
    (selectorBoundary n u).selector = { u.selector with
      countdown := claimCount u
      record := if u.timebase.state = .source then boundaryRecord n u else u.selector.record
      release := u.selector.release || ((u.timebase.state == .source) && boundaryReleases u)
      driving := if u.timebase.state = .source ∧ boundaryCompletes n u = false then
          some { word := boundaryWord n u, left := 16 }
        else u.selector.driving } := by
  rw [selectorBoundary_eq n lt u goesOn idle]
  by_cases source : u.timebase.state = .source
  · cases goes : boundaryCompletes n u <;> simp [sourcePart, source, drivenSource, checkedSource, goes]
  · simp [sourcePart, source]

/-- The events of the boundary at the selector. -/
theorem selectorBoundary_seen (n : Nat) (lt : n < 2 ^ 47) (u : State) (goesOn : ¬ RetirementEndsNow u)
    (idle : Due.handoverComplete ∉ u.due) :
    SeenAlike (raised (if u.timebase.state = .source then boundaryEvents n u else []) u) (selectorBoundary n u) := by
  have keeps (es : List (EventKind × Option Nat × BitVec 16)) :
      SeenAlike { u with port := (raised es u).port } (raised es u) := by
    have same := foldl_keeps (fun s t => t = { s with port := t.port })
      (fun v (e : EventKind × Option Nat × BitVec 16) => raise e.1 e.2.1 e.2.2 v) (fun _ => rfl)
      (fun a b c h g => by rw [g, h]) (fun v e => raise_frame e.1 e.2.1 e.2.2 v) es u
    rw [show raised es u = _ from same]
    exact ⟨rfl, rfl, rfl, rfl, rfl, rfl⟩
  refine (keeps _).symm.trans ?_
  rw [selectorBoundary_eq n lt u goesOn idle]
  by_cases source : u.timebase.state = .source
  · refine ⟨?_, ?_, ?_, ?_, ?_, ?_⟩ <;> simp [sourcePart, source, drivenSource, checkedSource]
  · refine ⟨?_, ?_, ?_, ?_, ?_, ?_⟩ <;> simp [sourcePart, source, raised]

/-- What the boundary makes fall due at the selector (R31, R36, R37). -/
theorem mem_selectorBoundary (d : Due) (n : Nat) (lt : n < 2 ^ 47) (u : State) (goesOn : ¬ RetirementEndsNow u)
    (idle : Due.handoverComplete ∉ u.due) :
    d ∈ (selectorBoundary n u).due ↔ (u.timebase.expectation = some n ∧ d = .handoverTakeover)
      ∨ (claimExpires u = true ∧ d = .claimExpiry) ∨ (roleCompletes n u = true ∧ d = .handoverComplete) ∨ d ∈ u.due := by
  rw [selectorBoundary_eq n lt u goesOn idle]
  simp only [mem_markIf, beq_iff_eq]
  rw [sourcePart_frame]

/-- The boundary at the selector: what it can change. -/
theorem selectorBoundary_frame (n : Nat) (lt : n < 2 ^ 47) (u : State) (goesOn : ¬ RetirementEndsNow u)
    (idle : Due.handoverComplete ∉ u.due) :
    selectorBoundary n u = { u with selector := (selectorBoundary n u).selector, port := (selectorBoundary n u).port
                                    due := (selectorBoundary n u).due } := by
  rw [selectorBoundary_eq n lt u goesOn idle]
  generalize claimCount u = c
  rw [markIf_frame, markIf_frame, markIf_frame, sourcePart_frame]
end Sys2Proof.Machine
end

