-- ==== Sys2Proof/Proofs/Boundaries.lean ====
section
/-! PROOF. The epoch boundary at the source selector, and the end of a marker word. -/

namespace Sys2Proof.Machine
open Sys2Proof.Claims

/-! ### The state that the selector finds at a boundary -/

/-- `u` and `v` are the same for the source selector: its own fields, the timebase, the roster, the station's state. -/
structure SelectorAlike (u v : State) : Prop where
  selector : u.selector = v.selector
  timebase : u.timebase = v.timebase
  roster : u.roster = v.roster
  state : u.station.state = v.station.state
  own : u.station.own = v.station.own
  sent : u.station.retireSent = v.station.retireSent

theorem SelectorAlike.candidate {u v : State} (h : SelectorAlike u v) (i : Fin 24) :
    peerCandidate u i = peerCandidate v i := by
  simp only [peerCandidate, h.roster, h.timebase]

theorem SelectorAlike.successor {u v : State} (h : SelectorAlike u v) : successor u = successor v := by
  simp only [Machine.successor, h.roster, h.candidate]

theorem SelectorAlike.ranksFirst {u v : State} (h : SelectorAlike u v) : ranksFirst u = ranksFirst v := by
  simp only [Machine.ranksFirst, selfCandidate, h.roster, h.candidate, h.selector, h.timebase, h.own]

theorem SelectorAlike.targetFault {u v : State} (h : SelectorAlike u v) (a : Nat) : targetFault u a = targetFault v a := by
  simp only [Machine.targetFault, peerEntry, h.roster]

theorem SelectorAlike.found {u v : State} (h : SelectorAlike u v) (n : Nat) : boundaryFound n u = boundaryFound n v := by
  simp only [boundaryFound, h.successor, h.selector, h.state]

theorem SelectorAlike.record {u v : State} (h : SelectorAlike u v) (n : Nat) : boundaryRecord n u = boundaryRecord n v := by
  simp only [boundaryRecord, h.found, h.targetFault, h.selector]

theorem SelectorAlike.completes {u v : State} (h : SelectorAlike u v) (n : Nat) :
    boundaryCompletes n u = boundaryCompletes n v := by
  simp only [boundaryCompletes, h.selector]

theorem SelectorAlike.events {u v : State} (h : SelectorAlike u v) (n : Nat) : boundaryEvents n u = boundaryEvents n v := by
  simp only [boundaryEvents, h.found, h.targetFault, h.selector]

theorem SelectorAlike.releases {u v : State} (h : SelectorAlike u v) : boundaryReleases u = boundaryReleases v := by
  simp only [boundaryReleases, h.successor, h.selector, h.state]

theorem SelectorAlike.word {u v : State} (h : SelectorAlike u v) (n : Nat) : boundaryWord n u = boundaryWord n v := by
  simp only [boundaryWord, h.record, h.own]

theorem SelectorAlike.claims {u v : State} (h : SelectorAlike u v) : claimsNow u = claimsNow v := by
  simp only [claimsNow, h.ranksFirst, h.selector, h.timebase, h.state]

theorem SelectorAlike.count {u v : State} (h : SelectorAlike u v) : claimCount u = claimCount v := by
  simp only [claimCount, h.claims, h.selector, h.own]

theorem SelectorAlike.expires {u v : State} (h : SelectorAlike u v) : claimExpires u = claimExpires v := by
  simp only [claimExpires, h.claims, h.selector]

theorem SelectorAlike.ends {u v : State} (h : SelectorAlike u v) : RetirementEndsNow u ↔ RetirementEndsNow v := by
  simp only [RetirementEndsNow, h.successor, h.selector, h.timebase, h.state, h.sent]

/-- The state the selector finds at the boundary of epoch `n`, in the order of R98. -/
def selectorFinds (first : Bool) (n : Nat) (s : State) : State :=
  if first then rosterBoundary n (controllerBoundary n s) else controllerBoundary n s

/-- The roster's part of a boundary: what it can change. -/
theorem rosterBoundary_frame (n : Nat) (s : State) :
    rosterBoundary n s = { s with roster := (rosterBoundary n s).roster, subs := (rosterBoundary n s).subs
                                  port := (rosterBoundary n s).port } := by
  unfold rosterBoundary
  split
  · exact intervalCheck_frame s
  · rfl

/-- It is the same in states seen alike. -/
theorem SeenAlike.rosterBoundary {s t : State} (h : SeenAlike s t) (n : Nat) :
    SeenAlike (rosterBoundary n s) (rosterBoundary n t) := by
  unfold Machine.rosterBoundary
  split
  · exact h.intervalCheck
  · exact h

/-- What the station controller does at a boundary, events do not see. -/
theorem controllerBoundary_seen (n : Nat) (s : State) : SeenAlike s (controllerBoundary n s) := by
  rw [controllerBoundary_frame]
  exact ⟨rfl, rfl, rfl, rfl, rfl, rfl⟩

/-- The selector's view in the words of the roster's part of the boundary. -/
theorem selectorView_eq (first : Bool) (s : State) :
    selectorView first s = if first then rosterBoundary (epochNumber s.timebase) s else s := by
  cases first
  · simp [selectorView]
  · simp only [selectorView, true_and, if_true, rosterBoundary, presenceBoundary, beq_iff_eq]
    rfl

@[simp] theorem rosterBoundary_selector (n : Nat) (s : State) : (rosterBoundary n s).selector = s.selector := by
  rw [rosterBoundary_frame]
@[simp] theorem rosterBoundary_timebase (n : Nat) (s : State) : (rosterBoundary n s).timebase = s.timebase := by
  rw [rosterBoundary_frame]
@[simp] theorem rosterBoundary_station (n : Nat) (s : State) : (rosterBoundary n s).station = s.station := by
  rw [rosterBoundary_frame]
@[simp] theorem rosterBoundary_due (n : Nat) (s : State) : (rosterBoundary n s).due = s.due := by
  rw [rosterBoundary_frame]
@[simp] theorem controllerBoundary_selector (n : Nat) (s : State) : (controllerBoundary n s).selector = s.selector := by
  rw [controllerBoundary_frame]
@[simp] theorem controllerBoundary_timebase (n : Nat) (s : State) : (controllerBoundary n s).timebase = s.timebase := by
  rw [controllerBoundary_frame]
@[simp] theorem controllerBoundary_roster (n : Nat) (s : State) : (controllerBoundary n s).roster = s.roster := by
  rw [controllerBoundary_frame]

/-- The station controller's own counts aside, a boundary leaves the station. -/
theorem controllerBoundary_station (n : Nat) (s : State) :
    (controllerBoundary n s).station.state = s.station.state ∧ (controllerBoundary n s).station.own = s.station.own
      ∧ (controllerBoundary n s).station.retireSent = s.station.retireSent := by
  rw [controllerBoundary_frame]; exact ⟨rfl, rfl, rfl⟩

/-- The selector finds what the statements call its view. -/
theorem selectorFinds_alike (first : Bool) (d : Due) (s : State) :
    SelectorAlike (selectorFinds first (epochNumber s.timebase) (clearDue d s)) (selectorView first s) := by
  have seen := ((clearDue_seen d s).symm.trans (controllerBoundary_seen (epochNumber s.timebase) _))
  obtain ⟨state, own, sent⟩ := controllerBoundary_station (epochNumber s.timebase) (clearDue d s)
  rw [selectorView_eq]
  unfold selectorFinds
  cases first
  · exact ⟨by simp, by simp, by simp, state, own, sent⟩
  · have roster := (seen.rosterBoundary (epochNumber s.timebase)).roster
    exact ⟨by simp, by simp, roster, by simpa using state, by simpa using own, by simpa using sent⟩

/-! ### The rest of a boundary -/

/-- The retire timer, and what a boundary makes fall due in the subscriptions and the generators. -/
def boundaryTail (s : State) : State :=
  markWhere (List.finRange 2) (fun t g => armReached t.timebase t.gens[g]) .generatorStart
    (markWhere (List.finRange 32) pullDeadlinePassed .pullDeadline
      (markWhere (List.finRange 32) staleTimeoutPassed .staleTimeout (retireBoundary s)))

/-- What it can change. -/
theorem boundaryTail_frame (s : State) :
    boundaryTail s = { s with station := { s.station with retireTimer := (boundaryTail s).station.retireTimer }
                              due := (boundaryTail s).due } := by
  unfold boundaryTail
  rw [markWhere_frame, markWhere_frame, markWhere_frame, retireBoundary_frame]

/-- A step of the source selector it leaves as it was. -/
theorem mem_boundaryTail (d : Due) (s : State) (own : d = .claimExpiry ∨ d = .handoverTakeover ∨ d = .handoverComplete) :
    d ∈ (boundaryTail s).due ↔ d ∈ s.due := by
  unfold boundaryTail
  rcases own with rfl | rfl | rfl
  all_goals
    exact (mem_markWhere_other _ _ Due.generatorStart _ (by simp) _).trans
      ((mem_markWhere_other _ _ Due.pullDeadline _ (by simp) _).trans
        ((mem_markWhere_other _ _ Due.staleTimeout _ (by simp) _).trans (mem_retireBoundary _ _ nofun)))

/-- The work of a boundary: the controller, the selector with what it finds, the roster where it comes after. -/
theorem boundaryWork_eq (first : Bool) (s : State) :
    boundaryWork first s =
      (let n := epochNumber s.timebase
      boundaryTail (if first then selectorBoundary n (selectorFinds first n s)
        else rosterBoundary n (selectorBoundary n (selectorFinds first n s)))) := by
  cases first <;> simp only [boundaryWork, boundaryTail, selectorFinds, if_true, Bool.false_eq_true, if_false]

/-- The row of a boundary that is due. -/
theorem exec_epochBoundary (first : Bool) (s : State) (h : Due.epochBoundary ∈ s.due) :
    exec (.epochBoundary first) s = .next (boundaryWork first (clearDue .epochBoundary s)) := by
  rw [exec, execEpochBoundary, clockRow_due _ _ _ _ s h]

/-- The end of a marker word that is due (R32). -/
theorem exec_markerWordSent (d : Driving) (s : State) (h : Due.markerWordSent ∈ s.due)
    (driving : s.selector.driving = some d) :
    exec .markerWordSent s = .next { clearDue .markerWordSent s with
      selector := { s.selector with driving := none, firstDrive := none } } := by
  rw [exec, execMarkerWordSent, clockRow_due _ _ _ _ s h, endMarkerWord, clearDue_selector, driving]
  rfl
/-- The selector's view has the selector, the timebase and the station of the state. -/
theorem selectorView_frame (first : Bool) (s : State) :
    (selectorView first s).selector = s.selector ∧ (selectorView first s).timebase = s.timebase
      ∧ (selectorView first s).station = s.station := by
  rw [selectorView_eq]
  cases first <;> simp

/-- What falls due before the selector's work. -/
theorem mem_selectorFinds (first : Bool) (n : Nat) (d e : Due) (s : State) (a : d ≠ .listenComplete)
    (b : d ≠ .serviceLapsed) (c : d ≠ e) : d ∈ (selectorFinds first n (clearDue e s)).due ↔ d ∈ s.due := by
  have counted := mem_controllerBoundary d n (clearDue e s) a b
  rw [mem_clearDue, and_iff_left c] at counted
  cases first
  · exact counted
  · simpa [selectorFinds] using counted

/-- What the selector finds differs from the state in the station's counts, the queue, the roster's parts, what is due. -/
theorem selectorFinds_frame (first : Bool) (n : Nat) (s : State) :
    selectorFinds first n s = { s with
      station := (selectorFinds first n s).station, txQueue := (selectorFinds first n s).txQueue
      roster := (selectorFinds first n s).roster, subs := (selectorFinds first n s).subs
      port := (selectorFinds first n s).port, due := (selectorFinds first n s).due } := by
  cases first
  · simp only [selectorFinds, Bool.false_eq_true, if_false]
    rw [controllerBoundary_frame]
  · simp only [selectorFinds, if_true]
    rw [rosterBoundary_frame, controllerBoundary_frame]

/-- What events see of what the selector finds. -/
theorem selectorFinds_seen (first : Bool) (e : Due) (s : State) :
    SeenAlike (if first then rosterBoundary (epochNumber s.timebase) s else s)
      (selectorFinds first (epochNumber s.timebase) (clearDue e s)) := by
  have seen := (clearDue_seen e s).symm.trans (controllerBoundary_seen (epochNumber s.timebase) _)
  cases first
  · exact seen
  · exact seen.rosterBoundary _

/-- The boundary after the selector's work, in the order of R98. -/
def afterSelector (first : Bool) (n : Nat) (s : State) : State :=
  boundaryTail (if first then s else rosterBoundary n s)

/-- The roster's work after the selector's leaves the selector and what is due. -/
theorem afterSelector_frame (first : Bool) (n : Nat) (s : State) :
    afterSelector first n s = { s with
      station := (afterSelector first n s).station, roster := (afterSelector first n s).roster
      subs := (afterSelector first n s).subs, port := (afterSelector first n s).port
      due := (afterSelector first n s).due } := by
  cases first
  · simp only [afterSelector, Bool.false_eq_true, if_false]
    rw [boundaryTail_frame, rosterBoundary_frame]
  · simp only [afterSelector, if_true]
    rw [boundaryTail_frame]

/-- A boundary, with the selector's work between what comes before and after it. -/
theorem exec_boundary (first : Bool) (s : State) (h : Due.epochBoundary ∈ s.due) :
    exec (.epochBoundary first) s = .next (afterSelector first (epochNumber s.timebase)
      (selectorBoundary (epochNumber s.timebase)
        (selectorFinds first (epochNumber s.timebase) (clearDue .epochBoundary s)))) := by
  rw [exec_epochBoundary first s h, boundaryWork_eq]
  cases first
  · simp only [afterSelector, Bool.false_eq_true, if_false, clearDue_timebase]
  · simp only [afterSelector, if_true, clearDue_timebase]

/-- Steps of the selector that are due after its work stay due. -/
theorem mem_afterSelector (d : Due) (first : Bool) (n : Nat) (s : State)
    (own : d = .claimExpiry ∨ d = .handoverTakeover ∨ d = .handoverComplete) :
    d ∈ (afterSelector first n s).due ↔ d ∈ s.due := by
  rw [afterSelector, mem_boundaryTail d _ own]
  cases first <;> simp

/-- What a boundary leaves, in the words of the view that the selector has of the roster (R29, R32, R98). -/
theorem boundary_leaves (first : Bool) (s : State) (h : Due.epochBoundary ∈ s.due) (idle : Due.handoverComplete ∉ s.due)
    (goesOn : ¬ RetirementEndsNow (selectorView first s)) :
    let n := s.timebase.ticks.toNat / 131072
    let v := selectorView first s
    let events := if s.timebase.state = .source then boundaryEvents n v else []
    ∃ t, exec (.epochBoundary first) s = .next t
      ∧ t.selector = { s.selector with
          countdown := claimCount v
          record := if s.timebase.state = .source then boundaryRecord n v else s.selector.record
          release := s.selector.release || ((s.timebase.state == .source) && boundaryReleases v)
          driving := if s.timebase.state = .source ∧ boundaryCompletes n v = false then
              some { word := boundaryWord n v, left := 16 }
            else s.selector.driving }
      ∧ t.port = (if first then raised events (rosterBoundary n s) else rosterBoundary n (raised events s)).port
      ∧ (∀ d, d = .claimExpiry ∨ d = .handoverTakeover ∨ d = .handoverComplete → (d ∈ t.due ↔
          (s.timebase.expectation = some n ∧ d = .handoverTakeover) ∨ (claimExpires v = true ∧ d = .claimExpiry)
            ∨ (((s.timebase.state == .source) && boundaryCompletes n v) = true ∧ d = .handoverComplete) ∨ d ∈ s.due))
      ∧ t = { s with station := t.station, selector := t.selector, txQueue := t.txQueue, roster := t.roster
                     subs := t.subs, port := t.port, due := t.due } := by
  intro n v events
  have alike : SelectorAlike (selectorFinds first n (clearDue .epochBoundary s)) v := selectorFinds_alike first _ s
  have seen : SeenAlike (if first then rosterBoundary n s else s) (selectorFinds first n (clearDue .epochBoundary s)) :=
    selectorFinds_seen first _ s
  have frame := selectorFinds_frame first n (clearDue .epochBoundary s)
  have due (d : Due) := mem_selectorFinds first n d .epochBoundary s
  obtain ⟨vSelector, vTimebase, -⟩ := selectorView_frame first s
  have lt : n < 2 ^ 47 := epochNumber_lt _
  have row := exec_boundary first s h
  change exec _ s = .next (afterSelector first n (selectorBoundary n (selectorFinds first n _))) at row
  generalize selectorFinds first n (clearDue .epochBoundary s) = u at *
  have stays : ¬ RetirementEndsNow u := fun c => goesOn (alike.ends.1 c)
  have clear : Due.handoverComplete ∉ u.due := by rwa [due _ (by simp) (by simp) (by simp)]
  have timebase : u.timebase = s.timebase := alike.timebase.trans vTimebase
  have selector : u.selector = s.selector := alike.selector.trans vSelector
  refine ⟨_, row, ?_, ?_, fun d own => ?_, ?_⟩
  · rw [afterSelector_frame, selectorBoundary_selector n lt u stays clear, alike.count, alike.record, alike.releases,
      alike.completes, alike.word, timebase, selector]
  · have told := selectorBoundary_seen n lt u stays clear
    rw [alike.events, timebase] at told
    cases first
    · have after := ((seen.raised events).trans told).rosterBoundary n
      exact (congrArg State.port (boundaryTail_frame _)).trans after.port
    · exact (congrArg State.port (boundaryTail_frame _)).trans ((seen.raised events).trans told).port
  · rw [mem_afterSelector d first n _ own, mem_selectorBoundary d n lt u stays clear, alike.expires, timebase,
      due d (by rcases own with rfl | rfl | rfl <;> simp) (by rcases own with rfl | rfl | rfl <;> simp)
        (by rcases own with rfl | rfl | rfl <;> simp), roleCompletes, alike.completes, timebase]
  · have inner := selectorBoundary_frame n lt u stays clear
    have outer := afterSelector_frame first n (selectorBoundary n u)
    generalize afterSelector first n (selectorBoundary n u) = t at outer ⊢
    generalize selectorBoundary n u = w at inner outer
    rw [outer, inner, frame]
    rfl

/-- Settles O15: the boundary at the selector, and the end of the marker word. -/
theorem boundariesDriveMarkersAndCountClaims : Obligations.BoundariesDriveMarkersAndCountClaims := by
  refine ⟨?_, exec_markerWordSent⟩
  intro first s h idle goesOn n x v aged source found record completes told word claims
  obtain ⟨vSelector, vTimebase, vStation⟩ := selectorView_frame first s
  have stays : ¬ RetirementEndsNow v := fun c => goesOn (by
    obtain ⟨a, b, c, d, e, f⟩ := c
    rw [vStation] at a b
    rw [vTimebase] at c
    rw [vSelector] at d e
    exact ⟨a, b, c, d, e, f⟩)
  have foundEq : boundaryFound n v = found := by
    simp only [boundaryFound, found, v, vSelector, vStation, x]
  have recordEq : (if s.timebase.state = .source then boundaryRecord n v else x.record) = record := by
    simp only [boundaryRecord, foundEq, record, v, vSelector, source, x]
    by_cases role : s.timebase.state = .source <;> cases s.selector.record <;> simp [role, epochAtOrAfter]
  have releaseEq : boundaryReleases v = decide (x.record = none ∧ s.station.state = .retiring ∧ successor v = none) := by
    simp only [boundaryReleases, v, vSelector, vStation, x]
  have completesEq : (source && boundaryCompletes n v) = completes :=
    congrArg (fun y : Selector => source && match y.record with
      | none => false
      | some h => epochAtOrAfter n h.epoch) vSelector
  have toldEq (y : State) :
      raised (if s.timebase.state = .source then boundaryEvents n v else []) y = told y := by
    simp only [boundaryEvents, foundEq, told, v, vSelector, source, x]
    by_cases role : s.timebase.state = .source
    · simp only [role, if_true, beq_self_eq_true]
      cases s.selector.record with
      | none => cases found <;> rfl
      | some r =>
        dsimp only
        split
        · rfl
        · cases targetFault (selectorView first s) r.target <;> rfl
    · simp [role, raised]
  have wordEq (role : s.timebase.state = .source) : boundaryWord n v = word := by
    have same : boundaryRecord n v = record := by rw [← recordEq, if_pos role]
    show wordOf n v.station.own (boundaryRecord n v) = wordOf n s.station.own record
    rw [same, vStation]
  have claimsEq : claimsNow v = true ↔ claims := by
    simp [claimsNow, claims, v, vSelector, vStation, vTimebase, x, and_assoc]
  have agedEq (y : State) : rosterBoundary n y = aged y := by
    simp [rosterBoundary, aged, presenceBoundary]
  obtain ⟨t, row, selector, port, due, frame⟩ := boundary_leaves first s h idle stays
  have expiresEq : claimExpires v = true ↔ claims ∧ ∃ k, x.countdown = some k ∧ k ≤ 1 := by
    rw [claimExpires, Bool.and_eq_true, claimsEq]
    refine and_congr_right fun _ => ?_
    have count : v.selector.countdown = x.countdown := by rw [vSelector]
    rw [count]
    cases x.countdown <;> simp
  have countEq : claimCount v = if claims then
      match x.countdown with
      | none => some (2 * s.station.own)
      | some k => some (k - 1)
    else none := by
    have count : v.selector.countdown = x.countdown := by rw [vSelector]
    have own : v.station.own = s.station.own := by rw [vStation]
    unfold claimCount
    rw [count, own]
    by_cases c : claims
    · refine (if_pos (claimsEq.2 c)).trans (Eq.trans ?_ (if_pos c).symm)
      cases x.countdown <;> rfl
    · rw [if_neg (fun d => c (claimsEq.1 d)), if_neg c]
  refine ⟨t, row, ?_, ?_, ?_, ?_, ?_, frame⟩
  · rw [selector, countEq, recordEq, releaseEq]
    by_cases role : s.timebase.state = .source
    · rw [wordEq role]
      have driven : boundaryCompletes n v = completes := by rw [← completesEq]; simp [source, role]
      rw [driven]
      cases completes <;> simp [role, source, x] <;> rfl
    · simp [role, source, x] <;> rfl
  · rw [port, agedEq, toldEq, toldEq, agedEq]
  · rw [due _ (by simp), ← expiresEq]
    simp [or_comm, v]
  · rw [due _ (by simp)]
    simp [or_comm, n]
  · rw [due _ (by simp), ← completesEq]
    simp [idle, source, n, v]
end Sys2Proof.Machine
end

