-- ==== Sys2Proof/Proofs/ClockPeriod.lean ====
section
/-! PROOF. One local clock period: what it advances, counts and makes fall due. -/

namespace Sys2Proof.Machine
open Sys2Proof.Claims

/-! ### One local clock period (R1) -/

/-- The local clock's counts after `k` periods (R69, R206). -/
theorem countPeriods_eq (k : Nat) (s : State) :
    countPeriods k s = { s with
      station := { s.station with settle :=
        (if s.station.state = .settling ∧ s.pins.sense = true then min 4096 (s.station.settle + k)
        else s.station.settle) }
      selector := { s.selector with driving := s.selector.driving.map fun w => { w with left := w.left - k } } } := by
  unfold countPeriods
  dsimp only
  split <;> rfl

/-- A generator whose level belongs high is driven high (R163). -/
def levelled (ticks : BitVec 64) (g : Generator) : Generator :=
  { g with out := g.out || decide (g.state = .running ∧ phaseIn ticks g.wrapBase < (g.period : Int)
      ∧ phaseIn ticks g.wrapBase < (g.high : Int)) }

/-- What a period makes fall due at a generator (R163, R164). -/
def edgeBrings (ticks : BitVec 64) (i : Fin 2) (g : Generator) (d : Due) : Prop :=
  (d = .generatorWrap i ∧ g.state = .running ∧ (g.period : Int) ≤ phaseIn ticks g.wrapBase)
    ∨ (d = .highTimeEnd i ∧ g.state = .running ∧ phaseIn ticks g.wrapBase < (g.period : Int)
      ∧ (g.high : Int) ≤ phaseIn ticks g.wrapBase ∧ g.out = true)

/-- An element that a change leaves as it was leaves the vector as it was. -/
theorem upd_same {α : Type} {n : Nat} (v : Vector α n) (i : Fin n) (f : α → α) (h : f v[i] = v[i]) : upd v i f = v := by
  ext j hj
  by_cases e : i.val = j
  · subst e; simpa [upd] using h
  · simp [upd, e]

/-- A local clock period at one generator: its level. -/
theorem clockGenerator_gens (s : State) (i : Fin 2) :
    (clockGenerator s i).gens = upd s.gens i (levelled s.timebase.ticks) := by
  unfold clockGenerator
  dsimp only
  by_cases running : s.gens[i].state = .running
  · rw [if_pos running]
    by_cases wraps : (s.gens[i].period : Int) ≤ phaseIn s.timebase.ticks s.gens[i].wrapBase
    · rw [if_pos wraps, mark_gens, upd_same]
      simp only [levelled, Int.not_lt.2 wraps, false_and, and_false, decide_false, Bool.or_false]
    · rw [if_neg wraps]
      by_cases low : phaseIn s.timebase.ticks s.gens[i].wrapBase < (s.gens[i].high : Int)
      · rw [if_pos low]
        have level : levelled s.timebase.ticks s.gens[i] = { s.gens[i] with out := true } := by
          simp only [levelled, running, Int.not_le.1 wraps, low, true_and, decide_true, Bool.or_true]
        simp only [updGen, upd, level]
      · rw [if_neg low, markIf_gens, upd_same]
        simp only [levelled, low, and_false, decide_false, Bool.or_false]
  · rw [if_neg running, upd_same]
    simp only [levelled, running, false_and, decide_false, Bool.or_false]

/-- A local clock period at one generator: what falls due. -/
theorem mem_clockGenerator (s : State) (i : Fin 2) (d : Due) :
    d ∈ (clockGenerator s i).due ↔ d ∈ s.due ∨ edgeBrings s.timebase.ticks i s.gens[i] d := by
  unfold clockGenerator edgeBrings
  dsimp only
  by_cases running : s.gens[i].state = .running
  · rw [if_pos running]
    by_cases wraps : (s.gens[i].period : Int) ≤ phaseIn s.timebase.ticks s.gens[i].wrapBase
    · rw [if_pos wraps, mem_mark]
      simp only [running, wraps, Int.not_lt.2 wraps, and_true, false_and, and_false, or_false]
      exact or_comm
    · rw [if_neg wraps]
      by_cases low : phaseIn s.timebase.ticks s.gens[i].wrapBase < (s.gens[i].high : Int)
      · simp only [if_pos low, updGen_due, running, wraps, Int.not_le.2 low, false_and, and_false, or_false]
      · simp only [if_neg low, mem_markIf, running, wraps, Int.not_le.1 wraps, Int.not_lt.1 low, true_and, and_false,
          false_or]
        rw [or_comm, and_comm]
  · rw [if_neg running]
    simp only [running, false_and, and_false, or_false]

/-- A local clock period at one generator: what it can change. -/
theorem clockGenerator_frame (s : State) (i : Fin 2) :
    clockGenerator s i = { s with gens := (clockGenerator s i).gens, due := (clockGenerator s i).due } := by
  unfold clockGenerator
  dsimp only
  split
  · split
    · rw [mark_frame]
    · split
      · rfl
      · rw [markIf_frame]
  · rfl

/-- A local clock period at both generators. -/
theorem clockGenerators_eq (s : State) :
    (List.finRange 2).foldl clockGenerator s = { s with
      gens := updAll s.gens (levelled s.timebase.ticks), due := ((List.finRange 2).foldl clockGenerator s).due } := by
  have both : (List.finRange 2).foldl clockGenerator s = clockGenerator (clockGenerator s 0) 1 := rfl
  have gens : (clockGenerator (clockGenerator s 0) 1).gens = updAll s.gens (levelled s.timebase.ticks) := by
    rw [clockGenerator_gens, clockGenerator_gens, clockGenerator_frame]
    ext i hi : 1
    have : i = 0 ∨ i = 1 := by omega
    rcases this with rfl | rfl <;> simp [upd]
  rw [both, ← gens]
  rw [clockGenerator_frame (clockGenerator s 0) 1]
  dsimp only
  generalize (clockGenerator (clockGenerator s 0) 1).gens = x
  generalize (clockGenerator (clockGenerator s 0) 1).due = y
  rw [clockGenerator_frame s 0]

/-- What falls due at both. -/
theorem mem_clockGenerators (s : State) (d : Due) :
    d ∈ ((List.finRange 2).foldl clockGenerator s).due
      ↔ d ∈ s.due ∨ ∃ i, edgeBrings s.timebase.ticks i s.gens[i] d := by
  have both : (List.finRange 2).foldl clockGenerator s = clockGenerator (clockGenerator s 0) 1 := rfl
  have timebase : (clockGenerator s 0).timebase = s.timebase := by rw [clockGenerator_frame]
  have other : (clockGenerator s 0).gens[(1 : Fin 2)] = s.gens[(1 : Fin 2)] := by
    rw [clockGenerator_gens, upd_get_ne _ _ _ _ (by decide)]
  rw [both, mem_clockGenerator, mem_clockGenerator, timebase, other, or_assoc, Fin.exists_fin_two]

/-- The rack time and the counts after `k` local clock periods. -/
def clocked (k : Nat) (s : State) : State := countPeriods k (updTimebase (advanceRack k) s)

@[simp] theorem clocked_timebase (k : Nat) (s : State) : (clocked k s).timebase = advanceRack k s.timebase := by
  rw [clocked, countPeriods_eq]; rfl
@[simp] theorem clocked_gens (k : Nat) (s : State) : (clocked k s).gens = s.gens := by
  rw [clocked, countPeriods_eq]; rfl
@[simp] theorem clocked_cable (k : Nat) (s : State) : (clocked k s).cable = s.cable := by
  rw [clocked, countPeriods_eq]; rfl
@[simp] theorem clocked_due (k : Nat) (s : State) : (clocked k s).due = s.due := by
  rw [clocked, countPeriods_eq]; rfl
@[simp] theorem clocked_port (k : Nat) (s : State) : (clocked k s).port = s.port := by
  rw [clocked, countPeriods_eq]; rfl

/-- What one local clock period makes fall due (R1, R3, R9, R60, R69, R163, R164, R206). -/
def periodBrings (s : State) (d : Due) : Prop :=
  let x := s.timebase.ticks
  let y := (advanceRack 1 s.timebase).ticks
  match d with
  | .slotTick => x.toNat / 2048 ≠ y.toNat / 2048
  | .epochBoundary => x.toNat / 131072 ≠ y.toNat / 131072
  | .markerWindowEnd => (x + 65536).toNat / 131072 ≠ (y + 65536).toNat / 131072
  | .holdOffExpiry => s.cable.holdOff = true ∧ (y.setWidth 48 - s.cable.holdOffDeadline).toNat < 2 ^ 47
  | .settleComplete => s.station.state = .settling ∧ s.pins.sense = true ∧ 4095 ≤ s.station.settle
  | .markerWordSent => ∃ w, s.selector.driving = some w ∧ w.left ≤ 1
  | .generatorWrap g => edgeBrings y g s.gens[g] (.generatorWrap g)
  | .highTimeEnd g => edgeBrings y g s.gens[g] (.highTimeEnd g)
  | _ => False

/-- What falls due by the local clock's counts, and by the hold-off (R60, R69, R206). -/
def countDues (u : State) : State :=
  markIf (holdOffReached u) .holdOffExpiry (markIf (wordOver u) .markerWordSent
    (markIf (decide (u.station.state = .settling ∧ u.pins.sense = true ∧ 4096 ≤ u.station.settle)) .settleComplete u))

/-- It changes what is due alone. -/
theorem countDues_frame (u : State) : countDues u = { u with due := (countDues u).due } := by
  unfold countDues
  rw [markIf_frame, markIf_frame, markIf_frame]

/-- What falls due as rack time crosses its boundaries (R3, R9). -/
def crossingDues (x y : BitVec 64) (u : State) : State :=
  markIf (crossed 131072 (x + 65536) (y + 65536)) .markerWindowEnd
    (markIf (crossed 131072 x y) .epochBoundary (markIf (crossed 2048 x y) .slotTick u))

/-- It changes what is due alone. -/
theorem crossingDues_frame (x y : BitVec 64) (u : State) :
    crossingDues x y u = { u with due := (crossingDues x y u).due } := by
  unfold crossingDues
  rw [markIf_frame, markIf_frame, markIf_frame]

/-- One local clock period: the advance, the counts, the generators, the boundaries of rack time (R1). -/
theorem clockPeriod_eq (s : State) :
    clockPeriod s = crossingDues s.timebase.ticks (advanceRack 1 s.timebase).ticks
      ((List.finRange 2).foldl clockGenerator (countDues (clocked 1 s))) := by
  have ticks : (clocked 1 s).timebase.ticks = (advanceRack 1 s.timebase).ticks := by rw [clocked_timebase]
  rw [← ticks]
  unfold clockPeriod crossingDues countDues clocked
  dsimp only
  generalize countPeriods 1 (updTimebase (advanceRack 1) s) = u
  have word (c : Bool) (d : Due) (v : State) : wordOver (markIf c d v) = wordOver v := by
    unfold wordOver; rw [markIf_selector]
  simp only [word, holdOffReached_congr (markIf_timebase _ _ _) (markIf_cable _ _ _)]

/-- One local clock period: what it can change. -/
theorem clockPeriod_frame (s : State) :
    clockPeriod s = { clocked 1 s with
      gens := updAll s.gens (levelled (advanceRack 1 s.timebase).ticks), due := (clockPeriod s).due } := by
  have ticks : (clocked 1 s).timebase.ticks = (advanceRack 1 s.timebase).ticks := by rw [clocked_timebase]
  rw [clockPeriod_eq, ← ticks, ← clocked_gens 1 s]
  generalize clocked 1 s = u
  rw [crossingDues_frame, clockGenerators_eq, countDues_frame]
/-- The word being driven ends with this period (R206). -/
theorem wordOver_clocked (k : Nat) (s : State) :
    wordOver (clocked k s) = true ↔ ∃ w, s.selector.driving = some w ∧ w.left ≤ k := by
  have driving : (clocked k s).selector.driving = s.selector.driving.map fun w => { w with left := w.left - k } := by
    rw [clocked, countPeriods_eq]; rfl
  unfold wordOver
  rw [driving]
  cases s.selector.driving with
  | none => simp
  | some w => simp [Nat.sub_eq_zero_iff_le]

/-- The settle count ends with this period (R69). -/
theorem settles_clocked (s : State) :
    ((clocked 1 s).station.state = .settling ∧ (clocked 1 s).pins.sense = true ∧ 4096 ≤ (clocked 1 s).station.settle)
      ↔ s.station.state = .settling ∧ s.pins.sense = true ∧ 4095 ≤ s.station.settle := by
  rw [clocked, countPeriods_eq]
  refine and_congr_right fun settling => and_congr_right fun sense => ?_
  have counts : s.station.state = .settling ∧ s.pins.sense = true := ⟨settling, sense⟩
  simp only [updTimebase_station, updTimebase_pins, counts, and_self, if_true]
  omega

/-- The hold-off's deadline is reached with these periods (R60). -/
theorem holdOffReached_clocked (k : Nat) (s : State) :
    holdOffReached (clocked k s) = true ↔ s.cable.holdOff = true
      ∧ ((advanceRack k s.timebase).ticks.setWidth 48 - s.cable.holdOffDeadline).toNat < 2 ^ 47 := by
  rw [holdOffReached, clocked_timebase, clocked_cable, Bool.and_eq_true]
  exact and_congr_right fun _ => atOrAfter_iff (w := 47) _ _

/-- What one local clock period makes fall due. -/
theorem mem_clockPeriod (s : State) (d : Due) : d ∈ (clockPeriod s).due ↔ d ∈ s.due ∨ periodBrings s d := by
  rw [clockPeriod_eq]
  simp only [crossingDues, mem_markIf, mem_clockGenerators, countDues, holdOffReached_clocked,
    wordOver_clocked, decide_eq_true_eq, settles_clocked, clocked_due, crossed]
  cases d <;> simp [periodBrings, edgeBrings, or_comm]
/-- Rack time after `k` periods, modulo 2^96 (R1). -/
theorem rackTotal_advance (k : Nat) (t : Timebase) :
    (rackTotal (advanceRack k t) : Int) = ((rackTotal t : Int) + k * (4294967296 + t.rate)) % 2 ^ 96 :=
  rackTotal_setRack _ t

/-- Settles O2. -/
theorem idleStepAdvancesRackTimeByOnePeriod : Obligations.IdleStepAdvancesRackTimeByOnePeriod := by
  intro s empty q
  have row : step s = .next (clockPeriod s) := by rw [step, empty, idle, settled_quiet s q]
  have nothing : s.due = [] := by simp only [quiet, Bool.and_eq_true, List.isEmpty_iff] at q; exact q.1
  have due (d : Due) : d ∈ (clockPeriod s).due ↔ periodBrings s d := by simp [mem_clockPeriod, nothing]
  have frame := clockPeriod_frame s
  have total := rackTotal_advance 1 s.timebase
  refine ⟨_, row, ?_⟩
  generalize clockPeriod s = t at frame due
  rw [clocked, countPeriods_eq] at frame
  have timebase : t.timebase = advanceRack 1 s.timebase := by rw [frame]; rfl
  have gens (g : Fin 2) : t.gens[g] = levelled (advanceRack 1 s.timebase).ticks s.gens[g] := by
    rw [frame]; exact updAll_get _ g _
  refine ⟨?_, ?_, ?_, ?_, ⟨fun g => ?_, fun d => (due d).trans ?_⟩, ?_⟩
  · rw [timebase, total]; simp [add_assoc]
  · rw [timebase]; rfl
  · rw [frame]; rfl
  · rw [frame]; rfl
  · rw [gens g, timebase]; rfl
  · rw [timebase]
    cases d <;> simp [periodBrings, edgeBrings, phaseIn]
  · rw [frame]; rfl
end Sys2Proof.Machine
end

