-- ==== Sys2Proof/Proofs/Keeping.lean ====
section
/-! PROOF. What a change keeps and makes fall due, and the elementary changes. -/

namespace Sys2Proof.Machine
open Sys2Proof.Claims

/-! ### What a change keeps and what it makes fall due -/

/-- The ranges of A and I by timebase state (R2, R13), of one timebase. -/
def RatesOk (t : Timebase) : Prop :=
  (-rateBound ≤ t.rate ∧ t.rate ≤ rateBound) ∧ (-rateBound ≤ t.integral ∧ t.integral ≤ rateBound)
    ∧ (t.state = .free → t.rate = 0 ∧ t.integral = 0)
    ∧ (t.state = .holdover ∨ t.state = .source → t.rate = t.integral)
    ∧ (t.state = .acquire → (t.rate.natAbs : Int) + 2 * (t.searchStep : Int) ≤ rateBound)

/-- The ranges of one generator's values (R164, R165). -/
def GenOk (x : Generator) : Prop :=
  2 ≤ x.stagedPeriod ∧ x.stagedPeriod ≤ 65536 ∧ 1 ≤ x.stagedHigh ∧ x.stagedHigh ≤ 65535
    ∧ (x.state = .running → 2 ≤ x.period ∧ x.period ≤ 65536 ∧ 1 ≤ x.high ∧ x.high + 1 ≤ x.period)

/-- What the statements say of the queue, the members of the rack and the score. -/
structure Members (s : State) : Prop where
  distinct : QueueDistinct s
  ordered : QueueOrdered s
  retiring : RetiringSendsNoData s
  only : MembersOnly s
  score : ScoreTellsSilence s

/-- A change makes fall due at most what is in `D`, leaves the held requests, and keeps the ranges of the rates and of the
generators, the queue, the membership and the score, each for itself. -/
structure Goes (D : Due → Prop) (s t : State) : Prop where
  rates : RatesOk s.timebase → RatesOk t.timebase
  clocks : (∀ g : Fin 2, GenOk s.gens[g]) → ∀ g : Fin 2, GenOk t.gens[g]
  members : Members s → Members t
  due : ∀ x ∈ t.due, x ∈ s.due ∨ D x
  held : t.port.held = s.port.held

/-- A change that makes nothing fall due. -/
abbrev Still (s t : State) : Prop := Goes (fun _ => False) s t

theorem Goes.refl {D : Due → Prop} (s : State) : Goes D s s := ⟨id, id, id, fun _ => .inl, rfl⟩

theorem Goes.trans {D : Due → Prop} {s t u : State} (h : Goes D s t) (g : Goes D t u) : Goes D s u :=
  ⟨g.rates ∘ h.rates, g.clocks ∘ h.clocks, g.members ∘ h.members,
    fun x m => (g.due x m).elim (h.due x) .inr, g.held.trans h.held⟩

theorem Goes.mono {D E : Due → Prop} {s t : State} (h : Goes D s t) (sub : ∀ x, D x → E x) : Goes E s t :=
  ⟨h.rates, h.clocks, h.members, fun x m => (h.due x m).imp_right (sub x), h.held⟩

theorem Goes.of_still {D : Due → Prop} {s t : State} (h : Still s t) : Goes D s t := h.mono fun _ => False.elim

/-- A fold of such changes is one. -/
theorem Goes.foldl {D : Due → Prop} {α : Type} (f : State → α → State) (one : ∀ s x, Goes D s (f s x)) (xs : List α)
    (s : State) : Goes D s (xs.foldl f s) :=
  foldl_keeps (Goes D) f Goes.refl (fun _ _ _ => Goes.trans) one xs s

/-- Both sides of a choice. -/
theorem Goes.ite {D : Due → Prop} {p : Prop} [Decidable p] {s t u : State} (a : p → Goes D s t) (b : ¬ p → Goes D s u) :
    Goes D s (if p then t else u) := by
  split
  · exact a ‹_›
  · exact b ‹_›

/-- `t` differs from `s` in nothing that the invariants, what is due and the held requests speak of. -/
structure Inert (s t : State) : Prop where
  state : t.timebase.state = s.timebase.state
  rate : t.timebase.rate = s.timebase.rate
  integral : t.timebase.integral = s.timebase.integral
  searchStep : t.timebase.searchStep = s.timebase.searchStep
  queue : t.txQueue = s.txQueue
  station : t.station.state = s.station.state
  score : t.station.faultScore = s.station.faultScore
  cable : t.cable.state = s.cable.state
  countdown : t.selector.countdown = s.selector.countdown
  gens : t.gens = s.gens
  due : t.due = s.due
  held : t.port.held = s.port.held

/-- An inert change of what is due aside. -/
theorem Inert.members {s t : State} (h : Inert s t) (m : Members s) : Members t where
  distinct := by rw [QueueDistinct, h.queue]; exact m.distinct
  ordered := by rw [QueueOrdered, h.queue]; exact m.ordered
  retiring := by rw [RetiringSendsNoData, h.queue, h.station]; exact m.retiring
  only := by rw [MembersOnly, h.queue, h.station, h.cable, h.state, h.countdown]; exact m.only
  score := by rw [ScoreTellsSilence, h.station, h.score]; exact m.score

/-- An inert change keeps everything. -/
theorem Inert.still {s t : State} (h : Inert s t) : Still s t where
  rates := by
    unfold RatesOk
    rw [h.state, h.rate, h.integral, h.searchStep]
    exact id
  clocks := by rw [h.gens]; exact id
  members := h.members
  due x m := .inl (h.due ▸ m)
  held := h.held

/-- So it goes whatever else may fall due. -/
theorem Inert.goes {D : Due → Prop} {s t : State} (h : Inert s t) : Goes D s t := .of_still h.still

theorem Inert.refl (s : State) : Inert s s := ⟨rfl, rfl, rfl, rfl, rfl, rfl, rfl, rfl, rfl, rfl, rfl, rfl⟩

theorem Inert.trans {s t u : State} (h : Inert s t) (g : Inert t u) : Inert s u :=
  ⟨g.state.trans h.state, g.rate.trans h.rate, g.integral.trans h.integral, g.searchStep.trans h.searchStep,
    g.queue.trans h.queue, g.station.trans h.station, g.score.trans h.score, g.cable.trans h.cable,
    g.countdown.trans h.countdown, g.gens.trans h.gens, g.due.trans h.due, g.held.trans h.held⟩

/-- A fold of inert changes is inert. -/
theorem Inert.foldl {α : Type} (f : State → α → State) (one : ∀ s x, Inert s (f s x)) (xs : List α) (s : State) :
    Inert s (xs.foldl f s) :=
  foldl_keeps Inert f Inert.refl (fun _ _ _ => Inert.trans) one xs s

/-- Both sides of a choice. -/
theorem Inert.ite {p : Prop} [Decidable p] {s t u : State} (a : p → Inert s t) (b : ¬ p → Inert s u) :
    Inert s (if p then t else u) := by
  split
  · exact a ‹_›
  · exact b ‹_›

/-! ### Inert changes -/

theorem inert_updPub (k : Fin 16) (f : Publication → Publication) (s : State) : Inert s (updPub k f s) :=
  ⟨rfl, rfl, rfl, rfl, rfl, rfl, rfl, rfl, rfl, rfl, rfl, rfl⟩
theorem inert_updPartial (k : Fin 16) (f : Partial → Partial) (s : State) : Inert s (updPartial k f s) :=
  ⟨rfl, rfl, rfl, rfl, rfl, rfl, rfl, rfl, rfl, rfl, rfl, rfl⟩
theorem inert_updSub (j : Fin 32) (f : Subscription → Subscription) (s : State) : Inert s (updSub j f s) :=
  ⟨rfl, rfl, rfl, rfl, rfl, rfl, rfl, rfl, rfl, rfl, rfl, rfl⟩
theorem inert_updPeer (i : Fin 24) (f : RosterEntry → RosterEntry) (s : State) : Inert s (updPeer i f s) :=
  ⟨rfl, rfl, rfl, rfl, rfl, rfl, rfl, rfl, rfl, rfl, rfl, rfl⟩
theorem inert_updEngine (e : Fin 4) (f : Engine → Engine) (s : State) : Inert s (updEngine e f s) :=
  ⟨rfl, rfl, rfl, rfl, rfl, rfl, rfl, rfl, rfl, rfl, rfl, rfl⟩
theorem inert_updCompare (k : Fin 4) (f : Compare → Compare) (s : State) : Inert s (updCompare k f s) :=
  ⟨rfl, rfl, rfl, rfl, rfl, rfl, rfl, rfl, rfl, rfl, rfl, rfl⟩
theorem inert_updMonitor (f : Monitor → Monitor) (s : State) : Inert s (updMonitor f s) :=
  ⟨rfl, rfl, rfl, rfl, rfl, rfl, rfl, rfl, rfl, rfl, rfl, rfl⟩
/-- The station's state and score are the same. -/
theorem inert_updStation (f : Station → Station) (s : State) (state : (f s.station).state = s.station.state)
    (score : (f s.station).faultScore = s.station.faultScore) : Inert s (updStation f s) :=
  ⟨rfl, rfl, rfl, rfl, rfl, state, score, rfl, rfl, rfl, rfl, rfl⟩
/-- The countdown is the same. -/
theorem inert_updSelector (f : Selector → Selector) (s : State) (count : (f s.selector).countdown = s.selector.countdown) :
    Inert s (updSelector f s) :=
  ⟨rfl, rfl, rfl, rfl, rfl, rfl, rfl, rfl, count, rfl, rfl, rfl⟩
/-- The interface's state is the same. -/
theorem inert_updCable (f : Cable → Cable) (s : State) (state : (f s.cable).state = s.cable.state) :
    Inert s (updCable f s) :=
  ⟨rfl, rfl, rfl, rfl, rfl, rfl, rfl, state, rfl, rfl, rfl, rfl⟩
/-- The timebase's state, rate, integral and search step are the same. -/
theorem inert_updTimebase (f : Timebase → Timebase) (s : State) (state : (f s.timebase).state = s.timebase.state)
    (rate : (f s.timebase).rate = s.timebase.rate) (integral : (f s.timebase).integral = s.timebase.integral)
    (search : (f s.timebase).searchStep = s.timebase.searchStep) : Inert s (updTimebase f s) :=
  ⟨state, rate, integral, search, rfl, rfl, rfl, rfl, rfl, rfl, rfl, rfl⟩

/-- An event is inert. -/
theorem inert_raise (k : EventKind) (n : Option Nat) (d : BitVec 16) (s : State) : Inert s (raise k n d s) := by
  constructor <;> simp

/-- An overflow is inert. -/
theorem inert_overflow (i : Fin 4) (x : Subject) (s : State) : Inert s (overflow i x s) := by
  have told (t : State) : Inert t (notifyOverflow i x t) := by
    unfold notifyOverflow
    exact (inert_updMonitor _ t).trans ((inert_raise .monitorOverflow (some i.val) _ _).trans (inert_updMonitor _ _))
  have both (t : State) : Inert t (if t.monitor.counters[i].notify then notifyOverflow i x t else t) :=
    .ite (fun _ => told t) fun _ => .refl t
  unfold overflow
  by_cases first : i.val = 0
  · simp only [if_pos first]
    exact (inert_updMonitor _ s).trans (both (openGates s))
  · simp only [if_neg first]
    exact both s

/-- An occurrence is inert. -/
theorem inert_occur (k : OccKind) (x : Subject) (n : Nat) (s : State) : Inert s (occur k x n s) := by
  unfold occur
  dsimp only
  split
  · exact .refl s
  · exact (Inert.foldl (fun t i => countUp n i t) (fun t i => inert_updMonitor _ t) _ s).trans
      (Inert.foldl (fun t i => overflow i x t) (fun t i => inert_overflow i x t) _ _)

/-- A handover that fails is inert. -/
theorem inert_failHandover (cause : Nat) (s : State) : Inert s (failHandover cause s) := by
  unfold failHandover
  split
  · exact .refl s
  · exact (inert_updSelector (fun x => { x with record := none }) s rfl).trans (inert_raise _ _ _ _)

/-- A subscription that becomes STALE is inert. -/
theorem inert_becomeStale (j : Fin 32) (c : Nat) (s : State) : Inert s (becomeStale j c s) :=
  (inert_updSub j _ s).trans (inert_raise _ _ _ _)

/-- A change report is inert. -/
theorem inert_changeReport (a : Nat) (s : State) : Inert s (changeReport a s) := by
  refine Inert.foldl (rejudge a) (fun t j => ?_) _ s
  unfold rejudge
  dsimp only
  split
  · split
    · exact .ite (fun _ => inert_becomeStale j 2 t) fun _ => .ite (fun _ => .refl t) fun _ => inert_becomeStale j 3 t
    · exact .refl t
  · exact .refl t

/-! ### Elementary changes -/

/-- A step falls due. -/
theorem goes_mark {D : Due → Prop} (d : Due) (s : State) (h : D d) : Goes D s (mark d s) where
  rates := by rw [mark_timebase]; exact id
  clocks := by rw [mark_gens]; exact id
  members m := by
    rw [mark_frame]
    exact ⟨m.distinct, m.ordered, m.retiring, m.only, m.score⟩
  due x mem := ((mem_mark d x s).1 mem).elim (fun e => .inr (e ▸ h)) .inl
  held := by rw [mark_port]

/-- A step may fall due. -/
theorem goes_markIf {D : Due → Prop} (c : Bool) (d : Due) (s : State) (h : D d) : Goes D s (markIf c d s) :=
  Goes.ite (fun _ => goes_mark d s h) fun _ => .refl s

/-- Steps that are no longer due. -/
theorem still_clearDue (d : Due) (s : State) : Still s (clearDue d s) where
  rates := id
  clocks := id
  members m := ⟨m.distinct, m.ordered, m.retiring, m.only, m.score⟩
  due x mem := .inl ((mem_clearDue d x s).1 mem).1
  held := rfl

/-- The timebase changes: no role is taken, and its ranges are kept. -/
theorem still_timebase (x : Timebase) (s : State) (role : x.state = .source → s.timebase.state = .source)
    (ok : RatesOk s.timebase → RatesOk x) : Still s { s with timebase := x } where
  rates := ok
  clocks := id
  members m := ⟨m.distinct, m.ordered, m.retiring,
    ⟨fun off => by
      obtain ⟨a, b, c, d, e⟩ := m.only.1 off
      exact ⟨a, b, c, d, fun h => e (role h)⟩, m.only.2⟩, m.score⟩
  due _ := .inl
  held := rfl

/-- A timebase state is entered, but for SOURCE. -/
theorem still_enterTimebase (new : TimebaseState) (f : Timebase → Timebase) (s : State)
    (role : new = .source → s.timebase.state = .source)
    (ok : RatesOk s.timebase → RatesOk { f s.timebase with state := new }) :
    Still s (enterTimebase new f s) := by
  have entered := still_timebase { f s.timebase with state := new } s role ok
  unfold enterTimebase
  exact .ite (fun _ => entered) fun _ => entered.trans (inert_raise _ _ _ _).still

/-- The generators change within their ranges. -/
theorem still_gens (v : Vector Generator 2) (s : State)
    (ok : (∀ g : Fin 2, GenOk s.gens[g]) → ∀ g : Fin 2, GenOk v[g]) : Still s { s with gens := v } where
  rates := id
  clocks := ok
  members m := ⟨m.distinct, m.ordered, m.retiring, m.only, m.score⟩
  due _ := .inl
  held := rfl

/-- One generator changes within its ranges. -/
theorem still_updGen (i : Fin 2) (f : Generator → Generator) (s : State) (ok : GenOk s.gens[i] → GenOk (f s.gens[i])) :
    Still s (updGen i f s) := by
  refine still_gens (upd s.gens i f) s fun all g => ?_
  rw [upd_get_if]
  split
  · next e => subst e; exact ok (all g)
  · exact all g

/-- The countdown of a claim changes. -/
theorem still_selector (y : Selector) (s : State)
    (count : y.countdown ≠ none → s.selector.countdown ≠ none ∨ s.station.state = .joined) :
    Still s { s with selector := y } where
  rates := id
  clocks := id
  members m := ⟨m.distinct, m.ordered, m.retiring,
    ⟨m.only.1, fun h => (count h).elim m.only.2 id⟩, m.score⟩
  due _ := .inl
  held := rfl

/-- The interface drives the pair (R42). -/
def Drives (c : CableState) : Prop := c = .claiming ∨ c = .sending ∨ c = .aborting

/-- The interface's state changes: only a station with drivers begins to drive. -/
theorem still_cable (c : Cable) (s : State)
    (drives : Drives c.state → Drives s.cable.state ∨ driversOn s.station.state = true) :
    Still s { s with cable := c } where
  rates := id
  clocks := id
  members m := ⟨m.distinct, m.ordered, m.retiring,
    ⟨fun off => by
      obtain ⟨queue, a, b, d, role⟩ := m.only.1 off
      have idle : ¬ Drives c.state := fun h => by
        rcases drives h with (e | e | e) | on
        · exact a e
        · exact b e
        · exact d e
        · exact absurd (on.symm.trans off) nofun
      exact ⟨queue, fun e => idle (.inl e), fun e => idle (.inr (.inl e)), fun e => idle (.inr (.inr e)), role⟩,
      m.only.2⟩, m.score⟩
  due _ := .inl
  held := rfl

/-- Entries leave the queue. -/
theorem still_filter (p : TxEntry → Bool) (s : State) : Still s { s with txQueue := s.txQueue.filter p } where
  rates := id
  clocks := id
  members m :=
    ⟨(List.filter_sublist.map _).nodup m.distinct, List.Pairwise.sublist List.filter_sublist m.ordered,
      fun r e mem => m.retiring r e (List.mem_of_mem_filter mem),
      ⟨fun off => by
        obtain ⟨queue, rest⟩ := m.only.1 off
        exact ⟨by simp [queue], rest⟩, m.only.2⟩, m.score⟩
  due _ := .inl
  held := rfl

end Sys2Proof.Machine
end

