-- ==== Sys2Proof/Proofs/KeepingTables.lean ====
section
/-! PROOF. What the operations of the queue, the publications, the engines, the subscriptions and the roster keep. -/

namespace Sys2Proof.Machine
open Sys2Proof.Claims

/-! ### The transmit queue -/

/-- The kinds of a queue with an entry inserted. -/
theorem insertEntry_perm (e : TxEntry) (q : List TxEntry) : (insertEntry e q).Perm (e :: q) := by
  induction q with
  | nil => exact .refl _
  | cons x rest ih =>
    unfold insertEntry
    split
    · exact .refl _
    · exact (ih.cons x).trans (.swap e x rest)

/-- A queue in order of class stays so (R55). -/
theorem insertEntry_ordered (e : TxEntry) (q : List TxEntry) (h : q.Pairwise fun a b => a.cls ≤ b.cls) :
    (insertEntry e q).Pairwise fun a b => a.cls ≤ b.cls := by
  induction q with
  | nil => exact List.pairwise_singleton _ _
  | cons x rest ih =>
    obtain ⟨first, rest_ordered⟩ := List.pairwise_cons.1 h
    unfold insertEntry
    split
    · next lt =>
      refine List.pairwise_cons.2 ⟨fun y mem => ?_, h⟩
      rcases List.mem_cons.1 mem with rfl | mem
      · exact Nat.le_of_lt lt
      · exact Nat.le_trans (Nat.le_of_lt lt) (first y mem)
    · next ge =>
      refine List.pairwise_cons.2 ⟨fun y mem => ?_, ih rest_ordered⟩
      rcases (mem_insertEntry y e rest).1 mem with rfl | mem
      · exact Nat.not_lt.1 ge
      · exact first y mem

/-- A station that takes an enqueue has its drivers on (R55). -/
theorem driversOn_of_taken {st : StationState} {k : EntryKind} (h : enqueueTaken st k = true) : driversOn st = true := by
  cases k with
  | presence => exact h
  | retire => exact h
  | pull j => rw [beq_iff_eq.1 (show (st == .joined) = true from h)]; rfl
  | block j => rw [beq_iff_eq.1 (show (st == .joined) = true from h)]; rfl

/-- In RETIRING it takes its own bursts alone (R55). -/
theorem isData_of_taken {st : StationState} {k : EntryKind} (h : enqueueTaken st k = true) (r : st = .retiring) :
    k.isData = false := by
  subst r
  cases k <;> simp_all [enqueueTaken, EntryKind.isData]

/-- A new entry (R55). -/
theorem still_insert (k : EntryKind) (s : State) (taken : enqueueTaken s.station.state k = true)
    (new : queued s k = false) :
    Still s { s with txQueue := insertEntry { kind := k, cls := entryClass s k } s.txQueue } where
  rates := id
  clocks := id
  members m := by
    refine ⟨?_, insertEntry_ordered _ _ m.ordered, fun r e mem => ?_, ⟨fun off => ?_, m.only.2⟩, m.score⟩
    · refine ((insertEntry_perm _ _).map _).nodup_iff.2 (List.nodup_cons.2 ⟨fun mem => ?_, m.distinct⟩)
      obtain ⟨e, mem, same⟩ := List.mem_map.1 mem
      have waits : queued s k = true := List.any_eq_true.2 ⟨e, mem, beq_iff_eq.2 same⟩
      exact absurd (waits.symm.trans new) nofun
    · rcases (mem_insertEntry _ _ _).1 mem with rfl | mem
      · exact isData_of_taken taken r
      · exact m.retiring r e mem
    · exact absurd ((driversOn_of_taken taken).symm.trans off) nofun
  due _ := .inl
  held := rfl

/-- An enqueue (R55). -/
theorem still_enqueue (k : EntryKind) (s : State) : Still s (enqueue k s) := by
  unfold enqueue
  split
  · next taken =>
    split
    · split
      · exact (inert_occur _ _ _ s).still
      · exact .refl s
    · next new => exact still_insert k s taken (by simpa using new)
  · exact .refl s

/-- A removal from the queue (R57). -/
theorem still_removeEntry (k : EntryKind) (s : State) : Still s (removeEntry k s) := by
  rw [removeEntry_withdrawn]
  exact (still_filter _ s).trans (inert_updCable (withdrawnFrom k) _ rfl).still

/-! ### Publications -/

theorem still_servePull (k : Fin 16) (s : State) : Still s (servePull k s) :=
  .ite (fun _ => (inert_updPub k _ s).goes.trans (still_enqueue _ _)) fun _ => .refl s

theorem still_makeCommit (k : Fin 16) (s : State) : Still s (makeCommit k s) := by
  have served (t : State) : Still t (if t.pubs[k].state = .active then servePull k t else t) :=
    .ite (fun _ => still_servePull k t) fun _ => .refl t
  unfold makeCommit
  dsimp only
  refine .trans ?_ (served _)
  cases (commitBlock s k).gap with
  | none => exact (inert_updPub k _ s).still
  | some g => exact ((inert_updPub k _ s).trans (inert_raise _ _ _ _)).still

theorem still_askCommit (k : Fin 16) (s : State) : Still s (askCommit k s) :=
  .ite (fun _ => (inert_updPub k _ s).still) fun _ => still_makeCommit k s

theorem still_completeCommit (k : Fin 16) (s : State) : Still s (completeCommit k s) :=
  .ite (fun _ => still_makeCommit k s) fun _ => .refl s

theorem still_endBinding (sent : Bool) (s : State) : Still s (endBinding sent s) := by
  unfold endBinding
  split
  · exact .refl s
  · next k _ =>
    refine .trans (.trans ?_ (inert_updCable (fun c => { c with binding := none }) _ rfl).still) (still_completeCommit k _)
    exact .ite (fun _ => (inert_updPub k _ s).still) fun _ => .refl s

theorem still_offerEmit (k : Fin 16) (s : State) : Still s (offerEmit k s) := by
  have skip : Still s (skipEmit k s) := (inert_occur _ _ _ s).still
  unfold offerEmit
  exact .ite (fun _ => skip) fun _ => .ite (fun _ => skip) fun _ => .ite (fun _ => skip) fun _ =>
    .ite (fun _ => still_enqueue _ s) fun _ => .ite (fun _ => skip) fun _ => still_enqueue _ s

theorem still_pullArrives (k : Fin 16) (s : State) : Still s (pullArrives k s) := by
  have unknown : Inert s { s with unknownPulls := satAdd s.unknownPulls 1 65535 } :=
    ⟨rfl, rfl, rfl, rfl, rfl, rfl, rfl, rfl, rfl, rfl, rfl, rfl⟩
  unfold pullArrives
  exact .ite (fun _ => unknown.still) fun _ => .ite (fun _ => .refl s) fun _ =>
    .ite (fun _ => (inert_updPub k _ s).still) fun _ => .ite (fun _ => .refl s) fun _ => still_enqueue _ s

theorem inert_countReject (s : State) : Inert s (countReject s) :=
  ⟨rfl, rfl, rfl, rfl, rfl, rfl, rfl, rfl, rfl, rfl, rfl, rfl⟩

theorem inert_offerItem (item : FifoItem) (s : State) : Inert s (offerItem item s) :=
  .ite (fun _ => ⟨rfl, rfl, rfl, rfl, rfl, rfl, rfl, rfl, rfl, rfl, rfl, rfl⟩) fun _ =>
    .ite (fun _ => inert_updPub _ _ s) fun _ => inert_countReject s

theorem inert_strobe (k : Fin 16) (word : BitVec 16) (s : State) : Inert s (strobe k word s) := by
  unfold strobe
  dsimp only
  split
  · split
    · exact inert_updPartial k _ s
    · split
      · exact inert_updPartial k _ s
      · exact (inert_updPartial k _ s).trans (inert_offerItem _ _)
  · exact inert_offerItem _ s

theorem inert_store (m : List Host.Cell) (s : State) : Inert s { s with store := m } :=
  ⟨rfl, rfl, rfl, rfl, rfl, rfl, rfl, rfl, rfl, rfl, rfl, rfl⟩

theorem still_appendSample (k : Fin 16) (bytes : List Byte) (stamp : Stamp) (s : State) :
    Still s (appendSample k bytes stamp s) := by
  unfold appendSample
  dsimp only
  refine .trans ?_ (.ite (fun _ => still_askCommit k _) fun _ => .refl _)
  exact ((inert_store _ s).trans (inert_updPub k _ _)).still

theorem still_judgeItem (item : FifoItem) (s : State) : Still s (judgeItem item s) :=
  .ite (fun _ => (inert_countReject s).still) fun _ => .ite (fun _ => (inert_countReject s).still) fun _ =>
    .ite (fun _ => (inert_updPub _ _ s).still) fun _ => still_appendSample _ _ _ s

theorem still_drainOne (s : State) : Still s (drainOne s) := by
  unfold drainOne
  split
  · exact .refl s
  · next item rest _ =>
    have taken : Inert s { s with fifo := rest } := ⟨rfl, rfl, rfl, rfl, rfl, rfl, rfl, rfl, rfl, rfl, rfl, rfl⟩
    exact taken.still.trans (still_judgeItem item _)

theorem still_drainWaiting (s : State) : Still s (drainWaiting s) :=
  Goes.foldl (fun t _ => drainOne t) (fun t _ => still_drainOne t) _ s

/-! ### Engines and compares -/

theorem still_takeEntry (e : Fin 4) (s : State) : Still s (takeEntry e s) := by
  unfold takeEntry
  split
  · exact (inert_updEngine e _ s).goes.trans (still_offerEmit _ _)
  · exact (inert_updEngine e _ s).still
  · exact (inert_updEngine e _ s).still
  · exact (inert_updEngine e _ s).still
  · exact ((inert_updEngine e _ s).trans (inert_raise _ _ _ _)).still
  · exact (inert_updEngine e _ s).still
  · exact ((inert_updEngine e _ s).trans (inert_raise _ _ _ _)).still

theorem still_engineTick (e : Fin 4) (s : State) : Still s (engineTick e s) := by
  unfold engineTick
  split
  · exact still_takeEntry e s
  · exact (inert_updEngine e _ s).goes.trans (still_takeEntry e _)
  · exact .refl s
  · exact .refl s

theorem still_endHold (e : Fin 4) (s : State) : Still s (endHold e s) := (inert_updEngine e _ s).still

/-- What a slot tick makes fall due (R146, R172). -/
def TickDue (d : Due) : Prop := (∃ k, d = .compareFired k) ∨ (∃ e, d = .engine e) ∨ ∃ e, d = .holdEnd e

theorem goes_tickEngine (s : State) (e : Fin 4) : Goes TickDue s (tickEngine s e) := by
  have engine : TickDue (.engine e) := .inr (.inl ⟨e, rfl⟩)
  have hold : TickDue (.holdEnd e) := .inr (.inr ⟨e, rfl⟩)
  unfold tickEngine
  dsimp only
  split
  · exact .refl s
  · exact goes_mark _ s engine
  · exact goes_markIf _ _ s engine
  · exact (inert_updEngine e _ s).goes.trans (goes_markIf _ _ _ hold)

theorem goes_slotWork (s : State) : Goes TickDue s (slotWork s) := by
  have compare (t : State) (k : Fin 4) : Goes TickDue t (tickCompare t k) := goes_markIf _ _ t (.inl ⟨k, rfl⟩)
  exact ((inert_occur _ _ _ s).goes.trans (.foldl tickCompare compare _ _)).trans (.foldl tickEngine goes_tickEngine _ _)

/-- A compare's start makes its engine's act fall due (R157). -/
def EngineDue (d : Due) : Prop := ∃ e, d = .engine e

theorem goes_takeCompare (k : Fin 4) (s : State) : Goes EngineDue s (takeCompare k s) := by
  have start (e : Fin 4) (t : State) : Goes EngineDue t (deliverStart e t) :=
    .ite (fun _ => (inert_updEngine e _ t).goes.trans (goes_mark _ _ ⟨e, rfl⟩)) fun _ => .refl t
  refine .ite (fun _ => ?_) fun _ => .refl s
  unfold fireCompare
  have fired := (inert_updCompare k (fun x => { x with state := .fired }) s).trans
    (inert_raise .compareFired (some k.val) (lateness s.timebase s.compares[k]) _)
  dsimp only
  split
  · exact fired.goes
  · exact fired.goes.trans (start _ _)

/-! ### Subscriptions and the roster -/

theorem inert_liveTest (j : Fin 32) (s : State) : Inert s (liveTest j s) := by
  unfold liveTest
  exact .ite (fun _ => (inert_updSub j _ s).trans (inert_raise _ _ _ _)) fun _ => .refl s

theorem inert_noteOverrun (j : Fin 32) (s : State) : Inert s (noteOverrun j s) := by
  unfold noteOverrun
  exact .ite (fun _ => inert_updSub j _ s) fun _ =>
    (inert_updSub j _ s).trans ((inert_updSub j _ _).trans (inert_raise _ _ _ _))

theorem inert_appendBlock (m : BurstEnd) (j : Fin 32) (b : BlockBurst) (missed : Nat) (late : Bool) (s : State) :
    Inert s (appendBlock m j b missed late s) := by
  unfold appendBlock
  exact .ite (fun _ => ((inert_store _ s).trans (inert_updSub j _ _)).trans (inert_raise _ _ _ _)) fun _ =>
    (inert_store _ s).trans (inert_updSub j _ _)

theorem inert_occurIf (c : Bool) (k : OccKind) (x : Subject) (n : Nat) (s : State) : Inert s (occurIf c k x n s) :=
  .ite (fun _ => inert_occur k x n s) fun _ => .refl s

theorem inert_acceptBlock (m : BurstEnd) (j : Fin 32) (b : BlockBurst) (s : State) : Inert s (acceptBlock m j b s) := by
  unfold acceptBlock
  dsimp only
  refine .trans ?_ (((((inert_occur _ _ _ _).trans (inert_occurIf _ _ _ _ _)).trans (inert_occurIf _ _ _ _ _)).trans
    (inert_occurIf _ _ _ _ _)).trans (inert_occurIf _ _ _ _ _))
  refine .trans (.trans ?_ (inert_updSub j (fun x => { x with last := some b.seq }) _)) (inert_liveTest j _)
  have overrun (c : Bool) (t : State) : Inert t (if c = true then noteOverrun j t else t) :=
    .ite (fun _ => inert_noteOverrun j t) fun _ => .refl t
  have place (full late : Bool) (missed : Nat) (mode : RingMode) (t : State) : Inert t (if full = true then
      match mode with
      | .keepOldest => t
      | .keepNewest => appendBlock m j b missed late (updSub j (fun x => { x with ring := x.ring.drop 1 }) t)
      else appendBlock m j b missed late t) := by
    refine .ite (fun _ => ?_) fun _ => inert_appendBlock _ _ _ _ _ _
    cases mode with
    | keepOldest => exact .refl t
    | keepNewest => exact (inert_updSub j _ _).trans (inert_appendBlock _ _ _ _ _ _)
  refine .trans ?_ (place _ _ _ _ _)
  refine .trans ?_ (overrun _ _)
  refine .trans ?_ (overrun _ _)
  exact inert_updSub j _ s

theorem inert_duplicateBlock (j : Fin 32) (s : State) : Inert s (duplicateBlock j s) :=
  ((inert_updSub j _ s).trans (inert_liveTest j _)).trans (inert_occur _ _ _ _)

theorem inert_blockArrives (m : BurstEnd) (b : BlockBurst) (s : State) : Inert s (blockArrives m b s) := by
  unfold blockArrives
  split
  · exact .refl s
  · next j _ =>
    exact .ite (fun _ => (inert_updSub j _ s).trans (inert_duplicateBlock j _)) fun _ =>
      (inert_updSub j _ s).trans (inert_acceptBlock m j b _)

theorem inert_takeStale (j : Fin 32) (s : State) : Inert s (takeStale j s) :=
  .ite (fun _ => inert_becomeStale j 1 s) fun _ => .refl s

theorem still_takePullDeadline (j : Fin 32) (s : State) : Still s (takePullDeadline j s) := by
  unfold takePullDeadline
  split
  · split
    · exact .ite (fun _ => (still_enqueue _ s).trans (inert_updSub j _ _).still) fun _ =>
        ((inert_updSub j _ s).trans (inert_raise _ _ _ _)).still
    · exact .refl s
  · exact .refl s

theorem inert_newIncarnation (a : Nat) (s : State) : Inert s (newIncarnation a s) := by
  unfold newIncarnation
  generalize updAll s.subs _ = subs
  exact ⟨rfl, rfl, rfl, rfl, rfl, rfl, rfl, rfl, rfl, rfl, rfl, rfl⟩

theorem inert_raisePeerNew (a : Nat) (before : PeerState) (s : State) : Inert s (raisePeerNew a before s) := by
  cases before with
  | absent => exact inert_raise _ _ _ s
  | silent => exact inert_raise _ _ _ s
  | retired => exact inert_raise _ _ _ s
  | seen => exact .refl s
  | present => exact .refl s

theorem inert_takePresence (p : Presence) (s : State) : Inert s (takePresence p s) := by
  have incarnate (c : Bool) (a : Nat) (t : State) : Inert t (if c = true then newIncarnation a t else t) :=
    .ite (fun _ => inert_newIncarnation a t) fun _ => .refl t
  have silent (c : Bool) (a : Nat) (t : State) : Inert t (if c = true then raise .peerHostSilent (some a) 0 t else t) :=
    .ite (fun _ => inert_raise _ _ _ t) fun _ => .refl t
  have appear (c : Bool) (a : Nat) (before : PeerState) (t : State) : Inert t
      (if c = true then raise .peerFresh (some a) (BitVec.ofNat 16 before.code) t else raisePeerNew a before t) :=
    .ite (fun _ => inert_raise _ _ _ t) fun _ => inert_raisePeerNew a before t
  unfold takePresence
  split
  · exact .refl s
  · next i _ =>
    dsimp only
    refine .trans ?_ (inert_changeReport _ _)
    refine .trans ?_ (incarnate _ _ _)
    refine .trans ?_ (silent _ _ _)
    refine .trans ?_ (appear _ _ _ _)
    exact inert_updPeer i _ s

theorem inert_takeRetire (sender succ : Nat) (s : State) : Inert s (takeRetire sender succ s) := by
  have retired (i : Fin 24) : Inert s (changeReport sender (raise .peerRetired (some sender) (BitVec.ofNat 16 succ)
      (updPeer i (fun e => { e with state := .retired, missed := 0, heard := true }) s))) :=
    ((inert_updPeer i _ s).trans (inert_raise _ _ _ _)).trans (inert_changeReport _ _)
  unfold takeRetire
  split
  · exact .refl s
  · split
    · exact .refl s
    · exact inert_updPeer _ _ s
    · exact retired _
    · exact retired _
    · exact retired _

theorem inert_checkPeer (s : State) (i : Fin 24) : Inert s (checkPeer s i) := by
  have missed := inert_updPeer i (fun e => { e with missed := e.missed + 1 }) s
  have gone (t : State) (k : EventKind) (d : BitVec 16) (f : RosterEntry → RosterEntry) :
      Inert t (changeReport (peerAddress i) (raise k (some (peerAddress i)) d (updPeer i f t))) :=
    ((inert_updPeer i f t).trans (inert_raise _ _ _ _)).trans (inert_changeReport _ _)
  unfold checkPeer
  refine .ite (fun _ => .refl s) fun _ => .ite (fun _ => inert_updPeer i _ s) fun _ => ?_
  dsimp only
  split
  · exact .ite (fun _ => missed.trans ((inert_updPeer i _ _).trans (inert_changeReport _ _))) fun _ => missed
  · exact .ite (fun _ => missed.trans (gone _ _ _ _)) fun _ => missed
  · exact .ite (fun _ => missed.trans (gone _ _ _ _)) fun _ => missed
  · exact .ite (fun _ => missed.trans (gone _ _ _ _)) fun _ => missed
  · exact missed

theorem inert_intervalCheck (s : State) : Inert s (intervalCheck s) := .foldl checkPeer inert_checkPeer _ s

theorem inert_losePeer (s : State) (i : Fin 24) : Inert s (losePeer s i) := by
  have lost : Inert s (changeReport (peerAddress i)
      (raise .peerSilent (some (peerAddress i)) 2 (updPeer i (fun e => { e with state := .silent, heard := false }) s))) :=
    ((inert_updPeer i _ s).trans (inert_raise _ _ _ _)).trans (inert_changeReport _ _)
  unfold losePeer
  split
  · exact .refl s
  · exact inert_updPeer _ _ s
  · exact lost
  · exact lost
  · exact lost

theorem inert_cableLost (s : State) : Inert s (cableLost s) := .foldl losePeer inert_losePeer _ s
end Sys2Proof.Machine
end

