-- ==== Sys2Proof/Proofs/KeepingTimebase.lean ====
section
/-! PROOF. What the operations of the timebase unit, the generators and the source selector keep. -/

namespace Sys2Proof.Machine
open Sys2Proof.Claims

/-! ### The ranges of A and I under the moves of the timebase state -/

/-- A state other than FREE and ACQUIRE with A set to I. -/
theorem ratesOk_integral {t x : Timebase} (h : RatesOk t) (rate : x.rate = t.integral) (integral : x.integral = t.integral)
    (free : x.state ≠ .free) (acquire : x.state ≠ .acquire) : RatesOk x := by
  obtain ⟨-, integralBounds, -⟩ := h
  exact ⟨by rwa [rate], by rwa [integral], fun e => absurd e free, fun _ => by rw [rate, integral],
    fun e => absurd e acquire⟩

/-- TRACK or LOCKED with A and I in their bounds. -/
theorem ratesOk_loop {x : Timebase} (state : x.state = .track ∨ x.state = .locked)
    (rate : -rateBound ≤ x.rate ∧ x.rate ≤ rateBound) (integral : -rateBound ≤ x.integral ∧ x.integral ≤ rateBound) :
    RatesOk x := by
  refine ⟨rate, integral, fun e => ?_, fun e => ?_, fun e => ?_⟩ <;> rcases state with s | s <;> simp [s] at e

/-- FREE with A and I 0 (R2). -/
theorem ratesOk_free {x : Timebase} (state : x.state = .free) (rate : x.rate = 0) (integral : x.integral = 0) :
    RatesOk x := by
  refine ⟨by rw [rate]; decide, by rw [integral]; decide, fun _ => ⟨rate, integral⟩, fun _ => by rw [rate, integral], ?_⟩
  rw [state]; nofun

/-! ### The generators -/

theorem genOk_applyStaged {g : Generator} (h : GenOk g) :
    2 ≤ (applyStaged g).period ∧ (applyStaged g).period ≤ 65536 ∧ 1 ≤ (applyStaged g).high
      ∧ (applyStaged g).high + 1 ≤ (applyStaged g).period := by
  obtain ⟨low, up, -, -, -⟩ := h
  have high : (applyStaged g).high = max 1 (min (g.stagedPeriod - 1) g.stagedHigh) := by
    show limitNat g.stagedHigh 1 (g.stagedPeriod - 1) = _
    exact limitNat_eq _ _ _ (by omega)
  have period : (applyStaged g).period = g.stagedPeriod := rfl
  rw [high, period]
  omega

theorem genOk_wrap {g : Generator} (ticks : BitVec 64) (h : GenOk g) : GenOk (wrapGenerator ticks g) := by
  have staged := genOk_applyStaged (g := { g with wrapBase := g.wrapBase + BitVec.ofNat 64 g.period }) h
  obtain ⟨a, b, c, d, -⟩ := h
  exact ⟨a, b, c, d, fun _ => staged⟩

theorem genOk_start {g : Generator} (t : Timebase) (h : GenOk g) : GenOk (startGenerator t g) := by
  have staged := genOk_applyStaged h
  obtain ⟨a, b, c, d, -⟩ := h
  exact ⟨a, b, c, d, fun _ => staged⟩

/-- A change of the wrap base and the level alone. -/
theorem genOk_realign {g : Generator} (ticks : BitVec 64) (h : GenOk g) : GenOk (realign ticks g) := by
  unfold realign
  split
  · exact h
  · exact h

theorem still_takeWrap (i : Fin 2) (s : State) : Still s (takeWrap i s) := by
  refine still_updGen i _ s fun h => ?_
  split
  · exact genOk_wrap _ h
  · exact h

theorem still_takeHighEnd (i : Fin 2) (s : State) : Still s (takeHighEnd i s) := by
  refine still_updGen i _ s fun h => ?_
  split
  · exact h
  · exact h

theorem still_takeGeneratorStart (i : Fin 2) (s : State) : Still s (takeGeneratorStart i s) := by
  refine still_updGen i _ s fun h => ?_
  split
  · exact genOk_start _ h
  · exact h

/-! ### Phase steps and markers -/

/-- What is due changes alone. -/
theorem goes_due {D : Due → Prop} (ds : List Due) (s : State) (h : ∀ x ∈ ds, x ∈ s.due ∨ D x) :
    Goes D s { s with due := ds } where
  rates := id
  clocks := id
  members m := ⟨m.distinct, m.ordered, m.retiring, m.only, m.score⟩
  due := h
  held := rfl

/-- What a phase step makes fall due (R11, R60). -/
def StepDue (d : Due) : Prop := d = .slotTick ∨ d = .epochBoundary ∨ d = .holdOffExpiry

/-- What a phase step changes, whatever is due. -/
theorem phaseStep_parts (e : Int) (s : State) :
    phaseStep e s = { s with
      timebase := setRack (steppedTotal s.timebase e) s.timebase
      gens := updAll s.gens (realign (setRack (steppedTotal s.timebase e) s.timebase).ticks)
      due := (phaseStep e s).due } := by
  unfold phaseStep
  dsimp only
  rw [markIf_frame, markIf_frame, markIf_frame]
  rfl

/-- What is due after it. -/
theorem mem_phaseStep (d : Due) (e : Int) (s : State) (h : d ∈ (phaseStep e s).due) : d ∈ s.due ∨ StepDue d := by
  unfold phaseStep at h
  simp only [mem_markIf] at h
  rcases h with ⟨-, rfl⟩ | ⟨-, rfl⟩ | ⟨-, rfl⟩ | h
  · exact .inr (.inr (.inr rfl))
  · exact .inr (.inr (.inl rfl))
  · exact .inr (.inl rfl)
  · exact .inl h

/-- A phase step after and before other changes of the timebase alone. -/
theorem goes_stepped (e : Int) (before x : Timebase) (s : State)
    (role : x.state = .source → s.timebase.state = .source) (ok : RatesOk s.timebase → RatesOk x) :
    Goes StepDue s { phaseStep e { s with timebase := before } with timebase := x } := by
  have timebase := still_timebase x s role ok
  have realigned (ticks : BitVec 64) := still_gens (updAll s.gens (realign ticks))
    { s with timebase := x } fun h g => by
      rw [updAll_get]
      exact genOk_realign _ (h g)
  have dues := mem_phaseStep (e := e) (s := { s with timebase := before })
  have parts := phaseStep_parts e { s with timebase := before }
  generalize phaseStep e { s with timebase := before } = t at dues parts ⊢
  rw [parts]
  exact (Goes.of_still (timebase.trans (realigned _))).trans (goes_due t.due _ dues)

theorem goes_phaseStep (e : Int) (s : State) : Goes StepDue s (phaseStep e s) := by
  have parts := phaseStep_parts e s
  have all := goes_stepped e s.timebase (setRack (steppedTotal s.timebase e) s.timebase) s id id
  have same : { phaseStep e s with timebase := setRack (steppedTotal s.timebase e) s.timebase } = phaseStep e s := by
    generalize phaseStep e s = t at parts
    rw [parts]
  rwa [same] at all

/-- What a marker makes fall due. -/
def MarkerDue (d : Due) : Prop := StepDue d ∨ d = .acquisitionComplete ∨ d = .lockAchieved

theorem goes_raisedStep (source : Nat) (e : Int) (s : State) :
    Goes MarkerDue s (raisePhaseStep source e (phaseStep e s)) :=
  ((goes_phaseStep e s).mono fun _ => .inl).trans (inert_raise _ _ _ _).goes

theorem goes_markerInFree (source : Nat) (e : Int) (s : State) : Goes MarkerDue s (markerInFree source e s) := by
  refine ((goes_raisedStep source e s).trans (.of_still ?_)).trans (inert_occur _ _ _ _).goes
  refine still_enterTimebase .acquire _ _ nofun fun _ => ?_
  have zero : -rateBound ≤ (0 : Int) ∧ (0 : Int) ≤ rateBound := by decide
  have search : (((0 : Int).natAbs : Nat) : Int) + 2 * ((524288 : Nat) : Int) ≤ rateBound := by decide
  exact ⟨zero, zero, nofun, fun h => h.elim nofun nofun, fun _ => search⟩

theorem goes_trackStep (source : Nat) (e : Int) (s : State) : Goes MarkerDue s (trackStep source e s) := by
  refine ((goes_raisedStep source e s).trans (.of_still ?_)).trans (inert_occur _ _ _ _).goes
  exact still_enterTimebase .track _ _ nofun fun h => ratesOk_integral h rfl rfl nofun nofun

theorem goes_markerInHoldover (source : Nat) (e : Int) (s : State) : Goes MarkerDue s (markerInHoldover source e s) := by
  have entered (t : State) : Still t (enterTimebase .track (fun t => { t with lockRun := 0 }) t) :=
    still_enterTimebase .track _ _ nofun fun h => ratesOk_loop (.inl rfl) h.1 h.2.1
  refine .ite (fun _ => ?_) fun _ => .of_still (entered s)
  exact ((goes_raisedStep source e s).trans (.of_still (entered _))).trans (inert_occur _ _ _ _).goes

/-- The search of ACQUIRE stays within the bounds: what the decisions to come can add halves with the step (R13). -/
theorem decide13_bound (rate e : Int) (step : Nat) (h : (rate.natAbs : Int) + 2 * (step : Int) ≤ rateBound) :
    ((decide13 rate e step).natAbs : Int) + 2 * ((step / 2 : Nat) : Int) ≤ rateBound := by
  unfold decide13
  split_ifs <;> omega

theorem goes_markerInAcquire (e : Int) (s : State) (state : s.timebase.state = .acquire) :
    Goes MarkerDue s (markerInAcquire e s) := by
  unfold markerInAcquire
  dsimp only
  refine .trans ?_ (goes_markIf _ _ _ (.inr (.inl rfl)))
  have decided : (phaseStep e (updTimebase (fun t => { t with rate := decide13 t.rate e t.searchStep }) s)).timebase
      = setRack (steppedTotal { s.timebase with rate := decide13 s.timebase.rate e s.timebase.searchStep } e)
        { s.timebase with rate := decide13 s.timebase.rate e s.timebase.searchStep } := by
    rw [phaseStep_parts]; rfl
  refine (goes_stepped e { s.timebase with rate := decide13 s.timebase.rate e s.timebase.searchStep } _ s ?_ ?_).mono
    fun _ => .inl
  · rw [decided]
    exact fun h => h
  · rw [decided]
    rintro ⟨-, integral, -, -, bound⟩
    have sum := decide13_bound s.timebase.rate e s.timebase.searchStep (bound state)
    refine ⟨⟨?_, ?_⟩, integral, fun h => absurd (state.symm.trans h) nofun,
      fun h => h.elim (fun h => absurd (state.symm.trans h) nofun) fun h => absurd (state.symm.trans h) nofun, fun _ => sum⟩
    · show -rateBound ≤ decide13 _ _ _
      omega
    · show decide13 _ _ _ ≤ rateBound
      omega

theorem goes_lockCheck (source : Nat) (e : Int) (s : State) : Goes MarkerDue s (lockCheck source e s) := by
  unfold lockCheck
  dsimp only
  split
  · exact (inert_updTimebase _ s rfl rfl rfl rfl).goes.trans (goes_markIf _ _ _ (.inr (.inr rfl)))
  · refine .ite (fun _ => .refl s) fun _ =>
      .of_still (.trans (inert_raise .phaseAlarm (some source) (alarmDetail e) s).still ?_)
    exact still_enterTimebase .track _ _ nofun fun h => ratesOk_loop (.inl rfl) h.1 h.2.1
  all_goals exact .refl s

theorem goes_markerInTrack (source : Nat) (e : Int) (s : State)
    (state : s.timebase.state = .track ∨ s.timebase.state = .locked) : Goes MarkerDue s (markerInTrack source e s) := by
  refine .ite (fun _ => goes_trackStep source e s) fun _ => .trans ?_ (goes_lockCheck source e _)
  have limits (x : Int) : -rateBound ≤ limitRate x ∧ limitRate x ≤ rateBound := by
    rw [limitRate_eq]
    unfold rateBound
    omega
  exact .of_still (still_timebase (loopUpdate e s.timebase) s (fun h => h) fun _ => ratesOk_loop state (limits _) (limits _))

theorem goes_takeMarker (m : MarkerFields) (capture : Nat) (s : State) : Goes MarkerDue s (takeMarker m capture s) := by
  have unclaimed (t : State) : Still t (updSelector (fun x => { x with countdown := none }) t) :=
    still_selector _ t fun h => absurd rfl h
  unfold takeMarker
  dsimp only
  have taken (f : Timebase → Timebase) (core : Inert s (updTimebase f s)) :
      Goes MarkerDue s (updSelector (fun x => { x with countdown := none }) (updTimebase f s)) :=
    core.goes.trans (.of_still (unclaimed _))
  split
  · exact (taken _ (inert_updTimebase _ s rfl rfl rfl rfl)).trans (goes_markerInFree _ _ _)
  · next h => exact (taken _ (inert_updTimebase _ s rfl rfl rfl rfl)).trans (goes_markerInAcquire _ _ h)
  · next h => exact (taken _ (inert_updTimebase _ s rfl rfl rfl rfl)).trans (goes_markerInTrack _ _ _ (.inl h))
  · next h => exact (taken _ (inert_updTimebase _ s rfl rfl rfl rfl)).trans (goes_markerInTrack _ _ _ (.inr h))
  · exact (taken _ (inert_updTimebase _ s rfl rfl rfl rfl)).trans (goes_markerInHoldover _ _ _)
  · exact .refl s

theorem inert_dropCapture (s : State) : Inert s (dropCapture s) := inert_updTimebase _ s rfl rfl rfl rfl

theorem goes_markerComplete (word : BitVec 64) (s : State) : Goes MarkerDue s (markerComplete word s) := by
  unfold markerComplete
  split
  · exact .refl s
  · refine .ite (fun _ => (inert_dropCapture s).goes) fun _ => ?_
    split
    · exact goes_takeMarker _ _ s
    · exact (inert_dropCapture s).goes

theorem inert_captureEdge (s : State) : Inert s (captureEdge s) :=
  .ite (fun _ => inert_updTimebase _ s rfl rfl rfl rfl) fun _ => .refl s

/-! ### The counts and windows -/

theorem still_completeAcquisition (s : State) : Still s (completeAcquisition s) :=
  .ite (fun _ => still_enterTimebase .track _ s nofun fun h => ratesOk_loop (.inl rfl) h.1 h.1) fun _ => .refl s

theorem still_achieveLock (s : State) : Still s (achieveLock s) :=
  .ite (fun _ => still_enterTimebase .locked _ s nofun fun h => ratesOk_loop (.inr rfl) h.1 h.2.1) fun _ => .refl s

theorem still_abandonAcquisition (s : State) : Still s (abandonAcquisition s) :=
  .ite (fun _ => still_enterTimebase .free _ s nofun fun _ => ratesOk_free rfl rfl rfl) fun _ => .refl s

theorem still_holdOver (s : State) : Still s (holdOver s) :=
  .ite (fun _ => still_enterTimebase .holdover _ s nofun fun h => ratesOk_integral h rfl rfl nofun nofun) fun _ => .refl s

/-- What a missed window makes fall due (R14, R18). -/
def WindowDue (d : Due) : Prop := d = .acquisitionAbandoned ∨ d = .timebaseHoldover

theorem goes_missWindow (s : State) : Goes WindowDue s (missWindow s) := by
  unfold missWindow
  dsimp only
  exact (((inert_updTimebase _ s rfl rfl rfl rfl).goes.trans (goes_markIf _ _ _ (.inl rfl))).trans
    (goes_markIf _ _ _ (.inr rfl))).trans (inert_occur _ _ _ _).goes

theorem goes_endWindow (s : State) : Goes WindowDue s (endWindow s) := by
  unfold endWindow
  dsimp only
  refine .trans ?_ (inert_updTimebase (fun t => { t with windowMark := false, windowSkip := false }) _ rfl rfl rfl rfl).goes
  exact .ite (fun _ => (inert_updTimebase _ s rfl rfl rfl rfl).goes) fun _ => .ite (fun _ => .refl s) fun _ =>
    goes_missWindow s

/-! ### The source selector -/

theorem still_sourceToHoldover (s : State) : Still s (sourceToHoldover s) :=
  still_enterTimebase .holdover _ s nofun fun h => ratesOk_integral h rfl rfl nofun nofun

theorem inert_leaveRole (s : State) : Inert s (leaveRole s) := inert_updSelector _ s rfl

theorem still_sourceToTrack (s : State) : Still s (sourceToTrack s) :=
  ((inert_leaveRole s).trans (inert_updSelector _ _ rfl)).still.trans
    (still_enterTimebase .track _ _ nofun fun h => ratesOk_integral h rfl rfl nofun nofun)

theorem inert_startHandover (target epoch : Nat) (s : State) : Inert s (startHandover target epoch s) :=
  (inert_updSelector _ s rfl).trans (inert_raise _ _ _ _)

theorem inert_searchBetter (n : Nat) (s : State) : Inert s (searchBetter n s) := by
  unfold searchBetter
  split
  · exact .ite (fun _ => inert_startHandover _ _ s) fun _ => .refl s
  · exact .refl s

theorem inert_searchAny (epoch : Nat) (s : State) : Inert s (searchAny epoch s) := by
  unfold searchAny
  split
  · exact inert_startHandover _ _ s
  · exact inert_updSelector _ s rfl

theorem inert_recheckTarget (h : Handover) (s : State) : Inert s (recheckTarget h s) := by
  unfold recheckTarget
  split
  · exact inert_failHandover _ s
  · exact .refl s

theorem inert_driveMarker (n : Nat) (s : State) : Inert s (driveMarker n s) := inert_updSelector _ s rfl

/-- A station of the rack becomes SOURCE (R20), and its claim, if there is one, ends. -/
theorem still_becomeSource (y : Selector) (s : State) (on : Members s → driversOn s.station.state = true)
    (count : y.countdown ≠ none → s.selector.countdown ≠ none) : Still s (becomeSource { s with selector := y }) where
  rates h := by
    unfold becomeSource enterTimebase
    dsimp only
    split
    · exact ratesOk_integral h rfl rfl nofun nofun
    · rw [raise_timebase]
      exact ratesOk_integral h rfl rfl nofun nofun
  clocks h := by unfold becomeSource; rw [enterTimebase_frame]; exact h
  members m := by
    unfold becomeSource
    rw [enterTimebase_frame]
    exact ⟨m.distinct, m.ordered, m.retiring,
      ⟨fun off => absurd ((on m).symm.trans off) nofun, fun h => m.only.2 (count h)⟩, m.score⟩
  due x h := by
    unfold becomeSource at h
    rw [enterTimebase_frame] at h
    exact .inl h
  held := by
    unfold becomeSource enterTimebase
    dsimp only
    split
    · rfl
    · exact raise_held _ _ _ _

theorem still_expireClaim (s : State) : Still s (expireClaim s) := by
  refine .ite (fun zero => still_becomeSource _ s (fun m => ?_) fun h => absurd rfl h) fun _ => .refl s
  rw [m.only.2 (by rw [zero]; nofun)]
  rfl

theorem still_takeOver (s : State) : Still s (takeOver s) := by
  refine .ite (fun _ => ?_) fun _ => .refl s
  refine .ite (fun ⟨_, joined⟩ => ?_) fun _ => (inert_updTimebase _ s rfl rfl rfl rfl).still
  exact (still_becomeSource s.selector s (fun _ => by rw [joined]; rfl) id).trans (inert_driveMarker _ _).still

end Sys2Proof.Machine
end

