-- ==== Sys2Proof/Proofs/KeepingStation.lean ====
section
/-! PROOF. What a change of station state keeps. -/

namespace Sys2Proof.Machine
open Sys2Proof.Claims

/-! ### The parts of a change of station state -/

/-- The interface in a state in which it does not drive the pair. -/
theorem still_quietCable (c : Cable) (s : State) (quiet : ¬ Drives c.state) : Still s { s with cable := c } :=
  still_cable c s fun h => absurd h quiet

theorem still_enterGuard (s : State) : Still s (enterGuard s) :=
  still_quietCable _ s (by rintro (h | h | h) <;> cases h)

theorem still_cutBurst (s : State) : Still s (cutBurst s) := by
  have cut : Still s (enterGuard (updCable (fun c => { c with claim := none, flight := none }) (endBinding false s))) :=
    ((still_endBinding false s).trans (inert_updCable _ _ rfl).still).trans (still_enterGuard _)
  unfold cutBurst
  cases s.cable.state with
  | claiming => exact cut
  | sending => exact cut
  | aborting => exact cut
  | off => exact .refl s
  | guard => exact .refl s
  | idle => exact .refl s
  | receiving => exact .refl s

/-- The queue is emptied. -/
theorem still_emptyQueue (s : State) : Still s { s with txQueue := [] } := by
  have := still_filter (fun _ => false) s
  rwa [List.filter_false] at this

theorem still_leaveDrivers (s : State) : Still s (leaveDrivers s) := by
  unfold leaveDrivers
  dsimp only
  refine .trans ?_ (inert_updStation _ _ rfl rfl).still
  exact .trans (.trans (still_cutBurst s) (still_emptyQueue _))
    (inert_updCable (fun c => { c with holdOff := false }) _ rfl).still

theorem still_receiverOff (s : State) : Still s (receiverOff s) := by
  have held (t : State) : Still t (enterTimebase .holdover (fun t => { receiverOffCommon t with rate := t.integral }) t) :=
    still_enterTimebase _ _ t nofun fun h => ratesOk_integral h rfl rfl nofun nofun
  unfold receiverOff
  split
  · exact (((inert_failHandover 5 s).trans (inert_leaveRole _)).still).trans (held _)
  · exact held s
  · exact held s
  · exact still_enterTimebase _ _ s nofun fun _ => ratesOk_free rfl rfl rfl
  · next state =>
    refine still_enterTimebase _ _ s nofun fun ⟨_, _, free, _⟩ => ?_
    exact ratesOk_free rfl (free state).1 (free state).2
  · next state =>
    refine still_enterTimebase _ _ s nofun fun ⟨_, integral, _, same, _⟩ => ?_
    have equal := same (.inl state)
    exact ⟨⟨equal ▸ integral.1, equal ▸ integral.2⟩, integral, nofun, fun _ => equal, nofun⟩

theorem still_cableOff (s : State) : Still s (cableOff s) :=
  still_quietCable _ s (by rintro (h | h | h) <;> cases h)

theorem still_followReceivers (old new : StationState) (s : State) : Still s (followReceivers old new s) := by
  unfold followReceivers
  refine .ite (fun _ => (still_receiverOff s).trans (still_cableOff _)) fun _ => .ite (fun _ => ?_) fun _ => .refl s
  refine .trans ?_ (still_enterGuard _)
  exact (inert_updTimebase (fun t => { t with windowSkip := true }) s rfl rfl rfl rfl).still

theorem still_loseRole (s : State) : Still s (loseRole s) :=
  .ite (fun _ => ((inert_failHandover 5 s).trans (inert_leaveRole _)).still.trans (still_sourceToHoldover _)) fun _ =>
    .refl s

/-- The score changes below 255, outside SILENCED. -/
theorem still_score (f : Station → Station) (s : State) (state : (f s.station).state = s.station.state)
    (low : s.station.faultScore < 255 → (f s.station).faultScore < 255) (on : s.station.state ≠ .silenced) :
    Still s (updStation f s) where
  rates := id
  clocks := id
  members m := by
    have low : (f s.station).faultScore < 255 :=
      low (lt_of_le_of_ne m.score.1 fun h => on (m.score.2.1 h))
    refine ⟨m.distinct, m.ordered, ?_, ?_, ?_⟩
    · show (f s.station).state = _ → _
      rw [state]; exact m.retiring
    · show (driversOn (f s.station).state = _ → _) ∧ (_ → (f s.station).state = _)
      rw [state]; exact m.only
    · exact ⟨low.le, fun h => absurd h low.ne, fun h => absurd (state.symm.trans h) on⟩
  due _ := .inl
  held := rfl

theorem still_zeroScore (s : State) (on : s.station.state ≠ .silenced) : Still s (zeroScore s) := by
  have zero := still_score (fun x => { x with faultScore := 0, caution := false }) s rfl (fun _ => Nat.zero_lt_succ 254) on
  unfold zeroScore
  exact .ite (fun _ => zero.trans (inert_raise _ _ _ _).still) fun _ => zero

theorem still_entryEffects (old new : StationState) (s : State) (state : s.station.state = new) :
    Still s (entryEffects old new s) := by
  have station (f : Station → Station) (t : State) (a : (f t.station).state = t.station.state)
      (b : (f t.station).faultScore = t.station.faultScore) : Still t (updStation f t) := (inert_updStation f t a b).still
  have zero (n : new ≠ .silenced) : Still s (zeroScore s) := still_zeroScore s (state ▸ n)
  cases new with
  | offline => exact zero nofun
  | isolated =>
    have lost : Still s (cableLost (updStation (fun x => { x with listen := 0, recovery := 0 }) (zeroScore s))) :=
      ((zero nofun).trans (station _ _ rfl rfl)).trans (inert_cableLost _).still
    cases old with
    | listen => exact lost
    | joined => exact lost
    | silenced => exact lost
    | offline => exact zero nofun
    | isolated => exact zero nofun
    | settling => exact zero nofun
    | retiring => exact zero nofun
    | detached => exact zero nofun
    | duplicate => exact zero nofun
  | settling => exact station (fun x => { x with settle := 0 }) s rfl rfl
  | listen =>
    refine Goes.ite (fun _ => ?_) fun _ =>
      station (fun x => { x with listen := 0 }) s rfl rfl
    refine (station (fun x => { x with listen := 0 }) s rfl rfl).trans (still_zeroScore _ ?_)
    show s.station.state ≠ _
    rw [state]; nofun
  | joined => exact .refl s
  | retiring => exact .refl s
  | detached =>
    exact (zero nofun).trans (station (fun x =>
      { x with clash := 0, recovery := 0, listen := 0, retireTimer := 0, retireSent := false }) _ rfl rfl)
  | duplicate => exact (zero nofun).trans (station (fun x => { x with recovery := 0 }) _ rfl rfl)
  | silenced => exact station (fun x => { x with recovery := 0, retireSent := false, retireTimer := 0 }) s rfl rfl

/-! ### The change as a whole -/

/-- Where changes of everything but the station state leave what the membership speaks of: the pair is not driven and the
role not taken by them. -/
structure Follows (s t : State) : Prop where
  queue : t.txQueue = s.txQueue
  station : t.station = s.station
  countdown : t.selector.countdown = s.selector.countdown
  cable : Drives t.cable.state → Drives s.cable.state
  role : t.timebase.state = .source → s.timebase.state = .source

theorem Follows.refl (s : State) : Follows s s := ⟨rfl, rfl, rfl, id, id⟩

/-- The receivers follow the station state (R22, R44): without them the timebase is not SOURCE. -/
theorem followReceivers_follows (old new : StationState) (s : State) :
    Follows s (followReceivers old new s)
      ∧ ((followReceivers old new s).timebase.state = .source → receiversOn new = true) := by
  have quiet (c : CableState) (h : c = .off ∨ c = .guard) : ¬ Drives c := by
    rcases h with rfl | rfl <;> rintro (h | h | h) <;> cases h
  unfold followReceivers
  split
  · obtain ⟨state, -⟩ := receiverOff_timebase s
    have off : (cableOff (receiverOff s)).timebase.state ≠ .source := by
      show (receiverOff s).timebase.state ≠ _
      rw [state]; split <;> nofun
    refine ⟨⟨?_, ?_, ?_, fun h => absurd h (quiet _ (.inl rfl)), fun h => absurd h off⟩, fun h => absurd h off⟩
    · show (receiverOff s).txQueue = _
      rw [receiverOff_frame]
    · show (receiverOff s).station = _
      rw [receiverOff_frame]
    · show (receiverOff s).selector.countdown = _
      rw [receiverOff_selector]
      unfold selectorOff
      split <;> rfl
  · next on =>
    have on : receiversOn new = true := by simpa using on
    split
    · exact ⟨⟨rfl, rfl, rfl, fun h => absurd h (quiet _ (.inr rfl)), id⟩, fun _ => on⟩
    · exact ⟨.refl s, fun _ => on⟩

/-- The state that the timebase enters. -/
theorem enterTimebase_state (new : TimebaseState) (f : Timebase → Timebase) (s : State) :
    (enterTimebase new f s).timebase.state = new := by
  unfold enterTimebase
  dsimp only
  split
  · rfl
  · rw [raise_timebase]; rfl

/-- A SOURCE loses its role (R20). -/
theorem loseRole_follows (s : State) : Follows s (loseRole s) ∧ (loseRole s).timebase.state ≠ .source := by
  unfold loseRole
  split
  · have lost : (sourceToHoldover (leaveRole (failHandover 5 s))).timebase.state = .holdover :=
      enterTimebase_state _ _ _
    refine ⟨⟨?_, ?_, ?_, fun h => ?_, fun h => absurd (lost.symm.trans h) nofun⟩, by rw [lost]; nofun⟩
    all_goals unfold sourceToHoldover at *
    all_goals rw [enterTimebase_frame] at *
    · exact failHandover_txQueue 5 s
    · exact failHandover_station 5 s
    · exact (inert_failHandover 5 s).countdown
    · exact (failHandover_cable 5 s) ▸ h
  · next h => exact ⟨.refl s, h⟩

/-- Whether the entry to a state sets the score to 0 (R80). -/
def zeroes (old : StationState) : StationState → Bool
  | .offline | .isolated | .detached | .duplicate => true
  | .listen => old == .silenced
  | .settling | .joined | .retiring | .silenced => false

/-- What an entry to a state leaves of everything but the score. -/
theorem entryEffects_inert (old new : StationState) (s : State) :
    Inert (updStation (fun x => { x with faultScore := if zeroes old new then 0 else x.faultScore }) s)
      (entryEffects old new s) := by
  have zero (t : State) : Inert (updStation (fun x => { x with faultScore := 0 }) t) (zeroScore t) := by
    have one := inert_updStation (fun x => { x with caution := false })
      (updStation (fun x => { x with faultScore := 0 }) t) rfl rfl
    unfold zeroScore
    exact .ite (fun _ => one.trans (inert_raise _ _ _ _)) fun _ => one
  have station (f : Station → Station) (t : State) (a : (f t.station).state = t.station.state)
      (b : (f t.station).faultScore = t.station.faultScore) : Inert t (updStation f t) := inert_updStation f t a b
  cases new with
  | offline => exact zero s
  | isolated =>
    have lost : Inert _ (cableLost (updStation (fun x => { x with listen := 0, recovery := 0 }) (zeroScore s))) :=
      ((zero s).trans (station _ _ rfl rfl)).trans (inert_cableLost _)
    cases old with
    | listen => exact lost
    | joined => exact lost
    | silenced => exact lost
    | offline => exact zero s
    | isolated => exact zero s
    | settling => exact zero s
    | retiring => exact zero s
    | detached => exact zero s
    | duplicate => exact zero s
  | settling => exact station (fun x => { x with settle := 0 }) s rfl rfl
  | listen =>
    by_cases h : old = .silenced
    · subst h
      have one := inert_updStation (fun x => { x with listen := 0 })
        (updStation (fun x => { x with faultScore := 0 }) s) rfl rfl
      exact one.trans (zero (updStation (fun x => { x with listen := 0 }) s))
    · have kept : zeroes old .listen = false := by simp [zeroes, h]
      simp only [kept, Bool.false_eq_true, if_false, entryEffects, if_neg h]
      exact station (fun x => { x with listen := 0 }) s rfl rfl
  | joined => exact .refl s
  | retiring => exact .refl s
  | detached =>
    exact (zero s).trans (station (fun x =>
      { x with clash := 0, recovery := 0, listen := 0, retireTimer := 0, retireSent := false }) _ rfl rfl)
  | duplicate => exact (zero s).trans (station (fun x => { x with recovery := 0 }) _ rfl rfl)
  | silenced => exact station (fun x => { x with recovery := 0, retireSent := false, retireTimer := 0 }) s rfl rfl

/-- A change of station state, but for the entry's own effects: where it leaves what the membership speaks of. -/
structure Changed (new : StationState) (s t : State) : Prop where
  state : t.station.state = new
  queue : t.txQueue = if driversOn s.station.state && !driversOn new then [] else s.txQueue
  countdown : t.selector.countdown ≠ none → s.selector.countdown ≠ none ∧ s.station.state ≠ .joined
  cable : Drives t.cable.state → Drives s.cable.state ∧ (driversOn s.station.state && !driversOn new) = false
  role : t.timebase.state = .source → s.timebase.state = .source
    ∧ receiversOn new = true ∧ new ≠ .duplicate ∧ new ≠ .silenced
  score : t.station.faultScore = if zeroes s.station.state new then 0 else s.station.faultScore

/-- A cut leaves the pair undriven (R61). -/
theorem cutCable_quiet (c : Cable) : ¬ Drives (cutCable c).state := by
  unfold cutCable
  rintro (h | h | h)
  all_goals cases e : c.state <;> simp [e] at h

/-- The station state announced, the drivers and a claim's countdown left: the first part of a change of station state
(R65, R66). -/
def departed (new : StationState) (cause : Nat) (s : State) : State :=
  let t := if driversOn s.station.state && !driversOn new then leaveDrivers (announceStation new cause s)
    else announceStation new cause s
  if s.station.state = .joined then updSelector (fun x => { x with countdown := none }) t else t

/-- The receivers and the role follow: its second part. -/
def followed (old new : StationState) (s : State) : State :=
  if new = .duplicate ∨ new = .silenced then loseRole (followReceivers old new s) else followReceivers old new s

/-- A change of station state in its parts. -/
theorem changeStation_parts (new : StationState) (cause : Nat) (s : State) :
    changeStation new cause s
      = entryEffects s.station.state new (followed s.station.state new (departed new cause s)) := rfl

/-- What the departure leaves. -/
theorem departed_leaves (new : StationState) (cause : Nat) (s : State) :
    (departed new cause s).station.state = new
      ∧ (departed new cause s).station.faultScore = s.station.faultScore
      ∧ (departed new cause s).txQueue = (if driversOn s.station.state && !driversOn new then [] else s.txQueue)
      ∧ ((departed new cause s).selector.countdown ≠ none → s.selector.countdown ≠ none ∧ s.station.state ≠ .joined)
      ∧ (Drives (departed new cause s).cable.state →
        Drives s.cable.state ∧ (driversOn s.station.state && !driversOn new) = false)
      ∧ (departed new cause s).timebase = s.timebase := by
  have count (t : State) (same : t.selector = s.selector) :
      (if s.station.state = .joined then updSelector (fun x => { x with countdown := none }) t else t).selector.countdown
        ≠ none → s.selector.countdown ≠ none ∧ s.station.state ≠ .joined := by
    split
    · exact fun h => absurd rfl h
    · next n => exact fun h => ⟨same ▸ h, n⟩
  have rest (t : State) : (if s.station.state = .joined then updSelector (fun x => { x with countdown := none }) t else t)
      = { t with selector := (if s.station.state = .joined then updSelector (fun x => { x with countdown := none }) t
          else t).selector } := by
    split <;> rfl
  unfold departed
  dsimp only
  rw [rest]
  cases h : driversOn s.station.state && !driversOn new
  · simp only [Bool.false_eq_true, if_false]
    rw [announceStation_frame]
    exact ⟨rfl, rfl, rfl, count _ rfl, fun h => ⟨h, trivial⟩, rfl⟩
  · simp only [if_true]
    rw [leaveDrivers_frame, announceStation_frame]
    exact ⟨rfl, rfl, rfl, count _ rfl, fun h => absurd h (cutCable_quiet _), rfl⟩

/-- What the second part leaves. -/
theorem followed_follows (old new : StationState) (s : State) :
    Follows s (followed old new s) ∧ ((followed old new s).timebase.state = .source →
      receiversOn new = true ∧ new ≠ .duplicate ∧ new ≠ .silenced) := by
  obtain ⟨first, on⟩ := followReceivers_follows old new s
  unfold followed
  split
  · obtain ⟨second, off⟩ := loseRole_follows (followReceivers old new s)
    exact ⟨⟨second.queue.trans first.queue, second.station.trans first.station,
      second.countdown.trans first.countdown, first.cable ∘ second.cable, first.role ∘ second.role⟩,
      fun h => absurd h off⟩
  · next n =>
    rw [not_or] at n
    exact ⟨first, fun h => ⟨on h, n.1, n.2⟩⟩

/-- What a change of station state leaves (R65). -/
theorem changeStation_changed (new : StationState) (cause : Nat) (s : State) :
    Changed new s (changeStation new cause s) := by
  obtain ⟨state, score, queue, countdown, cable, timebase⟩ := departed_leaves new cause s
  obtain ⟨follows, role⟩ := followed_follows s.station.state new (departed new cause s)
  have entered := entryEffects_inert s.station.state new (followed s.station.state new (departed new cause s))
  rw [changeStation_parts]
  generalize followed s.station.state new (departed new cause s) = u at follows role entered
  have source (h : (entryEffects s.station.state new u).timebase.state = .source) : u.timebase.state = .source :=
    entered.state.symm.trans h
  refine ⟨?_, ?_, ?_, ?_, fun h => ⟨?_, role (source h)⟩, ?_⟩
  · exact entered.station.trans ((congrArg Station.state follows.station).trans state)
  · exact (entered.queue.trans follows.queue).trans queue
  · rw [entered.countdown.trans follows.countdown]; exact countdown
  · rw [entered.cable]; exact cable ∘ follows.cable
  · exact timebase ▸ follows.role (source h)
  · rw [entered.score]
    show (if _ then 0 else u.station.faultScore) = _
    rw [follows.station, score]

/-- So a change of station state leaves the membership sound: where a station listens it had no drivers, a retiring one
has no data, and the score is SILENCED's (R54, R80). -/
theorem members_changeStation (new : StationState) (cause : Nat) (s : State) (distinct : QueueDistinct s)
    (ordered : QueueOrdered s) (only : MembersOnly s) (listen : new = .listen → driversOn s.station.state = false)
    (retiring : new = .retiring → ∀ e ∈ s.txQueue, e.kind.isData = false)
    (score : ScoreTellsSilence (changeStation new cause s)) : Members (changeStation new cause s) := by
  have c := changeStation_changed new cause s
  generalize changeStation new cause s = t at c score
  refine ⟨?_, ?_, fun h => ?_, ⟨fun off => ?_, fun h => ?_⟩, score⟩
  · rw [QueueDistinct, c.queue]
    split
    · exact List.nodup_nil
    · exact distinct
  · rw [QueueOrdered, c.queue]
    split
    · exact List.Pairwise.nil
    · exact ordered
  · rw [c.queue]
    split
    · nofun
    · exact retiring (c.state.symm.trans h)
  · rw [c.state] at off
    have idle : ¬ Drives t.cable.state := fun h => by
      obtain ⟨drove, stayed⟩ := c.cable h
      rw [off, Bool.not_false, Bool.and_true] at stayed
      obtain ⟨-, a, b, d, -⟩ := only.1 stayed
      rcases drove with e | e | e
      · exact a e
      · exact b e
      · exact d e
    refine ⟨?_, fun e => idle (.inl e), fun e => idle (.inr (.inl e)), fun e => idle (.inr (.inr e)), fun h => ?_⟩
    · rw [c.queue, off, Bool.not_false, Bool.and_true]
      split
      · rfl
      · next h => exact (only.1 (by simpa using h)).1
    · obtain ⟨was, on, notDuplicate, notSilenced⟩ := c.role h
      have listens : new = .listen := by cases new <;> simp [receiversOn, driversOn] at *
      exact (only.1 (listen listens)).2.2.2.2 was
  · obtain ⟨counts, n⟩ := c.countdown h
    exact absurd (only.2 counts) n

/-- What a change keeps besides the membership: the ranges, what is due and the held requests. -/
structure Kept (s t : State) : Prop where
  rates : RatesOk s.timebase → RatesOk t.timebase
  clocks : (∀ g : Fin 2, GenOk s.gens[g]) → ∀ g : Fin 2, GenOk t.gens[g]
  due : ∀ x ∈ t.due, x ∈ s.due
  held : t.port.held = s.port.held

theorem Goes.kept {s t : State} (h : Still s t) : Kept s t :=
  ⟨h.rates, h.clocks, fun x m => (h.due x m).elim id False.elim, h.held⟩

theorem Kept.trans {s t u : State} (h : Kept s t) (g : Kept t u) : Kept s u :=
  ⟨g.rates ∘ h.rates, g.clocks ∘ h.clocks, fun x m => h.due x (g.due x m), g.held.trans h.held⟩

/-- With the membership it is a change that keeps everything. -/
theorem Kept.still {s t : State} (h : Kept s t) (members : Members s → Members t) : Still s t :=
  ⟨h.rates, h.clocks, members, fun x m => .inl (h.due x m), h.held⟩

/-- What else a change of station state keeps. -/
theorem kept_changeStation (new : StationState) (cause : Nat) (s : State) : Kept s (changeStation new cause s) := by
  have told := inert_raise .stationState none (stationDetail s.station.state new cause)
    (updStation (fun x => { x with state := new }) s)
  obtain ⟨state, -⟩ := departed_leaves new cause s
  have station := (followed_follows s.station.state new (departed new cause s)).1.station
  have departs : Still (announceStation new cause s) (departed new cause s) := by
    have left : Still (announceStation new cause s) (if driversOn s.station.state && !driversOn new then
        leaveDrivers (announceStation new cause s) else announceStation new cause s) :=
      .ite (fun _ => still_leaveDrivers _) fun _ => .refl _
    exact left.trans (.ite (fun _ => still_selector _ _ fun h => absurd rfl h) fun _ => .refl _)
  have follow (t : State) : Still t (followed s.station.state new t) :=
    .ite (fun _ => (still_followReceivers _ _ t).trans (still_loseRole _)) fun _ => still_followReceivers _ _ t
  have rest := (departs.trans (follow _)).trans
    (still_entryEffects s.station.state new _ ((congrArg Station.state station).trans state))
  rw [changeStation_parts] at *
  have before : Kept s (announceStation new cause s) :=
    ⟨told.still.rates, told.still.clocks, fun x m => told.due ▸ m, told.held⟩
  exact before.trans rest.kept

/-- The moves between station states but those to RETIRING and SILENCED (R65): none leaves the score at 255, and a
station that listens had no drivers. -/
def Moves (old new : StationState) : Prop :=
  new ≠ .retiring ∧ new ≠ .silenced ∧ (new = .listen → driversOn old = false)
    ∧ (old = .silenced → new ≠ .settling ∧ new ≠ .joined)

theorem still_changeStation (new : StationState) (cause : Nat) (s : State) (move : Moves s.station.state new) :
    Still s (changeStation new cause s) := by
  obtain ⟨notRetiring, notSilenced, listen, silenced⟩ := move
  refine (kept_changeStation new cause s).still fun m => ?_
  refine members_changeStation new cause s m.distinct m.ordered m.only listen (fun h => absurd h notRetiring) ?_
  have c := changeStation_changed new cause s
  rw [ScoreTellsSilence, c.state, c.score]
  have was := m.score
  unfold ScoreTellsSilence at was
  split
  · exact ⟨Nat.zero_le _, nofun, fun h => absurd h notSilenced⟩
  · next zero =>
    have loud : s.station.state ≠ .silenced := fun h => by
      have := silenced h
      cases new <;> simp_all [zeroes]
    exact ⟨was.1, fun h => absurd (was.2.1 h) loud, fun h => absurd h notSilenced⟩
end Sys2Proof.Machine
end

