-- ==== Sys2Proof/Proofs/KeepingController.lean ====
section
/-! PROOF. What the operations of the station controller keep. -/

namespace Sys2Proof.Machine
open Sys2Proof.Claims

/-! ### The station controller -/

theorem inert_fresh (s : State) : Inert s (updStation (fun x => { x with freshPending := true }) s) :=
  inert_updStation _ s rfl rfl

theorem still_setFresh (s : State) : Still s (setFresh s) := (inert_fresh s).still.trans (still_enqueue _ _)

theorem still_checkRetired (s : State) : Still s (checkRetired s) :=
  .ite (fun ⟨retiring, _⟩ => still_changeStation _ _ s (by rw [retiring]; simp [Moves])) fun _ => .refl s

/-- A rise of the score that keeps the station out of SILENCED. -/
theorem still_raisedScore (new : Nat) (crosses : Bool) (s : State) (on : s.station.state ≠ .silenced) (low : new < 255) :
    let s1 := updStation (fun x => { x with faultScore := new, caution := x.caution || crosses }) s
    Still s (if crosses then raise .cautionOn none (BitVec.ofNat 16 new) s1 else s1) := by
  intro s1
  have scored : Still s s1 := still_score _ s rfl (fun _ => low) on
  exact .ite (fun _ => scored.trans (inert_raise _ _ _ _).still) fun _ => scored

/-- The 255th fault (R82). -/
theorem still_silence (crosses : Bool) (s : State) :
    let s1 := updStation (fun x => { x with faultScore := 255, caution := x.caution || crosses }) s
    Still s (changeStation .silenced 12 (if crosses then raise .cautionOn none (BitVec.ofNat 16 255) s1 else s1)) := by
  intro s1
  have told : Inert s1 (if crosses then raise .cautionOn none (BitVec.ofNat 16 255) s1 else s1) :=
    .ite (fun _ => inert_raise _ _ _ _) fun _ => .refl _
  have scored : Kept s s1 := ⟨id, id, fun _ => id, rfl⟩
  generalize (if crosses then raise .cautionOn none (BitVec.ofNat 16 255) s1 else s1) = t at told
  refine ((scored.trans told.still.kept).trans (kept_changeStation _ _ t)).still fun m => ?_
  have c := changeStation_changed .silenced 12 t
  refine members_changeStation _ _ t ?_ ?_ ?_ nofun nofun ?_
  · rw [QueueDistinct, told.queue]; exact m.distinct
  · rw [QueueOrdered, told.queue]; exact m.ordered
  · rw [MembersOnly, told.station, told.queue, told.cable, told.state, told.countdown]; exact m.only
  · rw [ScoreTellsSilence, c.score, c.state]
    simp only [zeroes, Bool.false_eq_true, if_false]
    rw [told.score]
    exact ⟨le_refl _, fun _ => trivial, fun _ => rfl⟩

theorem still_raiseScore (amount : Nat) (s : State) : Still s (raiseScore amount s) := by
  unfold raiseScore
  split
  · exact .refl s
  · next limit e =>
    have on : s.station.state ≠ .silenced := fun h => by rw [h] at e; cases e
    have bound : limit = 254 ∨ limit = 255 := by
      cases h : s.station.state <;> simp [h, scoreLimit] at e <;> omega
    dsimp only
    generalize decide (s.station.faultScore < 128 ∧ 128 ≤ min limit (s.station.faultScore + amount)) = crosses
    split
    · next full =>
      rw [full.2]
      exact still_silence crosses s
    · refine still_raisedScore _ crosses s on ?_
      omega

theorem still_lowerScore (s : State) (on : s.station.state ≠ .silenced) : Still s (lowerScore s) := by
  have fall : Still s (updStation (fun x => { x with
      faultScore := s.station.faultScore - 1
      caution := x.caution && !decide (96 ≤ s.station.faultScore ∧ s.station.faultScore - 1 < 96) }) s) :=
    still_score _ s rfl (fun h => by show s.station.faultScore - 1 < 255; omega) on
  unfold lowerScore
  exact .ite (fun _ => fall.trans (inert_raise _ _ _ _).still) fun _ => fall

/-- A fall of the score leaves everything but the membership in any case. -/
theorem kept_lowerScore (s : State) : Kept s (lowerScore s) := by
  have fall (f : Station → Station) : Kept s (updStation f s) := ⟨id, id, fun _ => id, rfl⟩
  unfold lowerScore
  dsimp only
  split
  · exact (fall _).trans (inert_raise _ _ _ _).still.kept
  · exact fall _

/-! ### JOIN, RETIRE and RESTART -/

theorem still_rejoin (s : State) (h : s.station.state = .retiring) : Still s (rejoin s) := by
  have back : Still s (changeStation .joined 1 s) := still_changeStation _ _ s (by rw [h]; simp [Moves])
  have selector (t : State) : Inert t (selectorRejoin t) :=
    (inert_failHandover 6 t).trans (inert_updSelector _ _ rfl)
  have withdrawn : Still s (removeEntry .retire (updStation (fun x => { x with retireTimer := 0, retireSent := false })
      (selectorRejoin (changeStation .joined 1 s)))) :=
    ((back.trans (selector _).still).trans (inert_updStation _ _ rfl rfl).still).trans (still_removeEntry _ _)
  exact .ite (fun _ => withdrawn.trans (still_setFresh _)) fun _ => withdrawn

theorem still_joinRack (s : State) (h : s.station.state = .offline ∨ s.station.state = .detached) :
    Still s (joinRack s) := by
  have move (new : StationState) (n : new = .settling ∨ new = .isolated) : Moves s.station.state new := by
    rcases n with rfl | rfl <;> rcases h with h | h <;> simp [Moves, h]
  exact .ite (fun _ => still_changeStation _ _ s (move _ (.inl rfl))) fun _ =>
    still_changeStation _ _ s (move _ (.inr rfl))

/-- RETIRING is entered, and the data leave the queue (R54, R57). -/
theorem still_retiring (cause : Nat) (s : State) (h : s.station.state = .joined) :
    Still s (purgeData (changeStation .retiring cause s)) := by
  have purged (t : State) : Kept t (purgeData t) := ⟨id, id, fun _ => id, rfl⟩
  refine ((kept_changeStation .retiring cause s).trans (purged _)).still fun m => ?_
  have c := changeStation_changed .retiring cause s
  have score := c.score
  have queue := c.queue
  simp only [h, driversOn, zeroes, Bool.not_true, Bool.and_false, Bool.false_eq_true, if_false] at queue score
  have on : driversOn (purgeData (changeStation .retiring cause s)).station.state = true := by
    show driversOn (changeStation .retiring cause s).station.state = true
    rw [c.state]; rfl
  refine ⟨?_, ?_, fun _ e mem => ?_, ⟨fun off => absurd (on.symm.trans off) nofun, fun n => absurd h (c.countdown n).2⟩, ?_⟩
  · exact (List.filter_sublist.map _).nodup (queue ▸ m.distinct)
  · exact List.Pairwise.sublist List.filter_sublist (queue ▸ m.ordered)
  · have : e.kind.isData = false := by simpa using List.of_mem_filter mem
    exact this
  · show _ ∧ (_ ↔ (changeStation .retiring cause s).station.state = .silenced)
    rw [c.state]
    show (changeStation .retiring cause s).station.faultScore ≤ 255
      ∧ ((changeStation .retiring cause s).station.faultScore = 255 ↔ _)
    rw [score]
    refine ⟨m.score.1, fun e => absurd ((m.score.2.1 e).symm.trans h) nofun, nofun⟩

theorem inert_retiringSearch (s : State) : Inert s (retiringSearch s) :=
  .ite (fun _ => inert_searchAny _ s) fun _ => .refl s

theorem still_beginRetirement (s : State) (h : s.station.state = .joined) : Still s (beginRetirement s) := by
  unfold beginRetirement
  refine .trans ?_ (still_checkRetired _)
  refine .trans ?_ (inert_retiringSearch _).still
  refine .trans ?_ (inert_updStation _ _ rfl rfl).still
  exact (still_retiring 8 s h).trans (still_enqueue _ _)

theorem genOk_reset : GenOk Generator.reset := by
  refine ⟨?_, ?_, ?_, ?_, nofun⟩ <;> decide

/-- RESTART leaves the part in OFFLINE (R85). -/
theorem still_restart (s : State) : Still s (restart s) := by
  have selector : Still s (restartSelector s) :=
    (inert_failHandover 5 s).still.trans (still_selector _ _ fun h => absurd rfl h)
  have off := still_changeStation .offline 14 (restartSelector s) (by simp [Moves])
  have state : (changeStation .offline 14 (restartSelector s)).station.state = .offline :=
    (changeStation_changed _ _ _).state
  have left := selector.trans off
  unfold restart
  generalize changeStation .offline 14 (restartSelector s) = t at left state
  have station : Still t (restartStation t) := still_score _ t rfl (fun _ => Nat.zero_lt_succ 254) (by rw [state]; nofun)
  have cable (u : State) : Still u (restartCable u) := by
    refine (still_emptyQueue u).trans ?_
    exact still_quietCable _ { u with txQueue := [] } (by rintro (h | h | h) <;> cases h)
  have units (u : State) : Still u (emptyEvents (updMonitor restartMonitor (restartUnits (restartSubscriptions
      (restartPublications (restartRoster u)))))) := by
    have gens := still_gens (Vector.replicate 2 Generator.reset) u fun _ g => by simpa using genOk_reset
    have rest : Inert { u with gens := Vector.replicate 2 Generator.reset } (emptyEvents (updMonitor restartMonitor
        (restartUnits (restartSubscriptions (restartPublications (restartRoster u)))))) :=
      ⟨rfl, rfl, rfl, rfl, rfl, rfl, rfl, rfl, rfl, rfl, rfl, rfl⟩
    exact gens.trans rest.still
  exact (left.trans station).trans ((cable _).trans (units _))

/-! ### The ends of counts -/

theorem still_completeListen (s : State) : Still s (completeListen s) := by
  refine .ite (fun ⟨listens, _⟩ => ?_) fun _ => .refl s
  refine .trans ?_ (still_setFresh _)
  refine .trans ?_ (inert_updStation _ _ rfl rfl).still
  exact still_changeStation .joined 4 s (by rw [listens]; simp [Moves])

theorem still_timeOutRetire (s : State) : Still s (timeOutRetire s) :=
  .ite (fun ⟨retiring, _⟩ => still_changeStation _ _ s (by rw [retiring]; simp [Moves])) fun _ => .refl s

theorem inert_lapseService (s : State) : Inert s (lapseService s) :=
  .ite (fun _ => (inert_updStation _ s rfl rfl).trans (inert_raise _ _ _ _)) fun _ => .refl s

theorem still_completeSettle (s : State) : Still s (completeSettle s) :=
  .ite (fun ⟨settling, _⟩ => still_changeStation _ _ s (by rw [settling]; simp [Moves, driversOn])) fun _ => .refl s

theorem still_completeRecovery (s : State) : Still s (completeRecovery s) :=
  .ite (fun ⟨silenced, _⟩ => still_changeStation _ _ s (by rw [silenced]; simp [Moves, driversOn])) fun _ => .refl s

theorem inert_expireHoldOff (s : State) : Inert s (expireHoldOff s) :=
  .ite (fun _ => inert_updCable _ s rfl) fun _ => .refl s

theorem inert_endMarkerWord (s : State) : Inert s (endMarkerWord s) := by
  unfold endMarkerWord
  split
  · exact inert_updSelector _ s rfl
  · exact .refl s

/-! ### The source role given up -/

theorem goes_countRetire {D : Due → Prop} (s : State) (timeout : D .retireTimeout) : Goes D s (countRetire s) :=
  .ite (fun _ => (inert_updStation _ s rfl rfl).goes.trans (goes_markIf _ _ _ timeout)) fun _ => .refl s

theorem still_leaveSource (s : State) : Still s (leaveSource s) := by
  unfold leaveSource
  split
  · exact .ite (fun _ => (still_sourceToTrack s).trans (still_checkRetired _)) fun _ => .refl s
  · exact .refl s

/-- The timer rises after the completion (R77). -/
theorem goes_completeHandover (s : State) : Goes (· = .retireTimeout) s (completeHandover s) :=
  (Goes.of_still (still_leaveSource s)).trans (goes_countRetire _ rfl)

theorem still_clash (cause : ClashCause) (s : State) : Still s (clash cause s) := by
  unfold clash
  refine .ite (fun _ => ?_) fun _ => .refl s
  refine .trans (.trans ?_ (still_sourceToHoldover _)) (still_checkRetired _)
  refine Inert.still (.trans ?_ (inert_leaveRole _))
  refine .trans ?_ (inert_updSelector _ _ rfl)
  exact (inert_raise .markerClash none (BitVec.ofNat 16 (clashCode cause)) s).trans (inert_failHandover _ _)

/-! ### Faults and pins -/

theorem still_faultStation (kind : EntryKind) (s : State) : Still s (faultStation kind s) := by
  have clashes : Inert s (updStation (fun x => { x with clash := satAdd x.clash 1 2 }) s) := inert_updStation _ s rfl rfl
  unfold faultStation
  refine .ite (fun _ => clashes.still.trans ?_) fun _ => still_raiseScore 8 s
  exact .ite (fun _ => still_changeStation .duplicate 7 _ (by simp [Moves])) fun _ => still_raiseScore 8 _

theorem inert_pins (p : Pins) (s : State) : Inert s { s with pins := p } :=
  ⟨rfl, rfl, rfl, rfl, rfl, rfl, rfl, rfl, rfl, rfl, rfl, rfl⟩

theorem still_riseSense (s : State) : Still s (riseSense s) := by
  unfold riseSense
  refine .ite (fun _ => .refl s) fun _ => ?_
  have level := (inert_pins { s.pins with sense := true } s).still
  cases h : s.station.state <;> dsimp only
  case isolated =>
    refine level.trans (still_changeStation _ _ _ ?_)
    show Moves s.station.state _
    rw [h]; simp [Moves]
  all_goals exact level

theorem still_dropSense (s : State) : Still s (dropSense s) := by
  unfold dropSense
  refine .ite (fun _ => ?_) fun _ => .refl s
  have level := (inert_pins { s.pins with sense := false } s).still
  cases h : s.station.state <;> dsimp only
  case settling => exact level.trans (inert_updStation _ _ rfl rfl).still
  case listen => exact level.trans (still_changeStation _ _ _ (by simp [Moves]))
  case joined => exact level.trans (still_changeStation _ _ _ (by simp [Moves]))
  case silenced => exact level.trans (still_changeStation _ _ _ (by simp [Moves]))
  case retiring => exact level.trans (still_changeStation _ _ _ (by simp [Moves]))
  all_goals exact level

theorem inert_followRefok (level : Bool) (s : State) : Inert s (followRefok level s) :=
  ⟨rfl, rfl, rfl, rfl, rfl, rfl, rfl, rfl, rfl, rfl, rfl, rfl⟩

end Sys2Proof.Machine
end

