-- ==== Sys2Proof/Proofs/KeepingCable.lean ====
section
/-! PROOF. What received bursts and the interface's own claims and bursts keep. -/

namespace Sys2Proof.Machine
open Sys2Proof.Claims

/-! ### Received bursts -/

theorem still_ownAddressSeen (s : State) : Still s (ownAddressSeen s) := by
  have move : Moves s.station.state .duplicate := by simp [Moves]
  have change := still_changeStation .duplicate 6 s move
  unfold ownAddressSeen
  cases s.station.state with
  | listen => exact change
  | joined => exact change
  | retiring => exact change
  | silenced => exact change
  | offline => exact .refl s
  | isolated => exact .refl s
  | settling => exact .refl s
  | detached => exact .refl s
  | duplicate => exact .refl s

theorem still_handOver (m : BurstEnd) (b : Burst) (s : State) : Still s (handOver m b s) := by
  cases b with
  | presence p => exact .ite (fun _ => still_ownAddressSeen s) fun _ => (inert_takePresence p s).still
  | retire a succ => exact .ite (fun _ => .refl s) fun _ => (inert_takeRetire a succ s).still
  | pull a pub k => exact .ite (fun _ => still_pullArrives k s) fun _ => .refl s
  | block x => exact .ite (fun _ => .refl s) fun _ => (inert_blockArrives m x s).still

/-- What a received burst makes fall due (R83). -/
def BurstDue (d : Due) : Prop := d = .recoveryComplete

theorem goes_cleanBurst (s : State) : Goes BurstDue s (cleanBurst s) :=
  .ite (fun _ => (inert_updStation _ s rfl rfl).goes.trans (goes_markIf _ _ _ rfl)) fun _ => .refl s

theorem goes_deliver (m : BurstEnd) (b : Burst) (s : State) : Goes BurstDue s (deliver m b s) :=
  ((Goes.of_still (still_handOver m b s)).trans (goes_cleanBurst _)).trans (inert_occur _ _ _ _).goes

theorem inert_freeWaiting (s : State) : Inert s (updCable freeWaiting s) :=
  inert_updCable _ s (by unfold freeWaiting; split <;> rfl)

theorem goes_handWaiting (s : State) : Goes BurstDue s (handWaiting s) := by
  unfold handWaiting
  split
  · dsimp only
    split
    · exact (inert_freeWaiting s).goes.trans (goes_deliver _ _ _)
    · exact (inert_freeWaiting s).goes
  · exact .refl s

theorem still_endReception (s : State) : Still s (endReception s) :=
  (inert_updCable discardReception s rfl).still.trans (still_enterGuard _)

theorem inert_keepBurst (bytes : List Byte) (m : BurstEnd) (s : State) : Inert s (updCable (keepBurst bytes m) s) :=
  inert_updCable _ s (by unfold keepBurst; dsimp only; split <;> rfl)

theorem still_endGood (s : State) : Still s (endGood s) :=
  (still_endReception s).trans (inert_updCable _ _ rfl).still

theorem still_keepGood (bytes : List Byte) (s : State) : Still s (keepGood bytes s) := by
  refine .trans ?_ (inert_updCable _ _ rfl).still
  exact (inert_keepBurst bytes (endsNow s.timebase) s).still.trans (still_enterGuard _)

theorem goes_takeGood (b : Burst) (s : State) : Goes BurstDue s (takeGood b s) :=
  (Goes.of_still (still_endGood s)).trans (goes_deliver _ b _)

theorem still_takeFailed (s : State) : Still s (takeFailed s) := by
  refine .trans (.trans ?_ (still_raiseScore 1 _)) (inert_occur .rxCheckFault .none 1 _).still
  refine (still_endReception s).trans (inert_updStation _ _ ?_ ?_).still
  · split <;> rfl
  · split <;> rfl

theorem goes_endBurst (bytes : List Byte) (waits : Bool) (s : State) : Goes BurstDue s (endBurst bytes waits s) := by
  unfold endBurst
  refine .ite (fun _ => ?_) fun _ => .refl s
  split
  · exact .ite (fun _ => .of_still (still_keepGood bytes s)) fun _ => goes_takeGood _ s
  · exact .of_still (still_takeFailed s)

theorem goes_takeLate (bytes : List Byte) (s : State) : Goes BurstDue s (takeLate bytes s) := by
  unfold takeLate
  split
  · exact .ite (fun _ => goes_handWaiting s) fun _ => .refl s
  · exact .refl s

/-! ### The interface's own claims and bursts -/

theorem still_completeGuard (s : State) : Still s (completeGuard s) :=
  .ite (fun _ => still_quietCable _ s (by rintro (h | h | h) <;> cases h)) fun _ => .refl s

theorem still_restartGuard (s : State) : Still s (restartGuard s) :=
  .ite (fun _ => still_enterGuard s) fun _ => .refl s

theorem still_seeStartBit (s : State) : Still s (seeStartBit s) :=
  .ite (fun _ => still_quietCable _ s (by rintro (h | h | h) <;> cases h)) fun _ => .refl s

theorem still_startClaim (s : State) : Still s (startClaim s) := by
  unfold startClaim
  split
  · next e claims =>
    refine still_cable _ s fun _ => .inr ?_
    unfold claimable at claims
    split at claims
    · next h => exact h.2.1
    · cases claims
  · exact .refl s

theorem goes_loseClaim (bit : Fin 9) (s : State) : Goes BurstDue s (loseClaim bit s) := by
  unfold loseClaim
  split
  · dsimp only
    refine .ite (fun _ => ?_) fun _ => .refl s
    split
    · refine .trans (.of_still (still_quietCable _ s ?_)) (inert_occur _ _ _ _).goes
      rintro (h | h | h) <;> cases h
    · refine .trans (.trans (.of_still (still_quietCable _ s ?_)) (inert_occur _ _ _ _).goes) (goes_handWaiting _)
      rintro (h | h | h) <;> cases h
  · exact .refl s

theorem still_withdrawClaim (s : State) (claims : s.cable.state = .claiming) : Still s (withdrawClaim s) :=
  still_cable _ s fun _ => .inl (.inl claims)

theorem still_startBurst (s : State) : Still s (startBurst s) := by
  unfold startBurst
  split
  · refine .ite (fun claims => ?_) fun _ => .refl s
    refine .ite (fun _ => still_withdrawClaim s claims) fun _ => ?_
    split
    · exact (still_removeEntry _ s).trans (still_withdrawClaim _ claims)
    · exact still_cable _ s fun _ => .inl (.inl claims)
  · exact .refl s

theorem still_retireReported (s : State) : Still s (retireReported s) := by
  unfold retireReported
  split
  · exact (inert_updStation _ s rfl rfl).still.trans (still_checkRetired _)
  · exact still_setFresh s
  · exact .refl s

theorem still_reportSent (f : Flight) (s : State) : Still s (reportSent f s) := by
  unfold reportSent
  split
  · exact (inert_updStation _ s rfl rfl).still
  · exact still_retireReported s
  · exact .refl s
  · exact still_endBinding true s

theorem still_dropSent (f : Flight) (s : State) : Still s (dropSent f s) :=
  .ite (fun _ => .refl s) fun _ => still_filter _ s

/-- A burst sent, before its kind is reported (R58). -/
def sentBurst (f : Flight) (s : State) : State :=
  dropSent f (enterGuard (updCable (fun c => { c with flight := none }) s))

theorem still_sentBurst (f : Flight) (s : State) : Still s (sentBurst f s) := by
  refine .trans ?_ (still_dropSent f _)
  exact (inert_updCable (fun c => { c with flight := none }) s rfl).still.trans (still_enterGuard _)

/-- The score's fall for a burst sent: only a station with drivers sends. -/
theorem still_finishBurst (s : State) : Still s (finishBurst s) := by
  unfold finishBurst
  split
  · next f _ =>
    refine .ite (fun sends => ?_) fun _ => .refl s
    have state : (sentBurst f s).station.state = s.station.state := by
      unfold sentBurst dropSent; split <;> rfl
    have reported (t : State) : Still t (reportSent f (occur .burstSent (entrySubject f.entry.kind) 1 t)) :=
      (inert_occur _ _ _ t).still.trans (still_reportSent f _)
    refine (((still_sentBurst f s).kept.trans (kept_lowerScore _)).trans (reported _).kept).still fun m => ?_
    have on : s.station.state ≠ .silenced := fun h =>
      (m.only.1 (by rw [h]; rfl)).2.2.1 sends
    exact (((still_sentBurst f s).trans (still_lowerScore _ (state ▸ on))).trans (reported _)).members m
  · exact .refl s

theorem still_transmitFault (s : State) : Still s (transmitFault s) := by
  unfold transmitFault
  split
  · next kind on =>
    have drives : Drives s.cable.state := by
      unfold onPair at on
      cases h : s.cable.state <;> simp [h] at on
      · exact .inl rfl
      · exact .inr (.inl rfl)
    refine .trans ?_ (inert_occur _ _ _ _).still
    refine .trans (.trans ?_ (still_endBinding false _)) (still_faultStation kind _)
    exact still_cable _ s fun _ => .inl drives
  · exact .refl s

theorem still_endAbort (s : State) : Still s (endAbort s) :=
  .ite (fun _ => still_enterGuard s) fun _ => .refl s

end Sys2Proof.Machine
end

