-- ==== Sys2Proof/Proofs/TakingDues.lean ====
section
/-! PROOF. The epoch boundary, and the taking of what has fallen due. -/

namespace Sys2Proof.Machine
open Sys2Proof.Claims

/-! ### The epoch boundary -/

/-- What an epoch boundary makes fall due. -/
def BoundaryDue (d : Due) : Prop := d ∈ boundaryDues

theorem boundaryDue_stale (j : Fin 32) : BoundaryDue (.staleTimeout j) := by
  simp [BoundaryDue, boundaryDues, subscriptionDues]

theorem boundaryDue_pull (j : Fin 32) : BoundaryDue (.pullDeadline j) := by
  simp [BoundaryDue, boundaryDues, subscriptionDues]

theorem boundaryDue_generator (g : Fin 2) : BoundaryDue (.generatorStart g) := by
  simp [BoundaryDue, boundaryDues, stationDues]

theorem boundaryDue_listen : BoundaryDue .listenComplete := by simp [BoundaryDue, boundaryDues, stationDues]
theorem boundaryDue_lapse : BoundaryDue .serviceLapsed := by simp [BoundaryDue, boundaryDues, stationDues]
theorem boundaryDue_claim : BoundaryDue .claimExpiry := by simp [BoundaryDue, boundaryDues, stationDues]
theorem boundaryDue_complete : BoundaryDue .handoverComplete := by simp [BoundaryDue, boundaryDues, stationDues]
theorem boundaryDue_takeover : BoundaryDue .handoverTakeover := by simp [BoundaryDue, boundaryDues, stationDues]
theorem boundaryDue_timeout : BoundaryDue .retireTimeout := by simp [BoundaryDue, boundaryDues, stationDues]

theorem goes_markWhere {D : Due → Prop} {α : Type} (units : List α) (c : State → α → Bool) (d : α → Due)
    (marks : ∀ u, D (d u)) (s : State) : Goes D s (markWhere units c d s) :=
  .foldl _ (fun t u => goes_markIf _ _ t (marks u)) units s

theorem goes_countListen (s : State) : Goes BoundaryDue s (countListen s) :=
  .ite (fun _ => (inert_updStation _ s rfl rfl).goes.trans (goes_markIf _ _ _ boundaryDue_listen)) fun _ => .refl s

theorem still_schedulePresence (s : State) : Still s (schedulePresence s) :=
  .ite (fun _ => still_enqueue _ s) fun _ => .refl s

theorem goes_serviceCheck (s : State) : Goes BoundaryDue s (serviceCheck s) :=
  .ite (fun _ => (inert_updStation _ s rfl rfl).goes.trans (goes_markIf _ _ _ boundaryDue_lapse)) fun _ => .refl s

theorem goes_controllerBoundary (n : Nat) (s : State) : Goes BoundaryDue s (controllerBoundary n s) :=
  .ite (fun _ => ((goes_countListen s).trans (.of_still (still_schedulePresence _))).trans (goes_serviceCheck _))
    fun _ => goes_countListen s

/-- A claim counts down in JOINED alone (R30). -/
theorem goes_claimTest (s : State) : Goes BoundaryDue s (claimTest s) := by
  unfold claimTest
  dsimp only
  refine .ite (fun holds => ?_) fun _ => .of_still (still_selector _ s fun h => absurd rfl h)
  have joined : s.station.state = .joined := by
    simp only [Bool.and_eq_true, beq_iff_eq] at holds
    exact holds.1.1.1
  split
  · exact .of_still (still_selector _ s fun _ => .inr joined)
  · exact (Goes.of_still (still_selector _ s fun _ => .inr joined)).trans (goes_markIf _ _ _ boundaryDue_claim)

theorem goes_sourceChecks (n : Nat) (s : State) : Goes BoundaryDue s (sourceChecks n s) := by
  unfold sourceChecks
  split
  · exact .ite (fun _ => goes_mark _ s boundaryDue_complete) fun _ => (inert_recheckTarget _ s).goes
  · split
    · exact .ite (fun _ => (inert_searchBetter n s).goes) fun _ => .refl s
    · exact .ite (fun _ => .refl s) fun _ =>
        .of_still ((inert_searchAny (epochPlus n 16) s).still.trans (still_checkRetired _))
    · exact .refl s

theorem inert_sourceMarker (n : Nat) (s : State) : Inert s (sourceMarker n s) :=
  .ite (fun _ => inert_driveMarker n s) fun _ => .refl s

theorem goes_selectorBoundary (n : Nat) (s : State) : Goes BoundaryDue s (selectorBoundary n s) := by
  have source : Goes BoundaryDue s (if s.timebase.state = .source then sourceMarker n (sourceChecks n s) else s) :=
    .ite (fun _ => (goes_sourceChecks n s).trans (inert_sourceMarker n _).goes) fun _ => .refl s
  exact (source.trans (goes_claimTest _)).trans (goes_markIf _ _ _ boundaryDue_takeover)

theorem inert_rosterBoundary (n : Nat) (s : State) : Inert s (rosterBoundary n s) :=
  .ite (fun _ => inert_intervalCheck s) fun _ => .refl s

theorem goes_retireBoundary (s : State) : Goes BoundaryDue s (retireBoundary s) :=
  .ite (fun _ => .refl s) fun _ => goes_countRetire s boundaryDue_timeout

theorem goes_boundaryWork (first : Bool) (s : State) : Goes BoundaryDue s (boundaryWork first s) := by
  have both (n : Nat) (t : State) : Goes BoundaryDue t
      (if first then selectorBoundary n (rosterBoundary n t) else rosterBoundary n (selectorBoundary n t)) :=
    .ite (fun _ => (inert_rosterBoundary n t).goes.trans (goes_selectorBoundary n _))
      fun _ => (goes_selectorBoundary n t).trans (inert_rosterBoundary n _).goes
  unfold boundaryWork
  dsimp only
  refine .trans ?_ (goes_markWhere _ _ _ boundaryDue_generator _)
  refine .trans ?_ (goes_markWhere _ _ _ boundaryDue_pull _)
  refine .trans ?_ (goes_markWhere _ _ _ boundaryDue_stale _)
  exact ((goes_controllerBoundary _ s).trans (both _ _)).trans (goes_retireBoundary _)

theorem inert_drawFree (s : State) : Inert s (drawFree s).2 :=
  ⟨rfl, rfl, rfl, rfl, rfl, rfl, rfl, rfl, rfl, rfl, rfl, rfl⟩

theorem goes_freeBoundaryWork (s : State) : Goes BoundaryDue s (freeBoundaryWork s) :=
  .ite (fun _ => (inert_drawFree s).goes.trans (goes_boundaryWork _ _)) fun _ => goes_boundaryWork _ s

/-! ### Steps that are taken -/

/-- What the taking of a step makes fall due. -/
def follows : Due → Due → Prop
  | .slotTick => TickDue
  | .compareFired _ => EngineDue
  | .epochBoundary => BoundaryDue
  | .handoverComplete => (· = .retireTimeout)
  | .markerWindowEnd => WindowDue
  | _ => fun _ => False

theorem goes_perform (d : Due) (s : State) : Goes (follows d) s (perform d s) := by
  cases d with
  | settleComplete => exact still_completeSettle s
  | markerWordSent => exact (inert_endMarkerWord s).still
  | holdOffExpiry => exact (inert_expireHoldOff s).still
  | generatorWrap g => exact still_takeWrap g s
  | highTimeEnd g => exact still_takeHighEnd g s
  | markerWindowEnd => exact goes_endWindow s
  | acquisitionAbandoned => exact still_abandonAcquisition s
  | timebaseHoldover => exact still_holdOver s
  | acquisitionComplete => exact still_completeAcquisition s
  | lockAchieved => exact still_achieveLock s
  | recoveryComplete => exact still_completeRecovery s
  | slotTick => exact goes_slotWork s
  | compareFired k => exact goes_takeCompare k s
  | engine e => exact still_engineTick e s
  | holdEnd e => exact still_endHold e s
  | epochBoundary => exact goes_freeBoundaryWork s
  | handoverComplete => exact goes_completeHandover s
  | handoverTakeover => exact still_takeOver s
  | claimExpiry => exact still_expireClaim s
  | listenComplete => exact still_completeListen s
  | retireTimeout => exact still_timeOutRetire s
  | serviceLapsed => exact (inert_lapseService s).still
  | staleTimeout j => exact (inert_takeStale j s).still
  | pullDeadline j => exact still_takePullDeadline j s
  | generatorStart g => exact still_takeGeneratorStart g s

theorem goes_takeDue (d : Due) (s : State) : Goes (follows d) s (takeDue d s) :=
  .ite (fun _ => (Goes.of_still (still_clearDue d s)).trans (goes_perform d _)) fun _ => .refl s

/-- After it is taken, what is due was due before and is not it, or follows from it. -/
theorem mem_takeDue (d x : Due) (s : State) (h : x ∈ (takeDue d s).due) : (x ∈ s.due ∧ x ≠ d) ∨ follows d x := by
  unfold takeDue takeDueBy at h
  split at h
  · rcases (goes_perform d (clearDue d s)).due x h with h | h
    · exact .inl ((mem_clearDue d x s).1 h)
    · exact .inr h
  · next n => exact .inl ⟨h, fun e => n (e ▸ h)⟩

/-- A change with whatever may fall due. -/
abbrev Keeps (s t : State) : Prop := Goes (fun _ => True) s t

theorem Goes.keeps {D : Due → Prop} {s t : State} (h : Goes D s t) : Keeps s t := h.mono fun _ _ => trivial

theorem keeps_takeInOrder (ds : List Due) (s : State) : Keeps s (takeInOrder ds s) :=
  .foldl _ (fun t d => (goes_takeDue d t).keeps) ds s

theorem keeps_takeFreely (ds : List Due) (s : State) : Keeps s (takeFreely ds s) :=
  .ite (fun _ => keeps_takeInOrder _ s) fun _ => (inert_drawFree s).goes.trans (keeps_takeInOrder _ _)

theorem keeps_takeSlotTick (s : State) : Keeps s (takeSlotTick s) :=
  ((goes_takeDue _ s).keeps.trans (keeps_takeFreely _ _)).trans (keeps_takeFreely _ _)

theorem keeps_takeEpochBoundary (steps : List Due) (s : State) : Keeps s (takeEpochBoundary steps s) :=
  (goes_takeDue _ s).keeps.trans (keeps_takeInOrder _ _)

theorem keeps_settleBy (steps : List Due) (s : State) : Keeps s (settleBy steps s) := by
  have clock := keeps_takeInOrder clockDues s
  unfold settleBy
  dsimp only
  generalize takeInOrder clockDues s = u at clock
  refine clock.trans (.ite (fun _ => .ite (fun _ => ?_) fun _ => ?_) fun _ => ?_)
  · exact ((inert_drawFree u).goes.trans (keeps_takeSlotTick _)).trans (keeps_takeEpochBoundary _ _)
  · exact ((inert_drawFree u).goes.trans (keeps_takeEpochBoundary _ _)).trans (keeps_takeSlotTick _)
  · exact (keeps_takeSlotTick u).trans (keeps_takeEpochBoundary _ _)

theorem keeps_dueTaken (s : State) : Keeps s (dueTaken s) := .ite (fun _ => .refl s) fun _ => keeps_settleBy _ s

/-! ### Nothing is left to take -/

/-- Every step that follows from one of a list comes later in it, or is one of `P`. -/
def InOrder (P : Due → Prop) : List Due → Prop
  | [] => True
  | d :: rest => (∀ x, follows d x → x ∈ rest ∨ P x) ∧ InOrder P rest

/-- Taken in such an order, the steps leave nothing but `P` due. -/
theorem takeInOrder_leaves (P : Due → Prop) (ds : List Due) (s : State) (order : InOrder P ds)
    (all : ∀ x ∈ s.due, x ∈ ds ∨ P x) : ∀ x ∈ (takeInOrder ds s).due, P x := by
  induction ds generalizing s with
  | nil => exact fun x h => (all x h).elim (fun h => absurd h List.not_mem_nil) id
  | cons d rest ih =>
    refine ih (takeDue d s) order.2 fun x h => ?_
    rcases mem_takeDue d x s h with ⟨was, ne⟩ | f
    · exact (all x was).imp_left fun m => (List.mem_cons.1 m).resolve_left ne
    · exact order.1 x f

/-- Steps from which nothing follows but `P` are in order. -/
theorem inOrder_of (P : Due → Prop) (ds : List Due) (h : ∀ d ∈ ds, ∀ x, follows d x → P x) : InOrder P ds := by
  induction ds with
  | nil => trivial
  | cons d rest ih =>
    exact ⟨fun x f => .inr (h d (.head _) x f), ih fun d m => h d (.tail _ m)⟩

/-- A free order is one of the same steps. -/
theorem mem_orderOf {α : Type} (xs : List α) (n : Nat) (x : α) : x ∈ orderOf xs n ↔ x ∈ xs := by
  induction xs generalizing n with
  | nil => exact Iff.rfl
  | cons a rest ih =>
    have split := ih (n / (rest.length + 1))
    rw [← List.take_append_drop (n % (rest.length + 1)) (orderOf rest _), List.mem_append] at split
    simp only [orderOf, List.mem_append, List.mem_cons, ← split]
    tauto

/-- Taken in a free order, steps from which nothing but `P` follows leave nothing but `P` due. -/
theorem takeFreely_leaves (P : Due → Prop) (ds : List Due) (s : State) (order : ∀ d ∈ ds, ∀ x, follows d x → P x)
    (all : ∀ x ∈ s.due, x ∈ ds ∨ P x) : ∀ x ∈ (takeFreely ds s).due, P x := by
  have live (x : Due) (h : x ∈ s.due) : x ∈ (ds.filter fun d => decide (d ∈ s.due)) ∨ P x :=
    (all x h).imp_left fun m => by simp [m, h]
  have steps (d : Due) (h : d ∈ ds.filter fun d => decide (d ∈ s.due)) := order d (List.mem_of_mem_filter h)
  unfold takeFreely
  dsimp only
  split
  · exact takeInOrder_leaves P _ s (inOrder_of P _ steps) live
  · refine takeInOrder_leaves P _ (drawFree s).2 (inOrder_of P _ fun d m => steps d ((mem_orderOf _ _ _).1 m)) ?_
    exact fun x h => (live x h).imp_left fun m => (mem_orderOf _ _ _).2 m

/-- A slot tick with all that comes of it leaves nothing of it due. -/
theorem takeSlotTick_leaves (P : Due → Prop) (s : State) (all : ∀ x ∈ s.due, x = .slotTick ∨ TickDue x ∨ P x) :
    ∀ x ∈ (takeSlotTick s).due, P x := by
  have engines (x : Due) (h : EngineDue x) : TickDue x := .inr (.inl h)
  refine takeFreely_leaves P _ _ (fun d m x f => ?_) fun x h => ?_
  · simp only [List.mem_append, List.mem_map] at m
    rcases m with ⟨e, -, rfl⟩ | ⟨e, -, rfl⟩ <;> exact f.elim
  · have left := takeFreely_leaves (fun x => EngineDue x ∨ (∃ e, x = .holdEnd e) ∨ P x)
      ((List.finRange 4).map .compareFired) (takeDue .slotTick s) (fun d m x f => ?_) (fun x h => ?_) x h
    · rcases left with ⟨e, rfl⟩ | ⟨e, rfl⟩ | p
      · exact .inl (by simp)
      · exact .inl (by simp)
      · exact .inr p
    · obtain ⟨k, -, rfl⟩ := List.mem_map.1 m
      exact .inl f
    · have tick : x = .slotTick ∨ TickDue x ∨ P x → x ≠ .slotTick →
          x ∈ (List.finRange 4).map Due.compareFired ∨ EngineDue x ∨ (∃ e, x = .holdEnd e) ∨ P x := by
        rintro (e | (⟨k, rfl⟩ | h | h) | p) ne
        · exact absurd e ne
        · exact .inl (by simp)
        · exact .inr (.inl h)
        · exact .inr (.inr (.inl h))
        · exact .inr (.inr (.inr p))
      rcases mem_takeDue _ x s h with ⟨was, ne⟩ | f
      · exact tick (all x was) ne
      · refine tick (.inr (.inl f)) ?_
        rintro rfl
        rcases f with ⟨_, e⟩ | ⟨_, e⟩ | ⟨_, e⟩ <;> cases e

end Sys2Proof.Machine
end

