-- ==== Sys2Proof/Proofs/NothingLeftDue.lean ====
section
/-! PROOF. Once what is due has been taken nothing is left to take. -/

namespace Sys2Proof.Machine
open Sys2Proof.Claims

/-! ### Everything due is taken -/

/-- An epoch boundary with those of the steps that come of it that a list names leaves the others alone. -/
theorem takeEpochBoundary_leaves (P : Due → Prop) (steps : List Due) (s : State) (order : InOrder P steps)
    (named : ∀ x, BoundaryDue x → x ∈ steps ∨ P x) (all : ∀ x ∈ s.due, x = .epochBoundary ∨ BoundaryDue x ∨ P x) :
    ∀ x ∈ (takeEpochBoundary steps s).due, P x := by
  refine takeInOrder_leaves P steps _ order fun x h => ?_
  rcases mem_takeDue _ x s h with ⟨was, ne⟩ | f
  · rcases all x was with e | b | p
    · exact absurd e ne
    · exact named x b
    · exact .inr p
  · exact named x f

/-- The steps of the clock come in an order in which what follows comes later. -/
theorem clockDues_inOrder (P : Due → Prop) : InOrder P clockDues := by
  simp only [clockDues, InOrder, and_true]
  refine ⟨nofun, nofun, nofun, nofun, nofun, nofun, nofun, nofun, nofun, nofun, fun x f => ?_, nofun, nofun⟩
  rcases f with rfl | rfl <;> simp

/-- So do those that come of an epoch boundary. -/
theorem stationDues_inOrder (P : Due → Prop) : InOrder P stationDues := by
  rw [stationDues]
  have starts : InOrder P ((List.finRange 2).map Due.generatorStart) :=
    inOrder_of P _ fun d m x f => by
      obtain ⟨g, -, rfl⟩ := List.mem_map.1 m
      exact f.elim
  refine ⟨fun x f => ?_, nofun, nofun, nofun, nofun, nofun, starts⟩
  rw [show x = .retireTimeout from f]
  exact .inl (by simp)

/-- A list of steps from which nothing follows, after one in order. -/
theorem inOrder_append (P : Due → Prop) (ds es : List Due) (h : InOrder P ds) (still : ∀ d ∈ es, ∀ x, ¬ follows d x) :
    InOrder P (ds ++ es) := by
  induction ds with
  | nil => exact inOrder_of P es fun d m x f => absurd f (still d m x)
  | cons d rest ih =>
    exact ⟨fun x f => (h.1 x f).imp_left fun m => List.mem_append_left es m, ih h.2⟩

theorem boundaryDues_inOrder (P : Due → Prop) : InOrder P boundaryDues := by
  refine inOrder_append P _ _ (stationDues_inOrder P) fun d m x f => ?_
  simp only [subscriptionDues, List.mem_append, List.mem_map] at m
  rcases m with ⟨j, -, rfl⟩ | ⟨j, -, rfl⟩ <;> exact f

/-- Every step is one of the clock, of a slot tick, or of an epoch boundary. -/
theorem due_kinds (x : Due) :
    x ∈ clockDues ∨ (x = .slotTick ∨ TickDue x) ∨ (x = .epochBoundary ∨ BoundaryDue x) := by
  have tick (h : TickDue x) : x ∈ clockDues ∨ (x = .slotTick ∨ TickDue x) ∨ (x = .epochBoundary ∨ BoundaryDue x) :=
    .inr (.inl (.inr h))
  have boundary (h : BoundaryDue x) :
      x ∈ clockDues ∨ (x = .slotTick ∨ TickDue x) ∨ (x = .epochBoundary ∨ BoundaryDue x) := .inr (.inr (.inr h))
  have pair (g : Fin 2) : g = 0 ∨ g = 1 := by omega
  cases x with
  | compareFired k => exact tick (.inl ⟨k, rfl⟩)
  | engine e => exact tick (.inr (.inl ⟨e, rfl⟩))
  | holdEnd e => exact tick (.inr (.inr ⟨e, rfl⟩))
  | staleTimeout j => exact boundary (boundaryDue_stale j)
  | pullDeadline j => exact boundary (boundaryDue_pull j)
  | generatorStart g => exact boundary (boundaryDue_generator g)
  | listenComplete => exact boundary boundaryDue_listen
  | serviceLapsed => exact boundary boundaryDue_lapse
  | claimExpiry => exact boundary boundaryDue_claim
  | handoverComplete => exact boundary boundaryDue_complete
  | handoverTakeover => exact boundary boundaryDue_takeover
  | retireTimeout => exact boundary boundaryDue_timeout
  | slotTick => exact .inr (.inl (.inl rfl))
  | epochBoundary => exact .inr (.inr (.inl rfl))
  | generatorWrap g => rcases pair g with rfl | rfl <;> exact .inl (by simp [clockDues])
  | highTimeEnd g => rcases pair g with rfl | rfl <;> exact .inl (by simp [clockDues])
  | settleComplete => exact .inl (by simp [clockDues])
  | markerWordSent => exact .inl (by simp [clockDues])
  | holdOffExpiry => exact .inl (by simp [clockDues])
  | markerWindowEnd => exact .inl (by simp [clockDues])
  | acquisitionAbandoned => exact .inl (by simp [clockDues])
  | timebaseHoldover => exact .inl (by simp [clockDues])
  | acquisitionComplete => exact .inl (by simp [clockDues])
  | lockAchieved => exact .inl (by simp [clockDues])
  | recoveryComplete => exact .inl (by simp [clockDues])

/-- Everything due is taken, but for the steps of a boundary that the list does not name. -/
theorem settleBy_leaves (P : Due → Prop) (steps : List Due) (s : State) (order : ∀ Q, InOrder Q steps)
    (named : ∀ x, BoundaryDue x → x ∈ steps ∨ P x) : ∀ x ∈ (settleBy steps s).due, P x := by
  have clock := takeInOrder_leaves (fun x => (x = .slotTick ∨ TickDue x) ∨ (x = .epochBoundary ∨ BoundaryDue x))
    clockDues s (clockDues_inOrder _) fun x _ => due_kinds x
  have tickFirst (u : State) (all : ∀ x ∈ u.due, (x = .slotTick ∨ TickDue x) ∨ (x = .epochBoundary ∨ BoundaryDue x)) :
      ∀ x ∈ (takeEpochBoundary steps (takeSlotTick u)).due, P x := by
    refine takeEpochBoundary_leaves P steps _ (order _) named fun x h => ?_
    have := takeSlotTick_leaves (fun x => x = .epochBoundary ∨ BoundaryDue x) u
      (fun x h => (all x h).elim (fun t => t.elim .inl fun t => .inr (.inl t)) fun b => .inr (.inr b)) x h
    exact this.elim .inl fun b => .inr (.inl b)
  unfold settleBy
  dsimp only
  generalize takeInOrder clockDues s = u at clock
  split
  · split
    · exact tickFirst _ clock
    · refine takeSlotTick_leaves P _ fun x h => ?_
      have := takeEpochBoundary_leaves (fun x => (x = .slotTick ∨ TickDue x) ∨ P x) steps (drawFree u).2 (order _)
        (fun x b => (named x b).imp_right .inr) (fun x h => (clock x h).elim (fun t => .inr (.inr (.inl t)))
          fun b => b.elim .inl fun b => .inr (.inl b)) x h
      rcases this with (e | t) | p
      · exact .inl e
      · exact .inr (.inl t)
      · exact .inr (.inr p)
  · exact tickFirst u clock

/-- After the taking nothing is due (R3, R199). -/
theorem dueTaken_due (s : State) : (dueTaken s).due = [] := by
  unfold dueTaken
  split
  · assumption
  · refine List.eq_nil_iff_forall_not_mem.2 fun x h => ?_
    exact settleBy_leaves (fun _ => False) boundaryDues s (fun Q => boundaryDues_inOrder Q) (fun x b => .inl b) x h

/-- Before a received burst the subscriptions' tests alone may still be due (R139, R141). -/
theorem settleBy_stationDues (s : State) : ∀ x ∈ (settleBy stationDues s).due, x ∈ subscriptionDues :=
  settleBy_leaves (· ∈ subscriptionDues) stationDues s (fun Q => stationDues_inOrder Q) fun _ b => List.mem_append.1 b

end Sys2Proof.Machine
end

