-- ==== Sys2Proof/Proofs/KeepingRequests.lean ====
section
/-! PROOF. What the requests keep. -/

namespace Sys2Proof.Machine
open Sys2Proof.Claims

/-! ### Requests -/

/-- A reply keeps everything but what the request itself is about. -/
def Bears (s : State) (r : Reply) : Prop := Still s (r.effect s)

theorem bears_refused (s : State) (status : Status) : Bears s (.refused status) := .refl s

/-- The checks before the owning rule (R193). -/
theorem bears_checked (fits : List Byte → Bool) (act : List Byte → State → Reply) (body : List Byte) (s : State)
    (h : Bears s (act body s)) : Bears s (checked fits act body s) := by
  unfold checked
  split
  · exact bears_refused s .range
  · exact h

/-- A request to a publication. -/
theorem bears_withPub (body : List Byte) (s : State) (act : Fin 16 → Reply) (h : ∀ k, Bears s (act k)) :
    Bears s (withPub body s act) := by
  unfold withPub
  split
  · exact bears_refused s .range
  · split
    · exact bears_refused s .unused
    · exact h _

/-- A request to a subscription. -/
theorem bears_withSub (body : List Byte) (s : State) (act : Fin 32 → Reply) (h : ∀ j, Bears s (act j)) :
    Bears s (withSub body s act) := by
  unfold withSub
  split
  · exact bears_refused s .range
  · split
    · exact bears_refused s .unused
    · exact h _

/-- A request to a generator, whose values stay in their ranges. -/
theorem bears_withGen (body : List Byte) (s : State) (act : Generator → Generator) (ok : ∀ g, GenOk g → GenOk (act g)) :
    Bears s (withGen body s act) := by
  unfold withGen
  split
  · exact bears_refused s .range
  · exact still_updGen _ act s (ok _)

/-- A request to an engine. -/
theorem bears_withEngine (body : List Byte) (s : State) (ok : Bool) (act : Engine → Engine) :
    Bears s (withEngine body s ok act) := by
  unfold withEngine
  split
  · exact bears_refused s .range
  · split
    · exact (inert_updEngine _ act s).still
    · exact bears_refused s .range

theorem inert_applySetup (t : Settings) (v : Nat) (s : State) : Inert s (applySetup t v s) :=
  ⟨rfl, rfl, rfl, rfl, rfl, rfl, rfl, rfl, rfl, rfl, rfl, rfl⟩

theorem bears_setup (body : List Byte) (s : State) : Bears s (setupAct body s) := by
  unfold setupAct
  split
  · exact (inert_applySetup _ _ s).still
  · exact bears_refused s .state

theorem bears_join (body : List Byte) (s : State) : Bears s (joinAct body s) := by
  have racks (h : s.station.state = .offline ∨ s.station.state = .detached) :
      Bears s (if s.station.startFault then .refused .state else .taken [] (joinRack s)) := by
    split
    · exact bears_refused s .state
    · exact still_joinRack s h
  unfold joinAct
  cases h : s.station.state with
  | offline => exact racks (.inl h)
  | detached => exact racks (.inr h)
  | retiring => exact still_rejoin s h
  | isolated => exact bears_refused s .state
  | settling => exact bears_refused s .state
  | listen => exact bears_refused s .state
  | joined => exact bears_refused s .state
  | duplicate => exact bears_refused s .state
  | silenced => exact bears_refused s .state

theorem bears_retire (body : List Byte) (s : State) : Bears s (retireAct body s) := by
  have detaches : Bears s (.taken [] (changeStation .detached 8 s)) :=
    still_changeStation .detached 8 s (by simp [Moves])
  unfold retireAct
  cases h : s.station.state with
  | joined => exact still_beginRetirement s h
  | listen => exact detaches
  | settling => exact detaches
  | isolated => exact detaches
  | silenced => exact detaches
  | duplicate => exact detaches
  | retiring => exact bears_refused s .state
  | offline => exact bears_refused s .state
  | detached => exact bears_refused s .state

theorem inert_serve (s : State) : Inert s (serve s) := inert_updStation _ s rfl rfl

theorem still_unpublishEntry (k : Fin 16) (s : State) : Still s (unpublishEntry k s) :=
  (still_removeEntry _ s).trans ((inert_updPub k _ _).trans (inert_updPartial k _ _)).still

theorem bears_publish (body : List Byte) (s : State) : Bears s (publishAct body s) := by
  have published (k : Fin 16) (feed : Feed) (width : Width) (policy : EmitPolicy) :
      Still s (publishAt k feed width policy body s) := by
    unfold publishAt
    dsimp only
    refine .trans ?_ ((inert_updPub k _ _).trans (inert_updPartial k _ _)).still
    exact .ite (fun _ => .refl s) fun _ => still_unpublishEntry k s
  unfold publishAct
  split
  · split
    · exact bears_refused s .busy
    · exact published _ _ _ _
  · exact bears_refused s .range

theorem bears_release (body : List Byte) (s : State) : Bears s (releaseAct body s) := by
  refine bears_withPub body s _ fun k => ?_
  have active : Still s (updPub k (fun p => { p with state := .active }) s) := (inert_updPub k _ s).still
  exact .ite (fun _ => .ite (fun _ => active.trans (still_servePull k _)) fun _ => active) fun _ => .refl s

theorem bears_fill (body : List Byte) (s : State) : Bears s (fillAct body s) := by
  refine bears_withPub body s _ fun k => ?_
  have opened : Inert s (openFill k body s) := .ite (fun _ => .refl s) fun _ => inert_updPub k _ s
  split
  · exact bears_refused s .state
  · split
    · exact bears_refused s .busy
    · refine (opened.trans ?_).still
      exact (inert_store _ _).trans (inert_updPub k _ _)

theorem inert_discardHigh (k : Fin 16) (s : State) : Inert s (discardHigh k s) :=
  .ite (fun _ => (inert_updPartial k _ s).trans (inert_updPub k _ _)) fun _ => .refl s

theorem bears_commit (body : List Byte) (s : State) : Bears s (commitAct body s) := by
  refine bears_withPub body s _ fun k => ?_
  split
  · exact bears_refused s .busy
  · split
    · exact bears_refused s .empty
    · exact (inert_discardHigh k s).still.trans (still_askCommit k _)

theorem bears_readPublication (body : List Byte) (s : State) : Bears s (readPublicationAct body s) := by
  unfold readPublicationAct
  split
  · exact bears_refused s .range
  · exact .refl s

theorem bears_subscribe (body : List Byte) (s : State) : Bears s (subscribeAct body s) := by
  unfold subscribeAct
  split
  · split
    · exact bears_refused s .exists_
    · split
      · exact bears_refused s .full
      · exact (inert_updSub _ _ s).still
  · exact bears_refused s .range

theorem bears_unsubscribe (body : List Byte) (s : State) : Bears s (unsubscribeAct body s) :=
  bears_withSub body s _ fun j => (still_removeEntry _ s).trans (inert_updSub j _ _).still

theorem bears_take (body : List Byte) (s : State) : Bears s (takeAct body s) := by
  refine bears_withSub body s _ fun j => ?_
  cases s.subs[j].ring with
  | nil => exact bears_refused s .empty
  | cons e rest => exact (inert_updSub j _ s).still

theorem bears_pull (body : List Byte) (s : State) : Bears s (pullAct body s) := by
  refine bears_withSub body s _ fun j => ?_
  split
  · exact (still_enqueue _ s).trans (inert_updSub j _ _).still
  · exact bears_refused s .state

theorem bears_readSubscription (body : List Byte) (s : State) : Bears s (readSubscriptionAct body s) := by
  unfold readSubscriptionAct
  split
  · exact bears_refused s .range
  · exact .refl s

theorem inert_schedule (m : List (Nat × SchedEntry)) (s : State) : Inert s { s with schedule := m } :=
  ⟨rfl, rfl, rfl, rfl, rfl, rfl, rfl, rfl, rfl, rfl, rfl, rfl⟩

theorem bears_loadList (body : List Byte) (s : State) : Bears s (loadListAct body s) := by
  unfold loadListAct
  dsimp only
  split
  · exact bears_refused s .range
  · split
    · exact bears_refused s .range
    · exact (inert_schedule _ s).still

/-- Staged values are limited to their ranges (R165). -/
theorem genOk_stageClock (period high : Nat) (g : Generator) (h : GenOk g) : GenOk (stageClock period high g) := by
  obtain ⟨-, -, -, -, running⟩ := h
  have stagedPeriod : (stageClock period high g).stagedPeriod = max 2 (min 65536 period) := limitNat_eq _ _ _ (by decide)
  have stagedHigh : (stageClock period high g).stagedHigh = max 1 (min 65535 high) := limitNat_eq _ _ _ (by decide)
  exact ⟨by omega, by omega, by omega, by omega, running⟩

/-- A generator that does not run has only its staged values. -/
theorem genOk_stopped (x g : Generator) (h : GenOk g) (period : x.stagedPeriod = g.stagedPeriod)
    (high : x.stagedHigh = g.stagedHigh) (stopped : x.state ≠ .running) : GenOk x := by
  obtain ⟨a, b, c, d, -⟩ := h
  exact ⟨period ▸ a, period ▸ b, high ▸ c, high ▸ d, fun e => absurd e stopped⟩

theorem bears_compareSet (body : List Byte) (s : State) : Bears s (compareSetAct body s) := by
  unfold compareSetAct
  split
  · exact (inert_updCompare _ _ s).still
  · exact bears_refused s .range

theorem bears_compareCancel (body : List Byte) (s : State) : Bears s (compareCancelAct body s) := by
  unfold compareCancelAct
  split
  · exact bears_refused s .range
  · exact (inert_updCompare _ _ s).still

theorem bears_monitorSet (body : List Byte) (s : State) : Bears s (monitorSetAct body s) := by
  unfold monitorSetAct
  split
  · exact (inert_updMonitor _ s).still
  · exact bears_refused s .range

theorem bears_monitorRead (body : List Byte) (s : State) : Bears s (monitorReadAct body s) :=
  .ite (fun _ => (inert_updMonitor _ s).still) fun _ => .refl s

theorem inert_setMark (subject : Subject) (value : Bool) (s : State) : Inert s (setMark subject value s) := by
  cases subject with
  | none => exact .refl s
  | peer a =>
    unfold setMark
    dsimp only
    split
    · exact inert_updPeer _ _ s
    · exact .refl s
  | publication k => exact inert_updPub k _ s
  | subscription j => exact inert_updSub j _ s

theorem bears_mark (body : List Byte) (s : State) : Bears s (markAct body s) := by
  unfold markAct
  split
  · exact bears_refused s .range
  · exact (inert_setMark _ _ s).still

theorem bears_readRoster (body : List Byte) (s : State) : Bears s (readRosterAct body s) := by
  unfold readRosterAct
  dsimp only
  split
  · exact .refl s
  · split
    · exact bears_refused s .range
    · split
      · exact .refl s
      · exact bears_refused s .range

/-- The port changes, but for the held requests. -/
theorem inert_port (p : HostPort) (s : State) (held : p.held = s.port.held) : Inert s { s with port := p } :=
  ⟨rfl, rfl, rfl, rfl, rfl, rfl, rfl, rfl, rfl, rfl, rfl, held⟩

theorem bears_readEvents (body : List Byte) (s : State) : Bears s (readEventsAct body s) := by
  unfold readEventsAct
  dsimp only
  split
  · exact (inert_port (removeEvents _ s.port) s rfl).still
  · exact bears_refused s .range

/-- What a request that is handled keeps (R193). -/
theorem bears_replyOf (i : Instr) (s : State) : Bears s (replyOf i s) := by
  cases i with
  | setup b => exact bears_checked _ _ b s (bears_setup b s)
  | join b => exact bears_checked _ _ b s (bears_join b s)
  | retire b => exact bears_checked _ _ b s (bears_retire b s)
  | restart b => exact bears_checked _ _ b s (still_restart s)
  | service b => exact bears_checked _ _ b s (inert_serve s).still
  | status b => exact bears_checked _ _ b s (Goes.refl s)
  | publish b => exact bears_checked _ _ b s (bears_publish b s)
  | unpublish b => exact bears_checked _ _ b s (bears_withPub b s _ fun k => still_unpublishEntry k s)
  | hold b => exact bears_checked _ _ b s (bears_withPub b s _ fun k => (inert_updPub k _ s).still)
  | release b => exact bears_checked _ _ b s (bears_release b s)
  | fill b => exact bears_checked (fun b => decide (8 ≤ b.length ∧ b.length ≤ 1536)) _ b s (bears_fill b s)
  | commit b => exact bears_checked _ _ b s (bears_commit b s)
  | readPublication b => exact bears_checked _ _ b s (bears_readPublication b s)
  | subscribe b => exact bears_checked _ _ b s (bears_subscribe b s)
  | unsubscribe b => exact bears_checked _ _ b s (bears_unsubscribe b s)
  | take b => exact bears_checked _ _ b s (bears_take b s)
  | pull b => exact bears_checked _ _ b s (bears_pull b s)
  | readSubscription b => exact bears_checked _ _ b s (bears_readSubscription b s)
  | loadList b =>
    exact bears_checked (fun b => decide (2 ≤ b.length ∧ (b.length - 2) % 3 = 0 ∧ b.length ≤ 770)) _ b s (bears_loadList b s)
  | engineStart b => exact bears_checked _ _ b s (bears_withEngine b s _ _)
  | engineStop b => exact bears_checked _ _ b s (bears_withEngine b s _ _)
  | enginePoint b => exact bears_checked _ _ b s (bears_withEngine b s _ _)
  | enginePrescale b => exact bears_checked _ _ b s (bears_withEngine b s _ _)
  | clockSet b => exact bears_checked _ _ b s (bears_withGen b s _ (genOk_stageClock _ _))
  | clockArm b => exact bears_checked _ _ b s (bears_withGen b s _ fun g h => genOk_stopped _ g h rfl rfl nofun)
  | clockOff b => exact bears_checked _ _ b s (bears_withGen b s _ fun g h => genOk_stopped _ g h rfl rfl nofun)
  | compareSet b => exact bears_checked _ _ b s (bears_compareSet b s)
  | compareCancel b => exact bears_checked _ _ b s (bears_compareCancel b s)
  | monitorSet b => exact bears_checked _ _ b s (bears_monitorSet b s)
  | monitorRead b => exact bears_checked _ _ b s (bears_monitorRead b s)
  | mark b => exact bears_checked _ _ b s (bears_mark b s)
  | readRoster b => exact bears_checked _ _ b s (bears_readRoster b s)
  | readTimebase b => exact bears_checked _ _ b s (Goes.refl s)
  | readEvents b => exact bears_checked _ _ b s (bears_readEvents b s)
  | _ => exact bears_refused s .unknown

end Sys2Proof.Machine
end

