-- ==== Sys2Proof/Proofs/KeepingSteps.lean ====
section
/-! PROOF. Every command keeps the ranges of the rates and the generators, the queue, the membership and the score. -/

namespace Sys2Proof.Machine
open Sys2Proof.Claims

/-! ### Responses and the held requests -/

theorem inert_setTransaction (t : Transaction) (s : State) : Inert s (setTransaction t s) :=
  inert_port { s.port with transaction := t } s rfl

theorem still_answer (s : State) (r : Reply) (h : Bears s r) : Still s (answer s r) := by
  obtain ⟨t, e⟩ := answer_effect s r
  rw [e]
  exact h.trans (inert_setTransaction t _).still

/-- The ring write of a block that waits: a recovery that it completes is taken with it (R83, R103). -/
theorem still_placeWaiting (s : State) : Still s (placeWaiting s) := by
  refine .ite (fun _ => ?_) fun _ => .refl s
  have handed := goes_handWaiting s
  have taken := handed.keeps.trans (goes_takeDue .recoveryComplete (handWaiting s)).keeps
  refine ⟨taken.rates, taken.clocks, taken.members, fun x h => ?_, taken.held⟩
  rcases mem_takeDue _ x _ h with ⟨was, ne⟩ | f
  · exact (handed.due x was).imp_right ne
  · exact .inr f

theorem still_grantStore (i : Instr) (s : State) : Still s (grantStore i s) :=
  .ite (fun _ => (still_placeWaiting s).trans (still_drainWaiting _)) fun _ => .refl s

theorem still_handleOne (i : Instr) (s : State) : Still s (handleOne i s) :=
  (still_grantStore i s).trans (still_answer _ _ (bears_replyOf i _))

theorem still_handleLeft (i : Instr) (s : State) : Still s (handleLeft i s) :=
  (still_grantStore i s).trans (bears_replyOf i _)

theorem still_handleAll (is : List Instr) (s : State) : Still s (handleAll is s) := by
  induction is generalizing s with
  | nil => exact .refl s
  | cons i rest ih =>
    cases rest with
    | nil => exact still_handleOne i s
    | cons j rest => exact (still_handleLeft i s).trans (ih _)

theorem still_handleNow (i : Instr) (s : State) : Still s (handleNow i s) := by
  refine .trans ?_ (still_answer _ _ (bears_replyOf i _))
  exact (still_grantStore i s).trans (inert_setTransaction _ _).still

/-! ### What every command keeps -/

/-- The ranges of the rates and of the generators last, and the queue, the membership and the score. -/
structure Lasts (s t : State) : Prop where
  rates : RatesOk s.timebase → RatesOk t.timebase
  clocks : (∀ g : Fin 2, GenOk s.gens[g]) → ∀ g : Fin 2, GenOk t.gens[g]
  members : Members s → Members t

theorem Goes.lasts {D : Due → Prop} {s t : State} (h : Goes D s t) : Lasts s t := ⟨h.rates, h.clocks, h.members⟩

theorem Lasts.refl (s : State) : Lasts s s := ⟨id, id, id⟩

theorem Lasts.trans {s t u : State} (h : Lasts s t) (g : Lasts t u) : Lasts s u :=
  ⟨g.rates ∘ h.rates, g.clocks ∘ h.clocks, g.members ∘ h.members⟩

/-- Both sides of a choice. -/
theorem Lasts.ite {p : Prop} [Decidable p] {s t u : State} (a : p → Lasts s t) (b : ¬ p → Lasts s u) :
    Lasts s (if p then t else u) := by
  split
  · exact a ‹_›
  · exact b ‹_›

/-- The held requests change alone. -/
theorem lasts_held (is : List Instr) (s : State) : Lasts s { s with port := { s.port with held := is } } :=
  ⟨id, id, fun m => ⟨m.distinct, m.ordered, m.retiring, m.only, m.score⟩⟩

theorem lasts_serveHeld (s : State) : Lasts s (serveHeld s) :=
  .ite (fun _ => .refl s) fun _ => (lasts_held [] s).trans (still_handleAll _ _).lasts

/-- Nothing falls due as the held requests are served. -/
theorem serveHeld_due (s : State) : ∀ x ∈ (serveHeld s).due, x ∈ s.due := by
  unfold serveHeld
  split
  · exact fun _ => id
  · exact fun x h => ((still_handleAll _ _).due x h).elim id False.elim

/-- After it no request is held, or the block store is busy. -/
theorem serveHeld_served (s : State) : (serveHeld s).port.held = [] ∨ storeBusy (serveHeld s) = true := by
  unfold serveHeld
  split
  · assumption
  · exact .inl (still_handleAll _ _).held

theorem lasts_settled (s : State) : Lasts s (settled s) := (keeps_dueTaken s).lasts.trans (lasts_serveHeld _)

theorem lasts_settledForBurst (s : State) : Lasts s (settledForBurst s) := by
  refine .trans (t := if s.due = [] then s else settleBy stationDues s) ?_ (lasts_serveHeld _)
  exact .ite (fun _ => .refl s) fun _ => (keeps_settleBy _ s).lasts

/-! ### The local clock -/

theorem inert_advanceRack (k : Nat) (s : State) : Inert s (updTimebase (advanceRack k) s) :=
  inert_updTimebase _ s rfl rfl rfl rfl

theorem inert_countPeriods (k : Nat) (s : State) : Inert s (countPeriods k s) := by
  unfold countPeriods
  dsimp only
  refine .trans ?_ (inert_updSelector _ _ rfl)
  exact .ite (fun _ => inert_updStation _ s rfl rfl) fun _ => .refl s

theorem keeps_clockGenerator (s : State) (g : Fin 2) : Keeps s (clockGenerator s g) := by
  unfold clockGenerator
  dsimp only
  refine .ite (fun _ => .ite (fun _ => goes_mark _ s trivial) fun _ => .ite (fun _ => ?_) fun _ => ?_) fun _ => .refl s
  · exact (still_updGen g _ s id).keeps
  · exact goes_markIf _ _ s trivial

theorem keeps_clockPeriod (s : State) : Keeps s (clockPeriod s) := by
  have may (c : Bool) (d : Due) (t : State) : Keeps t (markIf c d t) := goes_markIf c d t trivial
  unfold clockPeriod
  dsimp only
  refine .trans ?_ (may _ _ _)
  refine .trans ?_ (may _ _ _)
  refine .trans ?_ (may _ _ _)
  refine .trans ?_ (.foldl clockGenerator keeps_clockGenerator _ _)
  refine .trans ?_ (may _ _ _)
  refine .trans ?_ (may _ _ _)
  refine .trans ?_ (may _ _ _)
  exact ((inert_advanceRack 1 s).trans (inert_countPeriods 1 _)).goes

theorem lasts_idle (s : State) : Lasts s (idle s) := (lasts_settled s).trans (keeps_clockPeriod _).lasts

theorem inert_skipQuiet (s : State) : Inert s (skipQuiet s) :=
  (inert_advanceRack _ s).trans (inert_countPeriods _ _)

theorem lasts_runUntil (d : Due) (comes : State → Bool) (fuel : Nat) (s : State) :
    Lasts s (runUntil d comes fuel s) := by
  induction fuel generalizing s with
  | zero => exact .refl s
  | succ fuel ih =>
    have settles := lasts_settled s
    have passes (t : State) : Lasts t (clockPeriod (skipQuiet t)) :=
      (inert_skipQuiet t).still.lasts.trans (keeps_clockPeriod _).lasts
    unfold runUntil
    refine .ite (fun _ => .ite (fun _ => ?_) fun _ => ?_) fun _ => settles
    · exact settles.trans (passes _)
    · exact (settles.trans (passes _)).trans (ih _)

/-! ### The rows -/

theorem lasts_takeDueBy (d : Due) (act : State → State) (keeps : ∀ t, Lasts t (act t)) (s : State) :
    Lasts s (takeDueBy d act s) :=
  .ite (fun _ => (still_clearDue d s).lasts.trans (keeps _)) fun _ => .refl s

theorem lasts_clockRow (d : Due) (comes : State → Bool) (fuel : Nat) (act : State → State)
    (keeps : ∀ t, Lasts t (act t)) (s : State) : Lasts s (clockRow d comes fuel act s) := by
  refine .trans (t := if d ∈ s.due then s else runUntil d comes fuel s) ?_ (lasts_takeDueBy d act keeps _)
  exact .ite (fun _ => .refl s) fun _ => lasts_runUntil d comes fuel s

theorem lasts_dueRow (d : Due) (is : State → Bool) (s : State) : Lasts s (dueRow d is s) :=
  .ite (fun _ => (goes_takeDue d s).lasts) fun _ => lasts_settled s

theorem lasts_outsideRow (act : State → State) (keeps : ∀ t, Lasts t (act t)) (s : State) :
    Lasts s (outsideRow act s) := (lasts_settled s).trans (keeps _)

theorem lasts_drainRow (s : State) : Lasts s (drainRow s) := by
  have taken := (keeps_dueTaken s).lasts
  unfold drainRow
  exact .ite (fun _ => taken.trans (lasts_serveHeld _)) fun _ =>
    taken.trans ((still_placeWaiting _).trans (still_drainOne _)).lasts

theorem lasts_holdRequest (i : Instr) (s : State) : Lasts s (holdRequest i s) :=
  (lasts_held _ s).trans (inert_setTransaction _ _).still.lasts

theorem lasts_takeRecord (i : Instr) (s : State) : Lasts s (takeRecord i s) := by
  have drawn : Lasts s (drawFree s).2 := (inert_drawFree s).still.lasts
  refine .ite (fun _ => .ite (fun _ => .ite (fun _ => ?_) fun _ => ?_) fun _ => ?_) fun _ => .ite (fun _ => ?_) fun _ => ?_
  · exact drawn.trans (still_handleNow i _).lasts
  · exact drawn.trans (lasts_holdRequest i _)
  · exact (still_handleNow i s).lasts
  · exact lasts_holdRequest i s
  · exact (inert_setTransaction _ s).still.lasts

theorem lasts_requestRow (i : Instr) (s : State) : Lasts s (requestRow i s) :=
  (lasts_settled s).trans (lasts_takeRecord i _)

theorem lasts_engineRow (e : Fin 4) (is : State → Bool) (s : State) : Lasts s (engineRow e is s) :=
  (keeps_takeFreely _ s).lasts.trans (lasts_dueRow _ _ _)

theorem lasts_subRow (d : Fin 32 → Due) (j : Fin 32) (s : State) : Lasts s (subRow d j s) :=
  .ite (fun _ => (keeps_takeInOrder _ s).lasts) fun _ => lasts_settled s

theorem lasts_handedBefore (settle : State → State) (settles : ∀ t, Lasts t (settle t)) (ends : Cable → Bool) (s : State) :
    Lasts s (handedBefore settle ends s) :=
  .ite (fun _ => (goes_handWaiting s).lasts.trans (settles _)) fun _ => .refl s

theorem lasts_receiveBurst (bytes : List Byte) (hand : HandOver) (s : State) :
    Lasts s (receiveBurst bytes hand s) := by
  have before := lasts_handedBefore settledForBurst lasts_settledForBurst (endsReceptionOf bytes) s
  cases hand with
  | atEnd => exact before.trans (goes_endBurst bytes false _).lasts
  | waits => exact before.trans (goes_endBurst bytes true _).lasts
  | later => exact (goes_takeLate bytes s).lasts

theorem lasts_receiveFailed (s : State) : Lasts s (receiveFailed s) := by
  have before := lasts_handedBefore settled lasts_settled (fun c => receives c.state) s
  exact .ite (fun _ => before.trans (still_takeFailed _).lasts) fun _ => before

theorem lasts_receiveAborted (s : State) : Lasts s (receiveAborted s) := by
  have before := lasts_handedBefore settled lasts_settled (fun c => receives c.state) s
  exact .ite (fun _ => before.trans (still_endReception _).lasts) fun _ => before

theorem inert_discardRecord (cause : DiscardCause) (s : State) : Inert s (discardRecord cause s) := by
  cases cause with
  | cut => exact inert_setTransaction _ s
  | third => exact .ite (fun _ => .refl s) fun _ => inert_setTransaction _ s

theorem inert_abandonResponse (sent : Nat) (s : State) : Inert s (abandonResponse sent s) := by
  unfold abandonResponse
  split
  · exact inert_setTransaction _ s
  · exact inert_setTransaction _ s
  · exact inert_setTransaction _ s
  · exact .refl s
  · exact .refl s

/-- Power-on reset puts the part into a state that has them all. -/
theorem lasts_powerOn (pins : Pins) (ssn : Bool) (s : State) :
    Lasts s { State.powerOn pins ssn with freeCount := s.freeCount, pending := s.pending } := by
  obtain ⟨-, -, -, -, -, rates, clocks, -, -, -, -, distinct, ordered, retiring, only, score⟩ :=
    powerOn_invariants pins ssn
  exact ⟨fun _ => rates, fun _ => clocks, fun _ => ⟨distinct, ordered, retiring, only, score⟩⟩

/-! ### Every command -/

section
variable {i : Instr} {s t : State}

/-- What a row leaves. -/
def Row (i : Instr) (s : State) : Prop := ∃ t, exec i s = .next t ∧ Lasts s t

theorem row_outside (act : State → State) (row : exec i s = .next (outsideRow act s)) (keeps : ∀ t, Lasts t (act t)) :
    Row i s := ⟨_, row, lasts_outsideRow act keeps s⟩

theorem row_due (d : Due) (is : State → Bool) (row : exec i s = .next (dueRow d is s)) : Row i s :=
  ⟨_, row, lasts_dueRow d is s⟩

theorem row_engine (e : Fin 4) (is : State → Bool) (row : exec i s = .next (engineRow e is s)) : Row i s :=
  ⟨_, row, lasts_engineRow e is s⟩

theorem row_clock (d : Due) (comes : State → Bool) (fuel : Nat) (act : State → State)
    (row : exec i s = .next (clockRow d comes fuel act s)) (keeps : ∀ t, Lasts t (act t)) : Row i s :=
  ⟨_, row, lasts_clockRow d comes fuel act keeps s⟩

theorem row_request (row : exec i s = .next (requestRow i s)) : Row i s := ⟨_, row, lasts_requestRow i s⟩
end

/-- Every command keeps them. -/
theorem exec_lasts (i : Instr) (s : State) : Row i s := by
  cases i with
  | powerOnReset pins ssn => exact ⟨_, rfl, lasts_powerOn pins ssn s⟩
  | slotTick => exact row_clock _ _ _ _ rfl fun t => (goes_slotWork t).lasts
  | epochBoundary first => exact row_clock _ _ _ _ rfl fun t => (goes_boundaryWork first t).lasts
  | markerWindowEnd => exact row_clock _ _ _ _ rfl fun t => (goes_endWindow t).lasts
  | holdOffExpiry => exact row_clock _ _ _ _ rfl fun t => (inert_expireHoldOff t).still.lasts
  | settleComplete => exact row_clock _ _ _ _ rfl fun t => (still_completeSettle t).lasts
  | generatorWrap g => exact row_clock _ _ _ _ rfl fun t => (still_takeWrap g t).lasts
  | highTimeEnd g => exact row_clock _ _ _ _ rfl fun t => (still_takeHighEnd g t).lasts
  | markerWordSent => exact row_clock _ _ _ _ rfl fun t => (inert_endMarkerWord t).still.lasts
  | acquisitionAbandoned => exact row_due _ _ rfl
  | timebaseHoldover => exact row_due _ _ rfl
  | acquisitionComplete => exact row_due _ _ rfl
  | lockAchieved => exact row_due _ _ rfl
  | claimExpiry => exact row_due _ _ rfl
  | handoverComplete => exact row_due _ _ rfl
  | handoverTakeover => exact row_due _ _ rfl
  | recoveryComplete => exact row_due _ _ rfl
  | listenComplete => exact row_due _ _ rfl
  | retireTimeout => exact ⟨_, rfl, (goes_takeDue _ s).lasts.trans (lasts_dueRow _ _ _)⟩
  | serviceLapsed => exact row_due _ _ rfl
  | holdEnd e => exact row_due _ _ rfl
  | generatorStart g => exact row_due _ _ rfl
  | compareFired k => exact row_due _ _ rfl
  | staleTimeout j => exact ⟨_, rfl, lasts_subRow _ j s⟩
  | pullDeadline j => exact ⟨_, rfl, lasts_subRow _ j s⟩
  | scheduleEmit e => exact row_engine e _ rfl
  | scheduleHold e => exact row_engine e _ rfl
  | scheduleRepeat e => exact row_engine e _ rfl
  | scheduleLoop e => exact row_engine e _ rfl
  | scheduleNotify e => exact row_engine e _ rfl
  | scheduleAlign e => exact row_engine e _ rfl
  | alignComplete e => exact row_engine e _ rfl
  | scheduleHalt e => exact row_engine e _ rfl
  | markerCapture => exact row_outside _ rfl fun t => (inert_captureEdge t).still.lasts
  | validMarker word => exact row_outside _ rfl fun t => (goes_markerComplete word t).lasts
  | markerNotReceived => exact row_outside _ rfl fun t => (inert_dropCapture t).still.lasts
  | refokChange level => exact row_outside _ rfl fun t => (inert_followRefok level t).still.lasts
  | markerClash cause => exact row_outside _ rfl fun t => (still_clash cause t).lasts
  | guardComplete => exact row_outside _ rfl fun t => (still_completeGuard t).lasts
  | guardRestart => exact row_outside _ rfl fun t => (still_restartGuard t).lasts
  | startBitSeen => exact row_outside _ rfl fun t => (still_seeStartBit t).lasts
  | claimStart => exact row_outside _ rfl fun t => (still_startClaim t).lasts
  | claimLost bit => exact row_outside _ rfl fun t => (goes_loseClaim bit t).lasts
  | burstStart => exact row_outside _ rfl fun t => (still_startBurst t).lasts
  | burstSent => exact row_outside _ rfl fun t => (still_finishBurst t).lasts
  | txFault => exact row_outside _ rfl fun t => (still_transmitFault t).lasts
  | abortPatternEnd => exact row_outside _ rfl fun t => (still_endAbort t).lasts
  | failedCheckReceived => exact row_outside _ rfl lasts_receiveFailed
  | abortedBurstReceived => exact row_outside _ rfl lasts_receiveAborted
  | senseRise => exact row_outside _ rfl fun t => (still_riseSense t).lasts
  | senseDrop => exact row_outside _ rfl fun t => (still_dropSense t).lasts
  | sampleStrobe tag word => exact row_outside _ rfl fun t => (inert_strobe _ word t).still.lasts
  | recordDiscarded cause => exact row_outside _ rfl fun t => (inert_discardRecord cause t).still.lasts
  | responseAbandoned sent => exact row_outside _ rfl fun t => (inert_abandonResponse sent t).still.lasts
  | goodBurstReceived bytes hand =>
    exact ⟨_, rfl, (lasts_settledForBurst s).trans (lasts_receiveBurst bytes hand _)⟩
  | drainSample => exact ⟨_, rfl, lasts_drainRow s⟩
  | unknownRequest kind body =>
    exact ⟨_, rfl, .ite (fun _ => lasts_settled s) fun _ => lasts_requestRow _ s⟩
  | _ => exact row_request rfl

/-- So does every step. -/
theorem step_lasts (s t : State) (h : step s = .next t) : Lasts s t := by
  unfold step at h
  split at h
  · cases h
    exact lasts_idle s
  · next c rest _ =>
    obtain ⟨u, e, lasts⟩ := exec_lasts c { s with pending := rest }
    cases e.symm.trans h
    have pop : Lasts s { s with pending := rest } :=
      (Inert.still ⟨rfl, rfl, rfl, rfl, rfl, rfl, rfl, rfl, rfl, rfl, rfl, rfl⟩ : Still s { s with pending := rest }).lasts
    exact pop.trans lasts

/-- Settles O41. -/
theorem ratesStayInRange : Obligations.RatesStayInRange := fun s t rates next => (step_lasts s t next).rates rates

/-- Settles O44. -/
theorem membershipAndQueueStaySound : Obligations.MembershipAndQueueStaySound := by
  intro s t distinct ordered retiring only score next
  obtain ⟨distinct, ordered, retiring, only, score⟩ :=
    (step_lasts s t next).members ⟨distinct, ordered, retiring, only, score⟩
  exact ⟨distinct, ordered, retiring, only, score⟩

end Sys2Proof.Machine
end

