-- ==== Sys2Proof/Proofs/Settled.lean ====
section
/-! PROOF. What commands find: everything due taken, and the held requests handled. -/

namespace Sys2Proof.Machine
open Sys2Proof.Claims

/-! ### What a command finds -/

/-- A settled state is quiet. -/
theorem quiet_settled (s : State) : quiet (settled s) = true := by
  have none : (settled s).due = [] := by
    refine List.eq_nil_iff_forall_not_mem.2 fun x h => ?_
    have := serveHeld_due (dueTaken s) x h
    rw [dueTaken_due] at this
    exact List.not_mem_nil this
  have served := serveHeld_served (dueTaken s)
  simp only [quiet, Bool.and_eq_true, Bool.or_eq_true, List.isEmpty_iff]
  exact ⟨none, served⟩

/-- Settling is done at once. -/
theorem settled_settled (s : State) : settled (settled s) = settled s := settled_quiet _ (quiet_settled s)

/-- A row that tells of something outside finds a settled state. -/
theorem outsideRow_settled (act : State → State) (s : State) : outsideRow act (settled s) = outsideRow act s := by
  unfold outsideRow
  rw [settled_settled]

/-- So does a request. -/
theorem requestRow_settled (i : Instr) (s : State) : requestRow i (settled s) = requestRow i s := by
  unfold requestRow
  rw [settled_settled]

/-- The row of a request. -/
theorem exec_requestRow (c : Instr) (s : State) (h : (requestBody c).isSome = true) :
    exec c s = .next (requestRow c s) := by
  cases c <;> cases h <;> rfl

/-- The rows of requests and those that tell of something outside find a settled state. -/
theorem exec_settled (c : Instr) (s : State) (h : fromOutside c = true ∨ (requestBody c).isSome = true) :
    exec c s = exec c (settled s) := by
  have outside (act : State → State) : Host.Outcome.next (φ := Fault) (ρ := Refusal) (outsideRow act s)
      = .next (outsideRow act (settled s)) := by rw [outsideRow_settled]
  rcases h with h | h
  · cases c with
    | unknownRequest kind body =>
      show Host.Outcome.next _ = Host.Outcome.next _
      rw [settled_settled, requestRow_settled]
    | markerCapture => exact outside _
    | validMarker word => exact outside _
    | markerNotReceived => exact outside _
    | refokChange level => exact outside _
    | markerClash cause => exact outside _
    | guardComplete => exact outside _
    | claimStart => exact outside _
    | claimLost bit => exact outside _
    | burstStart => exact outside _
    | burstSent => exact outside _
    | txFault => exact outside _
    | abortPatternEnd => exact outside _
    | failedCheckReceived => exact outside _
    | abortedBurstReceived => exact outside _
    | senseRise => exact outside _
    | senseDrop => exact outside _
    | sampleStrobe tag word => exact outside _
    | recordDiscarded cause => exact outside _
    | responseAbandoned sent => exact outside _
    | startBitSeen => exact outside _
    | guardRestart => exact outside _
    | _ => cases h
  · rw [exec_requestRow c s h, exec_requestRow c (settled s) h, requestRow_settled]

/-! ### What a received burst finds -/

/-- No step of these is due: nothing of them is taken. -/
theorem takeInOrder_none (ds : List Due) (s : State) (h : ∀ d ∈ ds, d ∉ s.due) : takeInOrder ds s = s := by
  induction ds with
  | nil => rfl
  | cons d rest ih =>
    show takeInOrder rest (takeDue d s) = s
    rw [takeDue, takeDueBy, if_neg (h d (.head _))]
    exact ih fun e m => h e (.tail _ m)

/-- In a free order neither. -/
theorem takeFreely_none (ds : List Due) (s : State) (h : ∀ d ∈ ds, d ∉ s.due) : takeFreely ds s = s := by
  have live : (ds.filter fun d => decide (d ∈ s.due)) = [] := by
    simpa [List.filter_eq_nil_iff] using h
  unfold takeFreely
  dsimp only
  rw [live]
  rfl

/-- With only tests of the subscriptions due, the other steps of a boundary bring nothing. -/
theorem settleBy_tests (s : State) (h : ∀ x ∈ s.due, x ∈ subscriptionDues) : settleBy stationDues s = s := by
  have test (d : Due) (m : d ∈ s.due) : (∃ j, d = .staleTimeout j) ∨ ∃ j, d = .pullDeadline j := by
    have := h d m
    simp only [subscriptionDues, List.mem_append, List.mem_map, List.mem_finRange, true_and] at this
    rcases this with ⟨j, e⟩ | ⟨j, e⟩
    · exact .inl ⟨j, e.symm⟩
    · exact .inr ⟨j, e.symm⟩
  have other (d : Due) (n : ∀ j, d ≠ .staleTimeout j ∧ d ≠ .pullDeadline j) : d ∉ s.due := fun m => by
    rcases test d m with ⟨j, e⟩ | ⟨j, e⟩
    · exact (n j).1 e
    · exact (n j).2 e
  have none (ds : List Due) (n : ∀ d ∈ ds, ∀ j, d ≠ .staleTimeout j ∧ d ≠ .pullDeadline j) : ∀ d ∈ ds, d ∉ s.due :=
    fun d m => other d (n d m)
  have clock : takeInOrder clockDues s = s := takeInOrder_none _ s (none _ (by simp [clockDues]))
  have compares : takeCompares s = s := takeFreely_none _ s (none _ (by simp))
  have engines : takeFreely ((List.finRange 4).map .engine ++ (List.finRange 4).map .holdEnd) s = s :=
    takeFreely_none _ s (none _ (by
      intro d m j
      simp only [List.mem_append, List.mem_map] at m
      rcases m with ⟨e, -, rfl⟩ | ⟨e, -, rfl⟩ <;> exact ⟨nofun, nofun⟩))
  have tick : Due.slotTick ∉ s.due := other _ fun _ => ⟨nofun, nofun⟩
  have boundary : Due.epochBoundary ∉ s.due := other _ fun _ => ⟨nofun, nofun⟩
  have station : takeInOrder stationDues s = s := takeInOrder_none _ s (none _ (by
    intro d m j
    simp only [stationDues, List.mem_append, List.mem_map, List.mem_cons, List.not_mem_nil, or_false] at m
    rcases m with (rfl | rfl | rfl | rfl | rfl | rfl) | ⟨g, -, rfl⟩ <;> exact ⟨nofun, nofun⟩))
  have ticks : takeSlotTick s = s := by
    unfold takeSlotTick takeDue takeDueBy
    rw [if_neg tick, compares]
    exact engines
  unfold settleBy takeEpochBoundary takeDue takeDueBy
  dsimp only
  rw [clock, if_neg (fun h => tick h.1), ticks, if_neg boundary]
  exact station

/-- Before a received burst only tests of the subscriptions are left due. -/
theorem settledForBurst_due (s : State) : ∀ x ∈ (settledForBurst s).due, x ∈ subscriptionDues := by
  intro x h
  have := serveHeld_due _ x h
  split at this
  · next none => rw [none] at this; exact absurd this List.not_mem_nil
  · exact settleBy_stationDues s x this

/-- Settling for a burst is done at once. -/
theorem settledForBurst_again (s : State) : settledForBurst (settledForBurst s) = settledForBurst s := by
  have due := settledForBurst_due s
  have served : serveHeld (settledForBurst s) = settledForBurst s :=
    if_pos (serveHeld_served (if s.due = [] then s else settleBy stationDues s))
  generalize settledForBurst s = u at due served
  unfold settledForBurst
  rw [settleBy_tests u due, ite_self]
  exact served

/-! ### The rows of steps that are not due -/

/-- In a quiet state no step is due. -/
theorem quiet_not_due {s : State} (q : quiet s = true) (d : Due) : d ∉ s.due := by
  rw [due_of_quiet q]
  exact List.not_mem_nil

/-- A row of a step that is not due has no effect. -/
theorem dueRow_quiet (d : Due) (is : State → Bool) (s : State) (q : quiet s = true) : dueRow d is s = s := by
  unfold dueRow
  rw [if_neg fun h => quiet_not_due q d h.1, settled_quiet s q]

/-- Nor has one of a subscription's test. -/
theorem subRow_quiet (d : Fin 32 → Due) (j : Fin 32) (s : State) (q : quiet s = true) : subRow d j s = s := by
  unfold subRow
  rw [if_neg (quiet_not_due q _), settled_quiet s q]

/-- Nor has one of an engine's act. -/
theorem engineRow_quiet (e : Fin 4) (is : State → Bool) (s : State) (q : quiet s = true) : engineRow e is s = s := by
  have compares : takeCompares s = s := takeFreely_none _ s fun d _ => quiet_not_due q d
  unfold engineRow
  rw [compares, dueRow_quiet _ is s q]

/-- The row of a step that follows from another does nothing in a quiet state. -/
theorem following_quiet (c : Instr) (s : State) (d : Due) (h : followingStep c = some d) (q : quiet s = true) :
    exec c s = .next s := by
  have due (d : Due) : Host.Outcome.next (φ := Fault) (ρ := Refusal) (dueRow d (fun _ => true) s) = .next s := by
    rw [dueRow_quiet d _ s q]
  have engine (e : Fin 4) (is : State → Bool) :
      Host.Outcome.next (φ := Fault) (ρ := Refusal) (engineRow e is s) = .next s := by rw [engineRow_quiet e is s q]
  have test (d : Fin 32 → Due) (j : Fin 32) :
      Host.Outcome.next (φ := Fault) (ρ := Refusal) (subRow d j s) = .next s := by rw [subRow_quiet d j s q]
  cases c with
  | acquisitionAbandoned => exact due _
  | timebaseHoldover => exact due _
  | acquisitionComplete => exact due _
  | lockAchieved => exact due _
  | claimExpiry => exact due _
  | handoverComplete => exact due _
  | handoverTakeover => exact due _
  | recoveryComplete => exact due _
  | listenComplete => exact due _
  | retireTimeout =>
    have none : takeDue .handoverComplete s = s := if_neg (quiet_not_due q _)
    show Host.Outcome.next (dueRow _ _ (takeDue .handoverComplete s)) = _
    rw [none]
    exact due _
  | serviceLapsed => exact due _
  | holdEnd e => exact due _
  | generatorStart g => exact due _
  | compareFired k => exact due _
  | staleTimeout j => exact test _ j
  | pullDeadline j => exact test _ j
  | scheduleEmit e => exact engine e _
  | scheduleHold e => exact engine e _
  | scheduleRepeat e => exact engine e _
  | scheduleLoop e => exact engine e _
  | scheduleNotify e => exact engine e _
  | scheduleAlign e => exact engine e _
  | alignComplete e => exact engine e _
  | scheduleHalt e => exact engine e _
  | _ => cases h

/-- Settles O4. -/
theorem commandsFirstTakeWhatIsDue : Obligations.CommandsFirstTakeWhatIsDue := by
  refine ⟨quiet_settled, exec_settled, fun bytes hand s => ⟨?_, fun d m => ?_⟩, fun s => ⟨dueTaken_due s, ?_, ?_⟩,
    following_quiet⟩
  · show Host.Outcome.next (receiveBurst bytes hand (settledForBurst s)) = .next (receiveBurst bytes hand _)
    rw [settledForBurst_again]
  · have test := settledForBurst_due s d m
    simp only [subscriptionDues, List.mem_append, List.mem_map, List.mem_finRange, true_and] at test
    rcases test with ⟨j, e⟩ | ⟨j, e⟩
    · exact ⟨j, .inl e.symm⟩
    · exact ⟨j, .inr e.symm⟩
  · show Host.Outcome.next (drainRow s) = .next (drainRow (dueTaken s))
    unfold drainRow
    rw [dueTaken_none _ (dueTaken_due s)]
  · unfold settled
    rw [dueTaken_none _ (dueTaken_due s)]

end Sys2Proof.Machine
end

