-- ==== Sys2Proof/Proofs/QuietPeriods.lean ====
section
/-! PROOF. Local clock periods that bring nothing due pass at once. -/

namespace Sys2Proof.Machine
open Sys2Proof.Claims

/-! ### Rack time over several periods -/

/-- Rack time set to what it is. -/
theorem setRack_self (t : Timebase) : setRack (rackTotal t) t = t := by
  have ticks : BitVec.ofInt 64 ((rackTotal t : Int) / 4294967296) = t.ticks := by
    apply BitVec.eq_of_toNat_eq
    rw [BitVec.toNat_ofInt]
    unfold rackTotal
    omega
  have frac : BitVec.ofInt 32 (rackTotal t : Int) = t.frac := by
    apply BitVec.eq_of_toNat_eq
    rw [BitVec.toNat_ofInt]
    unfold rackTotal
    omega
  rw [setRack, ticks, frac]

/-- Rack time is kept modulo 2^96 (R1). -/
theorem setRack_mod (x y : Int) (t : Timebase) : setRack (x % 2 ^ 96 + y) t = setRack (x + y) t := by
  have ticks : BitVec.ofInt 64 ((x % 2 ^ 96 + y) / 4294967296) = BitVec.ofInt 64 ((x + y) / 4294967296) := by
    apply BitVec.eq_of_toNat_eq
    rw [BitVec.toNat_ofInt, BitVec.toNat_ofInt]
    omega
  have frac : BitVec.ofInt 32 (x % 2 ^ 96 + y) = BitVec.ofInt 32 (x + y) := by
    apply BitVec.eq_of_toNat_eq
    rw [BitVec.toNat_ofInt, BitVec.toNat_ofInt]
    omega
  rw [setRack, setRack, ticks, frac]

theorem advanceRack_zero (t : Timebase) : advanceRack 0 t = t := by
  have none : (rackTotal t : Int) + ((0 : Nat) : Int) * periodAdvance t = rackTotal t := by simp
  rw [advanceRack, none, setRack_self]

/-- One period more. -/
theorem advanceRack_succ (k : Nat) (t : Timebase) : advanceRack 1 (advanceRack k t) = advanceRack (k + 1) t := by
  have again (x : Int) (u : Timebase) : setRack x (advanceRack k u) = setRack x u := rfl
  have sum : (rackTotal t : Int) + k * (4294967296 + t.rate) + ((1 : Nat) : Int) * periodAdvance (advanceRack k t)
      = rackTotal t + ((k + 1 : Nat) : Int) * periodAdvance t := by
    show _ + ((1 : Nat) : Int) * (4294967296 + t.rate) = _ + _ * (4294967296 + t.rate)
    push_cast
    ring
  rw [advanceRack, rackTotal_advance, setRack_mod, sum, again]
  rfl

/-- How many whole ticks rack time moves in `k` periods. -/
def ahead (k : Nat) (t : Timebase) : Int := ((t.frac.toNat : Int) + k * periodAdvance t) / 4294967296

/-- In the periods before a distance is reached rack time stays short of it. -/
theorem ahead_lt (k : Nat) (t : Timebase) (distance : Int) (h : k ≤ periodsBefore t distance)
    (some : 0 < k ∨ 0 < distance) : 0 ≤ ahead k t ∧ ahead k t < distance := by
  have frac := t.frac.isLt
  unfold periodsBefore at h
  dsimp only at h
  unfold ahead
  split at h
  · have none : k = 0 := by omega
    subst none
    have far := some.resolve_left (lt_irrefl 0)
    rw [Nat.cast_zero, zero_mul, add_zero]
    omega
  · next apart =>
    rw [not_or, not_le, not_le] at apart
    obtain ⟨need, per⟩ := apart
    have most : (k : Int) * periodAdvance t ≤ distance * 4294967296 - t.frac.toNat - 1 := by
      have fits : (k : Int) ≤ (distance * 4294967296 - t.frac.toNat - 1) / periodAdvance t := by
        have := Int.ediv_nonneg (a := distance * 4294967296 - t.frac.toNat - 1) (by omega) per.le
        omega
      calc (k : Int) * periodAdvance t
          ≤ (distance * 4294967296 - t.frac.toNat - 1) / periodAdvance t * periodAdvance t :=
            Int.mul_le_mul_of_nonneg_right fits per.le
        _ ≤ _ := Int.ediv_mul_le _ per.ne'
    have least : 0 ≤ (k : Int) * periodAdvance t := Int.mul_nonneg (Int.natCast_nonneg k) per.le
    generalize (k : Int) * periodAdvance t = moved at *
    omega

/-- The ticks to the next slot boundary. -/
def slotLeft (t : Timebase) : Int := 2048 - (t.ticks.toNat % 2048 : Nat)

/-- Within a slot rack time moves on without wrapping. -/
theorem ticks_advance (k : Nat) (t : Timebase) (h : k ≤ periodsBefore t (slotLeft t)) :
    ((advanceRack k t).ticks.toNat : Int) = t.ticks.toNat + ahead k t
      ∧ 0 ≤ ahead k t ∧ ahead k t < slotLeft t := by
  have short := ahead_lt k t (slotLeft t) h (.inr (by unfold slotLeft; omega))
  refine ⟨?_, short⟩
  have bound := t.ticks.isLt
  show ((BitVec.ofInt 64 (((rackTotal t : Int) + k * periodAdvance t) / 4294967296)).toNat : Int) = _
  rw [BitVec.toNat_ofInt]
  unfold ahead slotLeft rackTotal at *
  generalize (k : Int) * periodAdvance t = moved at *
  push_cast
  omega

/-! ### Periods in which nothing falls due -/

/-- The lesser of two counts, of which the second may be absent. -/
theorem le_minWith {k n : Nat} {m : Option Nat} (h : k ≤ minWith n m) : k ≤ n ∧ ∀ x, m = some x → k ≤ x := by
  cases m with
  | none => exact ⟨h, nofun⟩
  | some m =>
    have both : k ≤ min n m := h
    exact ⟨by omega, fun x e => by cases e; omega⟩

/-- What the quiet periods do not reach. -/
structure Before (k : Nat) (s : State) : Prop where
  slot : k ≤ periodsBefore s.timebase (slotLeft s.timebase)
  gens : ∀ (g : Fin 2) (x : Nat), quietGenerator s.timebase s.gens[g] = some x → k ≤ x
  hold : s.cable.holdOff = true → k ≤ if holdOffReached s then 0 else
    periodsBefore s.timebase (s.cable.holdOffDeadline - ticks48 s.timebase).toNat
  settle : s.station.state = .settling ∧ s.pins.sense = true → k ≤ 4095 - s.station.settle
  word : ∀ w, s.selector.driving = some w → k ≤ w.left - 1

theorem before_of_quiet {k : Nat} {s : State} (h : k ≤ quietPeriods s) : Before k s := by
  unfold quietPeriods at h
  dsimp only at h
  obtain ⟨h, word⟩ := le_minWith h
  obtain ⟨h, settle⟩ := le_minWith h
  obtain ⟨h, hold⟩ := le_minWith h
  obtain ⟨h, one⟩ := le_minWith h
  obtain ⟨slot, zero⟩ := le_minWith h
  refine ⟨slot, fun g => ?_, fun on => ?_, fun counts => ?_, fun w e => ?_⟩
  · have : g = 0 ∨ g = 1 := by omega
    rcases this with rfl | rfl
    · exact zero
    · exact one
  · exact hold _ (by rw [if_pos on])
  · exact settle _ (by rw [if_pos counts])
  · exact word _ (by rw [e]; rfl)

/-- One period more. -/
theorem clocked_succ (k : Nat) (s : State) : clocked 1 (clocked k s) = clocked (k + 1) s := by
  have timebase := advanceRack_succ k s.timebase
  simp only [clocked, countPeriods_eq, updTimebase]
  rw [timebase]
  have settle : (if s.station.state = .settling ∧ s.pins.sense = true then min 4096
        ((if s.station.state = .settling ∧ s.pins.sense = true then min 4096 (s.station.settle + k)
          else s.station.settle) + 1)
      else if s.station.state = .settling ∧ s.pins.sense = true then min 4096 (s.station.settle + k)
        else s.station.settle)
      = if s.station.state = .settling ∧ s.pins.sense = true then min 4096 (s.station.settle + (k + 1))
        else s.station.settle := by
    split
    · omega
    · rfl
  have driving : (s.selector.driving.map fun w => { w with left := w.left - k }).map
      (fun w => { w with left := w.left - 1 }) = s.selector.driving.map fun w => { w with left := w.left - (k + 1) } := by
    cases s.selector.driving <;> rfl
  rw [settle, driving]

/-- No period at all. -/
theorem clockPeriod_zero (s : State) : clockPeriod (clocked 0 s) = clockPeriod s := by
  have timebase : (clocked 0 s).timebase = s.timebase := by rw [clocked_timebase, advanceRack_zero]
  rw [clockPeriod_eq, clocked_succ, timebase, ← clockPeriod_eq]

/-- Where a generator's count comes to stand as rack time moves within its range. -/
theorem phaseIn_ahead (x y base : BitVec 64) (moved : Int) (h : (y.toNat : Int) = x.toNat + moved)
    (low : 0 ≤ phaseIn x base) (up : phaseIn x base < 65536) (least : 0 ≤ moved) (most : moved < 65536) :
    phaseIn y base = phaseIn x base + moved := by
  unfold phaseIn at *
  have xs := x.isLt
  have ys := y.isLt
  have bs := base.isLt
  simp only [BitVec.toInt_eq_toNat_cond, BitVec.toNat_sub] at *
  omega

/-- A generator whose edge is not reached keeps its level, and nothing falls due at it. -/
theorem generator_quiet (k : Nat) (s : State) (i : Fin 2) (h : Before (k + 1) s) (ok : GenOk s.gens[i]) :
    levelled (advanceRack (k + 1) s.timebase).ticks s.gens[i] = s.gens[i]
      ∧ ∀ d, ¬ edgeBrings (advanceRack (k + 1) s.timebase).ticks i s.gens[i] d := by
  have quiet := h.gens i
  obtain ⟨ticks, least, most⟩ := ticks_advance (k + 1) s.timebase h.slot
  generalize s.gens[i] = g at quiet ok
  generalize (advanceRack (k + 1) s.timebase).ticks = y at ticks ⊢
  obtain ⟨-, -, -, -, runs⟩ := ok
  unfold levelled edgeBrings
  by_cases running : g.state = .running
  · obtain ⟨-, period, -, high⟩ := runs running
    have far : ahead (k + 1) s.timebase < 65536 := by unfold slotLeft at most; omega
    unfold quietGenerator at quiet
    rw [if_pos running] at quiet
    dsimp only at quiet
    cases out : g.out
    · rw [out, if_neg (by decide)] at quiet
      have fits := quiet _ rfl
      split at fits
      · omega
      · next above =>
        have short := (ahead_lt _ _ _ fits (.inl (Nat.succ_pos k))).2
        have moved := phaseIn_ahead _ _ g.wrapBase _ ticks (by omega) (by omega) least far
        rw [moved]
        refine ⟨?_, ?_⟩
        · have low : ¬ phaseIn s.timebase.ticks g.wrapBase + ahead (k + 1) s.timebase < (g.high : Int) := by omega
          simp only [low, and_false, decide_false, Bool.or_false]
          rw [← out]
        · rintro d (⟨-, -, wraps⟩ | ⟨-, -, -, -, on⟩)
          · omega
          · cases on
    · rw [out, if_pos rfl] at quiet
      have fits := quiet _ rfl
      split at fits
      · omega
      · next above =>
        have short := (ahead_lt _ _ _ fits (.inl (Nat.succ_pos k))).2
        have moved := phaseIn_ahead _ _ g.wrapBase _ ticks (by omega) (by omega) least far
        rw [moved]
        refine ⟨?_, ?_⟩
        · rw [Bool.true_or, ← out]
        · rintro d (⟨-, -, wraps⟩ | ⟨-, -, -, ends, -⟩)
          · omega
          · omega
  · simp only [running, false_and, and_false, decide_false, Bool.or_false, or_self, not_false_eq_true, implies_true,
      and_self]

/-- The hold-off's deadline is not reached. -/
theorem holdOff_quiet (k : Nat) (s : State) (h : Before (k + 1) s) (on : s.cable.holdOff = true) :
    ¬ ((advanceRack (k + 1) s.timebase).ticks.setWidth 48 - s.cable.holdOffDeadline).toNat < 2 ^ 47 := by
  obtain ⟨ticks, least, -⟩ := ticks_advance (k + 1) s.timebase h.slot
  have fits := h.hold on
  have reached := holdOffReached_clocked 0 s
  have same : holdOffReached (clocked 0 s) = holdOffReached s :=
    holdOffReached_congr (by rw [clocked_timebase, advanceRack_zero]) (by rw [clocked_cable])
  rw [same, advanceRack_zero] at reached
  split at fits
  · omega
  · next n =>
    have notYet : ¬ (s.timebase.ticks.setWidth 48 - s.cable.holdOffDeadline).toNat < 2 ^ 47 :=
      fun before => n (reached.2 ⟨on, before⟩)
    have short := (ahead_lt _ _ _ fits (.inl (Nat.succ_pos k))).2
    unfold ticks48 at short
    generalize (advanceRack (k + 1) s.timebase).ticks = y at ticks ⊢
    generalize s.cable.holdOffDeadline = d at notYet short ⊢
    have ds := d.isLt
    simp only [BitVec.toNat_sub, BitVec.toNat_setWidth] at *
    omega

/-- A period in which nothing is reached brings nothing. -/
theorem nothing_brought (k : Nat) (s : State) (h : Before (k + 1) s) (ok : ∀ g : Fin 2, GenOk s.gens[g]) (d : Due) :
    ¬ periodBrings (clocked k s) d := by
  have slots (j : Nat) (fits : j ≤ periodsBefore s.timebase (slotLeft s.timebase)) :
      (advanceRack j s.timebase).ticks.toNat / 2048 = s.timebase.ticks.toNat / 2048 := by
    obtain ⟨ticks, least, most⟩ := ticks_advance j s.timebase fits
    unfold slotLeft at most
    omega
  have same := (slots k (by have := h.slot; omega)).trans (slots (k + 1) h.slot).symm
  unfold periodBrings
  dsimp only
  rw [clocked_timebase, clocked_gens, clocked_cable, advanceRack_succ]
  have settle := h.settle
  have word := h.word
  have hold := holdOff_quiet k s h
  have gens (g : Fin 2) := (generator_quiet k s g h (ok g)).2
  generalize (advanceRack (k + 1) s.timebase).ticks = y at *
  generalize (advanceRack k s.timebase).ticks = x at *
  cases d with
  | slotTick => exact fun n => n same
  | epochBoundary => exact fun n => n (by omega)
  | markerWindowEnd =>
    refine fun n => n ?_
    rw [BitVec.toNat_add, BitVec.toNat_add]
    have xs := x.isLt
    have ys := y.isLt
    have half : (65536 : BitVec 64).toNat = 65536 := rfl
    omega
  | holdOffExpiry => exact fun ⟨on, reached⟩ => hold on reached
  | settleComplete =>
    rw [clocked, countPeriods_eq]
    rintro ⟨state, sense, ends⟩
    have counts : s.station.state = .settling ∧ s.pins.sense = true := ⟨state, sense⟩
    have fits := settle counts
    simp only [updTimebase_station, updTimebase_pins, counts, and_self, if_true] at ends
    omega
  | markerWordSent =>
    rintro ⟨w, driving, ends⟩
    rw [clocked, countPeriods_eq] at driving
    obtain ⟨v, was, e⟩ := Option.map_eq_some_iff.1 driving
    have fits := word v was
    have left : w.left = v.left - k := by rw [← e]
    omega
  | generatorWrap g => exact gens g _
  | highTimeEnd g => exact gens g _
  | _ => exact id

/-- A period in which nothing is reached passes (R1). -/
theorem clockPeriod_quiet (k : Nat) (s : State) (none : s.due = []) (ok : ∀ g : Fin 2, GenOk s.gens[g])
    (h : k + 1 ≤ quietPeriods s) : clockPeriod (clocked k s) = clocked (k + 1) s := by
  have before := before_of_quiet h
  have due : (clockPeriod (clocked k s)).due = [] := by
    refine List.eq_nil_iff_forall_not_mem.2 fun d m => ?_
    rw [mem_clockPeriod, clocked_due, none] at m
    exact m.elim List.not_mem_nil (nothing_brought k s before ok d)
  have gens : updAll s.gens (levelled (advanceRack (k + 1) s.timebase).ticks) = s.gens := by
    ext i hi : 1
    exact (updAll_get s.gens ⟨i, hi⟩ _).trans (generator_quiet k s ⟨i, hi⟩ before (ok _)).1
  have frame := clockPeriod_frame (clocked k s)
  rw [due, clocked_timebase, advanceRack_succ, clocked_gens, gens, clocked_succ] at frame
  rw [frame]
  have same : (clocked (k + 1) s).gens = s.gens ∧ (clocked (k + 1) s).due = [] :=
    ⟨clocked_gens _ _, (clocked_due _ _).trans none⟩
  rw [← same.1, ← same.2]

end Sys2Proof.Machine
end

