-- ==== Sys2Proof/Proofs/ClockRowsInTime.lean ====
section
/-! PROOF. A row of the clock comes after the periods it takes. -/

namespace Sys2Proof.Machine
open Sys2Proof.Claims

/-! ### Time runs on to a step of the clock -/

/-- The periods that bring nothing do not disturb what is quiet. -/
theorem quiet_clocked (k : Nat) (s : State) (q : quiet s = true) : quiet (clocked k s) = true := by
  unfold quiet storeBusy at *
  rw [clocked_due, clocked_port, clocked_cable]
  exact q

/-- Idle steps through periods that bring nothing: the rack time and the counts move at once. -/
theorem idle_iterate (k : Nat) (s : State) (ok : ∀ g : Fin 2, GenOk s.gens[g]) (h : k ≤ quietPeriods (settled s)) :
    idle^[k + 1] s = clockPeriod (clocked k (settled s)) := by
  have q := quiet_settled s
  have settledOk := (lasts_settled s).clocks ok
  induction k with
  | zero => exact (clockPeriod_zero (settled s)).symm
  | succ k ih =>
    rw [Function.iterate_succ_apply', ih (by omega), clockPeriod_quiet k _ (due_of_quiet q) settledOk h, idle,
      settled_quiet _ (quiet_clocked _ _ q)]

/-- While they last nothing is due. -/
theorem idle_iterate_due (k : Nat) (s : State) (ok : ∀ g : Fin 2, GenOk s.gens[g])
    (h : k + 1 ≤ quietPeriods (settled s)) : (idle^[k + 1] s).due = [] := by
  have q := quiet_settled s
  rw [idle_iterate k s ok (by omega), clockPeriod_quiet k _ (due_of_quiet q) ((lasts_settled s).clocks ok) h, clocked_due,
    due_of_quiet q]

/-- Time runs on to the first idle step that makes a step due, as long as the state lets it come. -/
theorem runUntil_idle (d : Due) (comes : State → Bool) (n fuel : Nat) (s : State) (ok : ∀ g : Fin 2, GenOk s.gens[g])
    (enough : n < fuel) (before : ∀ k, k ≤ n → d ∉ (idle^[k] s).due ∧ comes (settled (idle^[k] s)) = true)
    (due : d ∈ (idle^[n + 1] s).due) : runUntil d comes fuel s = idle^[n + 1] s := by
  induction fuel generalizing n s with
  | zero => omega
  | succ fuel ih =>
    let q := quietPeriods (settled s)
    have passes : clockPeriod (skipQuiet (settled s)) = idle^[q + 1] s := (idle_iterate q s ok (le_refl _)).symm
    have reach : q ≤ n := by
      by_contra far
      rw [idle_iterate_due n s ok (by omega)] at due
      exact List.not_mem_nil due
    have lets : comes (settled s) = true := (before 0 (Nat.zero_le _)).2
    unfold runUntil
    dsimp only
    rw [if_pos lets, passes]
    rcases Nat.lt_or_eq_of_le reach with less | equal
    · have later (j : Nat) : idle^[j] (idle^[q + 1] s) = idle^[q + 1 + j] s := by
        rw [← Function.iterate_add_apply, Nat.add_comm]
      have clocks (j : Nat) : ∀ g : Fin 2, GenOk (idle^[j] s).gens[g] := by
        induction j with
        | zero => exact ok
        | succ j ih =>
          rw [Function.iterate_succ_apply']
          exact (lasts_idle _).clocks ih
      have rest : q + 1 + (n - q - 1 + 1) = n + 1 := by omega
      rw [if_neg (before (q + 1) (by omega)).1, ih (n - q - 1) (idle^[q + 1] s) (clocks _) (by omega) ?_ ?_,
        later, rest]
      · intro k le
        rw [later]
        exact before _ (by omega)
      · rwa [later, rest]
    · rw [equal, if_pos due]

/-- A row of the clock, with the fuel it has. -/
theorem exec_clockStep {c : Instr} {d : Due} {comes : State → Bool} {act : State → State}
    (h : clockStep c = some (d, comes, act)) :
    ∃ fuel, 262144 ≤ fuel ∧ ∀ s, exec c s = .next (clockRow d comes fuel act s) := by
  cases c with
  | slotTick => cases h; exact ⟨262144, le_refl _, fun _ => rfl⟩
  | epochBoundary first => cases h; exact ⟨262144, le_refl _, fun _ => rfl⟩
  | markerWindowEnd => cases h; exact ⟨262144, le_refl _, fun _ => rfl⟩
  | holdOffExpiry => cases h; exact ⟨281474976710656, by decide, fun _ => rfl⟩
  | settleComplete => cases h; exact ⟨262144, le_refl _, fun _ => rfl⟩
  | generatorWrap g => cases h; exact ⟨262144, le_refl _, fun _ => rfl⟩
  | highTimeEnd g => cases h; exact ⟨262144, le_refl _, fun _ => rfl⟩
  | markerWordSent => cases h; exact ⟨262144, le_refl _, fun _ => rfl⟩
  | _ => cases h

/-- Settles O3, through the quiet periods that the row skips. -/
theorem clockRowsLetTimePassToTheirStep : Obligations.ClockRowsLetTimePassToTheirStep := by
  intro c d comes act s step
  obtain ⟨fuel, enough, row⟩ := exec_clockStep step
  refine ⟨fun due => ?_, fun none held => ?_, fun ok n less before due => ?_⟩
  · rw [row, clockRow_due d comes fuel act s due]
  · obtain ⟨fuel, rfl⟩ : ∃ m, fuel = m + 1 := ⟨fuel - 1, by omega⟩
    rw [row, clockRow, if_neg none, runUntil]
    dsimp only
    rw [held, if_neg (by decide), takeDueBy, if_neg (quiet_not_due (quiet_settled s) d)]
  · have notYet : d ∉ s.due := (before 0 (Nat.zero_le _)).1
    rw [row, clockRow, if_neg notYet, runUntil_idle d comes n fuel s ok (by omega) before due,
      takeDueBy, if_pos due]

end Sys2Proof.Machine
end

