-- ==== Sys2Proof/Proofs/ReadingFields.lean ====
section
/-! PROOF. The bodies of the readings, as the fields of their rules. -/

namespace Sys2Proof.Machine
open Sys2Proof.Claims

/-! ### Items as fields (R213) -/

/-- A byte as a field. -/
theorem byte_eq (b : Byte) : [b] = beBytes 1 b.toNat := by simp [beBytes]

/-- A field of 0. -/
theorem replicate_eq (n : Nat) : List.replicate n (0 : Byte) = beBytes n 0 := by
  induction n with
  | zero => rfl
  | succ n ih => rw [List.replicate_succ, ih, beBytes, Nat.zero_div]; rfl

/-- An item that is there. -/
theorem optBytes_some (n : Nat) (bs : List Byte) : optBytes n (some bs) = beBytes 1 1 ++ bs := rfl

/-- An item that is absent. -/
theorem optBytes_none (n : Nat) : optBytes n none = beBytes 1 0 ++ beBytes n 0 := by
  rw [← replicate_eq n]; rfl

/-- An item of one field that may be absent. -/
theorem optBytes_laid (n : Nat) (v : Option Nat) : optBytes n (v.map (beBytes n)) = laid (optionalFields n v) := by
  cases v with
  | none => simp [optBytes_none, optionalFields, flagValue]
  | some x => simp [optBytes_some, optionalFields, flagValue]

/-- An item of one byte that may be absent. -/
theorem optByte_laid (v : Option Nat) : optBytes 1 (v.map byteOf) = laid (optionalFields 1 v) := by
  rw [← optBytes_laid, funext byteOf_eq]

/-- The fields of a list's items. -/
theorem flatMap_laid {α : Type} (item : α → List Byte) (fields : α → List (Nat × Nat))
    (h : ∀ x, item x = laid (fields x)) (xs : List α) : xs.flatMap item = laid (xs.flatMap fields) := by
  induction xs with
  | nil => rfl
  | cons x rest ih => simp only [List.flatMap_cons, laid_append, ih, h]

/-! ### What the readings tell -/

/-- Whether an entry of a kind waits in the queue (R54). -/
theorem queued_eq (s : State) (kind : EntryKind) : queued s kind = decide (∃ e ∈ s.txQueue, e.kind = kind) := by
  rw [Bool.eq_iff_iff]
  simp [queued]

/-- Whether an entry of a kind is claimed or in flight (R57). -/
theorem engaged_eq (s : State) (kind : EntryKind) : engaged s kind =
    ((s.cable.claim.any fun c => decide (c.entry.kind = kind) && !c.withdrawn)
      || s.cable.flight.any fun f => decide (f.entry.kind = kind) && !f.withdrawn) := by
  unfold engaged
  cases s.cable.claim <;> cases s.cable.flight <;> simp [Option.any, beq_eq_decide]

/-- Whether the head of the queue is in flight (R56). -/
theorem headInFlight_eq (s : State) : headInFlight s = s.cable.flight.any fun f => !f.withdrawn := by
  unfold headInFlight
  cases s.cable.flight <;> rfl

/-- The entries of a kind in the queue (R62). -/
theorem countKind_eq (s : State) (code : Nat) :
    countKind s code = (s.txQueue.filter fun e => decide (e.kind.code = code)).length := by
  rw [countKind, List.countP_eq_length_filter]
  simp only [beq_eq_decide]

/-- The subject of a queue entry as a number (R54). -/
theorem subject_eq (k : EntryKind) : k.subject = match k with
    | .presence | .retire => none
    | .pull j => some j.val
    | .block k => some k.val := by
  cases k <;> rfl

/-- The words in the FIFO (R108). -/
theorem fifoWords_eq (items : List FifoItem) :
    fifoWords items = (items.map fun i => if i.second = none then 1 else 2).sum := by
  unfold fifoWords
  congr 2
  funext i
  cases h : i.second <;> simp [FifoItem.words, h]

/-- STATUS, the station controller's part (R86). -/
theorem stationBytes_laid (x : Station) : stationBytes x = laid
    [(1, x.state.code), (1, flagValue x.startFault), (1, x.own), (1, x.straps.addr.toNat),
      (1, x.straps.refclass.toNat), (1, flagValue x.straps.elig), (1, flagValue x.straps.prefer),
      (1, x.faultScore), (1, flagValue x.caution), (2, x.settle), (1, x.listen), (1, x.retireTimer),
      (1, flagValue x.retireSent), (1, x.clash), (1, x.recovery), (1, flagValue x.freshPending),
      (1, flagValue x.hostAlive), (1, x.lapse), (1, x.interval)] := by
  have straps : [x.straps.addr.setWidth 8, x.straps.refclass.setWidth 8, flagByte x.straps.elig, flagByte x.straps.prefer]
      = beBytes 1 x.straps.addr.toNat ++ beBytes 1 x.straps.refclass.toNat ++ beBytes 1 (flagValue x.straps.elig)
        ++ beBytes 1 (flagValue x.straps.prefer) := by
    rw [← flagOf_eq, ← flagOf_eq]
    simp [beBytes, flagOf, BitVec.ofNat_toNat]
  simp only [stationBytes, straps, byteOf_eq, flagOf_eq, laid_cons, laid_nil, List.append_assoc, List.append_nil]

/-- STATUS, the source selector's part (R41). -/
theorem selectorBytes_laid (x : Selector) : selectorBytes x = laid
    ([(1, x.grade), (1, flagValue x.eligible)] ++ optionalFields 1 x.countdown
      ++ [(1, flagValue x.record.isSome), (1, (x.record.map (·.target)).getD 0),
        (6, (x.record.map (·.epoch)).getD 0), (1, flagValue x.release)]
      ++ optionalFields 6 x.firstDrive) := by
  have record : optBytes 7 (x.record.map fun h => byteOf h.target ++ beBytes 6 h.epoch) = laid
      [(1, flagValue x.record.isSome), (1, (x.record.map (·.target)).getD 0), (6, (x.record.map (·.epoch)).getD 0)] := by
    cases x.record with
    | none => rfl
    | some h => simp [optBytes_some, byteOf_eq, flagValue]
  rw [selectorBytes, record, optByte_laid, optBytes_laid]
  simp only [byteOf_eq, flagOf_eq, laid_cons, laid_nil, laid_append, List.append_assoc, List.append_nil]

/-- The head of the queue (R62). -/
def headFields (s : State) : List (Nat × Nat) :=
  match queueHead s with
  | none => [(1, 0), (4, 0)]
  | some e => [(1, 1), (1, e.kind.code)] ++ optionalFields 1 e.kind.subject
      ++ [(1, flagValue (s.cable.flight.any fun f => !f.withdrawn))]

/-- STATUS, the cable interface's part (R62). -/
theorem cableBytes_laid (s : State) : cableBytes s = laid
    ([(1, s.cable.state.code), (1, flagValue s.cable.holdOff), (6, s.cable.holdOffDeadline.toNat), (1, countKind s 0),
      (1, countKind s 1), (1, countKind s 2), (1, countKind s 3)] ++ headFields s) := by
  have head : optBytes 4 ((queueHead s).map fun e =>
      byteOf e.kind.code ++ optBytes 1 (e.kind.subject.map byteOf) ++ flagOf (headInFlight s)) = laid (headFields s) := by
    unfold headFields
    cases queueHead s with
    | none => simp [optBytes_none]
    | some e => simp [optBytes_some, optByte_laid, byteOf_eq, flagOf_eq, headInFlight_eq]
  rw [cableBytes, head]
  simp only [byteOf_eq, flagOf_eq, laid_cons, laid_nil, laid_append, List.append_assoc, List.append_nil]

/-- READ_PUBLICATION: the ready block (R123). -/
def readyFields (ready : Option Block) : List (Nat × Nat) :=
  match ready with
  | none => [(1, 0), (15, 0)]
  | some b => [(1, 1), (2, b.seq.toNat), (6, b.time.toNat), (1, b.capture.code), (2, b.count)]
      ++ optionalFields 2 b.gap ++ [(1, flagValue b.hostSilent)]

/-- READ_PUBLICATION: the half sample of a pair (R123). -/
def halfFields (high : Option (BitVec 16 × Stamp)) : List (Nat × Nat) :=
  match high with
  | none => [(1, 0), (9, 0)]
  | some (w, st) => [(1, 1), (2, w.toNat), (6, st.time.toNat), (1, st.capture.code)]

theorem readyBytes_laid (ready : Option Block) : optBytes 15 (ready.map readyBytes) = laid (readyFields ready) := by
  cases ready with
  | none => simp [optBytes_none, readyFields]
  | some b => simp [optBytes_some, readyFields, readyBytes, optBytes_laid, byteOf_eq, flagOf_eq]

theorem halfBytes_laid (high : Option (BitVec 16 × Stamp)) :
    optBytes 9 (high.map fun h => beBytes 2 h.1.toNat ++ beBytes 6 h.2.time.toNat ++ byteOf h.2.capture.code)
      = laid (halfFields high) := by
  cases high with
  | none => simp [optBytes_none, halfFields]
  | some h => simp [optBytes_some, halfFields, byteOf_eq]

/-- READ_PUBLICATION (R123). -/
theorem publicationBytes_laid (s : State) (k : Fin 16) : publicationBytes s k = laid
    ([(1, s.pubs[k].state.code), (1, s.pubs[k].feed.code), (1, s.pubs[k].width.code), (2, s.pubs[k].samples),
      (1, flagValue s.pubs[k].urgent), (1, s.pubs[k].policy.code), (1, s.pubs[k].readySlot), (1, s.pubs[k].fillSlot)]
      ++ readyFields s.pubs[k].ready
      ++ [(2, s.pubs[k].fillCount), (6, s.pubs[k].fillTime.toNat), (1, s.pubs[k].fillCapture.code),
        (2, s.pubs[k].nextSeq.toNat), (1, flagValue s.pubs[k].isNew), (1, flagValue s.pubs[k].fillOpen),
        (1, flagValue s.pubs[k].commitPending), (1, flagValue (s.cable.binding == some k)), (2, s.pubs[k].gap),
        (1, flagValue s.pubs[k].pullPending), (1, flagValue s.pubs[k].marked), (1, flagValue (queued s (.block k))),
        (1, flagValue (engaged s (.block k)))]
      ++ halfFields s.partials[k].high
      ++ [(1, flagValue s.partials[k].voidLow), (1, fifoWords s.fifo), (2, s.portRejects), (2, s.unknownPulls)]) := by
  unfold publicationBytes
  dsimp only
  rw [readyBytes_laid, halfBytes_laid]
  simp only [byteOf_eq, flagOf_eq, laid_cons, laid_nil, laid_append, List.append_assoc, List.append_nil]

/-- READ_SUBSCRIPTION: the ring's blocks (R142). -/
def ringFields (e : RingEntry) : List (Nat × Nat) :=
  [(2, e.seq.toNat), (6, e.time.toNat), (1, e.width.code), (2, e.count), (1, e.flags.byte.toNat),
    (2, e.flags.gap.getD 0), (6, e.arrival.toNat), (1, e.missed), (1, flagValue e.late)]

theorem ringBytes_laid (e : RingEntry) : ringBytes e = laid (ringFields e) := by
  simp [ringBytes, ringFields, byteOf_eq, flagOf_eq, byte_eq]

/-- READ_SUBSCRIPTION: the pull state (R142). -/
theorem pullStateBytes_laid (pull : Option Pull) : pullStateBytes pull = laid
    [(1, flagValue pull.isSome), (1, (pull.map (·.tries)).getD 0), (4, (pull.map (·.deadline.toNat)).getD 0)] := by
  cases pull with
  | none => rfl
  | some p => simp [pullStateBytes, byteOf_eq, flagValue]

/-- READ_SUBSCRIPTION (R142). -/
theorem subscriptionBytes_laid (s : State) (j : Fin 32) : subscriptionBytes s j = laid
    ([(1, s.subs[j].state.code), (1, s.subs[j].publisher), (1, s.subs[j].index.val), (1, s.subs[j].mode.code)]
      ++ optionalFields 2 (s.subs[j].last.map (·.toNat))
      ++ [(2, s.subs[j].overruns), (2, s.subs[j].duplicates), (2, s.subs[j].lates), (4, s.subs[j].lateThreshold),
        (2, s.subs[j].staleTimeout), (4, s.subs[j].lastBlock.toNat), (1, flagValue s.subs[j].overrunReported),
        (1, flagValue s.subs[j].pull.isSome), (1, (s.subs[j].pull.map (·.tries)).getD 0),
        (4, (s.subs[j].pull.map (·.deadline.toNat)).getD 0), (1, flagValue s.subs[j].marked),
        (1, s.subs[j].ring.length)]
      ++ s.subs[j].ring.flatMap ringFields
      ++ [(1, flagValue (queued s (.pull j))), (1, flagValue (engaged s (.pull j)))]) := by
  have last : optBytes 2 (s.subs[j].last.map fun q => beBytes 2 q.toNat)
      = laid (optionalFields 2 (s.subs[j].last.map (·.toNat))) := by
    rw [← optBytes_laid, Option.map_map]
    rfl
  unfold subscriptionBytes
  dsimp only
  rw [last, pullStateBytes_laid, listBytes, flatMap_laid ringBytes ringFields ringBytes_laid]
  simp only [byteOf_eq, flagOf_eq, laid_cons, laid_nil, laid_append, List.append_assoc, List.append_nil]

/-- READ_ROSTER of all: a short item (R100). -/
def rosterItemFields (e : RosterEntry) : List (Nat × Nat) :=
  [(1, e.state.code), (1, e.missed), (1, flagValue e.marked), (1, flagValue e.heard)]

theorem rosterItem_laid (e : RosterEntry) : rosterItem e = laid (rosterItemFields e) := by
  simp [rosterItem, rosterItemFields, byteOf_eq, flagOf_eq]

/-- An announcement (R208). -/
def announcementFields (a : Announcement) : List (Nat × Nat) :=
  [(1, a.index.val), (1, (if a.held then 128 else 0) + (if a.urgent then 64 else 0) + a.width.code), (2, a.samples)]

theorem announcementBytes_laid (a : Announcement) : announcementBytes a = laid (announcementFields a) := by
  simp [announcementBytes, announcementFields, beBytes]

/-- READ_ROSTER of one entry (R100). -/
theorem rosterBytes_laid (e : RosterEntry) : rosterBytes e = laid
    ([(1, e.state.code), (1, e.grade), (1, flagValue e.eligible), (1, e.timebase.code), (1, e.believed),
      (1, flagValue e.hostAlive), (1, e.pubs.length)] ++ e.pubs.flatMap announcementFields
      ++ [(1, e.missed), (1, flagValue e.heard), (4, e.lastPresence.toNat), (1, flagValue e.marked)]) := by
  rw [rosterBytes, listBytes, flatMap_laid announcementBytes announcementFields announcementBytes_laid]
  simp only [byteOf_eq, flagOf_eq, laid_cons, laid_nil, laid_append, List.append_assoc, List.append_nil]

/-- READ_TIMEBASE (R25). -/
theorem timebaseBytes_laid (x : Timebase) : timebaseBytes x = laid
    ([(1, x.state.code), (8, x.ticks.toNat), (2, x.frac.toNat / 65536), (6, x.ticks.toNat / 131072),
      (1, x.ticks.toNat / 2048 % 64), (4, (x.rate % 2 ^ 32).toNat), (4, (x.integral % 2 ^ 32).toNat),
      (4, ((max (-2 ^ 31) (min (2 ^ 31 - 1) x.phaseError)) % 2 ^ 32).toNat), (4, x.searchStep), (1, x.decisions),
      (1, x.lockRun), (1, x.missCount), (1, x.believed), (6, x.lastEpoch), (1, x.lastTarget), (1, x.lastCountdown)]
      ++ optionalFields 6 x.expectation
      ++ [(4, x.settings.p), (4, x.settings.i), (4, x.settings.lock), (4, x.settings.alarm), (4, x.settings.step),
        (4, (x.settings.trim % 2 ^ 32).toNat)]) := by
  have phase : limitInt x.phaseError (-2147483648) 2147483647 = max (-2 ^ 31) (min (2 ^ 31 - 1) x.phaseError) :=
    limitInt_eq _ _ _ (by decide)
  rw [timebaseBytes, optBytes_laid, phase]
  simp only [settingsBytes, beSigned, slotInEpoch, slotCount, epochNumber, byteOf_eq, laid_cons, laid_nil,
    laid_append, List.append_assoc, List.append_nil]
  norm_num

end Sys2Proof.Machine
end

