-- ==== Sys2Proof/Proofs/Readings.lean ====
section
/-! PROOF. The reading requests. -/

namespace Sys2Proof.Machine
open Sys2Proof.Claims

/-! ### The reading requests -/

/-- A reading that is answered with these fields changes nothing but the response. -/
theorem reads_of_laid {c : Instr} {s : State} {body : List Byte} {fields : List (Nat × Nat)}
    (row : exec c s = .next (requestRow c s)) (r : Ready s) (n : needsStore c s = false)
    (reply : replyOf c (setTransaction .waiting s) = .taken body (setTransaction .waiting s)) (e : body = laid fields) :
    ∃ body, Taken c s body s ∧ laidOut body 0 fields :=
  ⟨body, taken_of_reply row r n reply, e ▸ laidOut_laid fields⟩

/-- A unit named by a byte. -/
theorem unitIx_byte {n : Nat} (k : Fin n) (h : n ≤ 256) : unitIx n (byteAt [BitVec.ofNat 8 k.val] 0).toNat = some k := by
  have value : (byteAt [BitVec.ofNat 8 k.val] 0).toNat = k.val := by
    show (BitVec.ofNat 8 k.val).toNat = _
    rw [BitVec.toNat_ofNat]
    exact Nat.mod_eq_of_lt (by omega)
  rw [value, unitIx, dif_pos k.isLt]

/-- A byte that names no unit. -/
theorem unitIx_none {n : Nat} (b : Byte) (h : n ≤ b.toNat) : unitIx n (byteAt [b] 0).toNat = none :=
  dif_neg (by show ¬ b.toNat < n; omega)

/-- READ_PUBLICATION of an entry (R123). -/
theorem readPublication_reply (k : Fin 16) (s : State) :
    replyOf (.readPublication [BitVec.ofNat 8 k.val]) s = .taken (publicationBytes s k) s := by
  show readPublicationAct _ s = _
  rw [readPublicationAct, pubOf, unitIx_byte k (by decide)]

/-- READ_SUBSCRIPTION of an entry (R142). -/
theorem readSubscription_reply (j : Fin 32) (s : State) :
    replyOf (.readSubscription [BitVec.ofNat 8 j.val]) s = .taken (subscriptionBytes s j) s := by
  show readSubscriptionAct _ s = _
  rw [readSubscriptionAct, subOf, unitIx_byte j (by decide)]

/-- READ_ROSTER of another station's entry (R100). -/
theorem readRoster_reply (i : Fin 24) (s : State) (other : i.val + 1 ≠ s.station.own) :
    replyOf (.readRoster [BitVec.ofNat 8 (i.val + 1)]) s = .taken (rosterBytes s.roster[i]) s := by
  have value : (byteAt [BitVec.ofNat 8 (i.val + 1)] 0).toNat = i.val + 1 := by
    show (BitVec.ofNat 8 (i.val + 1)).toNat = _
    rw [BitVec.toNat_ofNat]
    omega
  have named : peerIx (i.val + 1) = some i := by rw [peerIx, dif_pos ⟨by omega, by omega⟩]; rfl
  show readRosterAct _ s = _
  unfold readRosterAct
  dsimp only
  rw [value, if_neg (Nat.succ_ne_zero _), if_neg other, named]

/-- READ_ROSTER of no other station (R100). -/
theorem readRoster_refused (n : Byte) (s : State) (h : 24 < n.toNat ∨ (n ≠ 0 ∧ n.toNat = s.station.own)) :
    replyOf (.readRoster [n]) s = .refused .range := by
  show readRosterAct _ s = _
  have value : (byteAt [n] 0).toNat = n.toNat := rfl
  have named : n.toNat ≠ 0 := by
    rcases h with h | ⟨h, -⟩
    · omega
    · exact fun e => h (BitVec.eq_of_toNat_eq e)
  unfold readRosterAct
  dsimp only
  rw [value, if_neg named]
  split
  · rfl
  · next own =>
    have far := h.resolve_right fun h => own h.2
    rw [peerIx, dif_neg (by omega)]

/-- The short items of all entries (R100). -/
theorem rosterList_laid (s : State) : listBytes rosterItem s.roster.toList
    = laid ((1, 24) :: (List.finRange 24).flatMap fun i => rosterItemFields s.roster[i]) := by
  have all : s.roster.toList = (List.finRange 24).map fun i => s.roster[i] := by
    apply List.ext_getElem <;> simp
  have length : s.roster.toList.length = 24 := by simp
  rw [listBytes, length, flatMap_laid rosterItem rosterItemFields rosterItem_laid, all, List.flatMap_map, laid_cons,
    byteOf_eq]

/-- Settles O60, each response as its fields. -/
theorem readingsChangeNothing : Obligations.ReadingsChangeNothing := by
  intro s r reads signed optional engagedBy waits
  refine ⟨?status, fun k => ?publication, fun j => ?subscription, ?roster, fun i other => ?entry, fun n h => ?noEntry,
    fun n h => ?noPublication, fun n h => ?noSubscription, ?timebase⟩
  case status =>
    refine reads_of_laid rfl r rfl rfl ?_
    show stationBytes s.station ++ selectorBytes s.selector ++ cableBytes s = _
    rw [stationBytes_laid, selectorBytes_laid, cableBytes_laid]
    simp only [countKind_eq, headFields, subject_eq, ← laid_append, List.append_assoc]
    cases queueHead s <;> rfl
  case publication =>
    refine reads_of_laid rfl r rfl (readPublication_reply k _) ?_
    show publicationBytes s k = _
    rw [publicationBytes_laid, queued_eq, engaged_eq, beq_eq_decide, fifoWords_eq]
    rfl
  case subscription =>
    refine reads_of_laid rfl r rfl (readSubscription_reply j _) ?_
    show subscriptionBytes s j = _
    rw [subscriptionBytes_laid, queued_eq, engaged_eq]
    rfl
  case roster =>
    refine reads_of_laid rfl r rfl rfl ?_
    exact rosterList_laid s
  case entry =>
    exact reads_of_laid rfl r rfl (readRoster_reply i _ other) (rosterBytes_laid _)
  case noEntry => exact refused_of_reply rfl r rfl (readRoster_refused n _ h)
  case noPublication =>
    refine refused_of_reply rfl r rfl ?_
    show readPublicationAct [n] _ = _
    rw [readPublicationAct, pubOf, unitIx_none n (by omega)]
  case noSubscription =>
    refine refused_of_reply rfl r rfl ?_
    show readSubscriptionAct [n] _ = _
    rw [readSubscriptionAct, subOf, unitIx_none n (by omega)]
  case timebase => exact reads_of_laid rfl r rfl rfl (timebaseBytes_laid _)

end Sys2Proof.Machine
end

section
/-! PROOF. The grade, the ranking of candidates for the source role, and the search for a successor. -/

namespace Sys2Proof.Machine
open Sys2Proof.Claims

/-! ### The grade (R26) -/

/-- Without ELIG the grade is 0. -/
theorem gradeOf_ineligible (refclass : BitVec 2) (prefer refok : Bool) : gradeOf refclass false prefer refok = 0 := rfl

/-- With ELIG it is that of the reference class, plus 1 with PREFER. -/
theorem gradeOf_eligible (refclass : BitVec 2) (prefer refok : Bool) :
    let base := if refclass = 0 then 2 else if refclass = 1 then 3 else if refclass = 2 then 5
      else if refok then 6 else 4
    gradeOf refclass true prefer refok = if prefer then min 7 (base + 1) else base := by
  revert refclass prefer refok; decide

/-- A change of REFOK in a quiet state (R26). -/
theorem exec_refokChange (level : Bool) (s : State) (q : quiet s = true) :
    exec (.refokChange level) s = .next { s with
      pins := { s.pins with refok := level }
      selector := { s.selector with
        grade := gradeOf s.station.straps.refclass s.station.straps.elig s.station.straps.prefer level } } :=
  congrArg _ (outsideRow_quiet (followRefok level) s q)

/-! ### The ranking (R27) -/

/-- The three parts of the ranking, in their order. -/
theorem ranksAbove_iff (a b : Candidate) :
    ranksAbove a b = true ↔ b.grade < a.grade
      ∨ a.grade = b.grade ∧ ((a.incumbent = true ∧ b.incumbent = false)
        ∨ (a.incumbent = b.incumbent ∧ a.address < b.address)) := by
  simp [ranksAbove]

/-- No candidate ranks above itself. -/
theorem ranksAbove_irrefl (a : Candidate) : ranksAbove a a = false := by
  simp [← Bool.not_eq_true, ranksAbove_iff]

/-- Two candidates with different addresses are ranked one way. -/
theorem ranksAbove_total (a b : Candidate) (distinct : a.address ≠ b.address) :
    ranksAbove a b = true ↔ ranksAbove b a = false := by
  rw [← Bool.not_eq_true, ranksAbove_iff, ranksAbove_iff]
  cases a.incumbent <;> cases b.incumbent <;> simp <;> omega

/-- The ranking is transitive. -/
theorem ranksAbove_trans {a b c : Candidate} (ab : ranksAbove a b = true) (bc : ranksAbove b c = true) :
    ranksAbove a c = true := by
  rw [ranksAbove_iff] at *
  rcases ab with ab | ⟨ab, rest⟩
  · exact .inl (by omega)
  · rcases bc with bc | ⟨bc, tail⟩
    · exact .inl (by omega)
    · refine .inr ⟨ab.trans bc, ?_⟩
      rcases rest with ⟨ia, ib⟩ | ⟨iab, lt⟩
      · rcases tail with ⟨ib', -⟩ | ⟨ibc, -⟩
        · simp [ib] at ib'
        · exact .inl ⟨ia, ibc ▸ ib⟩
      · rcases tail with ⟨ib, ic⟩ | ⟨ibc, lt'⟩
        · exact .inl ⟨iab ▸ ib, ic⟩
        · exact .inr ⟨iab.trans ibc, lt.trans lt'⟩

/-! ### The search (R34, R39) -/

/-- The entry is PRESENT, announces eligible and last announced LOCKED. -/
def MaySucceed (s : State) (i : Fin 24) : Prop :=
  s.roster[i].state = .present ∧ s.roster[i].eligible = true ∧ s.roster[i].timebase = .locked

/-- The search takes one more peer into account. -/
def searchPeer (s : State) (best : Option Candidate) (i : Fin 24) : Option Candidate :=
  if isCandidate s.roster[i] && s.roster[i].timebase == .locked then
    match best with
    | none => some (peerCandidate s i)
    | some b => if ranksAbove (peerCandidate s i) b then some (peerCandidate s i) else some b
  else best

/-- The search goes through the roster. -/
theorem successor_eq (s : State) : successor s = (List.finRange 24).foldl (searchPeer s) none := rfl

/-- The test of the search. -/
theorem maySucceed_iff (s : State) (i : Fin 24) :
    (isCandidate s.roster[i] && s.roster[i].timebase == .locked) = true ↔ MaySucceed s i := by
  simp [isCandidate, MaySucceed, and_assoc]

/-- A peer that cannot succeed changes nothing. -/
theorem searchPeer_unable (s : State) (best : Option Candidate) (i : Fin 24) (h : ¬ MaySucceed s i) :
    searchPeer s best i = best := if_neg fun c => h ((maySucceed_iff s i).1 c)

/-- One that can is taken when none is, or when it ranks above the one that is. -/
theorem searchPeer_able (s : State) (best : Option Candidate) (i : Fin 24) (h : MaySucceed s i) :
    searchPeer s best i = match best with
      | none => some (peerCandidate s i)
      | some b => if ranksAbove (peerCandidate s i) b then some (peerCandidate s i) else some b :=
  if_pos ((maySucceed_iff s i).2 h)

/-- `best` is the first, by R27, of those among `seen` that may succeed. -/
def FirstAmong (s : State) (seen : List (Fin 24)) : Option Candidate → Prop
  | none => ∀ i ∈ seen, ¬ MaySucceed s i
  | some c => ∃ i ∈ seen, MaySucceed s i ∧ c = peerCandidate s i
    ∧ ∀ k ∈ seen, MaySucceed s k → k ≠ i → ranksAbove c (peerCandidate s k) = true

/-- It stays so when one more peer is taken into account. -/
theorem firstAmong_searchPeer (s : State) (seen : List (Fin 24)) (best : Option Candidate) (i : Fin 24)
    (h : FirstAmong s seen best) : FirstAmong s (seen ++ [i]) (searchPeer s best i) := by
  have member (k : Fin 24) : k ∈ seen ++ [i] ↔ k ∈ seen ∨ k = i := by simp
  by_cases able : MaySucceed s i
  · rw [searchPeer_able s best i able]
    cases best with
    | none =>
      refine ⟨i, (member i).2 (.inr rfl), able, rfl, fun k mem may other => ?_⟩
      exact absurd may (h k (((member k).1 mem).resolve_right other))
    | some b =>
      obtain ⟨j, seenJ, mayJ, rfl, first⟩ := h
      dsimp only
      split
      · next above =>
        refine ⟨i, (member i).2 (.inr rfl), able, rfl, fun k mem may other => ?_⟩
        by_cases same : k = j
        · exact same ▸ above
        · exact ranksAbove_trans above (first k (((member k).1 mem).resolve_right other) may same)
      · next below =>
        refine ⟨j, (member j).2 (.inl seenJ), mayJ, rfl, fun k mem may other => ?_⟩
        rcases (member k).1 mem with mem | rfl
        · exact first k mem may other
        · have distinct : (peerCandidate s j).address ≠ (peerCandidate s k).address := by
            simp only [peerCandidate, peerAddress]
            omega
          exact (ranksAbove_total _ _ distinct).2 (Bool.eq_false_iff.2 below)
  · rw [searchPeer_unable s best i able]
    cases best with
    | none =>
      intro k mem
      rcases (member k).1 mem with mem | rfl
      · exact h k mem
      · exact able
    | some b =>
      obtain ⟨j, seenJ, mayJ, same, first⟩ := h
      refine ⟨j, (member j).2 (.inl seenJ), mayJ, same, fun k mem may other => ?_⟩
      rcases (member k).1 mem with mem | rfl
      · exact first k mem may other
      · exact absurd may able

/-- The search over a list of peers finds the first of them. -/
theorem firstAmong_foldl (s : State) (seen : List (Fin 24)) : FirstAmong s seen (seen.foldl (searchPeer s) none) := by
  induction seen using List.reverseRecOn with
  | nil => exact fun i mem => absurd mem List.not_mem_nil
  | append_singleton seen i ih =>
    rw [List.foldl_append]
    exact firstAmong_searchPeer s seen _ i ih

/-- The search finds the first of the whole roster. -/
theorem firstAmong_successor (s : State) : FirstAmong s (List.finRange 24) (successor s) := firstAmong_foldl s _

/-- What it finds is such a peer, and ranks above every other one. -/
theorem successor_some {s : State} {c : Candidate} (h : successor s = some c) :
    ∃ i, MaySucceed s i ∧ c = peerCandidate s i
      ∧ ∀ k, MaySucceed s k → k ≠ i → ranksAbove c (peerCandidate s k) = true := by
  have first := firstAmong_successor s
  rw [h] at first
  obtain ⟨i, -, may, same, above⟩ := first
  exact ⟨i, may, same, fun k => above k (List.mem_finRange k)⟩

/-- It finds none exactly when there is none. -/
theorem successor_eq_none_iff (s : State) : successor s = none ↔ ∀ i, ¬ MaySucceed s i := by
  constructor
  · intro h i
    have first := firstAmong_successor s
    rw [h] at first
    exact first i (List.mem_finRange i)
  · intro unable
    by_contra found
    obtain ⟨c, found⟩ := Option.ne_none_iff_exists'.mp found
    obtain ⟨i, may, -⟩ := successor_some found
    exact unable i may

/-! ### Who ranks first, and the re-check of a target (R29, R35) -/

/-- A peer as a candidate, in the words of R27. -/
theorem peerCandidate_eq (s : State) (i : Fin 24) : peerCandidate s i =
    { grade := s.roster[i].grade
      incumbent := decide (i.val + 1 = s.timebase.believed ∨ s.roster[i].timebase = .source)
      address := i.val + 1 } := by
  simp only [peerCandidate, peerAddress, Bool.decide_or]
  rfl

/-- This station ranks first when it is eligible and above every candidate (R29). -/
theorem ranksFirst_iff (s : State) : ranksFirst s = true ↔ s.selector.eligible = true
    ∧ ∀ i : Fin 24, s.roster[i].state = .present → s.roster[i].eligible = true →
      ranksAbove (selfCandidate s) (peerCandidate s i) = true := by
  simp [ranksFirst, isCandidate, imp_iff_not_or, or_assoc]

/-- The entry of a station's address. -/
theorem peerEntry_address (s : State) (i : Fin 24) : peerEntry s (i.val + 1) = some s.roster[i] := by
  have range : 1 ≤ i.val + 1 ∧ i.val + 1 ≤ 24 := by omega
  simp [peerEntry, peerIx, range]

/-- Settles O12: the grade, the ranking, the search, and the re-check. -/
theorem gradesRankAndTheSearchFindsTheFirst : Obligations.GradesRankAndTheSearchFindsTheFirst := by
  refine ⟨fun level s q => ?grade, fun a b c => ?ranking, fun s => ?search, fun s => ?first⟩
  case grade =>
    refine ⟨_, exec_refokChange level s q, fun low => ?_, fun high => ?_⟩
    · rw [low, gradeOf_ineligible]
    · rw [high]
      exact gradeOf_eligible s.station.straps.refclass s.station.straps.prefer level
  case ranking =>
    refine ⟨ranksAbove_total a b, ranksAbove_irrefl a, ranksAbove_trans, fun grade => ?_, fun same ia ib => ?_,
      fun same inc lower => ?_⟩
    · exact (ranksAbove_iff a b).2 (.inl grade)
    · exact (ranksAbove_iff a b).2 (.inr ⟨same.symm, .inl ⟨ia, ib⟩⟩)
    · exact (ranksAbove_iff a b).2 (.inr ⟨same.symm, .inr ⟨inc, lower⟩⟩)
  case search => exact ⟨successor_eq_none_iff s, fun c => successor_some⟩
  case first =>
    refine ⟨peerCandidate_eq s, ?_, fun i => ?_⟩
    · simp only [ranksFirst_iff, peerCandidate_eq, selfCandidate]
      rfl
    · simp only [targetFault, peerEntry_address]

end Sys2Proof.Machine
end

section
/-! PROOF. The change reports of peers that are lost, and a lost cable at the roster and the subscriptions. -/

namespace Sys2Proof.Machine
open Sys2Proof.Claims

/-! ### States whose events come out the same -/

/-- `t` has the rack time and the port of `s`, so that an event enters both alike (R198, R199). -/
structure TellsAlike (s t : State) : Prop where
  ticks : t.timebase.ticks = s.timebase.ticks
  port : t.port = s.port

theorem TellsAlike.refl (s : State) : TellsAlike s s := ⟨rfl, rfl⟩

theorem TellsAlike.trans {s t u : State} (h : TellsAlike s t) (g : TellsAlike t u) : TellsAlike s u :=
  ⟨g.ticks.trans h.ticks, g.port.trans h.port⟩

theorem SeenAlike.tells {s t : State} (h : SeenAlike s t) : TellsAlike s t := ⟨h.ticks, h.port⟩

/-- An event enters both alike. -/
theorem TellsAlike.raise {s t : State} (h : TellsAlike s t) (k : EventKind) (n : Option Nat) (d : BitVec 16) :
    TellsAlike (raise k n d s) (raise k n d t) := by
  refine ⟨by simpa using h.ticks, ?_⟩
  simp only [Machine.raise, h.port, epoch32, epochNumber, tickInEpoch, h.ticks]
  split <;> rfl

/-- So do events raised in turn. -/
theorem TellsAlike.raised {s t : State} (h : TellsAlike s t) (es : List (EventKind × Option Nat × BitVec 16)) :
    TellsAlike (raised es s) (raised es t) := by
  induction es generalizing s t with
  | nil => exact h
  | cons e rest ih => exact ih (h.raise e.1 e.2.1 e.2.2)

/-- Events raised in turn enter last. -/
theorem raised_prefix (es : List (EventKind × Option Nat × BitVec 16)) (s : State) :
    s.port.events <+: (raised es s).port.events :=
  foldl_prefix (fun u (v : EventKind × Option Nat × BitVec 16) => raise v.1 v.2.1 v.2.2 u)
    (fun _ _ => raise_prefix _ _ _ _) es s

/-- Events raised in turn: what they can change. -/
theorem raised_frame (es : List (EventKind × Option Nat × BitVec 16)) (s : State) :
    raised es s = { s with port := (raised es s).port } :=
  foldl_keeps (fun s t => t = { s with port := t.port })
    (fun u (v : EventKind × Option Nat × BitVec 16) => raise v.1 v.2.1 v.2.2 u) (fun _ => rfl)
    (fun a b c h g => by rw [g, h]) (fun u v => raise_frame v.1 v.2.1 v.2.2 u) es s

/-- Two states of one rack time with the port of the events raised at one tell alike. -/
theorem TellsAlike.of_port {s t : State} {es : List (EventKind × Option Nat × BitVec 16)}
    (ticks : t.timebase.ticks = s.timebase.ticks) (port : t.port = (Claims.raised es s).port) :
    TellsAlike (Claims.raised es s) t :=
  ⟨by rw [raised_frame]; exact ticks, port⟩

/-! ### A change report of a peer that is not PRESENT (R97, R138) -/

/-- The events of the report to the subscriptions of a list: SUB_STALE with cause 2 of each that follows the peer. -/
def staleEvents (s : State) (i : Fin 24) (seen : List (Fin 32)) : List (EventKind × Option Nat × BitVec 16) :=
  (seen.filter (subscribedTo s i)).map fun j => (.subStale, some j.val, 2)

/-- A subscription once it is STALE. -/
def wentStale (x : Subscription) : Subscription := { x with state := .stale }

/-- Whether a subscription follows a peer is seen in the subscriptions alone. -/
theorem subscribedTo_congr {s t : State} {i : Fin 24} {j : Fin 32} (h : t.subs = s.subs) :
    subscribedTo t i j = subscribedTo s i j := by
  simp only [subscribedTo, h]

/-- The events of a report depend on who follows the peer. -/
theorem staleEvents_congr {s t : State} {i : Fin 24} {seen : List (Fin 32)}
    (h : ∀ j, subscribedTo t i j = subscribedTo s i j) : staleEvents t i seen = staleEvents s i seen := by
  rw [staleEvents, staleEvents, funext h]

/-- `t` is `s` after the subscriptions of a list were told that peer `i` is gone. -/
structure ToldGone (s : State) (i : Fin 24) (seen : List (Fin 32)) (t : State) : Prop where
  roster : t.roster = s.roster
  subs : ∀ j, t.subs[j]
    = if j ∈ seen ∧ subscribedTo s i j = true then wentStale s.subs[j] else s.subs[j]
  told : TellsAlike (raised (staleEvents s i seen) s) t

/-- A subscription that becomes STALE, among the others. -/
theorem becomeStale_get (j k : Fin 32) (c : Nat) (s : State) :
    (becomeStale j c s).subs[k] = if k = j then wentStale s.subs[k] else s.subs[k] := by
  have subs : (becomeStale j c s).subs = upd s.subs j wentStale := raise_subs _ _ _ _
  rw [subs, upd_get_if]

/-- Its event. -/
theorem becomeStale_tells {s t : State} (h : TellsAlike s t) (j : Fin 32) (c : Nat) :
    TellsAlike (raise .subStale (some j.val) (BitVec.ofNat 16 c) s) (becomeStale j c t) :=
  TellsAlike.raise (t := updSub j (fun x => { x with state := .stale }) t) ⟨h.ticks, h.port⟩ _ _ _

/-- A subscription to a peer that is not PRESENT is re-judged (R138). -/
theorem rejudge_gone (i : Fin 24) (s : State) (j : Fin 32) (gone : s.roster[i].state ≠ .present) :
    rejudge (peerAddress i) s j = if subscribedTo s i j then becomeStale j 2 s else s := by
  have entry : peerEntry s (peerAddress i) = some s.roster[i] := peerEntry_address s i
  simp only [rejudge, entry, if_pos gone, subscribedTo, decide_eq_true_eq]
  rfl

/-- One more subscription is told. -/
theorem toldGone_rejudge {s t : State} {i : Fin 24} {seen : List (Fin 32)} {j : Fin 32}
    (h : ToldGone s i seen t) (gone : s.roster[i].state ≠ .present) (new : j ∉ seen) :
    ToldGone s i (seen ++ [j]) (rejudge (peerAddress i) t j) := by
  have same : t.subs[j] = s.subs[j] := (h.subs j).trans (if_neg fun c => new c.1)
  have follows : subscribedTo t i j = subscribedTo s i j := by simp only [subscribedTo, same]
  rw [rejudge_gone i t j (by rwa [h.roster]), follows]
  by_cases sub : subscribedTo s i j = true
  · rw [if_pos sub]
    refine ⟨(becomeStale_roster j 2 t).trans h.roster, fun k => ?_, ?_⟩
    · rw [becomeStale_get]
      by_cases told : k = j
      · subst told
        rw [if_pos rfl, same, if_pos ⟨by simp, sub⟩]
      · simp only [h.subs, List.mem_append, List.mem_singleton, told, or_false, if_false]
    · have events : staleEvents s i (seen ++ [j]) = staleEvents s i seen ++ [(.subStale, some j.val, 2)] := by
        simp [staleEvents, List.filter_append, sub]
      rw [events, raised_append]
      exact becomeStale_tells h.told j 2
  · rw [if_neg sub]
    refine ⟨h.roster, fun k => ?_, ?_⟩
    · by_cases told : k = j
      · subst told
        rw [same, if_neg fun c => sub c.2]
      · simp only [h.subs, List.mem_append, List.mem_singleton, told, or_false]
    · have events : staleEvents s i (seen ++ [j]) = staleEvents s i seen := by
        simp [staleEvents, List.filter_append, sub]
      rw [events]
      exact h.told

/-- All the subscriptions of a list are told, one after the other. -/
theorem toldGone_foldl (s : State) (i : Fin 24) (gone : s.roster[i].state ≠ .present) (seen : List (Fin 32))
    (once : seen.Nodup) : ToldGone s i seen (seen.foldl (rejudge (peerAddress i)) s) := by
  induction seen using List.reverseRecOn with
  | nil => exact ⟨rfl, fun j => by simp, .refl s⟩
  | append_singleton seen j ih =>
    rw [List.nodup_append] at once
    obtain ⟨once, -, apart⟩ := once
    rw [List.foldl_append]
    exact toldGone_rejudge (ih once) gone fun mem => apart j mem j (List.mem_singleton_self j) rfl

/-- The report that peer `i` is gone. -/
theorem changeReport_gone (s : State) (i : Fin 24) (gone : s.roster[i].state ≠ .present) :
    ToldGone s i (List.finRange 32) (changeReport (peerAddress i) s) :=
  toldGone_foldl s i gone _ (List.nodup_finRange 32)

/-! ### The loss of the cable (R96) -/

/-- What the loss of the cable makes of an entry (R96). -/
def lostEntry (e : RosterEntry) : RosterEntry := if e.state = .absent then e else { e with state := .silent, heard := false }

/-- The events of the loss for the peers of a list (R96, R97, R138). -/
def lossEvents (s : State) (seen : List (Fin 24)) : List (EventKind × Option Nat × BitVec 16) :=
  (seen.filter fun i => losesPeer s.roster[i]).flatMap fun i =>
    (.peerSilent, some (i.val + 1), 2) :: staleEvents s i (List.finRange 32)

/-- `t` is `s` after the loss of the cable has reached the entries of a list. -/
structure LostPeers (s : State) (seen : List (Fin 24)) (t : State) : Prop where
  roster : ∀ i, t.roster[i] = if i ∈ seen then lostEntry s.roster[i] else s.roster[i]
  subs : ∀ j : Fin 32, t.subs[j]
    = if ∃ i ∈ seen, losesPeer s.roster[i] = true ∧ subscribedTo s i j = true then wentStale s.subs[j] else s.subs[j]
  told : TellsAlike (raised (lossEvents s seen) s) t

/-- An entry of the roster changed, among the others. -/
theorem updPeer_get (i k : Fin 24) (f : RosterEntry → RosterEntry) (s : State) :
    (updPeer i f s).roster[k] = if k = i then f s.roster[k] else s.roster[k] := by
  rw [updPeer_roster, upd_get_if]

/-- Two changes of an entry that give it the same content are the same. -/
theorem updPeer_congr {i : Fin 24} {f g : RosterEntry → RosterEntry} {s : State} (h : f s.roster[i] = g s.roster[i]) :
    updPeer i f s = updPeer i g s := by
  simp only [updPeer, upd, h]

/-- A change that leaves the entry as it was is none. -/
theorem updPeer_self {i : Fin 24} {f : RosterEntry → RosterEntry} {s : State} (h : f s.roster[i] = s.roster[i]) :
    updPeer i f s = s := by
  have same : upd s.roster i f = s.roster := by
    rw [upd, h]
    exact Vector.set_getElem_self i.isLt
  rw [updPeer, same]

/-- An ABSENT entry has nothing to lose. -/
theorem losePeer_absent (s : State) (i : Fin 24) (absent : s.roster[i].state = .absent) : losePeer s i = s := by
  simp only [losePeer, absent]

/-- A SILENT one has its heard flag cleared. -/
theorem losePeer_silent (s : State) (i : Fin 24) (silent : s.roster[i].state = .silent) :
    losePeer s i = updPeer i (fun e => { e with heard := false }) s := by
  simp only [losePeer, silent]

/-- Any other falls silent, with PEER_SILENT and its change report. -/
theorem losePeer_known (s : State) (i : Fin 24) (known : losesPeer s.roster[i] = true) :
    losePeer s i = changeReport (peerAddress i) (raise .peerSilent (some (peerAddress i)) 2
      (updPeer i (fun e => { e with state := .silent, heard := false }) s)) := by
  simp only [losesPeer, decide_eq_true_eq] at known
  rcases known with e | e | e <;> simp only [losePeer, e]

/-- The peers that the cable's loss does not lose: ABSENT or SILENT already. -/
theorem losesPeer_eq_false_iff (e : RosterEntry) : losesPeer e = false ↔ e.state = .absent ∨ e.state = .silent := by
  cases h : e.state <;> simp [losesPeer, h]

/-- What the loss makes of a peer that it loses. -/
theorem lostEntry_known {e : RosterEntry} (known : losesPeer e = true) :
    lostEntry e = { e with state := .silent, heard := false } := by
  refine if_neg fun absent => ?_
  rw [(losesPeer_eq_false_iff e).2 (.inl absent)] at known
  cases known

/-- What it makes of a SILENT entry. -/
theorem lostEntry_silent {e : RosterEntry} (silent : e.state = .silent) : lostEntry e = { e with heard := false } := by
  rw [lostEntry, if_neg (by rw [silent]; nofun), ← silent]

/-- The loss at an entry that it does not lose: the heard flag alone. -/
theorem losePeer_other (s : State) (i : Fin 24) (other : losesPeer s.roster[i] = false) :
    losePeer s i = updPeer i lostEntry s := by
  rcases (losesPeer_eq_false_iff _).1 other with absent | silent
  · rw [losePeer_absent s i absent]
    exact (updPeer_self (f := lostEntry) (if_pos absent)).symm
  · rw [losePeer_silent s i silent]
    exact (updPeer_congr (lostEntry_silent silent)).symm

/-- The loss at a peer, told to its subscriptions. -/
theorem losePeer_toldGone (s : State) (i : Fin 24) (known : losesPeer s.roster[i] = true) :
    ToldGone (raise .peerSilent (some (peerAddress i)) 2 (updPeer i lostEntry s)) i (List.finRange 32) (losePeer s i) := by
  have entry := updPeer_congr (f := lostEntry) (g := fun e => { e with state := .silent, heard := false })
    (lostEntry_known known)
  rw [losePeer_known s i known, ← entry]
  refine changeReport_gone _ i ?_
  rw [raise_roster, updPeer_get, if_pos rfl, lostEntry_known known]
  nofun

/-- What the loss makes of the entry it reaches, and of the others. -/
theorem losePeer_roster (s : State) (i k : Fin 24) :
    (losePeer s i).roster[k] = if k = i then lostEntry s.roster[k] else s.roster[k] := by
  rw [← updPeer_get]
  cases known : losesPeer s.roster[i]
  · rw [losePeer_other s i known]
  · rw [(losePeer_toldGone s i known).roster, raise_roster]

/-- What it makes of the subscriptions. -/
theorem losePeer_subs (s : State) (i : Fin 24) (j : Fin 32) :
    (losePeer s i).subs[j]
      = if losesPeer s.roster[i] = true ∧ subscribedTo s i j = true then wentStale s.subs[j] else s.subs[j] := by
  cases known : losesPeer s.roster[i]
  · rw [losePeer_other s i known, if_neg (by simp)]
    rfl
  · have subs : (raise .peerSilent (some (peerAddress i)) 2 (updPeer i lostEntry s)).subs = s.subs := raise_subs _ _ _ _
    rw [(losePeer_toldGone s i known).subs, subscribedTo_congr subs, subs]
    simp only [List.mem_finRange]

/-- Its events. -/
theorem losePeer_tells {w s : State} (h : TellsAlike w s) (i : Fin 24) :
    TellsAlike (raised (lossEvents s [i]) w) (losePeer s i) := by
  cases known : losesPeer s.roster[i]
  · have none : lossEvents s [i] = [] := by simp only [lossEvents, List.filter_cons, known]; rfl
    rw [losePeer_other s i known, none]
    exact ⟨h.ticks, h.port⟩
  · have told := (losePeer_toldGone s i known).told
    have silent : TellsAlike (raise .peerSilent (some (i.val + 1)) 2 w)
        (raise .peerSilent (some (peerAddress i)) 2 (updPeer i lostEntry s)) :=
      TellsAlike.raise (t := updPeer i lostEntry s) ⟨h.ticks, h.port⟩ _ _ _
    have subs : (raise .peerSilent (some (peerAddress i)) 2 (updPeer i lostEntry s)).subs = s.subs := raise_subs _ _ _ _
    have events : lossEvents s [i] = (.peerSilent, some (i.val + 1), 2) ::
        staleEvents (raise .peerSilent (some (peerAddress i)) 2 (updPeer i lostEntry s)) i (List.finRange 32) := by
      rw [staleEvents_congr fun j => subscribedTo_congr subs]
      simp only [lossEvents, List.filter_cons, known, if_true, List.filter_nil, List.flatMap_cons, List.flatMap_nil,
        List.append_nil]
    rw [events]
    exact (silent.raised _).trans told

/-- The peers reached before another one leave the subscriptions to that one alone. -/
theorem LostPeers.follows {s t : State} {seen : List (Fin 24)} {i : Fin 24} (h : LostPeers s seen t) (new : i ∉ seen)
    (j : Fin 32) : subscribedTo t i j = subscribedTo s i j := by
  have sub := h.subs j
  split at sub
  · next hit =>
    obtain ⟨k, mem, -, follows⟩ := hit
    have other : s.subs[j].publisher ≠ i.val + 1 := by
      intro own
      simp only [subscribedTo, decide_eq_true_eq] at follows
      exact new ((Fin.ext (by omega) : i = k) ▸ mem)
    simp only [subscribedTo, sub, wentStale, other, and_false]
  · simp only [subscribedTo, sub]

/-- One more entry is reached. -/
theorem lostPeers_losePeer {s t : State} {seen : List (Fin 24)} {i : Fin 24} (h : LostPeers s seen t) (new : i ∉ seen) :
    LostPeers s (seen ++ [i]) (losePeer t i) := by
  have entry : t.roster[i] = s.roster[i] := (h.roster i).trans (if_neg new)
  have member (k : Fin 24) : k ∈ seen ++ [i] ↔ k ∈ seen ∨ k = i := by simp
  have follows := h.follows new
  refine ⟨fun k => ?_, fun j => ?_, ?_⟩
  · rw [losePeer_roster, h.roster]
    by_cases reached : k = i
    · subst reached
      rw [if_pos rfl, if_neg new, if_pos (by simp)]
    · simp only [reached, member, or_false, if_false]
  · rw [losePeer_subs, entry, follows, h.subs]
    by_cases hit : ∃ k ∈ seen, losesPeer s.roster[k] = true ∧ subscribedTo s k j = true
    · have still : ∃ k ∈ seen ++ [i], losesPeer s.roster[k] = true ∧ subscribedTo s k j = true := by
        obtain ⟨k, mem, lost⟩ := hit
        exact ⟨k, (member k).2 (.inl mem), lost⟩
      rw [if_pos hit, if_pos still]
      exact ite_self _
    · rw [if_neg hit]
      refine if_congr ⟨fun lost => ⟨i, (member i).2 (.inr rfl), lost⟩, fun ⟨k, mem, lost⟩ => ?_⟩ rfl rfl
      rcases (member k).1 mem with mem | rfl
      · exact absurd ⟨k, mem, lost⟩ hit
      · exact lost
  · have same : lossEvents t [i] = lossEvents s [i] := by
      have stale := staleEvents_congr (seen := List.finRange 32) follows
      simp only [lossEvents, List.filter_cons, entry, List.filter_nil]
      split <;> simp [stale]
    have events : lossEvents s (seen ++ [i]) = lossEvents s seen ++ lossEvents s [i] := by
      simp only [lossEvents, List.filter_append, List.flatMap_append]
    rw [events, raised_append, ← same]
    exact losePeer_tells h.told i

/-- The loss of the cable at the whole roster. -/
theorem cableLost_lostPeers (s : State) : LostPeers s (List.finRange 24) (cableLost s) := by
  have fold (seen : List (Fin 24)) (once : seen.Nodup) : LostPeers s seen (seen.foldl losePeer s) := by
    induction seen using List.reverseRecOn with
    | nil => exact ⟨fun i => by simp, fun j => by simp, .refl s⟩
    | append_singleton seen i ih =>
      rw [List.nodup_append] at once
      obtain ⟨once, -, apart⟩ := once
      rw [List.foldl_append]
      exact lostPeers_losePeer (ih once) fun mem => apart i mem i (List.mem_singleton_self i) rfl
  exact fold _ (List.nodup_finRange 24)

/-- What the loss can change. -/
theorem cableLost_frame (s : State) :
    cableLost s = { s with roster := (cableLost s).roster, subs := (cableLost s).subs, port := (cableLost s).port } := by
  refine foldl_keeps (fun s t => t = { s with roster := t.roster, subs := t.subs, port := t.port }) losePeer
    (fun _ => rfl) (fun a b c h g => by rw [g, h]) (fun s i => ?_) _ s
  cases known : losesPeer s.roster[i]
  · rw [losePeer_other s i known]; rfl
  · have report := changeReport_frame (peerAddress i) (raise .peerSilent (some (peerAddress i)) 2
      (updPeer i (fun e => { e with state := .silent, heard := false }) s))
    have event := raise_frame .peerSilent (some (peerAddress i)) 2
      (updPeer i (fun e => { e with state := .silent, heard := false }) s)
    rw [losePeer_known s i known]
    generalize raise _ _ _ _ = u at report event ⊢
    generalize changeReport _ u = t at report ⊢
    rw [report, event]
    rfl

/-- The events of the loss in the words of the statements. -/
theorem lossEvents_eq {s u : State} (roster : u.roster = s.roster) (subs : u.subs = s.subs) :
    lossEvents u (List.finRange 24) = lostPeerEvents s := by
  simp only [lossEvents, lostPeerEvents, staleEvents, roster]
  rw [show subscribedTo u = subscribedTo s from funext₂ fun i j => subscribedTo_congr subs]
  rfl

/-- The subscriptions that the loss reaches, in the words of the statements. -/
theorem losesSub_iff (s : State) (j : Fin 32) :
    (∃ i ∈ List.finRange 24, losesPeer s.roster[i] = true ∧ subscribedTo s i j = true)
      ↔ s.subs[j].state = .live ∧ ∃ i : Fin 24, losesPeer s.roster[i] = true ∧ s.subs[j].publisher = i.val + 1 := by
  simp only [List.mem_finRange, true_and, subscribedTo, decide_eq_true_eq]
  exact ⟨fun ⟨i, lost, live, pub⟩ => ⟨live, i, lost, pub⟩, fun ⟨live, i, lost, pub⟩ => ⟨i, lost, live, pub⟩⟩

end Sys2Proof.Machine
end

section
/-! PROOF. SENSE, and what the station controller's counts bring. -/

namespace Sys2Proof.Machine
open Sys2Proof.Claims

/-! ### Drivers lost while no commit waits (R61, R117) -/

/-- The end of a binding for which no commit waits is told to nobody. -/
theorem endBinding_free (s : State) (free : NoCommitWaits s) :
    endBinding false s = { s with cable := { s.cable with binding := none } } := by
  unfold endBinding
  cases bound : s.cable.binding with
  | none => dsimp only; rw [← bound]
  | some k =>
    have waits : (updCable (fun c => { c with binding := none }) s).pubs[k].commitPending = false := free k bound
    simp only [Bool.false_eq_true, false_and, if_false, completeCommit, waits]
    rfl

/-- The loss of the drivers while no commit waits: the queue, the interface and the station's own fields alone. -/
theorem leaveDrivers_free (s : State) (free : NoCommitWaits s) :
    leaveDrivers s = { s with
      txQueue := [], cable := { cutCable s.cable with holdOff := false }
      station := { s.station with freshPending := false, retireSent := false, clash := 0, retireTimer := 0 } } := by
  have cut : cutBurst s = { s with cable := cutCable s.cable } := by
    cases h : s.cable.state <;> simp only [cutBurst, cutCable, h]
    all_goals rw [endBinding_free s free]; rfl
  unfold leaveDrivers
  dsimp only
  rw [cut]
  rfl

/-- STATION_STATE leaves the binding and the publications. -/
theorem noCommitWaits_announced (new : StationState) (cause : Nat) {s : State} (free : NoCommitWaits s) :
    NoCommitWaits (announceStation new cause s) := by
  rw [announceStation_frame]; exact free

/-- So events do not see it. -/
theorem leaveDrivers_seen (s : State) (free : NoCommitWaits s) : SeenAlike s (leaveDrivers s) := by
  rw [leaveDrivers_free s free]
  exact ⟨rfl, rfl, rfl, rfl, rfl, rfl⟩

/-- The receiver-off entry leaves rack time (R22). -/
theorem receiversOff_ticks {x y : Timebase} (h : ReceiversOff x y) : y.ticks = x.ticks := by
  obtain ⟨-, -, -, frame⟩ := h
  rw [frame]

/-- CAUTION_OFF enters last. -/
theorem zeroScore_prefix (s : State) : s.port.events <+: (zeroScore s).port.events := by
  rw [zeroScore_eq]
  exact raised_prefix _ s

/-! ### The first event of a change of station state (R66) -/

/-- With an empty event queue the first event told is STATION_STATE. -/
theorem first_of_announced {new : StationState} {cause : Nat} {s t : State} (empty : s.port.events = [])
    (h : (announceStation new cause s).port.events <+: t.port.events) :
    t.port.events.head?.map (fun v => (v.kind, v.detail))
      = some (.stationState, stationCode s.station.state new cause) := by
  obtain ⟨rest, e⟩ := told_of_prefix h
  have first : told (announceStation new cause s) = [(.stationState, stationCode s.station.state new cause)] := by
    unfold announceStation
    rw [told_raise _ _ _ (updStation _ s) (by simp [updStation, empty])]
    simp only [told, updStation, empty]
    rfl
  rw [← List.head?_map]
  show (told t).head? = _
  rw [e, first]
  rfl

/-- The events of a change of station state with the receivers off and the score at 0: STATION_STATE, those of the
receiver-off entry, CAUTION_OFF (R66); `v` is the state that the receivers' going off finds. -/
theorem zeroedOff_port {new : StationState} {cause : Nat} {s v : State} (seen : SeenAlike (announceStation new cause s) v)
    (timebase : v.timebase = s.timebase) (record : v.selector.record = s.selector.record)
    (caution : v.station.caution = s.station.caution) :
    (zeroScore (receiversGoOff v)).port = (raised ((.stationState, none, stationCode s.station.state new cause)
      :: receiversOffEvents s ++ cautionEvents s) s).port := by
  have same : receiversOffEvents v = receiversOffEvents s := by
    simp only [receiversOffEvents, roleEvents, timebase, record]
  have off := receiversGoOff_seen ((announceStation_seen (SeenAlike.refl s) new cause).trans seen)
  rw [same] at off
  refine zeroScore_port (u := s) (es := _ :: receiversOffEvents s) off ?_
  rw [receiversGoOff_frame]
  exact caution

/-! ### SENSE rises (R68) -/

/-- The pin SENSE at a level. -/
def withPin (level : Bool) (s : State) : State := { s with pins := { s.pins with sense := level } }

/-- A rise in ISOLATED (R68). -/
theorem riseSense_isolated (s : State) (low : s.pins.sense = false) (isolated : s.station.state = .isolated) :
    riseSense s = updStation (fun x => { x with settle := 0 })
      (receiversGoOff (announceStation .settling 2 (withPin true s))) := by
  have off := changeStation_off .settling 2 (withPin true s) (by rw [withPin, isolated]; rfl) rfl
  have row : riseSense s = changeStation .settling 2 (withPin true s) := by
    simp [riseSense, low, isolated, withPin]
  rw [row, off]
  rfl

/-- A rise in any other state (R68). -/
theorem riseSense_other (s : State) (low : s.pins.sense = false) (other : s.station.state ≠ .isolated) :
    riseSense s = withPin true s := by
  simp only [riseSense, low, withPin]
  cases e : s.station.state <;> simp [e] at other ⊢

/-- What a rise in ISOLATED leaves. -/
theorem riseSense_settles (s : State) (low : s.pins.sense = false) (isolated : s.station.state = .isolated) :
    let t := riseSense s
    t.station = { s.station with state := .settling, settle := 0 }
      ∧ ReceiversOff s.timebase t.timebase ∧ t.cable.state = .off ∧ t.selector = selectorOff s
      ∧ t.port = (raised ((.stationState, none, 0x1202) :: receiversOffEvents s) s).port
      ∧ t = { s with
          pins := { s.pins with sense := true }, station := t.station, timebase := t.timebase, selector := t.selector
          cable := t.cable, port := t.port } := by
  have seen := receiversGoOff_announced_seen .settling 2 (withPin true s)
  have pin : TellsAlike s (withPin true s) := ⟨rfl, rfl⟩
  have port := (pin.raised ((.stationState, none, 0x1202) :: receiversOffEvents s)).trans
    (by rw [show (withPin true s).station.state = .isolated from isolated] at seen; exact seen.tells)
  intro t
  have eq : t = _ := riseSense_isolated s low isolated
  rw [eq, receiversGoOff_announced]
  exact ⟨rfl, receiverOff_announced .settling 2 (withPin true s), rfl, rfl, port.port, rfl⟩

/-! ### SENSE drops (R68, R69, R79) -/

/-- A station that leaves the rack's traffic: in JOINED the drivers go, and with them the claim countdown (R31, R65). -/
def leavesTraffic (old : StationState) (s : State) : State :=
  if old = .joined then updSelector (fun x => { x with countdown := none }) (leaveDrivers s) else s

/-- What that changes. -/
theorem leavesTraffic_frame (old : StationState) (s : State) :
    leavesTraffic old s = { s with
      pubs := (leavesTraffic old s).pubs, txQueue := if old = .joined then [] else s.txQueue
      monitor := (leavesTraffic old s).monitor, port := (leavesTraffic old s).port
      cable := if old = .joined then { cutCable s.cable with holdOff := false } else s.cable
      selector := { s.selector with countdown := if old = .joined then none else s.selector.countdown }
      station := if old = .joined then
          { s.station with freshPending := false, retireSent := false, clash := 0, retireTimer := 0 }
        else s.station } := by
  unfold leavesTraffic
  split
  · rw [leaveDrivers_frame]; rfl
  · rfl

/-- Its events enter last. -/
theorem leavesTraffic_prefix (old : StationState) (s : State) :
    s.port.events <+: (leavesTraffic old s).port.events := by
  unfold leavesTraffic
  split
  · exact leaveDrivers_prefix s
  · exact List.prefix_refl _

/-- While no commit waits, events do not see it. -/
theorem leavesTraffic_seen (old : StationState) (s : State) (free : NoCommitWaits s) :
    SeenAlike s (leavesTraffic old s) := by
  unfold leavesTraffic
  split
  · have seen := leaveDrivers_seen s free
    exact ⟨seen.ticks, seen.roster, seen.pubs, seen.subs, seen.monitor, seen.port⟩
  · exact .refl s

/-- A station of the rack that has lost its cable, before the roster is told (R65, R79, R80). -/
def cutOff (s : State) : State :=
  updStation (fun x => { x with listen := 0, recovery := 0 })
    (zeroScore (receiversGoOff (leavesTraffic s.station.state (announceStation .isolated 5 s))))

/-- LISTEN, JOINED and SILENCED lose the cable (R79, R96). -/
theorem changeStation_cutOff (s : State)
    (on : s.station.state = .listen ∨ s.station.state = .joined ∨ s.station.state = .silenced) :
    changeStation .isolated 5 s = cableLost (cutOff s) := by
  rcases on with e | e | e
  · rw [changeStation_off _ _ _ (by rw [e]; rfl) rfl, cutOff, e]; rfl
  · simp only [changeStation, cutOff, announceStation, e, driversOn, followReceivers, receiversOn, entryEffects]
    simp [leavesTraffic, receiversGoOff]
  · rw [changeStation_off _ _ _ (by rw [e]; rfl) rfl, cutOff, e]; rfl

/-- The selector of a station whose receivers go off does not read its countdown. -/
theorem selectorOff_countdown {s u : State} {c : Option Nat} (selector : u.selector = { s.selector with countdown := c })
    (timebase : u.timebase = s.timebase) : selectorOff u = { selectorOff s with countdown := c } := by
  simp only [selectorOff, selector, timebase]
  split <;> rfl

/-- What the announced loss of the cable and the end of the traffic change. -/
theorem leavesTraffic_announced (s : State) :
    let u := leavesTraffic s.station.state (announceStation .isolated 5 s)
    u = { s with
      pubs := u.pubs, txQueue := if s.station.state = .joined then [] else s.txQueue
      monitor := u.monitor, port := u.port
      cable := if s.station.state = .joined then { cutCable s.cable with holdOff := false } else s.cable
      selector := { s.selector with countdown := if s.station.state = .joined then none else s.selector.countdown }
      station := { (if s.station.state = .joined then
            { s.station with freshPending := false, retireSent := false, clash := 0, retireTimer := 0 }
          else s.station) with state := .isolated } } := by
  intro u
  have frame : u = _ := leavesTraffic_frame s.station.state (announceStation .isolated 5 s)
  generalize u = v at frame ⊢
  rw [announceStation_frame] at frame
  rw [frame]
  split <;> rfl

/-- What the loss of the cable leaves before the roster is told (R22, R44, R65, R79, R80). -/
theorem cutOff_leaves (s : State) :
    let old := s.station.state
    let traffic := leavesTraffic old (announceStation .isolated 5 s)
    let u := cutOff s
    (u.station.state = .isolated ∧ u.station.faultScore = 0 ∧ u.station.caution = false ∧ u.station.listen = 0
        ∧ u.station.recovery = 0)
      ∧ ReceiversOff s.timebase u.timebase
      ∧ u.cable = interfaceOff (if old = .joined then { cutCable s.cable with holdOff := false } else s.cable)
      ∧ u.txQueue = (if old = .joined then [] else s.txQueue)
      ∧ u.selector = { selectorOff s with countdown := if old = .joined then none else s.selector.countdown }
      ∧ u = { s with
          pubs := traffic.pubs, monitor := traffic.monitor, station := u.station, timebase := u.timebase
          selector := u.selector, cable := u.cable, txQueue := u.txQueue, port := u.port } := by
  intro old traffic u
  have off := receiverOff_timebase traffic
  have frame : traffic = _ := leavesTraffic_announced s
  have eq : u = updStation (fun x => { x with listen := 0, recovery := 0 }) (zeroScore (receiversGoOff traffic)) := rfl
  rw [zeroScore_eq, receiversGoOff_frame] at eq
  generalize u = u at eq ⊢
  generalize traffic = v at *
  have timebase : v.timebase = s.timebase := by rw [frame]
  have selector := selectorOff_countdown (s := s) (u := v) (by rw [frame]) timebase
  rw [timebase] at off
  subst eq
  refine ⟨⟨?_, rfl, rfl, rfl, rfl⟩, off, ?_, ?_, selector, ?_⟩
  · show v.station.state = _
    rw [frame]
  · show interfaceOff v.cable = _
    rw [frame]
  · show v.txQueue = _
    rw [frame]
  · dsimp only [updStation]
    rw [frame]

/-- Its events while no commit waits (R66). -/
theorem cutOff_tells (s : State) (free : NoCommitWaits s) :
    TellsAlike (raised ((.stationState, none, stationCode s.station.state .isolated 5)
      :: receiversOffEvents s ++ cautionEvents s) s) (cutOff s) := by
  have waits := noCommitWaits_announced .isolated 5 free
  have frame := leavesTraffic_announced s
  refine .of_port (receiversOff_ticks (cutOff_leaves s).2.1) ?_
  refine zeroedOff_port (leavesTraffic_seen s.station.state _ waits) (by rw [frame]) (by rw [frame]) ?_
  rw [frame]
  dsimp only
  split <;> rfl

/-- STATION_STATE enters before every other event of the loss of the cable (R66). -/
theorem cutOff_prefix (s : State) : (announceStation .isolated 5 s).port.events <+: (cableLost (cutOff s)).port.events := by
  have lost : (cutOff s).port.events <+: (cableLost (cutOff s)).port.events := by
    rw [(cableLost_lostPeers (cutOff s)).told.port]
    exact raised_prefix _ _
  exact (leavesTraffic_prefix s.station.state _).trans ((receiverOff_prefix _).trans
    ((zeroScore_prefix (receiversGoOff (leavesTraffic s.station.state (announceStation .isolated 5 s)))).trans lost))

/-- A drop in LISTEN, JOINED or SILENCED loses the cable (R79). -/
theorem dropSense_cutOff (s : State) (high : s.pins.sense = true)
    (on : s.station.state = .listen ∨ s.station.state = .joined ∨ s.station.state = .silenced) :
    dropSense s = cableLost (cutOff (withPin false s)) := by
  rw [← changeStation_cutOff (withPin false s) on]
  rcases on with e | e | e <;> simp [dropSense, high, e, withPin]

/-- A drop in RETIRING leaves the rack (R79). -/
theorem dropSense_retiring (s : State) (high : s.pins.sense = true) (retiring : s.station.state = .retiring) :
    dropSense s = changeStation .detached 5 (withPin false s) := by
  simp [dropSense, high, retiring, withPin]

/-- A drop in SETTLING sets the settle count back (R69). -/
theorem dropSense_settling (s : State) (high : s.pins.sense = true) (settling : s.station.state = .settling) :
    dropSense s = updStation (fun x => { x with settle := 0 }) (withPin false s) := by
  simp [dropSense, high, settling, withPin]

/-- A drop where the cable does not matter (R68). -/
theorem dropSense_other (s : State) (high : s.pins.sense = true)
    (other : s.station.state = .offline ∨ s.station.state = .isolated ∨ s.station.state = .detached
      ∨ s.station.state = .duplicate) : dropSense s = withPin false s := by
  rcases other with e | e | e | e <;> simp [dropSense, high, e, withPin]

/-- A retirement that ends in DETACHED while no commit waits: its events, and what it can change (R65, R74). -/
theorem detached_free (cause : Nat) (s : State) (retiring : s.station.state = .retiring) (free : NoCommitWaits s) :
    let t := changeStation .detached cause s
    t.port = (raised ((.stationState, none, stationCode .retiring .detached cause)
        :: receiversOffEvents s ++ cautionEvents s) s).port
      ∧ t = { s with
          station := t.station, timebase := t.timebase, selector := t.selector, cable := t.cable
          txQueue := t.txQueue, port := t.port } := by
  have waits := noCommitWaits_announced .detached cause free
  have lost := leaveDrivers_free _ waits
  intro t
  have eq : t = updStation _ _ := changeStation_detached cause s retiring
  have port := zeroedOff_port (leaveDrivers_seen _ waits)
    (by rw [lost, announceStation_frame]) (by rw [lost, announceStation_frame]) (by rw [lost, announceStation_frame])
  rw [retiring] at port
  refine ⟨eq ▸ port, ?_⟩
  rw [eq, zeroScore_eq, receiversGoOff_frame, lost, announceStation_frame]
  rfl

/-- `t` is `s` after a lost cable has put it in ISOLATED (R65, R79, R80, R96), and, while no commit waits, the events. -/
structure LostCable (s t : State) : Prop where
  station : t.station.state = .isolated ∧ t.station.faultScore = 0 ∧ t.station.caution = false ∧ t.station.listen = 0
    ∧ t.station.recovery = 0
  pins : t.pins = s.pins
  timebase : ReceiversOff s.timebase t.timebase
  cable : t.cable.state = .off ∧ t.cable.flight = none ∧ t.cable.claim = none ∧ t.cable.rx0 = .empty
    ∧ t.cable.rx1 = .empty
  drivers : s.station.state = .joined → t.txQueue = [] ∧ t.cable.holdOff = false
  selector : t.selector = { selectorOff s with
    countdown := if s.station.state = .joined then none else s.selector.countdown }
  roster : ∀ i : Fin 24, t.roster[i] = if s.roster[i].state = .absent then s.roster[i]
    else { s.roster[i] with state := .silent, heard := false }
  subs : ∀ j : Fin 32, t.subs[j] = ({ s.subs[j] with
    state := if s.subs[j].state = .live ∧ ∃ i : Fin 24, losesPeer s.roster[i] = true
      ∧ s.subs[j].publisher = i.val + 1 then .stale else s.subs[j].state } : Subscription)
  announced : (announceStation .isolated 5 s).port.events <+: t.port.events
  told : NoCommitWaits s → t.port = (raised ((.stationState, none, stationCode s.station.state .isolated 5)
    :: receiversOffEvents s ++ cautionEvents s ++ lostPeerEvents s) s).port
  frame : NoCommitWaits s → t = { s with
    station := t.station, timebase := t.timebase, selector := t.selector, cable := t.cable
    txQueue := t.txQueue, roster := t.roster, subs := t.subs, port := t.port }

/-- That is what a lost cable leaves. -/
theorem lostCable_cutOff (s : State) : LostCable s (cableLost (cutOff s)) := by
  obtain ⟨station, timebase, cable, queue, selector, inner⟩ := cutOff_leaves s
  have sameRoster : (cutOff s).roster = s.roster := by rw [inner]
  have sameSubs : (cutOff s).subs = s.subs := by rw [inner]
  obtain ⟨roster, subs, told⟩ := cableLost_lostPeers (cutOff s)
  have outer := cableLost_frame (cutOff s)
  refine ⟨?_, ?_, ?_, ?_, ?_, ?_, fun i => ?_, fun j => ?_, cutOff_prefix s, fun free => ?_, fun free => ?_⟩
  · rw [outer]; exact station
  · rw [outer, inner]
  · rw [outer]; exact timebase
  · rw [outer]
    dsimp only
    rw [cable]
    exact ⟨rfl, rfl, rfl, rfl, rfl⟩
  · intro joined
    rw [outer]
    dsimp only
    rw [queue, cable, if_pos joined, if_pos joined]
    exact ⟨rfl, rfl⟩
  · rw [outer]; exact selector
  · rw [roster, if_pos (List.mem_finRange i), sameRoster]
    rfl
  · rw [subs, if_congr (losesSub_iff (cutOff s) j) rfl rfl, sameRoster, sameSubs]
    split <;> rfl
  · rw [told.port, lossEvents_eq sameRoster sameSubs, raised_append]
    exact ((cutOff_tells s free).raised _).port
  · have traffic := leavesTraffic_seen s.station.state _ (noCommitWaits_announced .isolated 5 free)
    have pubs : (leavesTraffic s.station.state (announceStation .isolated 5 s)).pubs = s.pubs :=
      traffic.pubs.trans (raise_pubs _ _ _ _)
    have monitor : (leavesTraffic s.station.state (announceStation .isolated 5 s)).monitor = s.monitor :=
      traffic.monitor.trans (raise_monitor _ _ _ _)
    rw [pubs, monitor] at inner
    generalize cableLost (cutOff s) = t at outer ⊢
    rw [outer, inner]

/-! ### The ends of counts -/

/-- SETTLING ends in LISTEN: the receivers come on, the interface in GUARD (R9, R44, R69). -/
theorem changeStation_settled (s : State) (settling : s.station.state = .settling) :
    changeStation .listen 3 s = updStation (fun x => { x with listen := 0 })
      (enterGuard (updTimebase (fun t => { t with windowSkip := true }) (announceStation .listen 3 s))) := by
  simp only [changeStation, settling, announceStation, driversOn, receiversOn, followReceivers, entryEffects]
  simp

/-- LISTEN ends in JOINED, with STATION_STATE alone (R70). -/
theorem changeStation_joins (s : State) (listens : s.station.state = .listen) :
    changeStation .joined 4 s = announceStation .joined 4 s := by
  simp only [changeStation, listens, announceStation, driversOn, receiversOn, followReceivers, entryEffects]
  simp

/-- SILENCED ends in LISTEN, with the score at 0 (R80, R83). -/
theorem changeStation_recovers (s : State) (silenced : s.station.state = .silenced) :
    changeStation .listen 13 s = zeroScore (updStation (fun x => { x with listen := 0 }) (announceStation .listen 13 s)) := by
  simp only [changeStation, silenced, announceStation, driversOn, receiversOn, followReceivers, entryEffects]
  simp

/-- An event before a step was cleared is the one after. -/
theorem clearDue_raised (d : Due) (es : List (EventKind × Option Nat × BitVec 16)) (s : State) :
    (raised es (clearDue d s)).port = (raised es s).port :=
  (((clearDue_seen d s).symm.raised es).port)

/-- The row of the settle count's end (R44, R69). -/
theorem exec_settleComplete (s : State) (due : Due.settleComplete ∈ s.due) (settling : s.station.state = .settling)
    (count : 4096 ≤ s.station.settle) :
    ∃ t, exec .settleComplete s = .next t ∧ t.port = (raise .stationState none 0x2303 s).port
      ∧ t = { clearDue .settleComplete s with
        port := t.port, station := { s.station with state := .listen, listen := 0 }
        cable := { s.cable with state := .guard, guardCount := 0 }
        timebase := { s.timebase with windowSkip := true } } := by
  have row : exec .settleComplete s = .next (changeStation .listen 3 (clearDue .settleComplete s)) :=
    congrArg _ ((clockRow_due _ _ _ completeSettle s due).trans (if_pos ⟨settling, count⟩))
  have told := announceStation_seen (clearDue_seen .settleComplete s).symm .listen 3
  rw [clearDue_station, settling] at told
  rw [changeStation_settled (clearDue .settleComplete s) settling, announceStation_frame] at row
  exact ⟨_, row, told.port, rfl⟩

/-- The row of the listen count's end (R70, R72). -/
theorem exec_listenComplete (s : State) (due : Due.listenComplete ∈ s.due) (listens : s.station.state = .listen)
    (count : 24 ≤ s.station.listen) :
    exec .listenComplete s = .next (enqueue .presence { clearDue .listenComplete s with
      port := (raise .stationState none 0x3404 s).port
      station := { s.station with state := .joined, clash := 0, freshPending := true } }) := by
  have row : exec .listenComplete s = .next (setFresh (updStation (fun x => { x with clash := 0 })
      (changeStation .joined 4 (clearDue .listenComplete s)))) :=
    (next_dueRow _ s due).trans (congrArg _ (if_pos ⟨listens, count⟩))
  have told := announceStation_seen (clearDue_seen .listenComplete s).symm .joined 4
  rw [clearDue_station, listens] at told
  rw [row, changeStation_joins (clearDue .listenComplete s) listens, announceStation_frame, told.port]
  rfl

/-- The row of the recovery count's end (R83). -/
theorem exec_recoveryComplete (s : State) (due : Due.recoveryComplete ∈ s.due) (silenced : s.station.state = .silenced)
    (count : 32 ≤ s.station.recovery) :
    let u := raise .stationState none 0x830D s
    ∃ t, exec .recoveryComplete s = .next t
      ∧ t.port = (if s.station.caution then raise .cautionOff none 0 u else u).port
      ∧ t = { clearDue .recoveryComplete s with
        port := t.port
        station := { s.station with state := .listen, listen := 0, faultScore := 0, caution := false } } := by
  intro u
  have row : exec .recoveryComplete s = .next (changeStation .listen 13 (clearDue .recoveryComplete s)) :=
    (next_dueRow _ s due).trans (congrArg _ (if_pos ⟨silenced, count⟩))
  have told := announceStation_seen (clearDue_seen .recoveryComplete s).symm .listen 13
  rw [clearDue_station, silenced] at told
  have zeroed : SeenAlike (raised [(.stationState, none, 0x830D)] s)
      (updStation (fun x => { x with listen := 0 }) (announceStation .listen 13 (clearDue .recoveryComplete s))) :=
    ⟨told.ticks, told.roster, told.pubs, told.subs, told.monitor, told.port⟩
  have port := zeroScore_port zeroed (by rw [announceStation_frame]; rfl)
  refine ⟨_, row, ?_, ?_⟩
  · rw [changeStation_recovers (clearDue .recoveryComplete s) silenced, port]
    cases e : s.station.caution <;> simp [cautionEvents, e, raised, u]
  · rw [changeStation_recovers (clearDue .recoveryComplete s) silenced, zeroScore_eq, announceStation_frame]
    rfl

/-- The row of the retire timer's end (R77). -/
theorem exec_retireTimeout (s : State) (due : Due.retireTimeout ∈ s.due) (idle : Due.handoverComplete ∉ s.due)
    (retiring : s.station.state = .retiring) (count : 64 ≤ s.station.retireTimer) :
    exec .retireTimeout s
      = .next (changeStation .detached (if s.station.retireSent then 11 else 10) (clearDue .retireTimeout s)) := by
  have waits : takeDue .handoverComplete s = s := if_neg idle
  refine (congrArg (fun u => Host.Outcome.next (dueRow .retireTimeout (fun _ => true) u)) waits).trans ?_
  exact (next_dueRow _ s due).trans (congrArg _ (if_pos ⟨retiring, count⟩))

/-- The row of the lapse count's end (R84). -/
theorem exec_serviceLapsed (s : State) (due : Due.serviceLapsed ∈ s.due) (on : 0 < s.station.interval)
    (count : s.station.lapse = s.station.interval) :
    exec .serviceLapsed s = .next (raise .serviceLapsed none (BitVec.ofNat 16 s.station.interval)
      { clearDue .serviceLapsed s with station := { s.station with hostAlive := false } }) :=
  (next_dueRow _ s due).trans (congrArg _ (if_pos ⟨on, count⟩))

/-! ### The statement -/

/-- The pin, events do not see. -/
theorem withPin_raised (level : Bool) (es : List (EventKind × Option Nat × BitVec 16)) (s : State) :
    (raised es (withPin level s)).port = (raised es s).port :=
  (TellsAlike.raised (s := s) (t := withPin level s) ⟨rfl, rfl⟩ es).port

/-- Settles O25: the rise and the drop in each station state, then the ends of the counts. -/
theorem senseAndCountsMoveTheStation : Obligations.SenseAndCountsMoveTheStation := by
  refine ⟨fun s q => ?sense, fun s => ⟨exec_settleComplete s, fun due listens count => ?joins, exec_recoveryComplete s,
    fun due idle retiring count => ?retires, exec_serviceLapsed s⟩⟩
  case joins => exact ⟨_, rfl, exec_listenComplete s due listens count⟩
  case retires =>
    obtain ⟨left, -⟩ := detached_leftTheRack (if s.station.retireSent then 11 else 10) (clearDue .retireTimeout s) retiring
    obtain ⟨state, score, -, sent, timer, -, -, -, queue, cable, -, safe, off⟩ := left
    have code : stationCode .retiring .detached (if s.station.retireSent then 11 else 10)
        = if s.station.retireSent then 0x560B else 0x560A := by cases s.station.retireSent <;> rfl
    refine ⟨_, exec_retireTimeout s due idle retiring count, state, timer, sent, score, queue, cable, safe, off,
      fun empty => ?_, fun free => ?_⟩
    · rw [← code, ← retiring]
      exact first_of_announced (s := clearDue .retireTimeout s) empty (detached_prefix _ _ retiring)
    · rw [← code]
      exact (detached_free _ (clearDue .retireTimeout s) retiring free).1.trans (clearDue_raised _ _ s)
  case sense =>
    intro x low high
    have row (i : Instr) (act : State → State) (h : exec i s = .next (outsideRow act s)) : exec i s = .next (act s) := by
      rw [h, outsideRow_quiet act s q]
    have drop := row .senseDrop dropSense rfl
    have rise := row .senseRise riseSense rfl
    refine ⟨fun off isolated => ⟨_, rise, riseSense_settles s off isolated⟩, fun off other => ?_, fun on settling => ?_,
      fun on other => ?_, fun on member => ?lost, fun on retiring => ?left⟩
    · rw [rise, riseSense_other s off other]; rfl
    · rw [drop, dropSense_settling s on settling]; rfl
    · rw [drop, dropSense_other s on other]; rfl
    case lost =>
      rw [dropSense_cutOff s on member] at drop
      have lost := lostCable_cutOff (withPin false s)
      obtain ⟨state, score, caution, listen, recovery⟩ := lost.station
      obtain ⟨interface, flight, claim, rx0, rx1⟩ := lost.cable
      refine ⟨_, drop, state, score, caution, listen, recovery, lost.pins, lost.timebase, interface, flight, claim, rx0,
        rx1, lost.drivers, lost.selector, lost.roster, lost.subs, fun empty => ?_, fun free => ⟨?_, lost.frame free⟩⟩
      · exact first_of_announced (s := withPin false s) empty lost.announced
      · exact (lost.told free).trans (withPin_raised false _ s)
    case left =>
      rw [dropSense_retiring s on retiring] at drop
      obtain ⟨left, selector, -, -⟩ := detached_leftTheRack 5 (withPin false s) retiring
      refine ⟨_, drop, left, selector, fun empty => ?_, fun free => ?_⟩
      · have first := first_of_announced (s := withPin false s) empty (detached_prefix 5 _ retiring)
        rwa [show (withPin false s).station.state = .retiring from retiring] at first
      · obtain ⟨port, frame⟩ := detached_free 5 (withPin false s) retiring free
        exact ⟨port.trans (withPin_raised false _ s), frame⟩

end Sys2Proof.Machine
end

section
/-! PROOF. The interval check at the roster and the subscriptions, and what a boundary does to the transmit queue. -/

namespace Sys2Proof.Machine
open Sys2Proof.Claims

/-! ### The interval check of one entry (R93) -/

/-- Two changes of an element that give it the same content are the same. -/
theorem upd_congr {α : Type} {n : Nat} {v : Vector α n} {i : Fin n} {f g : α → α} (h : f v[i] = g v[i]) :
    upd v i f = upd v i g := by
  simp only [upd, h]

/-- The check of an entry as a change of the entry, told in a report when its state changes (R93, R97): `v` is the state
before the report. -/
def ChecksPeer (s : State) (i : Fin 24) (v t : State) : Prop :=
  t = (if ageReports s i then changeReport (peerAddress i) v else v) ∧ v.roster = upd s.roster i agedPeer
    ∧ v.subs = s.subs

/-- An entry that the check leaves in its state. -/
theorem checksPeer_kept {s : State} {i : Fin 24} {f : RosterEntry → RosterEntry}
    (aged : agedPeer s.roster[i] = f s.roster[i])
    (same : (f s.roster[i]).state = s.roster[i].state) : ChecksPeer s i (updPeer i f s) (updPeer i f s) := by
  have silent : ageReports s i = false := by
    rw [ageReports, aged, same]
    exact decide_eq_false fun h => h rfl
  exact ⟨by rw [silent]; rfl, upd_congr aged.symm, rfl⟩

/-- An entry whose state changes at the check, with what the roster raises for it. -/
theorem checksPeer_moved {s u : State} {i : Fin 24} {f g : RosterEntry → RosterEntry}
    (aged : agedPeer s.roster[i] = f (g s.roster[i]))
    (moved : (f (g s.roster[i])).state ≠ s.roster[i].state)
    (frame : u = { updPeer i f (updPeer i g s) with port := u.port }) :
    ChecksPeer s i u (changeReport (peerAddress i) u) := by
  have told : ageReports s i = true := by
    rw [ageReports, aged]
    exact decide_eq_true moved.symm
  refine ⟨by rw [told]; rfl, ?_, by rw [frame]; rfl⟩
  rw [frame]
  exact (upd_upd s.roster i g f).trans (upd_congr aged.symm)

/-- A miss is counted. -/
def missed (e : RosterEntry) : RosterEntry := { e with missed := e.missed + 1 }

/-- The misses bring a change of state: a SEEN entry at 2, a PRESENT one at 3, a SILENT or RETIRED one at 8 (R93). -/
def LastMiss (e : RosterEntry) : Prop :=
  (e.state = .seen ∧ 2 ≤ e.missed + 1) ∨ (e.state = .present ∧ 3 ≤ e.missed + 1)
    ∨ ((e.state = .silent ∨ e.state = .retired) ∧ 8 ≤ e.missed + 1)

/-- A miss that changes nothing else. -/
theorem agedPeer_missed {e : RosterEntry} (known : e.state ≠ .absent) (unheard : e.heard = false) (h : ¬ LastMiss e) :
    agedPeer e = missed e := by
  simp only [LastMiss, not_or] at h
  obtain ⟨seen, present, lost⟩ := h
  simp only [agedPeer, known, unheard, seen, present, lost, or_false, if_false, Bool.false_eq_true, missed]

/-- The last miss of a SEEN, SILENT or RETIRED entry clears it. -/
theorem agedPeer_cleared {e : RosterEntry} (known : e.state ≠ .absent) (unheard : e.heard = false) (h : LastMiss e)
    (other : e.state ≠ .present) : agedPeer e = .cleared e.marked := by
  have last := h.imp_right fun h => h.resolve_left fun p => other p.1
  simp only [agedPeer, known, unheard, last, if_true, if_false, Bool.false_eq_true]

/-- The last miss of a PRESENT entry silences it. -/
theorem agedPeer_silenced {e : RosterEntry} (present : e.state = .present) (unheard : e.heard = false)
    (last : 3 ≤ e.missed + 1) : agedPeer e = { missed e with state := .silent } := by
  simp [agedPeer, present, unheard, last, missed]

/-- The check of an entry (R93). -/
theorem checkPeer_checks (s : State) (i : Fin 24) : ∃ v, ChecksPeer s i v (checkPeer s i) := by
  by_cases absent : s.roster[i].state = .absent
  · have same : checkPeer s i = updPeer i id s := (if_pos absent).trans (updPeer_self rfl).symm
    rw [same]
    exact ⟨_, checksPeer_kept (if_pos absent) rfl⟩
  cases heard : s.roster[i].heard with
  | true =>
    have same : checkPeer s i = updPeer i (fun e => { e with heard := false }) s := (if_neg absent).trans (if_pos heard)
    rw [same]
    exact ⟨_, checksPeer_kept ((if_neg absent).trans (if_pos heard)) rfl⟩
  | false =>
    have row : checkPeer s i = _ := (if_neg absent).trans (if_neg (by rw [heard]; nofun))
    rw [row]
    by_cases last : LastMiss s.roster[i]
    · have cleared (other : s.roster[i].state ≠ .present) := agedPeer_cleared absent heard last other
      rcases last with ⟨e, count⟩ | ⟨e, count⟩ | ⟨e, count⟩
      · simp only [e, if_pos count]
        exact ⟨_, checksPeer_moved (f := fun e => .cleared e.marked) (g := missed) (cleared (by rw [e]; nofun))
          (by rw [e]; nofun) rfl⟩
      · simp only [e, if_pos count]
        exact ⟨_, checksPeer_moved (f := fun e => { e with state := .silent }) (g := missed)
          (agedPeer_silenced e heard count) (by rw [e]; nofun) (raise_frame _ _ _ _)⟩
      · have moved : RosterEntry.state (.cleared s.roster[i].marked) ≠ s.roster[i].state := Ne.symm absent
        rcases e with e | e
        all_goals
          simp only [e, if_pos count]
          exact ⟨_, checksPeer_moved (f := fun e => .cleared e.marked) (g := missed) (cleared (by rw [e]; nofun))
            moved (raise_frame _ _ _ _)⟩
    · have stays : ∃ v, ChecksPeer s i v (updPeer i missed s) :=
        ⟨_, checksPeer_kept (agedPeer_missed absent heard last) rfl⟩
      simp only [LastMiss, not_or, not_and] at last
      obtain ⟨seen, present, lost⟩ := last
      cases e : s.roster[i].state with
      | absent => exact absurd e absent
      | seen => simp only [if_neg (seen e)]; exact stays
      | present => simp only [if_neg (present e)]; exact stays
      | silent => simp only [if_neg (lost (.inl e))]; exact stays
      | retired => simp only [if_neg (lost (.inr e))]; exact stays

/-- What the check makes of the roster. -/
theorem checkPeer_roster (s : State) (i : Fin 24) : (checkPeer s i).roster = upd s.roster i agedPeer := by
  obtain ⟨v, eq, roster, -⟩ := checkPeer_checks s i
  rw [eq, ← roster]
  split
  · exact changeReport_roster _ v
  · rfl

/-- An entry whose state changes at the check is not PRESENT after it (R93). -/
theorem agedPeer_moved {e : RosterEntry} (moved : e.state ≠ (agedPeer e).state) : (agedPeer e).state ≠ .present := by
  have states : (agedPeer e).state = e.state ∨ (agedPeer e).state = .absent ∨ (agedPeer e).state = .silent := by
    unfold agedPeer
    dsimp only
    split_ifs
    exacts [.inl rfl, .inl rfl, .inr (.inl rfl), .inr (.inr rfl), .inl rfl]
  rcases states with same | absent | silent
  · exact absurd same.symm moved
  · rw [absent]; nofun
  · rw [silent]; nofun

/-- What it makes of the subscriptions (R97, R138). -/
theorem checkPeer_subs (s : State) (i : Fin 24) (j : Fin 32) :
    (checkPeer s i).subs[j]
      = if ageReports s i = true ∧ subscribedTo s i j = true then wentStale s.subs[j] else s.subs[j] := by
  obtain ⟨v, eq, roster, subs⟩ := checkPeer_checks s i
  rw [eq]
  by_cases reports : ageReports s i = true
  · have gone : v.roster[i].state ≠ .present := by
      rw [roster, upd_get]
      exact agedPeer_moved (of_decide_eq_true reports)
    rw [if_pos reports, (changeReport_gone v i gone).subs, subscribedTo_congr subs, subs]
    simp only [List.mem_finRange, reports]
  · rw [if_neg reports, if_neg fun c => reports c.1, subs]

/-! ### The interval check does not read the port -/

/-- `t` has the roster and the subscriptions of `s`. -/
structure TablesAlike (s t : State) : Prop where
  roster : t.roster = s.roster
  subs : t.subs = s.subs

theorem TablesAlike.trans {s t u : State} (h : TablesAlike s t) (g : TablesAlike t u) : TablesAlike s u :=
  ⟨g.roster.trans h.roster, g.subs.trans h.subs⟩

/-- The check of an entry comes out the same. -/
theorem TablesAlike.checkPeer {s t : State} (h : TablesAlike s t) (i : Fin 24) :
    TablesAlike (checkPeer s i) (checkPeer t i) := by
  refine ⟨by rw [checkPeer_roster, checkPeer_roster, h.roster], Vector.ext fun j lt => ?_⟩
  have reports : ageReports t i = ageReports s i := by simp only [ageReports, h.roster]
  have one := checkPeer_subs s i ⟨j, lt⟩
  rw [← reports, ← subscribedTo_congr h.subs, ← h.subs] at one
  exact (checkPeer_subs t i ⟨j, lt⟩).trans one.symm

/-- So does the roster's part of a boundary. -/
theorem TablesAlike.rosterBoundary {s t : State} (h : TablesAlike s t) (n : Nat) :
    TablesAlike (rosterBoundary n s) (rosterBoundary n t) := by
  have fold (xs : List (Fin 24)) : TablesAlike (xs.foldl Machine.checkPeer s) (xs.foldl Machine.checkPeer t) := by
    induction xs generalizing s t with
    | nil => exact h
    | cons i rest ih => exact ih (h.checkPeer i)
  unfold Machine.rosterBoundary
  split
  · exact fold _
  · exact h

/-- The roster's part of a boundary leaves the pulls. -/
theorem rosterBoundary_pull (n : Nat) (s : State) (j : Fin 32) :
    (rosterBoundary n s).subs[j].pull = s.subs[j].pull := by
  have fold : (intervalCheck s).subs[j].pull = s.subs[j].pull := by
    refine foldl_keeps (fun s t => t.subs[j].pull = s.subs[j].pull) checkPeer (fun _ => rfl)
      (fun a b c h g => g.trans h) (fun s i => ?_) _ s
    rw [checkPeer_subs]
    split <;> rfl
  unfold rosterBoundary
  split
  · exact fold
  · rfl

/-! ### The presence of a boundary (R55, R72) -/

/-- An entry of class 0 goes before the first of a higher class. -/
theorem insertEntry_split (e : TxEntry) (zero : e.cls = 0) (q : List TxEntry) :
    ∃ before rest, q = before ++ rest ∧ insertEntry e q = before ++ e :: rest ∧ (∀ x ∈ before, x.cls = 0)
      ∧ ∀ x ∈ rest.head?, 0 < x.cls := by
  induction q with
  | nil => exact ⟨[], [], rfl, rfl, nofun, nofun⟩
  | cons x tail ih =>
    by_cases above : e.cls < x.cls
    · refine ⟨[], x :: tail, rfl, if_pos above, nofun, fun y mem => ?_⟩
      cases Option.some.inj mem
      omega
    · obtain ⟨before, rest, split, placed, low, high⟩ := ih
      refine ⟨x :: before, rest, by rw [split]; rfl, ?_, ?_, high⟩
      · rw [insertEntry, if_neg above, placed]; rfl
      · simpa using ⟨by omega, low⟩

/-- In a queue in order of class the rest is of higher classes. -/
theorem pos_of_ordered {before rest : List TxEntry} (ordered : (before ++ rest).Pairwise fun a b => a.cls ≤ b.cls)
    (high : ∀ x ∈ rest.head?, 0 < x.cls) : ∀ x ∈ rest, 0 < x.cls := by
  cases rest with
  | nil => nofun
  | cons y tail =>
    have first : 0 < y.cls := high y rfl
    obtain ⟨-, ordered, -⟩ := List.pairwise_append.1 ordered
    obtain ⟨above, -⟩ := List.pairwise_cons.1 ordered
    intro x mem
    rcases List.mem_cons.1 mem with rfl | mem
    · exact first
    · exact first.trans_le (above x mem)

end Sys2Proof.Machine
end

section
/-! PROOF. An epoch boundary at the station controller, the roster, the subscriptions and the generators. -/

namespace Sys2Proof.Machine
open Sys2Proof.Claims

/-! ### The station controller's counts (R70, R72, R84) -/

/-- The listen count, and its end (R70). -/
theorem countListen_eq (s : State) :
    countListen s = markIf (decide (s.station.state = .listen ∧ 23 ≤ s.station.listen)) .listenComplete { s with
      station := { s.station with
        listen := if s.station.state = .listen then min 24 (s.station.listen + 1) else s.station.listen } } := by
  unfold countListen
  by_cases listens : s.station.state = .listen
  · have last : decide (24 ≤ s.station.listen + 1) = decide (23 ≤ s.station.listen) := decide_eq_decide.2 (by omega)
    simp only [listens, if_true, true_and, last, updStation]
  · simp only [listens, if_false, false_and, decide_false]
    rfl

/-- The lapse count, and its end (R84). -/
theorem serviceCheck_eq (s : State) :
    let x := s.station
    serviceCheck s = markIf (decide ((0 < x.interval ∧ x.lapse < x.interval) ∧ x.lapse + 1 = x.interval)) .serviceLapsed
      { s with station := { x with lapse := if 0 < x.interval ∧ x.lapse < x.interval then x.lapse + 1
          else x.lapse } } := by
  intro x
  unfold serviceCheck
  dsimp only
  by_cases rises : 0 < s.station.interval ∧ s.station.lapse < s.station.interval
  · simp only [x, rises, and_self, if_true, true_and, updStation]
  · simp only [x, rises, if_false, false_and, decide_false]
    rfl

/-- The queue after the presence of a boundary (R55, R72). -/
def presenceQueue (s : State) : List TxEntry :=
  if (s.station.state = .joined ∨ s.station.state = .retiring ∧ s.station.retireSent = false)
      ∧ queued s .presence = false then
    insertEntry { kind := .presence, cls := 0 } s.txQueue
  else s.txQueue

/-- The presence of a boundary (R55, R72). -/
theorem schedulePresence_eq (s : State) : schedulePresence s = { s with txQueue := presenceQueue s } := by
  unfold schedulePresence presenceQueue
  by_cases announces : s.station.state = .joined ∨ s.station.state = .retiring ∧ s.station.retireSent = false
  · have on : driversOn s.station.state = true := by rcases announces with e | ⟨e, -⟩ <;> rw [e] <;> rfl
    rw [if_pos announces, enqueue_own .presence (.inl rfl) s on]
    cases queued s .presence <;> simp [announces, entryClass]
  · rw [if_neg announces, if_neg fun c => announces c.1]

/-- The station after the controller's part of the boundary of epoch `n`. -/
theorem controllerBoundary_counts (n : Nat) (s : State) :
    let x := s.station
    (controllerBoundary n s).station = { x with
      listen := if x.state = .listen then min 24 (x.listen + 1) else x.listen
      lapse := if n % 8 = 0 ∧ 0 < x.interval ∧ x.lapse < x.interval then x.lapse + 1 else x.lapse } := by
  intro x
  unfold controllerBoundary presenceBoundary
  by_cases interval : n % 8 = 0
  · simp [interval, serviceCheck_eq, schedulePresence_eq, countListen_eq, x]
  · simp [interval, countListen_eq, x]

/-- The queue after it. -/
theorem controllerBoundary_queue (n : Nat) (s : State) :
    (controllerBoundary n s).txQueue = if n % 8 = 0 then presenceQueue s else s.txQueue := by
  unfold controllerBoundary presenceBoundary
  by_cases interval : n % 8 = 0
  · simp [interval, serviceCheck_eq, schedulePresence_eq, countListen_eq, presenceQueue, queued]
  · simp [interval, countListen_eq]

/-- What it makes fall due (R70, R84). -/
theorem mem_controllerBoundary_counts (d : Due) (n : Nat) (s : State) :
    let x := s.station
    d ∈ (controllerBoundary n s).due ↔ d ∈ s.due ∨ (d = .listenComplete ∧ x.state = .listen ∧ 23 ≤ x.listen)
      ∨ (d = .serviceLapsed ∧ (n % 8 = 0 ∧ 0 < x.interval ∧ x.lapse < x.interval) ∧ x.lapse + 1 = x.interval) := by
  intro x
  unfold controllerBoundary presenceBoundary
  by_cases interval : n % 8 = 0
  · simp [interval, serviceCheck_eq, schedulePresence_eq, countListen_eq, mem_markIf, x]
    tauto
  · simp [interval, countListen_eq, mem_markIf, x]
    tauto

/-! ### What falls due behind the selector's and the roster's work (R77, R139, R141, R167) -/

/-- The retire timer of a boundary, and its end (R77). -/
theorem retireBoundary_eq (s : State) :
    let ages := s.station.state = .retiring ∧ Due.handoverComplete ∉ s.due
    retireBoundary s = markIf (decide (ages ∧ 63 ≤ s.station.retireTimer)) .retireTimeout { s with
      station := { s.station with
        retireTimer := if ages then min 64 (s.station.retireTimer + 1) else s.station.retireTimer } } := by
  intro ages
  by_cases completes : Due.handoverComplete ∈ s.due
  · have not : ¬ ages := fun c => c.2 completes
    simp only [retireBoundary_completing s completes, not, false_and, decide_false, if_false]
    rfl
  · rw [retireBoundary_other s completes]
    by_cases retiring : s.station.state = .retiring
    · have last : decide (64 ≤ s.station.retireTimer + 1) = decide (63 ≤ s.station.retireTimer) :=
        decide_eq_decide.2 (by omega)
      simp only [countRetire_retiring s retiring, ages, retiring, completes, not_false_eq_true, and_self, true_and,
        if_true, last]
    · have not : ¬ ages := fun c => retiring c.1
      simp only [countRetire_other s retiring, not, false_and, decide_false, if_false]
      rfl

/-- The stale test finds a timeout passed (R139). -/
theorem staleTimeoutPassed_iff (s : State) (j : Fin 32) :
    staleTimeoutPassed s j = true ↔ s.subs[j].state = .live
      ∧ (epoch32 s.timebase - (s.subs[j].lastBlock + BitVec.ofNat 32 s.subs[j].staleTimeout)).toNat < 2 ^ 31 := by
  simp only [staleTimeoutPassed, Bool.and_eq_true, beq_iff_eq, atOrAfter_iff]

/-- A pull's deadline has passed (R141). -/
theorem pullDeadlinePassed_iff (s : State) (j : Fin 32) :
    pullDeadlinePassed s j = true
      ↔ ∃ p, s.subs[j].pull = some p ∧ (epoch32 s.timebase - p.deadline).toNat < 2 ^ 31 := by
  unfold pullDeadlinePassed
  cases s.subs[j].pull with
  | none => simp
  | some p => simp only [atOrAfter_iff, Option.some.injEq, exists_eq_left']

/-- A boundary reaches the arm epoch of a generator (R167). -/
theorem armReached_iff (t : Timebase) (g : Generator) :
    armReached t g = true ↔ g.state = .armed ∧ (epoch32 t - g.armEpoch).toNat < 2 ^ 31 := by
  simp only [armReached, Bool.and_eq_true, beq_iff_eq, atOrAfter_iff]

/-- Steps that fall due by units: which do, where the condition does not read what is due. -/
theorem mem_markWhere {α : Type} {c : State → α → Bool} {f : α → Due} (inj : Function.Injective f)
    (blind : ∀ (t : State) (due : List Due), c { t with due := due } = c t) (units : List α) (u : α) (s : State) :
    f u ∈ (markWhere units c f s).due ↔ f u ∈ s.due ∨ (u ∈ units ∧ c s u = true) := by
  induction units generalizing s with
  | nil => simp [markWhere]
  | cons v rest ih =>
    have same : c (markIf (c s v) (f v) s) = c s := by rw [markIf_frame]; exact blind s _
    have step : markWhere (v :: rest) c f s = markWhere rest c f (markIf (c s v) (f v) s) := rfl
    rw [step, ih, same, mem_markIf, inj.eq_iff, List.mem_cons]
    constructor
    · rintro ((⟨holds, rfl⟩ | due) | ⟨mem, holds⟩)
      · exact .inr ⟨.inl rfl, holds⟩
      · exact .inl due
      · exact .inr ⟨.inr mem, holds⟩
    · rintro (due | ⟨rfl | mem, holds⟩)
      · exact .inl (.inr due)
      · exact .inl (.inl ⟨holds, rfl⟩)
      · exact .inr ⟨mem, holds⟩

/-- The steps that a boundary's last part leaves as they were. -/
theorem mem_boundaryTail_other (d : Due) (s : State) (stale : ∀ j, Due.staleTimeout j ≠ d)
    (pull : ∀ j, Due.pullDeadline j ≠ d) (generator : ∀ g, Due.generatorStart g ≠ d) :
    d ∈ (boundaryTail s).due ↔ d ∈ (retireBoundary s).due := by
  unfold boundaryTail
  rw [mem_markWhere_other _ _ _ _ generator, mem_markWhere_other _ _ _ _ pull, mem_markWhere_other _ _ _ _ stale]

/-- The stale timeouts that a boundary finds passed (R139). -/
theorem mem_boundaryTail_stale (j : Fin 32) (s : State) :
    Due.staleTimeout j ∈ (boundaryTail s).due ↔ Due.staleTimeout j ∈ s.due ∨ staleTimeoutPassed s j = true := by
  unfold boundaryTail
  rw [mem_markWhere_other _ _ Due.generatorStart _ (by simp), mem_markWhere_other _ _ Due.pullDeadline _ (by simp),
    mem_markWhere (fun a b h => by simpa using h) (fun _ _ => rfl), mem_retireBoundary (.staleTimeout j) _ nofun]
  rw [retireBoundary_frame]
  simp only [List.mem_finRange, true_and]
  rfl

/-- The pull deadlines that a boundary finds passed (R141). -/
theorem mem_boundaryTail_pull (j : Fin 32) (s : State) :
    Due.pullDeadline j ∈ (boundaryTail s).due ↔ Due.pullDeadline j ∈ s.due ∨ pullDeadlinePassed s j = true := by
  unfold boundaryTail
  rw [mem_markWhere_other _ _ Due.generatorStart _ (by simp),
    mem_markWhere (fun a b h => by simpa using h) (fun _ _ => rfl),
    mem_markWhere_other _ _ Due.staleTimeout _ (by simp), mem_retireBoundary (.pullDeadline j) _ nofun, markWhere_frame,
    retireBoundary_frame]
  simp only [List.mem_finRange, true_and]
  rfl

/-- The generators that a boundary finds reached (R167). -/
theorem mem_boundaryTail_generator (g : Fin 2) (s : State) :
    Due.generatorStart g ∈ (boundaryTail s).due
      ↔ Due.generatorStart g ∈ s.due ∨ armReached s.timebase s.gens[g] = true := by
  unfold boundaryTail
  rw [mem_markWhere (fun a b h => by simpa using h) (fun _ _ => rfl),
    mem_markWhere_other _ _ Due.pullDeadline _ (by simp), mem_markWhere_other _ _ Due.staleTimeout _ (by simp),
    mem_retireBoundary (.generatorStart g) _ nofun, markWhere_frame, markWhere_frame, retireBoundary_frame]
  simp only [List.mem_finRange, true_and]

/-! ### The boundary up to its last part (R98) -/

/-- The selector's and the roster's work, in the order of R98. -/
def boundaryMiddle (first : Bool) (n : Nat) (s : State) : State :=
  if first then selectorBoundary n (selectorFinds first n s)
  else rosterBoundary n (selectorBoundary n (selectorFinds first n s))

/-- A boundary that is due, with its last part. -/
theorem exec_boundaryTail (first : Bool) (s : State) (h : Due.epochBoundary ∈ s.due) :
    exec (.epochBoundary first) s
      = .next (boundaryTail (boundaryMiddle first (epochNumber s.timebase) (clearDue .epochBoundary s))) := by
  rw [exec_epochBoundary first s h, boundaryWork_eq]
  rfl

/-- A boundary ends a retirement when the selector's view says so. -/
theorem retirementEnds_iff (first : Bool) (s : State) :
    retirementEnds first s ↔ RetirementEndsNow (selectorView first s) := by
  obtain ⟨selector, timebase, station⟩ := selectorView_frame first s
  simp only [retirementEnds, RetirementEndsNow, selector, timebase, station]

/-- The handover of a SOURCE completes at epoch `n` (R36). -/
def handoverCompletes (n : Nat) (s : State) : Prop :=
  s.timebase.state = .source ∧ ∃ h, s.selector.record = some h ∧ epochAtOrAfter n h.epoch = true

/-- The same, as the selector tests it. -/
theorem roleCompletes_iff (n : Nat) (s : State) : roleCompletes n s = true ↔ handoverCompletes n s := by
  simp only [roleCompletes, boundaryCompletes, handoverCompletes, Bool.and_eq_true, beq_iff_eq]
  refine and_congr_right fun _ => ?_
  cases s.selector.record <;> simp

/-- `w` is what the last part of the boundary of epoch `n` finds at `s`; `c` is what the station controller left. -/
structure MiddleDone (n : Nat) (s c w : State) : Prop where
  station : w.station = c.station
  txQueue : w.txQueue = c.txQueue
  timebase : w.timebase = s.timebase
  gens : w.gens = s.gens
  tables : TablesAlike (rosterBoundary n s) w
  completes : Due.handoverComplete ∈ w.due ↔ handoverCompletes n s
  due : ∀ d, d ≠ .handoverTakeover → d ≠ .claimExpiry → d ≠ .handoverComplete → (d ∈ w.due ↔ d ∈ c.due)

/-- What the selector's part leaves of what it finds. -/
theorem selectorBoundary_leaves (n : Nat) (lt : n < 2 ^ 47) (u : State) (goesOn : ¬ RetirementEndsNow u)
    (idle : Due.handoverComplete ∉ u.due) :
    let w := selectorBoundary n u
    w.station = u.station ∧ w.txQueue = u.txQueue ∧ w.timebase = u.timebase ∧ w.gens = u.gens ∧ TablesAlike u w
      ∧ (Due.handoverComplete ∈ w.due ↔ handoverCompletes n u)
      ∧ ∀ d, d ≠ .handoverTakeover → d ≠ .claimExpiry → d ≠ .handoverComplete → (d ∈ w.due ↔ d ∈ u.due) := by
  intro w
  have frame := selectorBoundary_frame n lt u goesOn idle
  have due (d : Due) := mem_selectorBoundary d n lt u goesOn idle
  refine ⟨?_, ?_, ?_, ?_, ⟨?_, ?_⟩, ?_, fun d a b c => ?_⟩
  · rw [show w = _ from frame]
  · rw [show w = _ from frame]
  · rw [show w = _ from frame]
  · rw [show w = _ from frame]
  · rw [show w = _ from frame]
  · rw [show w = _ from frame]
  · rw [due, ← roleCompletes_iff]
    simp [idle]
  · rw [due]
    simp [a, b, c]

/-- What the last part of a boundary finds, where no retirement ends. -/
theorem middleDone (first : Bool) (s : State) (idle : Due.handoverComplete ∉ s.due)
    (goesOn : ¬ retirementEnds first s) :
    let n := epochNumber s.timebase
    MiddleDone n s (controllerBoundary n (clearDue .epochBoundary s))
      (boundaryMiddle first n (clearDue .epochBoundary s)) := by
  intro n
  have alike : SelectorAlike (selectorFinds first n (clearDue .epochBoundary s)) (selectorView first s) :=
    selectorFinds_alike first _ s
  have stays : ¬ RetirementEndsNow (selectorFinds first n (clearDue .epochBoundary s)) := fun c =>
    goesOn ((retirementEnds_iff first s).2 (alike.ends.1 c))
  have clear : Due.handoverComplete ∉ (selectorFinds first n (clearDue .epochBoundary s)).due := by
    rwa [mem_selectorFinds first n _ _ s (by simp) (by simp) (by simp)]
  have tables : TablesAlike s (controllerBoundary n (clearDue .epochBoundary s)) := by
    rw [controllerBoundary_frame]
    exact ⟨rfl, rfl⟩
  obtain ⟨station, txQueue, timebase, gens, same, completes, due⟩ :=
    selectorBoundary_leaves n (epochNumber_lt _) _ stays clear
  have role : handoverCompletes n (selectorFinds first n (clearDue .epochBoundary s)) ↔ handoverCompletes n s := by
    obtain ⟨selector, view, -⟩ := selectorView_frame first s
    simp only [handoverCompletes, alike.selector.trans selector, alike.timebase.trans view]
  have counted : (controllerBoundary n (clearDue .epochBoundary s)).gens = s.gens := by
    rw [controllerBoundary_frame, clearDue_gens]
  have queue (u : State) : (rosterBoundary n u).txQueue = u.txQueue := by rw [rosterBoundary_frame]
  have clocks (u : State) : (rosterBoundary n u).gens = u.gens := by rw [rosterBoundary_frame]
  have time : (controllerBoundary n (clearDue .epochBoundary s)).timebase = s.timebase :=
    controllerBoundary_timebase n (clearDue .epochBoundary s)
  cases first
  · refine ⟨(rosterBoundary_station n _).trans station, (queue _).trans txQueue,
      (rosterBoundary_timebase n _).trans (timebase.trans time), (clocks _).trans (gens.trans counted),
      (tables.trans same).rosterBoundary n, ?_, fun d a b c => ?_⟩
    · exact (congrArg (_ ∈ ·) (rosterBoundary_due n _)).to_iff.trans (completes.trans role)
    · exact (congrArg (d ∈ ·) (rosterBoundary_due n _)).to_iff.trans (due d a b c)
  · refine ⟨station.trans (rosterBoundary_station n _), txQueue.trans (queue _),
      timebase.trans ((rosterBoundary_timebase n _).trans time), gens.trans ((clocks _).trans counted),
      (tables.rosterBoundary n).trans same, completes.trans role, fun d a b c => ?_⟩
    exact (due d a b c).trans (congrArg (d ∈ ·) (rosterBoundary_due n _)).to_iff

/-! ### A boundary that ends a retirement (R39, R76) -/

/-- The release of a retirement whose search finds nobody (R39). -/
def released (u : State) : State := updSelector (fun x => { x with release := true }) u

/-- The checks of a SOURCE end its retirement. -/
theorem sourceChecks_ends (n : Nat) (u : State) (ends : RetirementEndsNow u) :
    sourceChecks n u = changeStation .detached 9 (released u) := by
  obtain ⟨retiring, sent, -, free, held, alone⟩ := ends
  have search : searchAny (epochPlus n 16) u = released u := by simp only [searchAny, alone, released]
  have complete : (released u).station.state = .retiring ∧ (released u).station.retireSent = true
      ∧ ((released u).timebase.state ≠ .source ∨ (released u).selector.release = true) := ⟨retiring, sent, .inr rfl⟩
  have row : sourceChecks n u = checkRetired (searchAny (epochPlus n 16) u) := by
    simp [sourceChecks, free, retiring, held]
  rw [row, search]
  exact if_pos complete

/-- The receivers of a station off, its timebase expects no handover and is no SOURCE (R22). -/
theorem receiversOff_idle {x y : Timebase} (h : ReceiversOff x y) : y.state ≠ .source ∧ y.expectation = none := by
  obtain ⟨state, -, -, frame⟩ := h
  refine ⟨?_, by rw [frame]⟩
  rw [state]
  split <;> nofun

/-- The selector's part of a boundary that ends a retirement: the change to DETACHED, and no countdown. -/
theorem selectorBoundary_ends (n : Nat) (u : State) (ends : RetirementEndsNow u) :
    selectorBoundary n u
      = updSelector (fun x => { x with countdown := none }) (changeStation .detached 9 (released u)) := by
  obtain ⟨left, -, -, -⟩ := detached_leftTheRack 9 (released u) ends.1
  have checks := sourceChecks_ends n u ends
  have source := ends.2.2.1
  obtain ⟨detached, -, -, -, -, -, -, -, -, -, -, -, off⟩ := left
  obtain ⟨notSource, expects⟩ := receiversOff_idle off
  generalize changeStation .detached 9 (released u) = x at *
  have marker : sourceMarker n x = x := if_neg fun c => notSource c.1
  have claims : claimTest x = updSelector (fun x => { x with countdown := none }) x := by
    simp [claimTest, detached]
  simp only [selectorBoundary, source, if_true, checks, marker, claims, expects]
  rfl

/-- A station that is not RETIRING has no retire timer to raise. -/
theorem boundaryTail_station (s : State) (h : s.station.state ≠ .retiring) : (boundaryTail s).station = s.station := by
  have idle : retireBoundary s = s := by
    unfold retireBoundary
    rw [countRetire_other s h, ite_self]
  unfold boundaryTail
  rw [markWhere_frame, markWhere_frame, markWhere_frame, idle]

/-- Leaving the rack is seen in the timebase, the station, the queue and the interface. -/
theorem leftTheRack_congr {s s' t t' : State} (h : LeftTheRack s t) (before : s'.timebase = s.timebase)
    (timebase : t'.timebase = t.timebase) (station : t'.station = t.station) (queue : t'.txQueue = t.txQueue)
    (cable : t'.cable = t.cable) : LeftTheRack s' t' := by
  simpa only [LeftTheRack, safePin, before, timebase, station, queue, cable] using h

/-- What comes after the selector's part at a boundary leaves a station that has left the rack. -/
theorem afterSelector_left (first : Bool) (n : Nat) (x : State) (detached : x.station.state = .detached) :
    (afterSelector first n x).station = x.station := by
  cases first
  · have rostered : (rosterBoundary n x).station = x.station := rosterBoundary_station n x
    exact (boundaryTail_station (rosterBoundary n x) (by rw [rostered, detached]; nofun)).trans rostered
  · exact boundaryTail_station x (by rw [detached]; nofun)

/-- Outside the presence-interval boundaries it leaves the events. -/
theorem afterSelector_port (first : Bool) (n : Nat) (x : State) (between : n % 8 ≠ 0) :
    (afterSelector first n x).port = x.port := by
  have idle : rosterBoundary n x = x := if_neg (by simpa [presenceBoundary] using between)
  unfold afterSelector
  rw [idle, ite_self, boundaryTail_frame]

/-- So does what comes before. -/
theorem selectorFinds_port (first : Bool) (n : Nat) (s : State) (between : n % 8 ≠ 0) :
    (selectorFinds first n s).port = s.port := by
  have idle (u : State) : rosterBoundary n u = u := if_neg (by simpa [presenceBoundary] using between)
  unfold selectorFinds
  rw [idle, ite_self, controllerBoundary_frame]

/-- A boundary that ends a retirement (R39, R76). -/
theorem boundary_endsRetirement (first : Bool) (s : State) (h : Due.epochBoundary ∈ s.due)
    (ends : retirementEnds first s) :
    ∃ t, exec (.epochBoundary first) s = .next t ∧ LeftTheRack s t
      ∧ t.selector.record = none ∧ t.selector.driving = none
      ∧ (s.port.events = [] → s.timebase.ticks.toNat / 131072 % 8 ≠ 0 →
        t.port.events.head?.map (fun v => (v.kind, v.detail)) = some (.stationState, 0x5609)) := by
  have row := exec_boundary first s h
  have alike : SelectorAlike (selectorFinds first (epochNumber s.timebase) (clearDue .epochBoundary s))
      (selectorView first s) := selectorFinds_alike first _ s
  have now := alike.ends.2 ((retirementEnds_iff first s).1 ends)
  have timebase := alike.timebase.trans (selectorView_frame first s).2.1
  have port := selectorFinds_port first (epochNumber s.timebase) (clearDue .epochBoundary s)
  generalize selectorFinds first (epochNumber s.timebase) (clearDue .epochBoundary s) = u at row now timebase port
  rw [selectorBoundary_ends _ u now] at row
  have retiring : (released u).station.state = .retiring := now.1
  obtain ⟨left, selector, -, -⟩ := detached_leftTheRack 9 (released u) retiring
  have off : selectorOff (released u)
      = { (released u).selector with record := none, release := false, driving := none } :=
    if_pos now.2.2.1
  have frame := afterSelector_frame first (epochNumber s.timebase)
    (updSelector (fun x => { x with countdown := none }) (changeStation .detached 9 (released u)))
  have station := afterSelector_left first (epochNumber s.timebase)
    (updSelector (fun x => { x with countdown := none }) (changeStation .detached 9 (released u))) left.1
  refine ⟨_, row, leftTheRack_congr left timebase.symm ?_ station ?_ ?_, ?_, ?_, fun empty between => ?_⟩
  · rw [frame]; rfl
  · rw [frame]; rfl
  · rw [frame]; rfl
  · rw [frame]
    show (changeStation .detached 9 (released u)).selector.record = none
    rw [selector, off]
  · rw [frame]
    show (changeStation .detached 9 (released u)).selector.driving = none
    rw [selector, off]
  · rw [afterSelector_port first (epochNumber s.timebase) _ between]
    have none : (released u).port.events = [] := by
      show u.port.events = []
      rw [port between]
      exact empty
    have first := first_of_announced (s := released u) none (detached_prefix 9 _ retiring)
    rwa [retiring] at first

/-! ### The statement -/

/-- The presence of a boundary waits, or goes behind the entries of class 0 (R55, R72). -/
theorem presenceQueue_placed (s : State)
    (announces : s.station.state = .joined ∨ s.station.state = .retiring ∧ s.station.retireSent = false)
    (new : ¬ ∃ e ∈ s.txQueue, e.kind = .presence) :
    ∃ before rest, s.txQueue = before ++ rest ∧ presenceQueue s = before ++ { kind := .presence, cls := 0 } :: rest
      ∧ (QueueOrdered s → (∀ e ∈ before, e.cls = 0) ∧ ∀ e ∈ rest, 0 < e.cls) := by
  obtain ⟨before, rest, split, placed, low, high⟩ := insertEntry_split { kind := .presence, cls := 0 } rfl s.txQueue
  refine ⟨before, rest, split, ?_, fun ordered => ⟨low, ?_⟩⟩
  · exact (if_pos ⟨announces, by rw [queued_eq]; exact decide_eq_false new⟩).trans placed
  · rw [QueueOrdered, split] at ordered
    exact pos_of_ordered ordered high

/-- The last part of a boundary leaves the station but for the retire timer, and the tables. -/
theorem boundaryTail_leaves (s : State) :
    (boundaryTail s).station = (retireBoundary s).station ∧ (boundaryTail s).txQueue = s.txQueue
      ∧ (boundaryTail s).roster = s.roster ∧ (boundaryTail s).subs = s.subs := by
  refine ⟨?_, ?_, ?_, ?_⟩
  · unfold boundaryTail
    rw [markWhere_frame, markWhere_frame, markWhere_frame]
  all_goals rw [boundaryTail_frame]

/-- A queued presence is not queued again, and outside the intervals and the other states there is none (R55, R72). -/
theorem presenceQueue_kept (s : State)
    (same : ¬ (s.station.state = .joined ∨ s.station.state = .retiring ∧ s.station.retireSent = false)
      ∨ ∃ e ∈ s.txQueue, e.kind = .presence) : presenceQueue s = s.txQueue := by
  refine if_neg fun ⟨announces, new⟩ => ?_
  rw [queued_eq] at new
  exact same.elim (fun h => h announces) (of_decide_eq_false new)

section
variable {n : Nat} {s w : State} (done : MiddleDone n s (controllerBoundary n (clearDue .epochBoundary s)) w)
include done

/-- What is due before the last part of a boundary, but for the selector's steps. -/
theorem MiddleDone.found (d : Due) (a : d ≠ .handoverTakeover) (b : d ≠ .claimExpiry) (c : d ≠ .handoverComplete)
    (here : d ≠ .epochBoundary) :
    d ∈ w.due ↔ d ∈ s.due ∨ (d = .listenComplete ∧ s.station.state = .listen ∧ 23 ≤ s.station.listen)
      ∨ (d = .serviceLapsed ∧ (n % 8 = 0 ∧ 0 < s.station.interval ∧ s.station.lapse < s.station.interval)
        ∧ s.station.lapse + 1 = s.station.interval) :=
  (done.due d a b c).trans ((mem_controllerBoundary_counts d n (clearDue .epochBoundary s)).trans
    (or_congr_left (by simp only [mem_clearDue, here, ne_eq, not_false_eq_true, and_true])))

/-- The steps that neither the selector's nor the station controller's part makes fall due. -/
theorem MiddleDone.other (d : Due) (a : d ≠ .handoverTakeover) (b : d ≠ .claimExpiry) (c : d ≠ .handoverComplete)
    (here : d ≠ .epochBoundary) (listen : d ≠ .listenComplete) (lapse : d ≠ .serviceLapsed) :
    d ∈ w.due ↔ d ∈ s.due := by
  simp only [done.found d a b c here, listen, lapse, false_and, or_false]

/-- Where the retire timer of the last part rises (R77). -/
theorem MiddleDone.ages_iff : (w.station.state = .retiring ∧ Due.handoverComplete ∉ w.due)
    ↔ s.station.state = .retiring ∧ ¬ handoverCompletes n s := by
  rw [done.completes, done.station, controllerBoundary_counts]
  rfl

/-- It is the one that the boundary found. -/
theorem MiddleDone.timer : w.station.retireTimer = s.station.retireTimer := by
  rw [done.station, controllerBoundary_counts]
  rfl

/-- The roster's part leaves the pulls. -/
theorem MiddleDone.pull (j : Fin 32) : w.subs[j].pull = s.subs[j].pull := by
  rw [done.tables.subs]
  exact rosterBoundary_pull n s j

end

/-- Settles O16: the boundary by its parts, and the one that ends a retirement. -/
theorem boundariesCountAgeAndAnnounce : Obligations.BoundariesCountAgeAndAnnounce := by
  intro first s h idle n x now lapses announces waits completes ages
  refine ⟨fun goesOn => ?_, boundary_endsRetirement first s h⟩
  have row : exec (.epochBoundary first) s
      = .next (boundaryTail (boundaryMiddle first n (clearDue .epochBoundary s))) := exec_boundaryTail first s h
  have done : MiddleDone n s (controllerBoundary n (clearDue .epochBoundary s)) _ := middleDone first s idle goesOn
  change MiddleDone n s _ (boundaryMiddle first n (clearDue .epochBoundary s)) at done
  have queue := controllerBoundary_queue n (clearDue .epochBoundary s)
  generalize boundaryMiddle first n (clearDue .epochBoundary s) = w at row done
  obtain ⟨station, txQueue, roster, subs⟩ := boundaryTail_leaves w
  have agesEq : (w.station.state = .retiring ∧ Due.handoverComplete ∉ w.due) ↔ ages := done.ages_iff
  have tables (u : State) : rosterBoundary n u = if n % 8 = 0 then intervalCheck u else u := by
    simp [rosterBoundary, presenceBoundary]
  have queued : (boundaryTail w).txQueue = if n % 8 = 0 then presenceQueue s else s.txQueue :=
    txQueue.trans (done.txQueue.trans queue)
  refine ⟨_, row, ?station, ?kept, ?placed, ?roster, ?subs, ?listen, ?retire, ?lapse, fun j => ?stale, fun j => ?pull,
    fun g => ?generator⟩
  case station =>
    rw [station, retireBoundary_eq, markIf_station]
    dsimp only
    rw [if_congr agesEq rfl rfl, done.timer, done.station, controllerBoundary_counts]
    rfl
  case kept =>
    intro same
    rw [queued]
    split
    · next interval => exact presenceQueue_kept s (same.imp_left fun h tells => h ⟨interval, tells⟩)
    · rfl
  case placed =>
    intro tells new
    rw [queued, if_pos tells.1]
    exact presenceQueue_placed s tells.2 new
  case roster => rw [roster, done.tables.roster, tables]
  case subs => rw [subs, done.tables.subs, tables]
  case listen =>
    rw [mem_boundaryTail_other _ _ (by simp) (by simp) (by simp), mem_retireBoundary .listenComplete _ nofun,
      done.found .listenComplete nofun nofun nofun nofun]
    simp [x]
  case retire =>
    rw [mem_boundaryTail_other _ _ (by simp) (by simp) (by simp), retireBoundary_eq]
    simp only [mem_markIf, decide_eq_true_eq, agesEq, done.timer, and_true]
    rw [done.other .retireTimeout nofun nofun nofun nofun nofun nofun, or_comm]
  case lapse =>
    rw [mem_boundaryTail_other _ _ (by simp) (by simp) (by simp), mem_retireBoundary .serviceLapsed _ nofun,
      done.found .serviceLapsed nofun nofun nofun nofun]
    simp [lapses, x]
  case stale =>
    rw [mem_boundaryTail_stale, done.other (.staleTimeout j) nofun nofun nofun nofun nofun nofun, subs,
      staleTimeoutPassed_iff, done.timebase]
    rfl
  case pull =>
    rw [mem_boundaryTail_pull, done.other (.pullDeadline j) nofun nofun nofun nofun nofun nofun, pullDeadlinePassed_iff,
      done.timebase, done.pull]
    rfl
  case generator =>
    rw [mem_boundaryTail_generator, done.other (.generatorStart g) nofun nofun nofun nofun nofun nofun, armReached_iff,
      done.timebase, done.gens]
    rfl

end Sys2Proof.Machine
end

section
/-! PROOF. EMIT at a slot tick, and a BLOCK enqueued by class. -/

namespace Sys2Proof.Machine
open Sys2Proof.Claims

/-! ### An entry placed by its class (R55) -/

/-- The place of an entry in the queue: in a queue in order, behind its class and those above it. -/
theorem insertEntry_placed (e : TxEntry) (q : List TxEntry) :
    ∃ before after, q = before ++ after ∧ insertEntry e q = before ++ e :: after
      ∧ (q.Pairwise (fun a b => a.cls ≤ b.cls) → (∀ x ∈ before, x.cls ≤ e.cls) ∧ ∀ x ∈ after, e.cls < x.cls) := by
  induction q with
  | nil => exact ⟨[], [], rfl, rfl, fun _ => ⟨nofun, nofun⟩⟩
  | cons x tail ih =>
    by_cases above : e.cls < x.cls
    · refine ⟨[], x :: tail, rfl, if_pos above, fun ordered => ⟨nofun, fun y mem => ?_⟩⟩
      rcases List.mem_cons.1 mem with rfl | mem
      · exact above
      · exact above.trans_le ((List.pairwise_cons.1 ordered).1 y mem)
    · obtain ⟨before, after, split, placed, order⟩ := ih
      refine ⟨x :: before, after, by rw [split]; rfl, ?_, fun ordered => ?_⟩
      · rw [insertEntry, if_neg above, placed]; rfl
      · obtain ⟨low, high⟩ := order (List.pairwise_cons.1 ordered).2
        exact ⟨by simpa using ⟨by omega, low⟩, high⟩

/-- An entry of a kind that no entry of the queue has is new (R55). -/
theorem queued_eq_false {s : State} {kind : EntryKind} (none : ∀ x ∈ s.txQueue, x.kind ≠ kind) : queued s kind = false := by
  rw [queued_eq, decide_eq_false_iff_not]
  rintro ⟨x, mem, e⟩
  exact none x mem e

/-- A BLOCK is taken in JOINED alone (R55). -/
theorem enqueue_block_other (k : Fin 16) (s : State) (other : s.station.state ≠ .joined) : enqueue (.block k) s = s :=
  if_neg (by simpa [enqueueTaken] using other)

/-- A BLOCK that finds one waiting merges into it (R55). -/
theorem enqueue_block_merged (k : Fin 16) (s : State) (joined : s.station.state = .joined)
    (waits : ∃ x ∈ s.txQueue, x.kind = .block k) :
    enqueue (.block k) s = occur .emitMerged (.publication k) 1 s := by
  have one : queued s (.block k) = true := by rw [queued_eq]; exact decide_eq_true waits
  rw [enqueue, if_pos (by simp [enqueueTaken, joined]), if_pos one]

/-- A BLOCK that finds none waiting is a new entry of its class (R55). -/
theorem enqueue_block_new (k : Fin 16) (s : State) (joined : s.station.state = .joined)
    (none : ∀ x ∈ s.txQueue, x.kind ≠ .block k) :
    enqueue (.block k) s = { s with
      txQueue := insertEntry { kind := .block k, cls := if s.pubs[k].urgent then 3 else 4 } s.txQueue } := by
  rw [enqueue, if_pos (by simp [enqueueTaken, joined]), if_neg (by simp [queued_eq_false none])]
  rfl

/-! ### EMIT (R118, R148) -/

/-- An EMIT is enqueued when the publication has something to send, and skipped otherwise (R118). -/
theorem offerEmit_eq (k : Fin 16) (s : State) :
    offerEmit k s = if s.pubs[k].state = .active ∧ s.station.state = .joined ∧ s.pubs[k].ready ≠ none
        ∧ (s.pubs[k].isNew = true ∨ s.pubs[k].policy = .repeatLast) then enqueue (.block k) s
      else occur .emitSkipped (.publication k) 1 s := by
  have policy : s.pubs[k].policy = .freshOnly ↔ ¬ s.pubs[k].policy = .repeatLast := by
    cases s.pubs[k].policy <;> simp
  simp only [offerEmit, skipEmit, policy, Option.isNone_iff_eq_none, ne_eq, ite_not]
  split_ifs <;> simp_all

/-- With no compare of the tick still to fire, the row of an engine that takes its entry (R146). -/
theorem engineRow_runs (e : Fin 4) (is : State → Bool) (s : State) (due : Due.engine e ∈ s.due)
    (fired : ∀ i, Due.compareFired i ∉ s.due) (row : is s = true) (run : s.engines[e].run = .run) :
    engineRow e is s = takeEntry e (clearDue (.engine e) s) := by
  have compares : takeCompares s = s := takeFreely_none _ s (by simpa using fired)
  rw [engineRow, compares, dueRow_due _ _ _ due row]
  simp only [perform, engineTick, clearDue_engines, run]

/-- Settles O49: the EMIT of a tick, and the three cases of a BLOCK's enqueue. -/
theorem emitsAreSkippedEnqueuedOrMerged : Obligations.EmitsAreSkippedEnqueuedOrMerged := by
  refine ⟨?_, fun k s => ⟨enqueue_block_other k s, enqueue_block_merged k s, ?_⟩⟩
  · intro e k s due fired run entry u
    have row : runsEntry e (·.isEmit) s = true := by
      rw [runsEntry, run, show entryAt s e = .emit k from entry]; rfl
    have takes : takeEntry e (clearDue (.engine e) s) = offerEmit k u := by
      rw [takeEntry, show entryAt (clearDue (.engine e) s) e = .emit k from entry]
      rfl
    exact congrArg _ ((engineRow_runs e _ s due fired row run).trans (takes.trans (offerEmit_eq k u)))
  · intro joined none
    obtain ⟨before, after, split, placed, order⟩ :=
      insertEntry_placed { kind := .block k, cls := if s.pubs[k].urgent then 3 else 4 } s.txQueue
    refine ⟨before, after, split, ?_, order⟩
    rw [enqueue_block_new k s joined none, placed]

end Sys2Proof.Machine
end

section
/-! PROOF. Subscriptions made and ended. -/

namespace Sys2Proof.Machine
open Sys2Proof.Claims

/-! ### The tests of SUBSCRIBE (R125) -/

/-- A subscription names a channel when it is not UNUSED and has its publisher and its index (R127). -/
def namesChannel (s : State) (publisher : Nat) (index : Fin 16) (j : Fin 32) : Prop :=
  s.subs[j].state ≠ .unused ∧ s.subs[j].publisher = publisher ∧ s.subs[j].index = index

/-- The channel's subscription is found when there is one. -/
theorem matchSub_isSome {s : State} {publisher : Nat} {index : Fin 16} {j : Fin 32} (names : namesChannel s publisher index j) :
    ∃ h, matchSub s publisher index = some h := by
  rw [← Option.isSome_iff_exists, matchSub, List.find?_isSome]
  exact ⟨j, List.mem_finRange j, by simpa [namesChannel, and_assoc] using names⟩

/-- No subscription is found for a channel that none names. -/
theorem matchSub_none {s : State} {publisher : Nat} {index : Fin 16} (none : ∀ j, ¬ namesChannel s publisher index j) :
    matchSub s publisher index = .none := by
  rw [matchSub, List.find?_eq_none]
  intro j _ found
  simp only [Bool.and_eq_true, bne_iff_ne, beq_iff_eq] at found
  exact none j ⟨found.1.1, found.1.2, found.2⟩

/-- No entry is free when all are in use (R125). -/
theorem freeSub_none {s : State} (full : ∀ j : Fin 32, s.subs[j].state ≠ .unused) : freeSub s = none := by
  rw [freeSub, List.find?_eq_none]
  intro j _ found
  exact full j (by simpa using found)

/-- The lowest UNUSED entry is the free one (R125). -/
theorem freeSub_lowest {s : State} {j : Fin 32} (free : s.subs[j].state = .unused)
    (used : ∀ h : Fin 32, h < j → s.subs[h].state ≠ .unused) : freeSub s = some j := by
  rw [freeSub, ← Fin.find?_eq_find?_finRange, Fin.find?_eq_some_iff]
  exact ⟨by simpa using free, fun h lt => by simpa using used h lt⟩

/-- A ring mode is read from its code, and from no other number. -/
theorem ringModeOfCode_eq (n : Nat) : (∃ mode, ringModeOfCode n = some mode ∧ mode.code = n) ∨ ringModeOfCode n = none ∧ 1 < n := by
  match n with
  | 0 => exact .inl ⟨_, rfl, rfl⟩
  | 1 => exact .inl ⟨_, rfl, rfl⟩
  | n + 2 => exact .inr ⟨rfl, by omega⟩

/-- Another station is one of the 24 addresses that is not the own. -/
theorem otherStation_some {s : State} {a : Nat} (ok : 1 ≤ a ∧ a ≤ 24 ∧ a ≠ s.station.own) : otherStation s a = some a := if_pos ok

theorem otherStation_none {s : State} {a : Nat} (bad : ¬ (1 ≤ a ∧ a ≤ 24 ∧ a ≠ s.station.own)) : otherStation s a = none :=
  if_neg bad

/-- The limits of SUBSCRIBE's body that make it a refused one (R125). -/
def badChannel (s : State) (a i m : Byte) : Prop :=
  a = 0 ∨ 24 < a.toNat ∨ a.toNat = s.station.own ∨ 15 < i.toNat ∨ 1 < m.toNat

/-- A byte is 0 when its number is. -/
theorem byte_eq_zero (b : Byte) : b = 0 ↔ b.toNat = 0 := by
  rw [← BitVec.toNat_inj]; rfl

/-- A field of two bytes is 0 when both are. -/
theorem beNat_two_zero (t0 t1 : Byte) : beNat [t0, t1] = 0 ↔ t0.toNat = 0 ∧ t1.toNat = 0 := by
  simp [beNat_cons, show beNat [] = 0 from rfl]

/-- The byte of a small number. -/
theorem byteOf_ofNat (n : Nat) : byteOf n = [BitVec.ofNat 8 n] := rfl

/-- SUBSCRIBE of a channel outside the limits (R125). -/
theorem subscribeAct_bad {s : State} {a i m : Byte} (rest : List Byte) (bad : badChannel s a i m) :
    subscribeAct (a :: i :: m :: rest) s = .refused .range := by
  have parts : otherStation s a.toNat = none ∨ unitIx 16 i.toNat = none ∨ ringModeOfCode m.toNat = none := by
    rcases bad with zero | high | own | index | mode
    · exact .inl (otherStation_none (by have := (byte_eq_zero a).1 zero; omega))
    · exact .inl (otherStation_none (by omega))
    · exact .inl (otherStation_none (by omega))
    · exact .inr (.inl (dif_neg (by omega)))
    · rcases ringModeOfCode_eq m.toNat with ⟨mode', _, code⟩ | ⟨none, _⟩
      · exact absurd mode (by rw [← code]; cases mode' <;> decide)
      · exact .inr (.inr none)
  show (match otherStation s a.toNat, unitIx 16 i.toNat, ringModeOfCode m.toNat with
    | some publisher, some index, some mode => _
    | _, _, _ => _) = _
  rcases parts with e | e | e <;> rw [e]
  · cases otherStation s a.toNat <;> rfl
  · cases otherStation s a.toNat <;> cases unitIx 16 i.toNat <;> rfl

/-- SUBSCRIBE within the limits is decided by the table (R125). -/
theorem subscribeAct_ok {s : State} {a i m : Byte} (rest : List Byte) (ok : ¬ badChannel s a i m) :
    ∃ (index : Fin 16) (mode : RingMode), index.val = i.toNat ∧ mode.code = m.toNat
      ∧ (∀ h, matchSub s a.toNat index = some h → subscribeAct (a :: i :: m :: rest) s = .refused .exists_)
      ∧ (matchSub s a.toNat index = none → freeSub s = none → subscribeAct (a :: i :: m :: rest) s = .refused .full)
      ∧ ∀ j, matchSub s a.toNat index = none → freeSub s = some j →
        let y := subscribeEntry (epoch32 s.timebase) a.toNat index mode (a :: i :: m :: rest) s.subs[j]
        subscribeAct (a :: i :: m :: rest) s =
          .taken (byteOf j.val ++ beBytes 4 y.lateThreshold ++ beBytes 2 y.staleTimeout) { s with subs := s.subs.set j y } := by
  simp only [badChannel, byte_eq_zero] at ok
  rcases ringModeOfCode_eq m.toNat with ⟨mode, read, code⟩ | ⟨_, high⟩
  · have low : i.toNat < 16 := by omega
    refine ⟨⟨i.toNat, low⟩, mode, rfl, code, ?_⟩
    have other : otherStation s (byteAt (a :: i :: m :: rest) 0).toNat = some a.toNat :=
      otherStation_some (a := a.toNat) (by omega)
    have index : unitIx 16 (byteAt (a :: i :: m :: rest) 1).toNat = some ⟨i.toNat, low⟩ := dif_pos low
    have mode : ringModeOfCode (byteAt (a :: i :: m :: rest) 2).toNat = some mode := read
    rw [subscribeAct, other, index, mode]
    refine ⟨fun h found => ?_, fun none full => ?_, fun j none free => ?_⟩
    · simp only [found]
    · simp only [none, full]
    · simp only [none, free, updSub, upd_get]
      rfl
  · exact absurd (Or.inr (.inr (.inr (.inr high)))) ok

/-- The body of a SUBSCRIBE comes to the table's own tests (R193, R211). -/
theorem subscribe_reply (body : List Byte) (s : State) (length : body.length = 9) :
    replyOf (.subscribe body) s = subscribeAct body s :=
  checked_ok (fits := exactly 9) subscribeAct s (by simp [exactly, length]) (by omega)

/-! ### UNSUBSCRIBE (R126) -/

/-- UNSUBSCRIBE of a number of no subscription. -/
theorem unsubscribe_range (m : Byte) (s : State) (high : 31 < m.toNat) : replyOf (.unsubscribe [m]) s = .refused .range := by
  show unsubscribeAct _ s = _
  rw [unsubscribeAct, withSub, subOf, unitIx_none m (by omega)]

/-- UNSUBSCRIBE of an entry. -/
theorem unsubscribe_reply (j : Fin 32) (s : State) : replyOf (.unsubscribe [BitVec.ofNat 8 j.val]) s =
    if s.subs[j].state = .unused then .refused .unused
    else .taken [] (updSub j (fun x => Subscription.cleared x.marked) (removeEntry (.pull j) s)) := by
  show unsubscribeAct _ s = _
  rw [unsubscribeAct, withSub, subOf, unitIx_byte j (by decide)]

/-- Settles O35: each request is decided by the channel's limits and the table, in the order of R125. -/
theorem subscriptionsAreMadeAndEnded : Obligations.SubscriptionsAreMadeAndEnded := by
  intro j s r n x gone
  refine ⟨?subscribes, ?range, ?unused, ?ends⟩
  case range => exact fun m high => refused_of_reply rfl r rfl (unsubscribe_range m _ high)
  case unused => exact fun unused => refused_of_reply rfl r rfl ((unsubscribe_reply j _).trans (if_pos unused))
  case ends =>
    intro used
    refine taken_of_reply rfl r rfl ((unsubscribe_reply j _).trans ((if_neg used).trans ?_))
    rw [removeEntry_withdrawn]
    rfl
  case subscribes =>
    intro a i m l0 l1 l2 l3 t0 t1 ask bad names
    have reply := subscribe_reply [a, i, m, l0, l1, l2, l3, t0, t1] (setTransaction .waiting s) rfl
    refine ⟨fun h => refused_of_reply rfl r rfl (reply.trans (subscribeAct_bad _ h)), fun h => ?_, fun h => ?_, fun h => ?_⟩
    all_goals
      obtain ⟨index, mode, number, code, exists_, full_, taken⟩ :=
        subscribeAct_ok (s := setTransaction .waiting s) [l0, l1, l2, l3, t0, t1] h
      have channel : ∀ g, namesChannel (setTransaction .waiting s) a.toNat index g ↔ names g := fun g => by
        simp only [namesChannel, names, ← number, Fin.ext_iff]; rfl
    · intro named
      obtain ⟨g, found⟩ := matchSub_isSome ((channel j).2 named)
      exact refused_of_reply rfl r rfl (reply.trans (exists_ g found))
    · intro unnamed full
      have none := matchSub_none fun g => (channel g).not.2 (unnamed g)
      exact refused_of_reply rfl r rfl (reply.trans (full_ none (freeSub_none full)))
    · intro unnamed free used
      have none := matchSub_none fun g => (channel g).not.2 (unnamed g)
      let y := subscribeEntry (epoch32 s.timebase) a.toNat index mode [a, i, m, l0, l1, l2, l3, t0, t1] x
      have late : y.lateThreshold = min (2 ^ 24) (beNat [l0, l1, l2, l3]) :=
        (limitNat_eq _ _ _ (by decide)).trans (Nat.zero_max _)
      have timeout : y.staleTimeout = if t0 = 0 ∧ t1 = 0 then 32 else beNat [t0, t1] :=
        if_congr (by rw [byte_eq_zero, byte_eq_zero]; exact beNat_two_zero t0 t1) rfl rfl
      refine ⟨y, taken_of_reply rfl r rfl (reply.trans ((taken j none (freeSub_lowest free used)).trans ?_)),
        rfl, number, code, late, timeout, rfl⟩
      rw [byteOf_ofNat]
      rfl

end Sys2Proof.Machine
end

section
/-! PROOF. Publications set, withdrawn, held and released. -/

namespace Sys2Proof.Machine
open Sys2Proof.Claims

/-! ### An enqueue in a request -/

/-- An overflow makes no difference to the transaction, nor it to the overflow. -/
theorem overflow_setTransaction (x : Transaction) (i : Fin 4) (y : Subject) (s : State) :
    overflow i y (setTransaction x s) = setTransaction x (overflow i y s) := by
  have notified (t : State) : notifyOverflow i y (setTransaction x t) = setTransaction x (notifyOverflow i y t) := by
    have changed (f : Monitor → Monitor) (u : State) :
        updMonitor f (setTransaction x u) = setTransaction x (updMonitor f u) := rfl
    simp only [notifyOverflow, setTransaction_monitor, setTransaction_timebase, changed, raise_setTransaction]
    rfl
  have opened : (if i.val = 0 then openGates (setTransaction x s) else setTransaction x s)
      = setTransaction x (if i.val = 0 then openGates s else s) := by split_ifs <;> rfl
  simp only [overflow, opened, notified, setTransaction_monitor]
  exact (apply_ite (setTransaction x) _ _ _).symm

/-- An occurrence makes no difference to the transaction, nor it to the occurrence. -/
theorem occur_setTransaction (x : Transaction) (k : OccKind) (y : Subject) (n : Nat) (s : State) :
    occur k y n (setTransaction x s) = setTransaction x (occur k y n s) := by
  have counted (is : List (Fin 4)) (t : State) : is.foldl (fun t i => countUp n i t) (setTransaction x t)
      = setTransaction x (is.foldl (fun t i => countUp n i t) t) := List.foldl_hom (setTransaction x) fun _ _ => rfl
  have overflows (is : List (Fin 4)) (t : State) : is.foldl (fun t i => overflow i y t) (setTransaction x t)
      = setTransaction x (is.foldl (fun t i => overflow i y t) t) :=
    List.foldl_hom (setTransaction x) fun t i => overflow_setTransaction x i y t
  have counting : counts (setTransaction x s) k y = counts s k y := rfl
  simp only [occur, counting, counted, overflows, setTransaction_monitor]
  exact (apply_ite (setTransaction x) _ _ _).symm

/-- An enqueue makes no difference to the transaction, nor it to the enqueue. -/
theorem enqueue_setTransaction (x : Transaction) (k : EntryKind) (s : State) :
    enqueue k (setTransaction x s) = setTransaction x (enqueue k s) := by
  unfold enqueue
  by_cases taken : enqueueTaken s.station.state k
  · rw [if_pos taken, if_pos (show enqueueTaken (setTransaction x s).station.state k from taken)]
    by_cases waits : queued s k
    · rw [if_pos waits, if_pos (show queued (setTransaction x s) k from waits)]
      cases k with
      | block k => exact occur_setTransaction x _ _ _ s
      | presence | retire | pull j => rfl
    · rw [if_neg waits, if_neg (show ¬ queued (setTransaction x s) k from waits)]
      rfl
  · exact (if_neg taken).trans (congrArg (setTransaction x) (if_neg taken).symm)

/-! ### PUBLISH (R105) -/

/-- A number that is the code of no feed, width or policy. -/
theorem feedOfCode_none {n : Nat} (high : 1 < n) : feedOfCode n = none := by
  match n, high with
  | _ + 2, _ => rfl

theorem widthOfCode_none {n : Nat} (high : 2 < n) : widthOfCode n = none := by
  match n, high with
  | _ + 3, _ => rfl

theorem policyOfCode_none {n : Nat} (high : 1 < n) : policyOfCode n = none := by
  match n, high with
  | _ + 2, _ => rfl

/-- PUBLISH of a number or a code outside the limits. -/
theorem publishAct_bad {s : State} {m f w a b u pol : Byte} (bad : 15 < m.toNat ∨ 1 < f.toNat ∨ 2 < w.toNat ∨ 1 < pol.toNat) :
    publishAct [m, f, w, a, b, u, pol] s = .refused .range := by
  have parts : pubOf [m, f, w, a, b, u, pol] = none ∨ feedOfCode f.toNat = none ∨ widthOfCode w.toNat = none
      ∨ policyOfCode pol.toNat = none := by
    rcases bad with number | feed | width | policy
    · exact .inl (dif_neg (by show ¬ m.toNat < 16; omega))
    · exact .inr (.inl (feedOfCode_none feed))
    · exact .inr (.inr (.inl (widthOfCode_none width)))
    · exact .inr (.inr (.inr (policyOfCode_none policy)))
  have codes : feedOfCode (byteAt [m, f, w, a, b, u, pol] 1).toNat = feedOfCode f.toNat
      ∧ widthOfCode (byteAt [m, f, w, a, b, u, pol] 2).toNat = widthOfCode w.toNat
      ∧ policyOfCode (byteAt [m, f, w, a, b, u, pol] 6).toNat = policyOfCode pol.toNat := ⟨rfl, rfl, rfl⟩
  obtain ⟨feed, width, policy⟩ := codes
  rw [publishAct, feed, width, policy]
  split
  · next pub feed width policy => simp [pub, feed, width, policy] at parts
  · rfl

/-- PUBLISH within the limits: BUSY while the publication's burst runs, and otherwise the entry is set from the
request, an entry in use withdrawn first (R105). -/
theorem publishAct_ok (k : Fin 16) (feed : Feed) (width : Width) (policy : EmitPolicy) (a b u : Byte) (s : State) :
    let body := [BitVec.ofNat 8 k.val, BitVec.ofNat 8 feed.code, BitVec.ofNat 8 width.code, a, b, u, BitVec.ofNat 8 policy.code]
    publishAct body s = if s.cable.binding = some k then .refused .busy else
      .taken (beBytes 2 (publishAt k feed width policy body s).pubs[k].samples) (publishAt k feed width policy body s) := by
  intro body
  have number : pubOf body = some k := unitIx_byte k (by decide)
  have feed_ : feedOfCode (byteAt body 1).toNat = some feed := by cases feed <;> rfl
  have width_ : widthOfCode (byteAt body 2).toNat = some width := by cases width <;> rfl
  have policy_ : policyOfCode (byteAt body 6).toNat = some policy := by cases policy <;> rfl
  rw [publishAct, number, feed_, width_, policy_]

/-- An entry withdrawn (R106): its queue entry goes, and it and its port partial state are cleared. -/
theorem unpublishEntry_eq (k : Fin 16) (s : State) : unpublishEntry k s = { s with
    txQueue := s.txQueue.filter fun e => decide (e.kind ≠ .block k)
    cable := withdrawnFrom (.block k) s.cable
    pubs := s.pubs.set k (Publication.cleared k.val s.pubs[k].marked)
    partials := s.partials.set k Partial.cleared } := by
  rw [unpublishEntry, removeEntry_withdrawn]
  rfl

/-- A publication is set, an entry in use withdrawn first (R105). -/
theorem publishAt_eq (k : Fin 16) (feed : Feed) (width : Width) (policy : EmitPolicy) (body : List Byte) (s : State) :
    publishAt k feed width policy body s = { (if s.pubs[k].state = .unused then s else unpublishEntry k s) with
      pubs := s.pubs.set k (publishEntry k feed width policy body s.pubs[k])
      partials := s.partials.set k Partial.cleared } := by
  have marked (p : Publication) : publishEntry k feed width policy body (Publication.cleared k.val p.marked)
    = publishEntry k feed width policy body p := rfl
  rw [publishAt]
  split_ifs
  · rfl
  · rw [unpublishEntry_eq]
    have self : (s.pubs.set k (Publication.cleared k.val s.pubs[k].marked))[k] = Publication.cleared k.val s.pubs[k].marked :=
      Vector.getElem_set_self _
    simp only [updPub, updPartial, upd, Vector.set_set, self, marked]

/-! ### The requests to an entry in use -/

/-- UNPUBLISH, HOLD and RELEASE of a number of no publication. -/
theorem withPub_none (m : Byte) (s : State) (act : Fin 16 → Reply) (high : 15 < m.toNat) : withPub [m] s act = .refused .range := by
  rw [withPub, pubOf, unitIx_none m (by omega)]

/-- A request to a publication that must not be UNUSED. -/
theorem withPub_byte (k : Fin 16) (s : State) (act : Fin 16 → Reply) :
    withPub [BitVec.ofNat 8 k.val] s act = if s.pubs[k].state = .unused then .refused .unused else act k := by
  rw [withPub, pubOf, unitIx_byte k (by decide)]

/-- RELEASE of an entry (R120, R122). -/
theorem releasePub_active (k : Fin 16) (s : State) (active : s.pubs[k].state = .active) : releasePub k s = s :=
  if_neg (by rw [show s.pubs[k].state = .active from active]; decide)

/-- A HELD entry released with no pull to serve. -/
theorem releasePub_idle (k : Fin 16) (s : State) (held : s.pubs[k].state = .held)
    (idle : s.pubs[k].pullPending = false ∨ s.pubs[k].ready = none) :
    releasePub k s = { s with pubs := s.pubs.set k { s.pubs[k] with state := .active } } := by
  rw [releasePub, if_pos held]
  let s1 := updPub k (fun p => { p with state := .active }) s
  have entry : s1.pubs[k] = { s.pubs[k] with state := .active } := upd_get ..
  show (if s1.pubs[k].ready.isSome then servePull k s1 else s1) = s1
  rcases idle with none | empty
  · have stays : servePull k s1 = s1 := if_neg (by rw [entry]; exact ne_true_of_eq_false none)
    rw [stays, ite_self]
  · exact if_neg (by rw [entry]; exact ne_true_of_eq_false (Option.isSome_eq_false_iff.2 (Option.isNone_iff_eq_none.2 empty)))

/-- A HELD entry released with its pull served by the ready block (R122). -/
theorem releasePub_serves (k : Fin 16) (s : State) (held : s.pubs[k].state = .held)
    (pending : s.pubs[k].pullPending = true) (ready : s.pubs[k].ready ≠ none) :
    releasePub k s = enqueue (.block k)
      { s with pubs := s.pubs.set k { s.pubs[k] with state := .active, pullPending := false } } := by
  have some : s.pubs[k].ready.isSome = true := Option.isSome_iff_ne_none.2 ready
  rw [releasePub, if_pos held]
  simp only [servePull, updPub, upd_get, upd_upd]
  rw [if_pos some, if_pos pending]
  rfl

/-- Settles O33: the entry each request leaves, by the state of the entry it names. -/
theorem publicationsAreSetHeldAndWithdrawn : Obligations.PublicationsAreSetHeldAndWithdrawn := by
  intro k a b u s r n p gone cleared
  let w := setTransaction .waiting s
  have withdrawn : unpublishEntry k w = setTransaction .waiting cleared := unpublishEntry_eq k w
  have unpublish (m : Byte) : replyOf (.unpublish [m]) w = withPub [m] w fun k => .taken [] (unpublishEntry k w) := rfl
  have hold (m : Byte) : replyOf (.hold [m]) w
    = withPub [m] w fun k => .taken [] (updPub k (fun p => { p with state := .held }) w) := rfl
  have release (m : Byte) : replyOf (.release [m]) w = withPub [m] w fun k => .taken [] (releasePub k w) := rfl
  refine ⟨?publishes, ?outside, ?number, ?unused, ?inUse, ?active, ?held⟩
  case publishes =>
    intro feed width policy ask limit y
    have reply := publishAct_ok k feed width policy a b u w
    refine ⟨fun binds => refused_of_reply rfl r rfl (reply.trans (if_pos binds)), fun free => ?_⟩
    let body := [n, BitVec.ofNat 8 feed.code, BitVec.ofNat 8 width.code, a, b, u, BitVec.ofNat 8 policy.code]
    let t := setTransaction .waiting { (if p.state = .unused then s else cleared) with
      pubs := s.pubs.set k y, partials := s.partials.set k { high := none, voidLow := false } }
    have samples : limitNat (field body 3 2) 1 width.limit = y.samples := by
      have value : field body 3 2 = a.toNat * 256 + b.toNat := by
        simp [body, field, fieldBytes, beNat_cons, show beNat [] = 0 from rfl]
      rw [value, limitNat_eq _ _ _ (by cases width <;> decide)]
      cases width <;> rfl
    have entry : publishEntry k feed width policy body p = y := by rw [publishEntry, samples]; rfl
    have whole : publishAt k feed width policy body w = t := by
      rw [publishAt_eq, withdrawn, show w.pubs[k] = p from rfl, entry]
      by_cases unused : p.state = .unused
      · simp only [t, if_pos unused]; rfl
      · simp only [t, if_neg unused]; rfl
    have set : t.pubs[k] = y := Vector.getElem_set_self _
    refine taken_of_reply rfl r rfl (reply.trans ((if_neg free).trans ?_))
    show Reply.taken (beBytes 2 (publishAt k feed width policy body w).pubs[k].samples) _ = _
    rw [whole, set]
  case outside => exact fun m f w pol bad => refused_of_reply rfl r rfl (publishAct_bad bad)
  case number =>
    intro m high
    exact ⟨refused_of_reply rfl r rfl ((unpublish m).trans (withPub_none m w _ high)),
      refused_of_reply rfl r rfl ((hold m).trans (withPub_none m w _ high)),
      refused_of_reply rfl r rfl ((release m).trans (withPub_none m w _ high))⟩
  case unused =>
    intro unused
    have refuses (act : Fin 16 → Reply) : withPub [n] w act = .refused .unused := (withPub_byte k w act).trans (if_pos unused)
    exact ⟨refused_of_reply rfl r rfl ((unpublish n).trans (refuses _)),
      refused_of_reply rfl r rfl ((hold n).trans (refuses _)), refused_of_reply rfl r rfl ((release n).trans (refuses _))⟩
  case inUse =>
    intro used
    have acts (act : Fin 16 → Reply) : withPub [n] w act = act k := (withPub_byte k w act).trans (if_neg used)
    exact ⟨taken_of_reply rfl r rfl ((unpublish n).trans ((acts _).trans (congrArg (Reply.taken []) withdrawn))),
      taken_of_reply rfl r rfl ((hold n).trans (acts _))⟩
  all_goals
    intro state
    have released {t : State} (e : releasePub k w = setTransaction .waiting t) : Taken (.release [n]) s [] t :=
      taken_of_reply rfl r rfl ((release n).trans ((withPub_byte k w _).trans ((if_neg (by
        rw [show w.pubs[k].state = _ from state]; decide)).trans (congrArg (Reply.taken []) e))))
  case active => exact released (releasePub_active k w state)
  case held =>
    refine ⟨fun idle => released (releasePub_idle k w state idle), fun pending ready => ?_⟩
    exact released ((releasePub_serves k w state pending ready).trans (enqueue_setTransaction .waiting (.block k)
      { s with pubs := s.pubs.set k { p with state := .active, pullPending := false } }))

end Sys2Proof.Machine
end

section
/-! PROOF. A burst built at its start. -/

namespace Sys2Proof.Machine
open Sys2Proof.Claims

/-- In a quiet state a row that tells of something outside has its effect at once. -/
theorem outside_quiet (act : State → State) {s : State} (q : quiet s = true) :
    Host.Outcome.next (φ := Fault) (ρ := Refusal) (outsideRow act s) = .next (act s) :=
  congrArg _ (outsideRow_quiet act s q)

/-- The announcements of a PRESENCE are those of R48. -/
theorem announcements_announce (s : State) : Announces s (announcements s) := by
  refine ⟨?_, fun k => ?_, fun a mem => ?_⟩
  · rw [announcements, List.pairwise_map]
    exact (List.pairwise_lt_finRange 16).filter _ 
  · have inUse : (∃ a ∈ announcements s, a.index = k) ↔ s.pubs[k].state ≠ .unused := by simp [announcements]
    rw [inUse]
    cases s.pubs[k].state <;> simp
  · simp only [announcements, List.mem_map, List.mem_filter] at mem
    obtain ⟨k, _, rfl⟩ := mem
    exact ⟨rfl, rfl, rfl, beq_iff_eq⟩

/-- The claim won for an entry that was withdrawn: the abort pattern (R47). -/
theorem startBurst_withdrawn {s : State} {e : TxEntry} (state : s.cable.state = .claiming)
    (claim : s.cable.claim = some { entry := e, withdrawn := true }) : startBurst s = withdrawClaim s := by
  rw [startBurst, claim]
  exact (if_pos state).trans (if_pos rfl)

/-- The claim won with a burst to send: it is the burst of that moment (R48 to R50). -/
theorem startBurst_sends {s : State} {e : TxEntry} {b : Burst} (state : s.cable.state = .claiming)
    (claim : s.cable.claim = some { entry := e, withdrawn := false }) (built : buildBurst s e.kind = some b) :
    startBurst s = { s with cable := { s.cable with
      state := .sending, claim := none, flight := some (flightOf s e b), binding := bindingOf e.kind } } := by
  rw [startBurst, claim]
  refine (if_pos state).trans ((if_neg Bool.false_ne_true).trans ?_)
  simp only [built, updCable]

/-- The claim won for a BLOCK that has nothing to send: its entry goes, and the abort pattern follows (R47). -/
theorem startBurst_nothing {s : State} {e : TxEntry} (state : s.cable.state = .claiming)
    (claim : s.cable.claim = some { entry := e, withdrawn := false }) (none : buildBurst s e.kind = none) :
    startBurst s = withdrawClaim (removeEntry e.kind s) := by
  rw [startBurst, claim]
  refine (if_pos state).trans ((if_neg Bool.false_ne_true).trans ?_)
  simp only [none]

/-- The block that the publication table gives at the burst's start (R116). -/
theorem readyFor_none {s : State} {k : Fin 16} (h : s.pubs[k].state ≠ .active ∨ s.pubs[k].ready = none) :
    readyFor s k = none := by
  rw [readyFor]
  rcases h with other | empty
  · exact if_neg other
  · rw [empty, ite_self]

/-- Settles O18: the burst built by kind, and the two ways to the abort pattern. -/
theorem burstsAreBuiltAtTheirStart : Obligations.BurstsAreBuiltAtTheirStart := by
  intro e w s q claiming claim c x aborted sends
  have row : exec .burstStart s = .next (startBurst s) := outside_quiet startBurst q
  have sent {b : Burst} (w_ : w = false) (built : buildBurst s e.kind = some b) {t : State}
      (same : { s with cable := { s.cable with
        state := .sending, claim := none, flight := some (flightOf s e b), binding := bindingOf e.kind } } = t) :
      exec .burstStart s = .next t :=
    row.trans (congrArg _ ((startBurst_sends claiming (w_ ▸ claim) built).trans same))
  refine ⟨fun w_ => ?withdrawn, fun w_ kind => ?presence, fun w_ kind => ?retire, fun j w_ kind => ?pull,
    fun k b w_ kind active ready => ?block, fun k w_ kind missing flight => ?nothing⟩
  case withdrawn => exact row.trans (congrArg _ (startBurst_withdrawn claiming (w_ ▸ claim)))
  case presence =>
    refine ⟨announcements s, announcements_announce s, sent (b := .presence (buildPresence s)) w_ (by rw [kind]; rfl) ?_⟩
    simp only [flightOf, kind, bindingOf]; rfl
  case retire =>
    refine sent (b := .retire x.own (retireSuccessor s)) w_ (by rw [kind]; rfl) ?_
    simp only [flightOf, kind, bindingOf]; rfl
  case pull =>
    refine sent (b := .pull x.own s.subs[j].publisher s.subs[j].index) w_ (by rw [kind]; rfl) ?_
    simp only [flightOf, kind, bindingOf]; rfl
  case block =>
    refine sent (b := .block (buildBlock s k b)) w_ (by
      rw [kind, buildBurst, readyFor, if_pos active, ready]; rfl) ?_
    simp only [flightOf, kind, bindingOf]; rfl
  case nothing =>
    have none : buildBurst s e.kind = none := by rw [kind, buildBurst, readyFor_none missing]; rfl
    refine row.trans (congrArg _ ((startBurst_nothing claiming (w_ ▸ claim) none).trans ?_))
    rw [removeEntry_withdrawn, kind]
    simp only [withdrawClaim, updCable, withdrawnFrom, flight, aborted, c, Option.map_none]

end Sys2Proof.Machine
end

section
/-! PROOF. The guard, the claim and the abort pattern on the pair. -/

namespace Sys2Proof.Machine
open Sys2Proof.Claims

/-! ### The receive buffers (R53) -/

/-- A reception takes the free buffer, also in an interface that goes to RECEIVING with it. -/
theorem openBuffer_receiving (bits : List Bool) (c : Cable) :
    { openBuffer bits c with state := .receiving } = takingInto c bits { c with state := .receiving } := by
  rw [openBuffer, takingInto]
  split_ifs <;> rfl

/-- The same where a lost claim begins the reception (R46). -/
theorem openBuffer_lost (bits : List Bool) (c : Cable) :
    { openBuffer bits c with state := .receiving, claim := none }
      = takingInto c bits { c with state := .receiving, claim := none } := by
  rw [openBuffer, takingInto]
  split_ifs <;> rfl

/-- With no burst in a buffer none waits. -/
theorem waitingBurst_none {c : Cable} (none : nothingWaits c) : waitingBurst c = .none := by
  rw [waitingBurst]
  split
  · next burst m first => exact absurd first (none burst m).1
  · next burst m _ second => exact absurd second (none burst m).2
  · next burst m _ second => exact absurd second (none burst m).2
  all_goals rfl

/-- With no burst waiting nothing is handed over. -/
theorem handWaiting_none {s : State} (none : nothingWaits s.cable) : handWaiting s = s := by
  rw [handWaiting, waitingBurst_none none]

/-! ### The claim (R45, R46) -/

/-- An entry can be claimed on the idle pair by a station that has the drivers, with no hold-off (R45). -/
theorem claimable_head {s : State} (idle : s.cable.state = .idle)
    (drivers : s.station.state = .joined ∨ s.station.state = .retiring) (free : s.cable.holdOff = false) :
    claimable s = queueHead s :=
  if_pos ⟨idle, by rcases drivers with e | e <;> rw [e] <;> rfl, free⟩

/-- Otherwise no claim starts. -/
theorem claimable_none {s : State} (h : queueHead s = none ∨ s.cable.state ≠ .idle ∨ s.cable.holdOff = true
    ∨ (s.station.state ≠ .joined ∧ s.station.state ≠ .retiring)) : claimable s = none := by
  rw [claimable]
  split_ifs with all
  · obtain ⟨idle, drivers, free⟩ := all
    rcases h with none | busy | held | ⟨joined, retiring⟩
    · exact none
    · exact absurd idle busy
    · exact absurd free (by rw [held]; decide)
    · cases state : s.station.state <;> simp_all [driversOn]
  · rfl

/-- Under CAUTION the head of the queue passes over BLOCK and PULL (R56). -/
theorem queueHead_idle {s : State} (none : s.cable.flight = none) :
    queueHead s = s.txQueue.find? fun e => !(s.station.caution && decide (2 ≤ e.kind.code)) := by
  have passed (k : EntryKind) : k.isData = decide (2 ≤ k.code) := by cases k <;> rfl
  rw [queueHead, none]
  simp only [passed]

/-- A claim lost at a bit read 0 where it was driven 1, its bits the first of the reception (R46). -/
theorem loseClaim_received {s : State} {cl : Claim} {bit : Fin 9} {bits : List Bool} (claiming : s.cable.state = .claiming)
    (claim : s.cable.claim = some cl) (driven : (claimLine s cl.entry)[bit.val]? = some true)
    (read : removeFill ((claimLine s cl.entry).take bit.val ++ [false]) false 1 = some bits) :
    loseClaim bit s = occur .claimLost (entrySubject cl.entry.kind) 1
      { s with cable := takingInto s.cable bits { s.cable with state := .receiving, claim := none } } := by
  rw [loseClaim, claim]
  refine (if_pos ⟨claiming, driven⟩).trans ?_
  simp only [read, updCable, openBuffer_lost]

/-- A claim lost at a fill bit ends the reception aborted (R46, R51). -/
theorem loseClaim_aborted {s : State} {cl : Claim} {bit : Fin 9} (claiming : s.cable.state = .claiming)
    (claim : s.cable.claim = some cl) (driven : (claimLine s cl.entry)[bit.val]? = some true)
    (read : removeFill ((claimLine s cl.entry).take bit.val ++ [false]) false 1 = none) (alone : nothingWaits s.cable) :
    loseClaim bit s = occur .claimLost (entrySubject cl.entry.kind) 1
      { s with cable := { s.cable with state := .guard, guardCount := 0, claim := none } } := by
  rw [loseClaim, claim]
  refine (if_pos ⟨claiming, driven⟩).trans ?_
  simp only [read]
  exact handWaiting_none (by rw [occur_cable]; exact alone)

/-- A bit not driven 1 loses no claim (R46). -/
theorem loseClaim_undriven {s : State} {cl : Claim} {bit : Fin 9} (claim : s.cable.claim = some cl)
    (other : (claimLine s cl.entry)[bit.val]? ≠ some true) : loseClaim bit s = s := by
  rw [loseClaim, claim]
  exact if_neg fun both => other both.2

/-! ### The line bits of a claim field (R42, R43) -/

/-- In a claim field the start bit and the bits before it are a run of 7 dominant levels only in a PRESENCE of stations 1
to 3; elsewhere the line bits are those of the field. -/
theorem claimField_line (cls : Fin 5) (own : Fin 24) :
    let field := byteBits (claimField cls (own.val + 1))
    let levels := insertFill field false 1
    (¬ (cls.val = 0 ∧ own.val + 1 ≤ 3) → levels = field
      ∧ ∀ bit : Fin 8, removeFill (levels.take bit.val ++ [false]) false 1 = some (field.take bit.val ++ [false]))
    ∧ (cls.val = 0 → own.val + 1 ≤ 3 → levels = field.take 6 ++ true :: field.drop 6
      ∧ removeFill (levels.take 6 ++ [false]) false 1 = none) := by
  revert cls own
  decide +kernel

/-- Settles O17: the events of the pair, each in the state it belongs to. -/
theorem guardClaimAndAbortFollowThePair : Obligations.GuardClaimAndAbortFollowThePair := by
  refine ⟨?_, fun cls own low one high => ?_⟩
  · intro s q c
    refine ⟨fun guard => ⟨?complete, ?restart⟩, fun idle => ?startBit, fun aborting => ?abortEnd,
      fun e head idle drivers free => ?claims, fun h => ?noClaim, queueHead_idle, fun bit cl claiming claim => ?lost⟩
    case complete => exact (outside_quiet completeGuard q).trans (congrArg _ (if_pos guard))
    case restart => exact (outside_quiet restartGuard q).trans (congrArg _ ((if_pos guard).trans (by
      rw [enterGuard, updCable, ← show c.state = .guard from guard])))
    case startBit => exact (outside_quiet seeStartBit q).trans (congrArg _ ((if_pos idle).trans (by
      rw [updCable, openBuffer_receiving])))
    case abortEnd => exact (outside_quiet endAbort q).trans (congrArg _ (if_pos aborting))
    case claims =>
      refine (outside_quiet startClaim q).trans (congrArg _ ?_)
      rw [startClaim, claimable_head idle drivers free, head]
      rfl
    case noClaim =>
      refine (outside_quiet startClaim q).trans (congrArg _ ?_)
      rw [startClaim, claimable_none h]
    case lost =>
      intro levels read lost
      refine ⟨fun driven => ⟨fun bits unfilled => ?_, fun filled alone => ?_⟩, fun other => ?_⟩
      · exact (outside_quiet (loseClaim bit) q).trans (congrArg _ (loseClaim_received claiming claim driven unfilled))
      · exact (outside_quiet (loseClaim bit) q).trans (congrArg _ (loseClaim_aborted claiming claim driven filled alone))
      · exact (outside_quiet (loseClaim bit) q).trans (congrArg _ (loseClaim_undriven claim other))
  · obtain ⟨own, rfl⟩ : ∃ n, own = n + 1 := ⟨own - 1, by omega⟩
    obtain ⟨whole, filled⟩ := claimField_line ⟨cls, by omega⟩ ⟨own, by omega⟩
    exact ⟨fun other => ⟨(whole other).1, fun bit lt => (whole other).2 ⟨bit, lt⟩⟩, filled⟩

end Sys2Proof.Machine
end

section
/-! PROOF. Marker words and line bits read as sent. -/

namespace Sys2Proof.Machine
open Sys2Proof.Claims

/-! ### Fill bits (R42) -/

/-- The fill bits removed are those that were inserted. -/
theorem removeFill_insertFill (bits : List Bool) (level : Bool) (run : Nat) :
    removeFill (insertFill bits level run) level run = some bits := by
  induction bits generalizing level run with
  | nil => rfl
  | cons b rest ih =>
    by_cases full : run = 7
    · subst full
      have turned : (!level) ≠ level := Bool.not_ne_self level
      rw [insertFill, if_pos rfl, removeFill, if_pos rfl, if_neg turned, removeFill, if_neg (by decide)]
      split_ifs <;> rw [ih] <;> rfl
    · rw [insertFill, if_neg full]
      by_cases same : b = level
      · rw [if_pos same, removeFill, if_neg full, if_pos same, ih]; rfl
      · rw [if_neg same, removeFill, if_neg full, if_neg same, ih]; rfl

/-- A run of 8 equal levels does not go over from a shorter run to the other level. -/
theorem run_ends {level b l : Bool} {run : Nat} {rest : List Bool} (short : run ≤ 7) (turns : b ≠ level)
    (none : ¬ List.replicate 8 l <:+: b :: rest) : ¬ List.replicate 8 l <:+: List.replicate run level ++ b :: rest := by
  induction run with
  | zero => exact none
  | succ run ih =>
    rw [List.replicate_succ (n := run), List.cons_append, List.infix_cons_iff]
    rintro (start | later)
    · have first : l = level := by simpa using start.getElem (i := 0) (by simp)
      have turn : l = b := by
        have next_ := start.getElem (i := run + 1) (by rw [List.length_replicate]; omega)
        rw [List.getElem_replicate] at next_
        simpa using next_
      exact turns (turn.symm.trans first)
    · exact ih (by omega) later

/-- Line bits from which the fill bits can be removed hold no run of 8 equal levels. -/
theorem no_long_run {line bits : List Bool} {level : Bool} {run : Nat} (read : removeFill line level run = some bits)
    (short : run ≤ 7) (l : Bool) : ¬ List.replicate 8 l <:+: List.replicate run level ++ line := by
  induction line generalizing bits level run with
  | nil =>
    intro long
    have := long.length_le
    simp at this
    omega
  | cons b rest ih =>
    have one {bits} (read : removeFill rest b 1 = some bits) : ¬ List.replicate 8 l <:+: b :: rest := ih read (by decide)
    by_cases same : b = level
    · by_cases full : run = 7
      · rw [removeFill, if_pos full, if_pos same] at read
        cases read
      · rw [removeFill, if_neg full, if_pos same, Option.map_eq_some_iff] at read
        obtain ⟨_, read, _⟩ := read
        have longer := ih read (by omega)
        subst same
        rwa [List.replicate_succ' (n := run), List.append_assoc] at longer
    · refine run_ends short same ?_
      rw [removeFill, if_neg same, if_neg same] at read
      split_ifs at read
      · exact one read
      · rw [Option.map_eq_some_iff] at read
        obtain ⟨_, read, _⟩ := read
        exact one read

/-! ### Marker words (R206, R207) -/

/-- The fields of a marker word that R207 takes as valid. -/
def markerInRange (source target countdown : Nat) : Prop :=
  1 ≤ source ∧ source ≤ 24 ∧ target ≤ 24 ∧ countdown ≤ 16 ∧ (target = 0 ↔ countdown = 0)

/-- A marker word read has fields in their ranges. -/
theorem readMarker_inRange {word : BitVec 64} {m : MarkerFields} (read : readMarker word = some m) :
    markerInRange m.source m.target m.countdown := by
  rw [readMarker] at read
  split_ifs at read with good
  obtain rfl := Option.some.inj read
  exact good.2

/-- The number that a marker word without its check is. -/
def markerNumber (m : MarkerFields) : Nat :=
  m.epoch.toNat * 4294967296 + m.source * 16777216 + m.target * 65536 + m.countdown * 256

/-- A marker word with fields in their ranges is the number of its fields and its check. -/
theorem markerWord_toNat {m : MarkerFields} (h : markerInRange m.source m.target m.countdown) :
    (markerWord m).toNat = markerNumber m + (crc8 (markerBits (BitVec.ofNat 64 (markerNumber m)))).toNat := by
  obtain ⟨_, source, target, countdown, _⟩ := h
  have epoch := m.epoch.isLt
  have small := (crc8 (markerBits (BitVec.ofNat 64 (markerNumber m)))).isLt
  have fits : markerNumber m < 2 ^ 64 := by simp only [markerNumber]; omega
  have whole : markerNumber m = markerNumber m / 256 * 2 ^ 8 := by simp only [markerNumber]; omega
  show (BitVec.ofNat 64 (markerNumber m) ||| (crc8 (markerBits (BitVec.ofNat 64 (markerNumber m)))).setWidth 64).toNat = _
  generalize crc8 (markerBits (BitVec.ofNat 64 (markerNumber m))) = check at small ⊢
  rw [BitVec.toNat_or, BitVec.toNat_ofNat, BitVec.toNat_setWidth, Nat.mod_eq_of_lt fits, Nat.mod_eq_of_lt (by omega)]
  rw [whole, ← Nat.shiftLeft_eq, ← Nat.shiftLeft_add_eq_or_of_lt small, Nat.shiftLeft_eq, ← whole]

/-- The check of a marker word is over the bits that it does not change. -/
theorem markerBits_markerWord (m : MarkerFields) :
    markerBits (markerWord m) = markerBits (BitVec.ofNat 64 (markerNumber m)) := by
  refine List.map_congr_left fun i mem => ?_
  rw [List.mem_range] at mem
  show (BitVec.ofNat 64 (markerNumber m) ||| (crc8 _).setWidth 64).getLsbD (63 - i) = _
  rw [BitVec.getLsbD_or, BitVec.getLsbD_setWidth, BitVec.getLsbD_of_ge _ _ (show 8 ≤ 63 - i by omega), Bool.and_false,
    Bool.or_false]

/-- A marker word with fields in their ranges is received as it was composed. -/
theorem readMarker_markerWord {m : MarkerFields} (h : markerInRange m.source m.target m.countdown) :
    readMarker (markerWord m) = some m := by
  have value := markerWord_toNat h
  have small := (crc8 (markerBits (BitVec.ofNat 64 (markerNumber m)))).isLt
  have ranges := h
  obtain ⟨_, source, target, countdown, _⟩ := h
  have epoch_ : (markerWord m).extractLsb' 32 32 = m.epoch := by
    refine BitVec.eq_of_toNat_eq ?_
    rw [BitVec.extractLsb'_toNat, Nat.shiftRight_eq_div_pow, value, markerNumber]
    omega
  have source_ : ((markerWord m).extractLsb' 24 8).toNat = m.source := by
    rw [BitVec.extractLsb'_toNat, Nat.shiftRight_eq_div_pow, value, markerNumber]
    omega
  have target_ : ((markerWord m).extractLsb' 16 8).toNat = m.target := by
    rw [BitVec.extractLsb'_toNat, Nat.shiftRight_eq_div_pow, value, markerNumber]
    omega
  have countdown_ : ((markerWord m).extractLsb' 8 8).toNat = m.countdown := by
    rw [BitVec.extractLsb'_toNat, Nat.shiftRight_eq_div_pow, value, markerNumber]
    omega
  have check : crc8 (markerBits (markerWord m)) = (markerWord m).extractLsb' 0 8 := by
    refine BitVec.eq_of_toNat_eq ?_
    rw [BitVec.extractLsb'_toNat, Nat.shiftRight_eq_div_pow, value, markerBits_markerWord, markerNumber] at *
    omega
  rw [readMarker, epoch_, source_, target_, countdown_]
  exact if_pos ⟨check, ranges⟩

/-- Settles O24: the marker word and the line bits of a burst are read back. -/
theorem markersAndLineBitsAreReadAsSent : Obligations.MarkersAndLineBitsAreReadAsSent := by
  refine ⟨fun m => ⟨readMarker_inRange, readMarker_markerWord⟩, fun word => ?_, fun c body check => ?_⟩
  · intro source target countdown
    have valid : readMarker word = none
        ↔ ¬ (crc8 (markerBits word) = word.extractLsb' 0 8 ∧ markerInRange source target countdown) := by
      rw [readMarker]
      split_ifs with good
      · exact ⟨nofun, fun bad => absurd good bad⟩
      · exact ⟨fun _ => good, fun _ => rfl⟩
    rw [valid, markerInRange, not_and_or]
    exact or_congr_right (by omega)
  · have read := removeFill_insertFill (bitsOf (c :: body) ++ (List.range 32).map fun i => check.getLsbD (31 - i)) false 1
    exact ⟨rfl, read, fun level => no_long_run read (by decide) level⟩

end Sys2Proof.Machine
end

section
/-! PROOF. Bursts read as sent. -/

namespace Sys2Proof.Machine
open Sys2Proof.Claims

/-! ### The bytes of a burst (R205, R208) -/

/-- The number of a byte that holds a number below 256. -/
theorem toNat_byte {n : Nat} (h : n < 256) : (BitVec.ofNat 8 n : Byte).toNat = n :=
  (BitVec.toNat_ofNat n 8).trans (Nat.mod_eq_of_lt h)

/-- A burst of this claim field, body and check, as its bytes. -/
def burstBytes (claimByte : Byte) (body : List Byte) (check : BitVec 32) : List Byte :=
  claimByte :: body ++ beBytes 4 check.toNat

theorem length_burstBytes (c : Byte) (body : List Byte) (check : BitVec 32) :
    (burstBytes c body check).length = body.length + 5 := by simp [burstBytes]

theorem burstBytes_body (c : Byte) (body : List Byte) (check : BitVec 32) :
    ((burstBytes c body check).drop 1).take ((burstBytes c body check).length - 5) = body := by
  rw [length_burstBytes, Nat.add_sub_cancel]
  exact List.take_left

theorem burstBytes_check (c : Byte) (body : List Byte) (check : BitVec 32) :
    BitVec.ofNat 32 (beNat ((burstBytes c body check).drop ((burstBytes c body check).length - 4))) = check := by
  have behind : (burstBytes c body check).drop (body.length + 1) = beBytes 4 check.toNat := List.drop_left
  rw [length_burstBytes, show body.length + 5 - 4 = body.length + 1 by omega, behind, beNat_beBytes]
  rw [Nat.mod_eq_of_lt (show check.toNat < 256 ^ 4 from check.isLt), BitVec.ofNat_toNat, BitVec.setWidth_eq]

/-- A burst with another check is no good burst (R209). -/
theorem readBurst_badCheck {c : Byte} {body : List Byte} {check : BitVec 32} (bad : check ≠ burstCheck c body) :
    readBurst (burstBytes c body check) = none := by
  rw [readBurst, burstBytes_body, burstBytes_check]
  exact if_neg fun good => bad good.2.2.2.symm

/-- The class and the address of a claim field (R208). -/
theorem claimField_parts {cls address : Nat} (low : cls ≤ 4) (high : address ≤ 24) :
    (claimField cls address).toNat / 32 = cls ∧ (claimField cls address).toNat % 32 = address := by
  rw [claimField, toNat_byte (by omega)]
  omega

/-- A burst with its own check is read by its class. -/
theorem readBurst_good {cls address : Nat} {body : List Byte} (low : cls ≤ 4) (one : 1 ≤ address) (high : address ≤ 24) :
    let read := readBurst (burstBytes (claimField cls address) body (burstCheck (claimField cls address) body))
    (cls = 0 → read = (readPresence address body).map .presence) ∧ (cls = 1 → read = readRetire address body)
      ∧ (cls = 2 → read = readPull address body) ∧ (cls = 3 ∨ cls = 4 → read = (readBlock address body).map .block) := by
  intro read
  obtain ⟨class_, address_⟩ := claimField_parts low high
  have first (check : BitVec 32) : byteAt (burstBytes (claimField cls address) body check) 0 = claimField cls address := rfl
  have long (check : BitVec 32) : 5 ≤ (burstBytes (claimField cls address) body check).length := by
    rw [length_burstBytes]; omega
  simp only [read, readBurst, burstBytes_body, burstBytes_check, first, class_, address_, long, one, high, true_and, if_true]
  refine ⟨?_, ?_, ?_, ?_⟩
  · rintro rfl; rfl
  · rintro rfl; rfl
  · rintro rfl; rfl
  · rintro (rfl | rfl) <;> rfl

/-! ### Announcements (R208, R210) -/

/-- A timebase state is read from its code, and a width from its code. -/
theorem timebaseOfCode_code (t : TimebaseState) : timebaseOfCode (BitVec.ofNat 8 t.code).toNat = some t := by cases t <;> rfl

theorem widthOfCode_code (w : Width) : widthOfCode (BitVec.ofNat 8 w.code).toNat = some w := by cases w <;> rfl

/-- The flags of an announcement's second byte. -/
theorem announcement_flags (held urgent : Bool) (w : Width) :
    let b : Byte := BitVec.ofNat 8 ((if held then 128 else 0) + (if urgent then 64 else 0) + w.code)
    widthOfCode (b.toNat % 4) = some w ∧ b.getLsbD 6 = urgent ∧ b.getLsbD 7 = held := by
  cases w <;> revert held urgent <;> decide

/-- An announcement within its ranges is read as sent. -/
theorem readAnnouncement_bytes {a : Announcement} (one : 1 ≤ a.samples) (limit : a.samples ≤ a.width.limit) :
    readAnnouncement (announcementBytes a) = some a := by
  obtain ⟨width, urgent, held⟩ := announcement_flags a.held a.urgent a.width
  have index : unitIx 16 (byteAt (announcementBytes a) 0).toNat = some a.index := unitIx_byte a.index (by decide)
  have low : a.width.limit ≤ 512 := by cases a.width <;> decide
  have samples : field (announcementBytes a) 2 2 = a.samples := by
    show beNat (beBytes 2 a.samples) = _
    rw [beNat_beBytes, Nat.mod_eq_of_lt (by omega)]
  have flags : byteAt (announcementBytes a) 1
    = BitVec.ofNat 8 ((if a.held then 128 else 0) + (if a.urgent then 64 else 0) + a.width.code) := rfl
  rw [readAnnouncement, index, flags, width, samples, urgent, held]
  exact if_pos ⟨one, limit⟩

/-- The announcements of a PRESENCE are read as sent. -/
theorem readAnnouncements_bytes {pubs : List Announcement} (fits : ∀ a ∈ pubs, 1 ≤ a.samples ∧ a.samples ≤ a.width.limit) :
    readAnnouncements pubs.length (pubs.flatMap announcementBytes) = some pubs := by
  induction pubs with
  | nil => rfl
  | cons a rest ih =>
    obtain ⟨one, limit⟩ := fits a List.mem_cons_self
    have head : ((a :: rest).flatMap announcementBytes).take 4 = announcementBytes a := rfl
    have tail : ((a :: rest).flatMap announcementBytes).drop 4 = rest.flatMap announcementBytes := rfl
    rw [List.length_cons, readAnnouncements, head, tail, readAnnouncement_bytes one limit,
      ih fun x mem => fits x (List.mem_cons_of_mem a mem)]
    rfl

/-- Announcements in ascending index pass the test of R51. -/
theorem ascending_of_pairwise {pubs : List Announcement} (order : pubs.Pairwise fun a b => a.index.val < b.index.val) :
    ascending pubs = true := by
  induction pubs with
  | nil => rfl
  | cons a rest ih =>
    obtain ⟨below, order⟩ := List.pairwise_cons.1 order
    cases rest with
    | nil => rfl
    | cons b rest =>
      rw [ascending, decide_eq_true (below b List.mem_cons_self), Bool.true_and]
      exact ih order

/-! ### The four kinds of burst (R208) -/

/-- The grade byte of a PRESENCE. -/
theorem presence_grade (eligible : Bool) {grade : Nat} (h : grade ≤ 7) :
    let b : Byte := BitVec.ofNat 8 ((if eligible then 128 else 0) + grade)
    b.toNat % 8 = grade ∧ b.getLsbD 7 = eligible := by
  interval_cases grade <;> revert eligible <;> decide

/-- The flags byte of a PRESENCE. -/
theorem presence_flags (fresh alive : Bool) :
    let b : Byte := BitVec.ofNat 8 ((if fresh then 2 else 0) + (if alive then 1 else 0))
    b.getLsbD 0 = alive ∧ b.getLsbD 1 = fresh := by
  revert fresh alive; decide

/-- A PRESENCE within its ranges is read as sent. -/
theorem readPresence_body {p : Presence} (range : burstInRange (.presence p)) :
    readPresence p.sender (presenceBody p) = some p := by
  obtain ⟨one, high, grade, believed, few, order, fits⟩ := range
  obtain ⟨grade_, eligible⟩ := presence_grade p.eligible grade
  obtain ⟨alive, fresh⟩ := presence_flags p.fresh p.hostAlive
  have timebase : timebaseOfCode (byteAt (presenceBody p) 2).toNat = some p.timebase := timebaseOfCode_code p.timebase
  have number : (byteAt (presenceBody p) 5).toNat = p.pubs.length := toNat_byte (by omega)
  have list : readAnnouncements p.pubs.length ((presenceBody p).drop 6) = some p.pubs := readAnnouncements_bytes fits
  have sender : (byteAt (presenceBody p) 0).toNat = p.sender := toNat_byte (by omega)
  have believed_ : (byteAt (presenceBody p) 3).toNat = p.believed := toNat_byte (by omega)
  have second : byteAt (presenceBody p) 1 = BitVec.ofNat 8 ((if p.eligible then 128 else 0) + p.grade) := rfl
  have fifth : byteAt (presenceBody p) 4 = BitVec.ofNat 8 ((if p.fresh then 2 else 0) + (if p.hostAlive then 1 else 0)) := rfl
  have size (l : List Announcement) : (l.flatMap announcementBytes).length = 4 * l.length := by
    induction l with
    | nil => rfl
    | cons a rest ih => rw [List.flatMap_cons, List.length_append, ih, List.length_cons]; simp [announcementBytes]; omega
  have length : (presenceBody p).length = 6 + 4 * p.pubs.length := by
    rw [presenceBody, List.length_append, size]; rfl
  rw [readPresence, timebase, number, second, fifth, believed_, sender, length, grade_, eligible, alive, fresh]
  show (readAnnouncements p.pubs.length ((presenceBody p).drop 6) >>= fun pubs => _) = _
  rw [list]
  exact if_pos ⟨few, rfl, rfl, believed, ascending_of_pairwise order⟩

/-- A RETIRE within its ranges is read as sent. -/
theorem readRetire_body {a succ : Nat} (range : burstInRange (.retire a succ)) :
    readRetire a (retireBody a succ) = some (.retire a succ) := by
  obtain ⟨one, high, named, other⟩ := range
  have sender : (byteAt (retireBody a succ) 0).toNat = a := toNat_byte (by omega)
  have successor : (byteAt (retireBody a succ) 1).toNat = succ := toNat_byte (by omega)
  rw [readRetire, sender, successor]
  exact if_pos ⟨rfl, rfl, named, other⟩

/-- A PULL within its ranges is read as sent. -/
theorem readPull_body {a pub : Nat} {index : Fin 16} (range : burstInRange (.pull a pub index)) :
    readPull a (pullBody a pub index.val) = some (.pull a pub index) := by
  obtain ⟨one, high, named, last⟩ := range
  have sender : (byteAt (pullBody a pub index.val) 0).toNat = a := toNat_byte (by omega)
  have publisher : (byteAt (pullBody a pub index.val) 1).toNat = pub := toNat_byte (by omega)
  have index_ : unitIx 16 (byteAt (pullBody a pub index.val) 2).toNat = some index := unitIx_byte index (by decide)
  rw [readPull, index_, sender, publisher]
  exact if_pos ⟨rfl, rfl, named, last⟩

/-- The flags byte of a BLOCK. -/
theorem block_flags (capture : TimebaseState) (silent gap again : Bool) :
    let b : Byte := BitVec.ofNat 8 (capture.code * 16 + (if silent then 4 else 0) + (if gap then 2 else 0)
      + (if again then 1 else 0))
    timebaseOfCode (captureField b) = some capture ∧ b.getLsbD 0 = again ∧ b.getLsbD 1 = gap ∧ b.getLsbD 2 = silent := by
  cases capture <;> revert silent gap again <;> decide

/-- A BLOCK within its ranges is read as sent. -/
theorem readBlock_body {b : BlockBurst} (range : burstInRange (.block b)) :
    readBlock b.publisher (blockBody b) = some b := by
  obtain ⟨one, high, some_, limit, payload, gaps⟩ := range
  obtain ⟨capture, again, gap, silent⟩ := block_flags b.flags.capture b.flags.hostSilent b.flags.gap.isSome b.flags.isRepeat
  have low : b.width.limit ≤ 512 := by cases b.width <;> decide
  have read (start n v : Nat) (h : fieldBytes (blockBody b) start n = beBytes n v) (fits : v < 256 ^ n) :
      field (blockBody b) start n = v := by
    rw [field, h, beNat_beBytes, Nat.mod_eq_of_lt fits]
  have seq : field (blockBody b) 2 2 = b.seq.toNat := read _ _ _ rfl b.seq.isLt
  have time : field (blockBody b) 4 6 = b.time.toNat := read _ _ _ rfl b.time.isLt
  have count : field (blockBody b) 11 2 = b.count := read _ _ _ rfl (by omega)
  have gap_ : field (blockBody b) 14 2 = b.flags.gap.getD 0 := read _ _ _ rfl (by
    cases g : b.flags.gap with
    | none => decide
    | some n => exact Nat.lt_succ_of_le (gaps n g).2)
  have publisher : (byteAt (blockBody b) 0).toNat = b.publisher := toNat_byte (by omega)
  have index : unitIx 16 (byteAt (blockBody b) 1).toNat = some b.index := unitIx_byte b.index (by decide)
  have width : widthOfCode (byteAt (blockBody b) 10).toNat = some b.width := widthOfCode_code b.width
  have flags : byteAt (blockBody b) 13 = BitVec.ofNat 8 (b.flags.capture.code * 16 + (if b.flags.hostSilent then 4 else 0)
    + (if b.flags.gap.isSome then 2 else 0) + (if b.flags.isRepeat then 1 else 0)) := rfl
  have length : (blockBody b).length = 16 + b.count * b.width.bytes := by
    rw [← payload]; simp [blockBody]; omega
  have whole : ((if b.flags.gap.isSome then some (b.flags.gap.getD 0) else none) : Option Nat) = b.flags.gap := by
    cases b.flags.gap <;> rfl
  have told : b.flags.gap.isSome = true ↔ b.flags.gap.getD 0 ≠ 0 := by
    cases g : b.flags.gap with
    | none => simp
    | some n => simpa using (Nat.one_le_iff_ne_zero.1 (gaps n g).1)
  rw [readBlock, index, width, flags, capture, seq, time, count, gap_, publisher, again, gap, silent, length]
  refine (if_pos ⟨rfl, some_, limit, rfl, told⟩).trans (congrArg some ?_)
  rw [whole, BitVec.ofNat_toNat, BitVec.ofNat_toNat, BitVec.setWidth_eq, BitVec.setWidth_eq]
  rfl

/-- The ranges hold the sender's address. -/
theorem sender_inRange {b : Burst} (range : burstInRange b) : 1 ≤ b.sender ∧ b.sender ≤ 24 := by
  cases b with
  | presence p | block b => obtain ⟨one, high, _⟩ := range; exact ⟨one, high⟩
  | retire a succ | pull a pub index => obtain ⟨one, high, _⟩ := range; exact ⟨one, high⟩

/-- A burst within its ranges, sent in a class of its kind, is read as sent. -/
theorem readBurst_sent {b : Burst} {cls : Nat} (range : burstInRange b) (kind : cls ∈ burstClasses b) :
    readBurst (burstBytes (claimField cls b.sender) (burstBody b) (burstCheck (claimField cls b.sender) (burstBody b)))
      = some b := by
  obtain ⟨one, high⟩ := sender_inRange range
  have low : cls ≤ 4 := by cases b <;> simp [burstClasses] at kind <;> omega
  obtain ⟨presence, retire, pull, block⟩ := readBurst_good (body := burstBody b) low one high
  cases b with
  | presence p => exact (presence (List.mem_singleton.1 kind)).trans (congrArg _ (readPresence_body range))
  | retire a succ => exact (retire (List.mem_singleton.1 kind)).trans (readRetire_body range)
  | pull a pub index => exact (pull (List.mem_singleton.1 kind)).trans (readPull_body range)
  | block b => exact (block (by simpa [burstClasses] using kind)).trans (congrArg _ (readBlock_body range))

/-- Settles O23: a burst is read back, and not with another check. -/
theorem burstsAreReadAsSent : Obligations.BurstsAreReadAsSent :=
  fun _ _ range kind => ⟨readBurst_sent range kind, fun _ other => readBurst_badCheck other⟩

end Sys2Proof.Machine
end

section
/-! PROOF. The successful end of a burst. -/

namespace Sys2Proof.Machine
open Sys2Proof.Claims

/-! ### The end of a bound burst (R106, R117) -/

/-- A sent block's end clears NEW and the binding; no commit waits for it. -/
theorem endBinding_sent {s : State} {k : Fin 16} (bound : s.cable.binding = some k) (used : s.pubs[k].state ≠ .unused)
    (free : s.pubs[k].commitPending = false) : endBinding true s = { s with
      cable := { s.cable with binding := none }, pubs := s.pubs.set k { s.pubs[k] with isNew := false } } := by
  let t := updCable (fun c => { c with binding := none }) (updPub k (fun p => { p with isNew := false }) s)
  have waits : ¬ t.pubs[k].commitPending = true := by
    rw [show t.pubs[k] = _ from upd_get ..]
    exact ne_true_of_eq_false free
  have ended : endBinding true s = completeCommit k t := by
    simp only [endBinding, bound]
    rw [if_pos ⟨trivial, used⟩]
  rw [ended]
  exact if_neg waits

/-- The end of a burst of a publication that is UNUSED by now releases the binding alone. -/
theorem endBinding_unused {s : State} {k : Fin 16} (bound : s.cable.binding = some k) (unused : s.pubs[k].state = .unused)
    (free : s.pubs[k].commitPending = false) :
    endBinding true s = { s with cable := { s.cable with binding := none } } := by
  have ended : endBinding true s = completeCommit k (updCable (fun c => { c with binding := none }) s) := by
    simp only [endBinding, bound]
    rw [if_neg fun both => both.2 unused]
  rw [ended]
  exact if_neg (ne_true_of_eq_false free)

/-! ### The burst's end (R58) -/

/-- The station after a fall of the score (R80, R81). -/
def scoreLowered (x : Station) : Station :=
  { x with faultScore := x.faultScore - 1, caution := x.caution && !decide (x.faultScore = 96) }

/-- A fall of the score, with CAUTION_OFF at the fall from 96 (R81). -/
theorem lowerScore_eq (s : State) : lowerScore s =
    if s.station.faultScore = 96 then raise .cautionOff none 95 { s with station := scoreLowered s.station }
    else { s with station := scoreLowered s.station } := by
  have falls : decide (96 ≤ s.station.faultScore ∧ s.station.faultScore - 1 < 96) = decide (s.station.faultScore = 96) :=
    decide_eq_decide.2 (by omega)
  simp only [lowerScore, falls, decide_eq_true_eq]
  split_ifs with fall
  · have new : BitVec.ofNat 16 (s.station.faultScore - 1) = 95 := by rw [fall]; rfl
    rw [new]
    rfl
  · rfl

/-- An entry leaves the queue unless it was removed while its burst ran (R57, R58). -/
theorem dropSent_eq (f : Flight) (s : State) : dropSent f s = { s with
    txQueue := if f.withdrawn then s.txQueue else s.txQueue.filter fun y => decide (y.kind ≠ f.entry.kind) } := by
  have queue : (fun e : TxEntry => !(e.kind == f.entry.kind)) = fun e => decide (e.kind ≠ f.entry.kind) := by
    funext e; by_cases h : e.kind = f.entry.kind <;> simp [h]
  rw [dropSent, queue]
  split_ifs <;> rfl

/-- A burst's end before it is told: the interface in GUARD, the entry off the queue if it is still there, the score one
lower. -/
def burstLeft (f : Flight) (s : State) : State :=
  { s with
    cable := { s.cable with state := .guard, guardCount := 0, flight := none }
    txQueue := if f.withdrawn then s.txQueue else s.txQueue.filter fun y => decide (y.kind ≠ f.entry.kind)
    station := scoreLowered s.station }

/-- The same with CAUTION_OFF at the fall from 96 (R81). -/
def burstSettled (f : Flight) (s : State) : State :=
  if s.station.faultScore = 96 then raise .cautionOff none 95 (burstLeft f s) else burstLeft f s

/-- The event changes nothing but the port. -/
theorem burstSettled_frame (f : Flight) (s : State) :
    burstSettled f s = { burstLeft f s with port := (burstSettled f s).port } := by
  unfold burstSettled
  split_ifs
  · exact raise_frame _ _ _ _
  · rfl

/-- The end of a burst in the order of R58. -/
theorem finishBurst_eq {f : Flight} {s : State} (sending : s.cable.state = .sending) (flight : s.cable.flight = some f) :
    finishBurst s = reportSent f (occur .burstSent (entrySubject f.entry.kind) 1 (burstSettled f s)) := by
  have lowered : lowerScore (dropSent f (enterGuard (updCable (fun c => { c with flight := none }) s))) = burstSettled f s := by
    rw [dropSent_eq, lowerScore_eq]
    rfl
  rw [finishBurst, flight]
  exact (if_pos sending).trans (by rw [lowered])

/-- A RETIRE sent in JOINED brings a FRESH PRESENCE (R72, R78). -/
theorem retireReported_joined {s : State} (joined : s.station.state = .joined) : retireReported s = setFresh s := by
  rw [retireReported, joined]

/-- A RETIRE sent in RETIRING may end the retirement (R76). -/
theorem retireReported_retiring {s : State} (retiring : s.station.state = .retiring) :
    retireReported s = checkRetired (updStation (fun x => { x with retireSent := true }) s) := by
  rw [retireReported, retiring]

/-- A frozen monitor counts no occurrence and tells of none (R180, R183). -/
theorem occur_frozen (k : OccKind) (y : Subject) (n : Nat) {s : State} (frozen : s.monitor.frozen = true) :
    occur k y n s = s := if_pos frozen

/-- Settles O19: the common end, and then what the kind of the burst brings. -/
theorem sentBurstsLeaveTheQueue : Obligations.SentBurstsLeaveTheQueue := by
  intro f s q sending flight falls x left u told_
  have row : exec .burstSent s = .next (reportSent f (told_ (entrySubject f.entry.kind))) :=
    (outside_quiet finishBurst q).trans (congrArg _ (finishBurst_eq sending flight))
  have frame : u = { left with port := u.port } := burstSettled_frame f s
  have station (y : Subject) : (told_ y).station = x := by simp only [told_, occur_station]; rw [frame]
  have pubs (y : Subject) : (told_ y).pubs = s.pubs := by simp only [told_, occur_pubs]; rw [frame]
  have cable (y : Subject) : (told_ y).cable = u.cable := by simp only [told_, occur_cable]
  refine ⟨fun kind => ?presence, fun kind joined => ?joined, fun kind retiring => ?retiring, fun j kind => ?pull,
    fun k kind bound used => ?block, fun k kind bound unused free => ?unused⟩
  all_goals
    rw [kind] at row
    simp only [reportSent, kind] at row
  case presence => rw [row, updStation, station]; rfl
  case joined =>
    rw [row, retireReported_joined ((congrArg _ (station _)).trans joined), setFresh, updStation, station]
    rfl
  case retiring =>
    let v : State := { told_ .none with station := { x with retireSent := true } }
    have state : v.station.state = .retiring := retiring
    have base : u.timebase = s.timebase ∧ u.selector = s.selector ∧ u.roster = s.roster ∧ u.subs = s.subs
        ∧ u.monitor = s.monitor := by rw [frame]; exact ⟨rfl, rfl, rfl, rfl, rfl⟩
    obtain ⟨timebase_, selector_, roster_, subs_, monitor_⟩ := base
    have timebase : v.timebase = s.timebase := (occur_timebase ..).trans timebase_
    have selector : v.selector = s.selector := (occur_selector ..).trans selector_
    have reported : exec .burstSent s = .next (checkRetired v) := by
      rw [row, retireReported_retiring ((congrArg _ (station _)).trans retiring), updStation, station]
      rfl
    refine ⟨fun source kept => ?_, fun ends => ?_⟩
    · refine reported.trans (congrArg _ (if_neg ?_))
      rw [timebase, selector]
      rintro ⟨_, _, other | released⟩
      · exact other source
      · exact absurd (kept.symm.trans released) (by decide)
    · have retired : checkRetired v = changeStation .detached 9 v := if_pos ⟨state, rfl, by rwa [timebase, selector]⟩
      obtain ⟨left_, _, roster, subs⟩ := detached_leftTheRack 9 v state
      refine ⟨_, reported.trans (congrArg _ retired), leftTheRack_congr left_ timebase.symm rfl rfl rfl rfl, ?_, ?_, fun empty frozen => ?_⟩
      · exact roster.trans ((occur_roster ..).trans roster_)
      · exact subs.trans ((occur_subs ..).trans subs_)
      · have silent : v.port = u.port := by
          show (occur .burstSent .none 1 u).port = _
          rw [occur_frozen _ _ _ (monitor_ ▸ frozen)]
        have left_port : left.port = s.port := rfl
        have before : told v = (if falls then [(.cautionOff, 95)] else []) ∧ v.port.events.length < 32 := by
          rw [told, silent]
          by_cases fall : falls
          · rw [show u = raise .cautionOff none 95 left from if_pos fall, if_pos fall]
            simp [raise, left_port, empty]
          · rw [show u = left from if_neg fall, if_neg fall, left_port, empty]
            exact ⟨rfl, by decide⟩
        obtain ⟨rest, all⟩ := detached_told v state before.2
        exact ⟨rest, all.trans (by rw [before.1])⟩
  case pull => exact row
  case block =>
    have bound_ : (told_ (.publication k)).cable.binding = some k := by rw [cable, frame]; exact bound
    have used_ : (told_ (.publication k)).pubs[k].state ≠ .unused := by rw [pubs]; exact used
    refine ⟨fun free => ?_, fun _ => row⟩
    have free_ : (told_ (.publication k)).pubs[k].commitPending = false := by rw [pubs]; exact free
    refine row.trans (congrArg _ ((endBinding_sent bound_ used_ free_).trans ?_))
    rw [cable, pubs]
  case unused =>
    have bound_ : (told_ (.publication k)).cable.binding = some k := by rw [cable, frame]; exact bound
    refine row.trans (congrArg _ ((endBinding_unused bound_ (by rw [pubs]; exact unused) (by rw [pubs]; exact free)).trans ?_))
    rw [cable]

end Sys2Proof.Machine
end

section
/-! PROOF. Changes of station state that take the drivers and the role and leave the receivers on. -/

namespace Sys2Proof.Machine
open Sys2Proof.Claims

/-! ### The role lost (R20, R38) -/

/-- The timebase unit of a station that loses a role it may have had (R20). -/
def roleLost (t : Timebase) : Timebase :=
  if t.state = .source then { t with state := .holdover, rate := t.integral, believed := 0, windowSkip := true } else t

/-- The loss of the role: the timebase unit and the selector, and the events of it. -/
theorem loseRole_frame (s : State) : loseRole s = { s with
    timebase := roleLost s.timebase, selector := selectorOff s, port := (loseRole s).port } := by
  unfold loseRole roleLost selectorOff
  split_ifs with source
  · unfold sourceToHoldover leaveRole updSelector
    rw [enterTimebase_frame, failHandover_frame]
    simp
  · rfl

/-- Its events (R20, R38). -/
theorem loseRole_seen {u s : State} (h : SeenAlike u s) : SeenAlike (raised (roleEvents s) u) (loseRole s) := by
  unfold loseRole roleEvents
  split_ifs with source
  · have failed := failHandover_seen h 5
    have left : SeenAlike _ (leaveRole (failHandover 5 s)) :=
      ⟨failed.ticks, failed.roster, failed.pubs, failed.subs, failed.monitor, failed.port⟩
    rw [raised, List.foldl_append]
    exact enterTimebase_seen (new := .holdover) left
      (fun t => { t with rate := t.integral, believed := 0, windowSkip := true }) (old := .source)
      (by simpa [leaveRole] using source) nofun fun _ => rfl
  · exact h

/-- They enter last. -/
theorem loseRole_prefix (s : State) : s.port.events <+: (loseRole s).port.events := by
  rw [(loseRole_seen (SeenAlike.refl s)).port]
  exact raised_prefix _ s

/-! ### The departure to a state without the drivers (R60, R65, R73) -/

/-- The interface of a station that may have had the drivers and now has not. -/
def driversLost (old : StationState) (c : Cable) : Cable :=
  if driversOn old then { cutCable c with holdOff := false } else c

/-- The station controller's own fields at that. -/
def driverFieldsLost (x : Station) : Station :=
  if driversOn x.state then { x with freshPending := false, retireSent := false, clash := 0, retireTimer := 0 } else x

/-- The departure to a state without the drivers: what it can change. -/
theorem departed_frame {new : StationState} (off : driversOn new = false) (cause : Nat) (s : State) :
    departed new cause s = { s with
      pubs := (departed new cause s).pubs, monitor := (departed new cause s).monitor
      port := (departed new cause s).port, txQueue := if driversOn s.station.state then [] else s.txQueue
      cable := driversLost s.station.state s.cable
      selector := { s.selector with
        countdown := if s.station.state = .joined then none else s.selector.countdown }
      station := { driverFieldsLost s.station with state := new } } := by
  unfold departed driversLost driverFieldsLost
  simp only [off, Bool.not_false, Bool.and_true]
  by_cases on : driversOn s.station.state
  · simp only [if_pos on]
    split_ifs
    · rw [leaveDrivers_frame, announceStation_frame]; rfl
    · rw [leaveDrivers_frame, announceStation_frame]
  · have other : s.station.state ≠ .joined := fun e => on (by rw [e]; rfl)
    simp only [if_neg on, if_neg other]
    rw [announceStation_frame]

/-- STATION_STATE enters first (R66). -/
theorem departed_prefix (new : StationState) (cause : Nat) (s : State) :
    (announceStation new cause s).port.events <+: (departed new cause s).port.events := by
  unfold departed
  dsimp only
  have left : (announceStation new cause s).port.events <+: (if driversOn s.station.state && !driversOn new
      then leaveDrivers (announceStation new cause s) else announceStation new cause s).port.events := by
    split_ifs
    · exact leaveDrivers_prefix _
    · exact List.prefix_refl _
  split_ifs at left ⊢ <;> exact left

/-- While no commit waits, STATION_STATE is all that is told. -/
theorem departed_seen {u s : State} (h : SeenAlike u s) (new : StationState) (cause : Nat) (free : NoCommitWaits s) :
    SeenAlike (raise .stationState none (stationCode s.station.state new cause) u) (departed new cause s) := by
  have announced : SeenAlike _ _ := announceStation_seen h new cause
  have left := announced.trans (leaveDrivers_seen _ (noCommitWaits_announced new cause free))
  have counted {t : State} (h : SeenAlike (raise .stationState none (stationCode s.station.state new cause) u) t) :
      SeenAlike (raise .stationState none (stationCode s.station.state new cause) u)
        (if s.station.state = .joined then updSelector (fun x => { x with countdown := none }) t else t) := by
    split_ifs
    · exact ⟨h.ticks, h.roster, h.pubs, h.subs, h.monitor, h.port⟩
    · exact h
  unfold departed
  refine counted ?_
  split_ifs
  · exact left
  · exact announced

/-! ### DUPLICATE and SILENCED (R73, R74, R82) -/

/-- A change to DUPLICATE or SILENCED of a station with its receivers on. -/
theorem changeStation_roleless {new : StationState} (cause : Nat) {s : State} (on : receiversOn s.station.state = true)
    (h : new = .duplicate ∨ new = .silenced) :
    changeStation new cause s = entryEffects s.station.state new (loseRole (departed new cause s)) := by
  rw [changeStation_parts, followed, if_pos h, followReceivers, on]
  rcases h with rfl | rfl <;> rfl

/-- What the loss of the drivers and of the role leaves. -/
theorem roleless_frame {new : StationState} (off : driversOn new = false) (cause : Nat) (s : State) :
    let v := loseRole (departed new cause s)
    v = { s with
      pubs := v.pubs, monitor := v.monitor, port := v.port
      txQueue := if driversOn s.station.state then [] else s.txQueue
      cable := driversLost s.station.state s.cable
      timebase := roleLost s.timebase
      selector := { selectorOff s with countdown := if s.station.state = .joined then none else s.selector.countdown }
      station := { driverFieldsLost s.station with state := new } } := by
  intro v
  have lost : v = _ := loseRole_frame (departed new cause s)
  have left := departed_frame off cause s
  generalize departed new cause s = d at left lost
  generalize v = v at lost ⊢
  have selector := selectorOff_countdown (s := s) (u := d) (by rw [left]) (by rw [left])
  have timebase : d.timebase = s.timebase := by rw [left]
  rw [lost, selector, timebase, left]

/-- STATION_STATE enters before every other event of it. -/
theorem roleless_prefix (new : StationState) (cause : Nat) (s : State) :
    (announceStation new cause s).port.events <+: (loseRole (departed new cause s)).port.events :=
  (departed_prefix new cause s).trans (loseRole_prefix _)

/-- Its events while no commit waits: STATION_STATE, and those of the role (R66). -/
theorem roleless_seen {new : StationState} (off : driversOn new = false) (cause : Nat) {s : State} (free : NoCommitWaits s) :
    SeenAlike (raised ((.stationState, none, stationCode s.station.state new cause) :: roleEvents s) s)
      (loseRole (departed new cause s)) := by
  have same : roleEvents (departed new cause s) = roleEvents s := by
    rw [departed_frame off cause s]; rfl
  have lost := loseRole_seen (departed_seen (SeenAlike.refl s) new cause free)
  rwa [same] at lost

/-- What a change to DUPLICATE leaves (R65, R73, R74). -/
theorem duplicate_leaves (cause : Nat) {s : State} (on : receiversOn s.station.state = true) :
    let t := changeStation .duplicate cause s
    t = { s with
        pubs := t.pubs, monitor := t.monitor, port := t.port
        txQueue := if driversOn s.station.state then [] else s.txQueue
        cable := driversLost s.station.state s.cable
        timebase := roleLost s.timebase
        selector := { selectorOff s with countdown := if s.station.state = .joined then none else s.selector.countdown }
        station := { driverFieldsLost s.station with
          state := .duplicate, faultScore := 0, caution := false, recovery := 0 } }
      ∧ (announceStation .duplicate cause s).port.events <+: t.port.events
      ∧ (NoCommitWaits s → t.pubs = s.pubs ∧ t.monitor = s.monitor ∧ t.port = (raised
        ((.stationState, none, stationCode s.station.state .duplicate cause) :: roleEvents s ++ cautionEvents s) s).port) := by
  intro t
  have changed : t = updStation (fun x => { x with recovery := 0 }) (zeroScore (loseRole (departed .duplicate cause s))) :=
    changeStation_roleless cause on (.inl rfl)
  have frame := roleless_frame (new := .duplicate) rfl cause s
  have first := roleless_prefix .duplicate cause s
  have seen := roleless_seen (new := .duplicate) rfl cause (s := s)
  generalize loseRole (departed .duplicate cause s) = v at changed frame first seen
  have caution : v.station.caution = s.station.caution := by
    rw [frame]; unfold driverFieldsLost; split_ifs <;> rfl
  refine ⟨?_, ?_, fun free => ⟨?_, ?_, ?_⟩⟩
  · rw [changed, zeroScore_eq, frame]; rfl
  · rw [changed]; exact first.trans (zeroScore_prefix v)
  · rw [changed, zeroScore_eq]; exact (seen free).pubs.trans (by rw [raised_frame])
  · rw [changed, zeroScore_eq]
    exact (seen free).monitor.trans (by rw [raised_frame])
  · rw [changed]
    exact zeroScore_port (seen free) caution

/-- What a change to SILENCED leaves (R65, R82). -/
theorem silenced_leaves (cause : Nat) {s : State} (on : receiversOn s.station.state = true) :
    let t := changeStation .silenced cause s
    t = { s with
        pubs := t.pubs, monitor := t.monitor, port := t.port
        txQueue := if driversOn s.station.state then [] else s.txQueue
        cable := driversLost s.station.state s.cable
        timebase := roleLost s.timebase
        selector := { selectorOff s with countdown := if s.station.state = .joined then none else s.selector.countdown }
        station := { driverFieldsLost s.station with
          state := .silenced, recovery := 0, retireSent := false, retireTimer := 0 } }
      ∧ (announceStation .silenced cause s).port.events <+: t.port.events := by
  intro t
  have changed : t = updStation (fun x => { x with recovery := 0, retireSent := false, retireTimer := 0 })
      (loseRole (departed .silenced cause s)) :=
    changeStation_roleless cause on (.inr rfl)
  have frame := roleless_frame (new := .silenced) rfl cause s
  have first := roleless_prefix .silenced cause s
  generalize loseRole (departed .silenced cause s) = v at changed frame first
  refine ⟨?_, by rw [changed]; exact first⟩
  rw [changed, frame]; rfl

/-! ### The fault score (R80 to R82) -/

/-- The station after a rise of its score to a new value. -/
def scoreRaised (new : Nat) (x : Station) : Station :=
  { x with faultScore := new, caution := x.caution || decide (x.faultScore < 128 ∧ 128 ≤ new) }

/-- A rise of the score without the test for SILENCED: CAUTION_ON where it comes to 128 (R80, R81). -/
def risenTo (new : Nat) (s : State) : State :=
  if s.station.faultScore < 128 ∧ 128 ≤ new then
    raise .cautionOn none (BitVec.ofNat 16 new) { s with station := scoreRaised new s.station }
  else { s with station := scoreRaised new s.station }

/-- A rise of the score in the order of R80 to R82. -/
theorem raiseScore_eq {limit : Nat} (n : Nat) {s : State} (h : scoreLimit s.station.state = some limit) :
    raiseScore n s =
      if limit = 255 ∧ min limit (s.station.faultScore + n) = 255 then
        changeStation .silenced 12 (risenTo (min limit (s.station.faultScore + n)) s)
      else risenTo (min limit (s.station.faultScore + n)) s := by
  have risen : (if decide (s.station.faultScore < 128 ∧ 128 ≤ min limit (s.station.faultScore + n)) = true then
      raise .cautionOn none (BitVec.ofNat 16 (min limit (s.station.faultScore + n)))
        (updStation (fun x => { x with
          faultScore := min limit (s.station.faultScore + n)
          caution := x.caution || decide (s.station.faultScore < 128 ∧ 128 ≤ min limit (s.station.faultScore + n)) }) s)
      else updStation (fun x => { x with
          faultScore := min limit (s.station.faultScore + n)
          caution := x.caution || decide (s.station.faultScore < 128 ∧ 128 ≤ min limit (s.station.faultScore + n)) }) s)
      = risenTo (min limit (s.station.faultScore + n)) s := by
    simp only [decide_eq_true_eq]
    rfl
  simp only [raiseScore, h, risen]

/-- Where the score can rise the receivers are on. -/
theorem receiversOn_of_scoreLimit {x : StationState} {limit : Nat} (h : scoreLimit x = some limit) : receiversOn x = true := by
  cases x <;> simp [scoreLimit] at h <;> rfl

/-- A station in one of these states whose score comes to 255 falls silent; the events after it come later (R82). -/
theorem raiseScore_fellSilent {n : Nat} {s v : State} (few : n ≤ 100) (limit : scoreLimit v.station.state = some 255)
    (full : min 255 (v.station.faultScore + n) = 255) (state : v.station.state = s.station.state)
    (timebase : v.timebase = s.timebase) (roster : v.roster = s.roster) (subs : v.subs = s.subs) (port : v.port = s.port)
    (cable : (driversLost v.station.state v.cable).state = .guard) (k : OccKind) (y : Subject) (m : Nat) :
    FellSilent s (occur k y m (raiseScore n v)) := by
  have on : receiversOn v.station.state = true := receiversOn_of_scoreLimit limit
  have low : ¬ (v.station.faultScore < 128 ∧ 128 ≤ 255) := by omega
  let w : State := { v with station := scoreRaised 255 v.station }
  have risen : raiseScore n v = changeStation .silenced 12 w := by
    rw [raiseScore_eq n limit, full, if_pos ⟨rfl, rfl⟩, risenTo, if_neg low]
  obtain ⟨frame, first⟩ := silenced_leaves 12 (s := w) on
  have events : (announceStation .silenced 12 w).port.events <+: (occur k y m (changeStation .silenced 12 w)).port.events :=
    first.trans (occur_prefix k y m _)
  rw [risen, occur_frame]
  rw [occur_frame] at events
  generalize (occur k y m (changeStation .silenced 12 w)).monitor = monitor at events ⊢
  generalize (occur k y m (changeStation .silenced 12 w)).port = after at events ⊢
  generalize changeStation .silenced 12 w = t at frame events ⊢
  have station : t.station = { driverFieldsLost w.station with
      state := .silenced, recovery := 0, retireSent := false, retireTimer := 0 } := by rw [frame]
  have own : t.timebase = roleLost s.timebase ∧ t.roster = s.roster ∧ t.subs = s.subs
      ∧ t.cable = driversLost v.station.state v.cable ∧ t.txQueue = if driversOn v.station.state then [] else v.txQueue := by
    rw [frame]; exact ⟨congrArg roleLost timebase, roster, subs, rfl, rfl⟩
  obtain ⟨timebase_, roster_, subs_, cable_, queue_⟩ := own
  have score : (driverFieldsLost w.station).faultScore = 255 := by unfold driverFieldsLost; split_ifs <;> rfl
  refine ⟨?_, ?_, ?_, ?_, ?_, ?_, roster_, subs_, fun source => ?_, fun other => ?_, fun drivers => ?_, fun empty _ => ?_⟩
  · show t.station.state = _; rw [station]
  · show t.station.faultScore = _; rw [station]; exact score
  · show t.station.recovery = _; rw [station]
  · show t.station.retireSent = _; rw [station]
  · show t.station.retireTimer = _; rw [station]
  · show t.cable.state = _; rw [cable_, cable]
  · show t.timebase.state = _ ∧ t.timebase.rate = _ ∧ t.selector.record = none ∧ t.selector.driving = none
    rw [timebase_, roleLost, if_pos source, frame, selectorOff, if_pos ((congrArg Timebase.state timebase).trans source)]
    exact ⟨rfl, rfl, rfl, rfl⟩
  · show t.timebase = _; rw [timebase_, roleLost, if_neg other]
  · show t.txQueue = [] ∧ t.cable.holdOff = false ∧ t.station.freshPending = false
    rw [← state] at drivers
    rw [queue_, cable_, station, driversLost, driverFieldsLost, if_pos drivers, if_pos drivers,
      if_pos (show driversOn w.station.state = true from drivers)]
    exact ⟨rfl, rfl, rfl⟩
  · have told := first_of_announced (s := w) (t := { t with monitor := monitor, port := after }) (port ▸ empty) events
    rw [told, show w.station.state = s.station.state from state]
    exact congrArg (fun d => some (EventKind.stationState, BitVec.ofNat 16 d)) (Nat.add_assoc ..)

end Sys2Proof.Machine
end

section
/-! PROOF. Transmit faults. -/

namespace Sys2Proof.Machine
open Sys2Proof.Claims

/-! ### What a transmit fault leaves of the burst (R59, R117) -/

/-- The interface after a transmit fault, its binding released. -/
def faultedCable (s : State) : Cable :=
  { s.cable with state := .aborting, claim := none, flight := none, binding := none, holdOff := true
                 holdOffDeadline := s.timebase.ticks.setWidth 48 + 131072 }

/-- A transmit fault before the score: the abort pattern, the hold-off, and the publication table told (R59, R117). -/
def faulted (s : State) : State := endBinding false (updCable (faultCable s.timebase) s)

/-- What that can change. -/
theorem faulted_frame (s : State) : faulted s = { s with
    pubs := (faulted s).pubs, txQueue := (faulted s).txQueue, monitor := (faulted s).monitor, port := (faulted s).port
    cable := faultedCable s } := endBinding_frame false _

/-- While no commit waits it is the interface alone. -/
theorem faulted_free {s : State} (free : NoCommitWaits s) : faulted s = { s with cable := faultedCable s } :=
  endBinding_free (updCable (faultCable s.timebase) s) free

/-- A commit that waits is made then. -/
theorem faulted_commit {s : State} {k : Fin 16} (bound : s.cable.binding = some k) (waits : s.pubs[k].commitPending = true) :
    faulted s = askCommit k { s with cable := faultedCable s } := by
  have ended : faulted s = completeCommit k { s with cable := faultedCable s } := by
    rw [faulted, endBinding, show (updCable (faultCable s.timebase) s).cable.binding = some k from bound]
    rfl
  rw [ended, completeCommit, if_pos waits]
  exact (if_neg (by nofun)).symm

/-- A transmit fault of a burst or a claim of a kind (R59). -/
theorem transmitFault_eq {kind : EntryKind} {s : State} (h : onPair s = some kind) :
    transmitFault s = occur .txFault (entrySubject kind) 1 (faultStation kind (faulted s)) := by
  rw [transmitFault, h]
  rfl

/-- A station with the drivers can have its score rise to 255. -/
theorem scoreLimit_drivers {x : StationState} (on : x = .joined ∨ x = .retiring) : scoreLimit x = some 255 := by
  rcases on with rfl | rfl <;> rfl

/-- A rise that does not come to 255. -/
theorem raiseScore_below {n : Nat} {s : State} (limit : scoreLimit s.station.state = some 255)
    (below : min 255 (s.station.faultScore + n) < 255) :
    raiseScore n s = risenTo (min 255 (s.station.faultScore + n)) s := by
  rw [raiseScore_eq n limit, if_neg fun full => absurd full.2 (by omega)]

/-- A fault of another kind than PRESENCE raises the score (R59). -/
theorem faultStation_other {kind : EntryKind} (other : kind ≠ .presence) (s : State) :
    faultStation kind s = raiseScore 8 s := if_neg other

/-- The first fault of a PRESENCE counts a clash, and raises the score (R73). -/
theorem faultStation_first {s : State} (first : s.station.clash = 0) :
    faultStation .presence s = raiseScore 8 { s with station := { s.station with clash := 1 } } := by
  have counted : updStation (fun x => { x with clash := satAdd x.clash 1 2 }) s
      = { s with station := { s.station with clash := 1 } } := by rw [updStation, first]; rfl
  rw [faultStation, if_pos rfl, counted]
  exact if_neg (show ¬ (1 : Nat) = 2 by decide)

/-- The second makes the station DUPLICATE (R73). -/
theorem faultStation_second {s : State} (second : s.station.clash = 1) :
    faultStation .presence s = changeStation .duplicate 7 { s with station := { s.station with clash := 2 } } := by
  have counted : updStation (fun x => { x with clash := satAdd x.clash 1 2 }) s
      = { s with station := { s.station with clash := 2 } } := by rw [updStation, second]; rfl
  rw [faultStation, if_pos rfl, counted]
  exact if_pos rfl

/-- The interface of a station that loses the drivers at a fault. -/
theorem driversLost_faulted {x : StationState} (on : driversOn x = true) (s : State) :
    driversLost x (faultedCable s) = { faultedCable s with state := .guard, guardCount := 0, holdOff := false } := by
  rw [driversLost, if_pos on]
  rfl

/-- What a second presence clash leaves (R73). -/
theorem clashes_duplicate {s : State} (drivers : s.station.state = .joined ∨ s.station.state = .retiring)
    (second : s.station.clash = 1) :
    let t := occur .txFault .none 1 (faultStation .presence (faulted s))
    t = { s with
        pubs := t.pubs, monitor := t.monitor, port := t.port, txQueue := []
        cable := { faultedCable s with state := .guard, guardCount := 0, holdOff := false }
        timebase := roleLost s.timebase
        selector := { selectorOff s with countdown := if s.station.state = .joined then none else s.selector.countdown }
        station := { s.station with
          state := .duplicate, faultScore := 0, caution := false, clash := 0, recovery := 0, retireTimer := 0
          retireSent := false, freshPending := false } }
      ∧ (NoCommitWaits s →
        let told := occur .txFault .none 1 (raised
          ((.stationState, none, stationCode s.station.state .duplicate 7) :: roleEvents s ++ cautionEvents s) s)
        t.pubs = s.pubs ∧ t.port = told.port ∧ t.monitor = told.monitor) := by
  intro t
  have on : driversOn s.station.state = true := by rcases drivers with e | e <;> rw [e] <;> rfl
  have frame := faulted_frame s
  have free_ := faulted_free (s := s)
  have whole : t = occur .txFault .none 1 (faultStation .presence (faulted s)) := rfl
  generalize faulted s = v at frame free_ whole
  have station : v.station = s.station := by rw [frame]
  let w : State := { v with station := { v.station with clash := 2 } }
  have changed : faultStation .presence v = changeStation .duplicate 7 w := faultStation_second (by rw [station]; exact second)
  obtain ⟨left, -, events⟩ := duplicate_leaves 7 (s := w)
    (show receiversOn v.station.state = true by rw [station]; exact receiversOn_of_scoreLimit (scoreLimit_drivers drivers))
  rw [changed] at whole
  generalize changeStation .duplicate 7 w = u at left events whole
  have fields : driverFieldsLost { s.station with clash := 2 }
      = { s.station with clash := 0, freshPending := false, retireSent := false, retireTimer := 0 } := if_pos on
  have cut := driversLost_faulted on s
  have tells (free : NoCommitWaits s) : SeenAlike (raised
      ((.stationState, none, stationCode s.station.state .duplicate 7) :: roleEvents s ++ cautionEvents s) s) u := by
    have still : w = { s with cable := faultedCable s, station := { s.station with clash := 2 } } := by
      simp only [w, free_ free]
    have unbound : NoCommitWaits w := by rw [still]; nofun
    obtain ⟨pubs, monitor, port⟩ := events unbound
    have seen : SeenAlike s w := by rw [still]; exact ⟨rfl, rfl, rfl, rfl, rfl, rfl⟩
    rw [raised_frame]
    refine ⟨?_, ?_, pubs.trans seen.pubs, ?_, monitor.trans seen.monitor, port.trans ?_⟩
    · rw [left]
      show (roleLost w.timebase).ticks = _
      rw [still]; unfold roleLost; split_ifs <;> rfl
    · rw [left]; exact seen.roster
    · rw [left]; exact seen.subs
    · rw [(seen.raised _).port, still]; rfl
  refine ⟨?_, fun free => ?_⟩
  · have made : t = { u with monitor := t.monitor, port := t.port } := by rw [whole]; exact occur_frame ..
    obtain ⟨monitor, port, e⟩ : ∃ monitor port, t = { u with monitor := monitor, port := port } := ⟨_, _, made⟩
    rw [e, left]
    have rest : w.cable = faultedCable s ∧ w.timebase = s.timebase ∧ w.selector = s.selector := by
      simp only [w]; rw [frame]; exact ⟨rfl, rfl, rfl⟩
    obtain ⟨cable, timebase, selector⟩ := rest
    have off : selectorOff w = selectorOff s := by simp only [selectorOff, timebase, selector]
    simp only [on, if_true, cable, cut, timebase, off, selector, show w.station = { s.station with clash := 2 } by
      simp only [w, station], fields]
    simp only [w]
    rw [frame]
  · have told := (tells free).occur .txFault .none 1
    rw [← whole] at told
    exact ⟨told.pubs.trans (by rw [occur_pubs, raised_frame]), told.port, told.monitor⟩

/-- A fault that brings the score to 255 silences the station (R82). -/
theorem fault_silences {kind : EntryKind} {s : State} (drivers : s.station.state = .joined ∨ s.station.state = .retiring)
    (free : NoCommitWaits s) (full : min 255 (s.station.faultScore + 8) = 255)
    (h : kind ≠ .presence ∨ s.station.clash = 0) (y : Subject) :
    FellSilent s (occur .txFault y 1 (faultStation kind (faulted s))) := by
  have on : driversOn s.station.state = true := by rcases drivers with e | e <;> rw [e] <;> rfl
  have guard : (driversLost s.station.state (faultedCable s)).state = .guard := by rw [driversLost_faulted on]
  rw [faulted_free free]
  by_cases presence : kind = .presence
  · subst presence
    have first : s.station.clash = 0 := h.resolve_left fun n => n rfl
    rw [faultStation_first (s := { s with cable := faultedCable s }) first]
    exact raiseScore_fellSilent (v := { s with cable := faultedCable s, station := { s.station with clash := 1 } }) (by decide) (scoreLimit_drivers drivers) full rfl rfl rfl rfl rfl guard _ _ _
  · rw [faultStation_other presence]
    exact raiseScore_fellSilent (v := { s with cable := faultedCable s }) (by decide) (scoreLimit_drivers drivers) full rfl rfl rfl rfl rfl guard _ _ _

/-- The hold-off ends when its deadline is reached (R60). -/
theorem expireHoldOff_reached {s : State} (on : s.cable.holdOff = true)
    (reached : (s.timebase.ticks.setWidth 48 - s.cable.holdOffDeadline).toNat < 2 ^ 47) :
    expireHoldOff s = { s with cable := { s.cable with holdOff := false } } := by
  refine if_pos ?_
  rw [holdOffReached, on, Bool.true_and]
  exact (atOrAfter_iff (w := 47) _ _).2 reached

/-- Settles O20: the fault's kind and the new score decide what the station controller makes of it. -/
theorem transmitFaultsAbortAndHoldOff : Obligations.TransmitFaultsAbortAndHoldOff := by
  refine ⟨?_, fun s due on reached =>
    congrArg _ ((clockRow_due _ _ _ _ s due).trans (expireHoldOff_reached on reached))⟩
  intro kind s q burst drivers x new crosses c risen settledNow
  have pair : onPair s = some kind := by
    rcases burst with ⟨f, sending, flight, rfl⟩ | ⟨cl, claiming, claim, rfl, _⟩
    · rw [onPair, sending, flight]; rfl
    · rw [onPair, claiming, claim]; rfl
  have row : exec .txFault s = .next (occur .txFault (entrySubject kind) 1 (faultStation kind (faulted s))) :=
    (outside_quiet transmitFault q).trans (congrArg _ (transmitFault_eq pair))
  have limit := scoreLimit_drivers drivers
  refine ⟨fun free below other => ?other, fun free below kind_ first => ?first, fun k bound waits below kind_ => ?commit,
    fun free full h => ⟨_, row, fault_silences drivers free full h _⟩, fun kind_ second => ?second⟩
  case other =>
    rw [row, faulted_free free, faultStation_other other,
      raiseScore_below (s := { s with cable := faultedCable s }) limit below]
    rfl
  case first =>
    rw [row, kind_, faulted_free free, faultStation_first (s := { s with cable := faultedCable s }) first,
      raiseScore_below (s := { s with cable := faultedCable s, station := { s.station with clash := 1 } }) limit below]
    rfl
  case commit =>
    have station : (faulted s).station = s.station := by rw [faulted_frame]
    rw [row, kind_, faultStation_other (by nofun), raiseScore_below (by rw [station]; exact limit) (by rw [station]; exact below),
      risenTo, station, faulted_commit bound waits]
    rfl
  case second =>
    obtain ⟨whole, events⟩ := clashes_duplicate drivers second
    rw [kind_] at row
    refine ⟨_, row, ?_⟩
    simp only [entrySubject]
    generalize occur .txFault .none 1 (faultStation .presence (faulted s)) = t at whole events ⊢
    refine ⟨by rw [whole], by rw [whole], by rw [whole], by rw [whole], by rw [whole]; rfl, by rw [whole]; rfl, by rw [whole],
      fun free => ?_⟩
    obtain ⟨pubs, port, monitor⟩ := events free
    refine ⟨port, monitor, ?_⟩
    rw [pubs] at whole
    conv_lhs => rw [whole]
    rw [whole]

end Sys2Proof.Machine
end

section
/-! PROOF. A good burst that is handed over to its owner. -/

namespace Sys2Proof.Machine
open Sys2Proof.Claims

/-! ### The interface at the end of a reception (R51, R53) -/

/-- The states of the interface in which it takes a reception. -/
theorem receives_iff (c : CableState) : receives c = true ↔ c = .guard ∨ c = .idle ∨ c = .receiving := by
  cases c <;> simp [receives]

/-- The bits already read of a burst that is being received are its first. -/
theorem takesBurst_iff (c : Cable) (bytes : List Byte) : takesBurst c bytes
    ↔ c.state = .guard ∨ c.state = .idle ∨ c.state = .receiving ∧ receivedBits c <+: bitsOf bytes := by
  unfold takesBurst receivedBits
  cases c.rx0 <;> cases c.rx1 <;> exact Iff.rfl

/-- The interface takes a burst of these bytes when a reception of them can end. -/
theorem endsReceptionOf_iff (bytes : List Byte) (c : Cable) : endsReceptionOf bytes c = true ↔ takesBurst c bytes := by
  have begins : ((bitsOf bytes).take (receivedBits c).length == receivedBits c) = true ↔ receivedBits c <+: bitsOf bytes := by
    rw [beq_iff_eq, List.prefix_iff_eq_take, eq_comm]
  rw [endsReceptionOf, takesBurst_iff, continuesReception, Bool.and_eq_true, Bool.or_eq_true, begins, bne_iff_ne,
    receives_iff]
  cases c.state <;> simp

/-- A reception that ends with no burst waiting leaves the interface in GUARD with its buffers free. -/
theorem endReception_alone {s : State} (alone : nothingWaits s.cable) :
    endReception s = { s with cable := receptionEnded s.cable } := by
  rw [endReception, updCable, discardReception_free _ (waitingBurst_none alone)]
  rfl

/-! ### The hand-over (R52, R53) -/

/-- The burst that waits is the one in the first buffer, or else in the second. -/
theorem waitingBurst_first {c : Cable} {bytes : List Byte} {m : BurstEnd} (first : c.rx0 = .waiting bytes m) :
    waitingBurst c = some (bytes, m) ∧ freeWaiting c = { c with rx0 := .empty } := by
  rw [waitingBurst, freeWaiting, first]
  exact ⟨rfl, rfl⟩

theorem waitingBurst_second {c : Cable} {bytes : List Byte} {m : BurstEnd} (other : ∀ b n, c.rx0 ≠ .waiting b n)
    (second : c.rx1 = .waiting bytes m) :
    waitingBurst c = some (bytes, m) ∧ freeWaiting c = { c with rx1 := .empty } := by
  rw [waitingBurst, freeWaiting, second]
  cases first : c.rx0 with
  | waiting b n => exact absurd first (other b n)
  | empty | receiving bits => exact ⟨rfl, rfl⟩

/-- A good burst handed over goes to the block that owns it, with the interface as the hand-over leaves it. -/
theorem handsOver_delivers {bytes : List Byte} {hand : HandOver} {m : BurstEnd} {s heard : State} {b : Burst}
    (q : quiet s = true) (h : HandsOver bytes hand m s heard) (read : readBurst bytes = some b) :
    exec (.goodBurstReceived bytes hand) s = .next (deliver m b heard) := by
  refine (execGoodBurstReceived_quiet bytes hand s q).trans (congrArg _ ?_)
  rcases h with ⟨rfl, takes, alone, rfl, rfl⟩ | ⟨rfl, ⟨first, rfl⟩ | ⟨other, second, rfl⟩⟩
  · rw [receiveBurst_atEnd bytes b s read ((endsReceptionOf_iff _ _).2 takes) (waitingBurst_none alone), endGood,
      endReception_alone alone]
    rfl
  · obtain ⟨waits, freed⟩ := waitingBurst_first first
    rw [receiveBurst_later bytes m b s waits read, updCable, freed]
  · obtain ⟨waits, freed⟩ := waitingBurst_second other second
    rw [receiveBurst_later bytes m b s waits read, updCable, freed]

/-- The hand-over finds all but the interface as it was. -/
theorem handsOver_frame {bytes : List Byte} {hand : HandOver} {m : BurstEnd} {s heard : State}
    (h : HandsOver bytes hand m s heard) : heard = { s with cable := heard.cable } := by
  rcases h with ⟨_, _, _, _, rfl⟩ | ⟨_, ⟨_, rfl⟩ | ⟨_, _, rfl⟩⟩ <;> rfl

/-- The report of a clean burst in a state with nothing due (R52, R83). -/
theorem reported_clean (a : Nat) {u : State} (due : u.due = []) :
    occur .burstReceived (.peer a) 1 (cleanBurst u) = received a u := by
  rw [received, cleanBurst]
  by_cases silenced : u.station.state = .silenced
  · simp only [if_pos silenced]
    have last : (32 ≤ min 32 (u.station.recovery + 1)) ↔ 31 ≤ u.station.recovery := by omega
    rw [markIf_new _ _ _ (by simp [updStation, due])]
    by_cases full : 31 ≤ u.station.recovery
    · simp only [updStation, last, full, decide_true, if_true]
    · simp only [updStation, last, full, decide_false, Bool.false_eq_true, if_false, List.append_nil]
  · simp only [if_neg silenced]

/-- A good burst handed over, in the words of the statements. -/
theorem handsOver_received {bytes : List Byte} {hand : HandOver} {m : BurstEnd} {s heard : State} {b : Burst} {u : State}
    (q : quiet s = true) (h : HandsOver bytes hand m s heard) (read : readBurst bytes = some b)
    (taken : handOver m b heard = u) (due : u.due = []) :
    exec (.goodBurstReceived bytes hand) s = .next (received b.sender u) := by
  rw [handsOver_delivers q h read, deliver, taken, reported_clean _ due]

end Sys2Proof.Machine
end

section
/-! PROOF. Bursts of the own address, and pulls that name this station. -/

namespace Sys2Proof.Machine
open Sys2Proof.Claims

/-! ### The own address (R71, R74) -/

/-- An own PRESENCE is a conflict in four states. -/
theorem ownAddressSeen_conflict {s : State} (h : s.station.state = .listen ∨ s.station.state = .joined
    ∨ s.station.state = .retiring ∨ s.station.state = .silenced) : ownAddressSeen s = changeStation .duplicate 6 s := by
  rw [ownAddressSeen]
  rcases h with e | e | e | e <;> rw [e]

/-- In the others it is none. -/
theorem ownAddressSeen_none {s : State} (h : s.station.state = .duplicate ∨ s.station.state = .offline
    ∨ s.station.state = .isolated ∨ s.station.state = .settling ∨ s.station.state = .detached) : ownAddressSeen s = s := by
  rw [ownAddressSeen]
  rcases h with e | e | e | e | e <;> rw [e]

/-- Neither lets anything fall due. -/
theorem ownAddressSeen_due (s : State) : (ownAddressSeen s).due = s.due := by
  by_cases h : s.station.state = .listen ∨ s.station.state = .joined ∨ s.station.state = .retiring
      ∨ s.station.state = .silenced
  · rw [ownAddressSeen_conflict h, (duplicate_leaves 6 (by rcases h with e | e | e | e <;> rw [e] <;> rfl)).1]
  · rw [ownAddressSeen_none]
    cases e : s.station.state <;> simp [e] at h ⊢

/-- The state of the interface of a station that loses the drivers: GUARD where it had a claim, a burst or an abort pattern
on the pair. -/
theorem driversLost_state (old : StationState) (c : Cable) : (driversLost old c).state =
    if driversOn old = true ∧ (c.state = .claiming ∨ c.state = .sending ∨ c.state = .aborting) then .guard else c.state := by
  unfold driversLost cutCable
  by_cases on : driversOn old = true
  · rw [if_pos on]
    cases state : c.state <;> simp [on, state]
  · rw [if_neg on, if_neg fun both => on both.1]

/-- The drivers are on in JOINED and RETIRING. -/
theorem driversOn_iff (x : StationState) : driversOn x = true ↔ x = .joined ∨ x = .retiring := by
  cases x <;> simp [driversOn]

/-- What a conflict of addresses leaves once its burst is reported (R74). -/
theorem conflict_leaves {heard : State} (sender : Nat)
    (h : heard.station.state = .listen ∨ heard.station.state = .joined ∨ heard.station.state = .retiring
      ∨ heard.station.state = .silenced) :
    let t := received sender (ownAddressSeen heard)
    t.station.state = .duplicate ∧ t.station.faultScore = 0 ∧ t.station.caution = false ∧ t.station.recovery = 0
      ∧ t.roster = heard.roster ∧ t.subs = heard.subs
      ∧ t.cable = driversLost heard.station.state heard.cable ∧ t.due = heard.due
      ∧ t.txQueue = (if driversOn heard.station.state then [] else heard.txQueue)
      ∧ t.timebase = roleLost heard.timebase
      ∧ t.selector = { selectorOff heard with
        countdown := if heard.station.state = .joined then none else heard.selector.countdown }
      ∧ (announceStation .duplicate 6 heard).port.events <+: t.port.events := by
  intro t
  have on : receiversOn heard.station.state = true := by rcases h with e | e | e | e <;> rw [e] <;> rfl
  obtain ⟨frame, first, -⟩ := duplicate_leaves 6 on
  have told : t = occur .burstReceived (.peer sender) 1 (changeStation .duplicate 6 heard) := by
    show received sender (ownAddressSeen heard) = _
    rw [ownAddressSeen_conflict h, received]
    refine congrArg _ (if_neg ?_)
    rw [frame]
    nofun
  have events : (announceStation .duplicate 6 heard).port.events <+: t.port.events := by
    rw [told]; exact first.trans (occur_prefix ..)
  have made := occur_frame .burstReceived (.peer sender) 1 (changeStation .duplicate 6 heard)
  rw [← told] at made
  generalize t = t at made events ⊢
  generalize changeStation .duplicate 6 heard = u at frame made
  rw [made]
  exact ⟨by rw [frame], by rw [frame], by rw [frame], by rw [frame], by rw [frame], by rw [frame], by rw [frame],
    by rw [frame], by rw [frame], by rw [frame], by rw [frame], made ▸ events⟩

/-! ### Pulls that name this station (R121) -/

/-- A pull of an UNUSED publication is counted. -/
theorem pullArrives_unused {k : Fin 16} {s : State} (unused : s.pubs[k].state = .unused) :
    pullArrives k s = { s with unknownPulls := min 65535 (s.unknownPulls + 1) } := if_pos unused

/-- Outside JOINED it is discarded. -/
theorem pullArrives_outside {k : Fin 16} {s : State} (used : s.pubs[k].state ≠ .unused) (outside : s.station.state ≠ .joined) :
    pullArrives k s = s := (if_neg used).trans (if_pos outside)

/-- Of a HELD publication, or one without a ready block, it is kept. -/
theorem pullArrives_kept {k : Fin 16} {s : State} (used : s.pubs[k].state ≠ .unused) (joined : s.station.state = .joined)
    (h : s.pubs[k].state = .held ∨ s.pubs[k].ready = none) :
    pullArrives k s = { s with pubs := s.pubs.set k { s.pubs[k] with pullPending := true } } :=
  (if_neg used).trans ((if_neg (not_not_intro joined)).trans (if_pos (h.imp_right Option.isNone_iff_eq_none.2)))

/-- Of a publication that can serve it, it is discarded while the block is in flight, and otherwise answered. -/
theorem pullArrives_serves {k : Fin 16} {s : State} (joined : s.station.state = .joined) (active : s.pubs[k].state = .active)
    (ready : s.pubs[k].ready ≠ none) :
    pullArrives k s = if s.cable.binding = some k then s else enqueue (.block k) s := by
  have used : s.pubs[k].state ≠ .unused := by rw [active]; nofun
  have kept : ¬ (s.pubs[k].state = .held ∨ s.pubs[k].ready.isNone = true) := by
    rintro (held | empty)
    · exact absurd (active.symm.trans held) nofun
    · exact ready (Option.isNone_iff_eq_none.1 empty)
  exact (if_neg used).trans ((if_neg (not_not_intro joined)).trans (if_neg kept))

/-- Settles O22: the owner's part of each burst, with its report. -/
theorem ownAddressAndPullsForThisStation : Obligations.OwnAddressAndPullsForThisStation := by
  intro bytes hand m b heard s q h read x after member told_
  have frame := handsOver_frame h
  have same : heard.station = x ∧ heard.pubs = s.pubs ∧ heard.timebase = s.timebase ∧ heard.roster = s.roster
      ∧ heard.subs = s.subs ∧ heard.port = s.port ∧ heard.unknownPulls = s.unknownPulls ∧ heard.due = s.due := by
    rw [frame]; exact ⟨rfl, rfl, rfl, rfl, rfl, rfl, rfl, rfl⟩
  obtain ⟨station, pubs, timebase, roster, subs, port, pulls, due⟩ := same
  rw [due_of_quiet q] at due
  have binding : heard.cable.binding = s.cable.binding := by
    rcases h with ⟨_, _, _, _, rfl⟩ | ⟨_, ⟨_, rfl⟩ | ⟨_, _, rfl⟩⟩ <;> rfl
  have row {u : State} (taken : handOver m b heard = u) (due : u.due = []) :
      exec (.goodBurstReceived bytes hand) s = .next (told_ u) := handsOver_received q h read taken due
  refine ⟨fun p kind own => ⟨fun conflict => ?conflict, fun none => ?noConflict⟩, fun other own => ?discarded,
    fun a k kind foreign => ?pull⟩
  case conflict =>
    have taken : handOver m b heard = ownAddressSeen heard := by rw [kind]; exact if_pos (own.trans (by rw [station]))
    rw [← station] at conflict
    have drivers : driversOn heard.station.state = true ↔ member := by rw [driversOn_iff, station]
    obtain ⟨state, score, caution, recovery, roster_, subs_, cable, due_, queue, timebase_, selector, events⟩ :=
      conflict_leaves b.sender conflict
    refine ⟨_, row taken ((ownAddressSeen_due heard).trans due), state, score, caution, recovery, roster_.trans roster,
      subs_.trans subs, ?_, ?_, due_.trans due, fun on => ?_, fun source => ?_, fun free => ?_, fun empty _ => ?_⟩
    · rw [cable, driversLost_state]
      exact if_congr (and_congr_left' drivers) rfl rfl
    · rw [cable, driversLost, apply_ite Cable.holdOff]
      exact if_congr drivers rfl rfl
    · rw [queue, if_pos (drivers.2 on)]
    · rw [timebase_, selector, timebase, roleLost, if_pos source, selectorOff, if_pos (by rw [timebase]; exact source)]
      exact ⟨rfl, rfl, rfl, rfl⟩
    · rw [timebase_, timebase, roleLost, if_neg free]
    · rw [first_of_announced (by rw [port]; exact empty) events, station]
      exact congrArg (fun d => some (EventKind.stationState, BitVec.ofNat 16 d)) (Nat.add_assoc ..)
  case noConflict =>
    refine row ?_ due
    rw [kind]
    exact (if_pos (own.trans (by rw [station]))).trans (ownAddressSeen_none (by rw [station]; exact none))
  case discarded =>
    refine row ?_ due
    cases b with
    | presence p => exact absurd rfl (other p)
    | retire a succ => exact if_pos (own.trans (by rw [station]))
    | pull a pub k => exact if_neg fun both => both.1 (own.trans (by rw [station]))
    | block b => exact if_pos (own.trans (by rw [station]))
  case pull =>
    intro p serves
    have taken : handOver m b heard = pullArrives k heard := by
      rw [kind]; exact if_pos ⟨by rw [station]; exact foreign, by rw [station]⟩
    have rows {u : State} (e : pullArrives k heard = u) (due : u.due = []) :
        exec (.goodBurstReceived bytes hand) s = .next (told_ u) := row (taken.trans e) due
    refine ⟨fun unused => ?_, fun used outside => ?_, fun used joined kept => ?_, fun ⟨joined, active, ready⟩ bound => ?_,
      fun ⟨joined, active, ready⟩ free => ?_⟩
    · exact rows ((pullArrives_unused (by rw [pubs]; exact unused)).trans (by rw [pulls])) due
    · exact rows (pullArrives_outside (by rw [pubs]; exact used) (by rw [station]; exact outside)) due
    · exact rows ((pullArrives_kept (by rw [pubs]; exact used) (by rw [station]; exact joined)
        (by rw [pubs]; exact kept)).trans (by rw [pubs])) due
    all_goals
      have answer := pullArrives_serves (k := k) (s := heard) (by rw [station]; exact joined) (by rw [pubs]; exact active)
        (by rw [pubs]; exact ready)
      rw [binding] at answer
    · exact rows (answer.trans (if_pos bound)) due
    · exact rows (answer.trans (if_neg free)) ((enqueue_due ..).trans due)

end Sys2Proof.Machine
end

section
/-! PROOF. A PRESENCE and a RETIRE of a peer. -/

namespace Sys2Proof.Machine
open Sys2Proof.Claims

/-! ### Events and the tables (R199) -/

/-- Events do not read the roster and the subscriptions. -/
theorem raised_tables (es : List (EventKind × Option Nat × BitVec 16)) (s : State) (roster : Vector RosterEntry 24)
    (subs : Vector Subscription 32) :
    { raised es s with roster := roster, subs := subs } = raised es { s with roster := roster, subs := subs } := by
  have port := (TellsAlike.raised (s := s) (t := { s with roster := roster, subs := subs }) ⟨rfl, rfl⟩ es).port
  rw [raised_frame es s, raised_frame es { s with roster := roster, subs := subs }, port]

/-- Nor a change of one subscription. -/
theorem updSub_raised (j : Fin 32) (f : Subscription → Subscription) (es : List (EventKind × Option Nat × BitVec 16))
    (s : State) : updSub j f (raised es s) = raised es (updSub j f s) := by
  have tables : updSub j f (raised es s) = { raised es s with roster := s.roster, subs := upd s.subs j f } := by
    rw [raised_frame]; rfl
  rw [tables, raised_tables]
  rfl

/-! ### A change report (R97, R138) -/

/-- The roster's word on a subscription that follows a peer: the peer is not PRESENT, or its list leaves the index out. -/
def leavesOut (e : RosterEntry) (x : Subscription) : Bool :=
  decide (e.state ≠ .present) || e.pubs.all fun a => decide (a.index ≠ x.index)

/-- The subscription turns STALE at a report of peer `i`. -/
def reportStale (s : State) (i : Fin 24) (j : Fin 32) : Bool := subscribedTo s i j && leavesOut s.roster[i] s.subs[j]

/-- The cause: 2 of a peer that is not PRESENT, 3 of one whose list leaves the index out. -/
def reportCause (e : RosterEntry) : BitVec 16 := if e.state = .present then 3 else 2

/-- The events of the report to the subscriptions of a list. -/
def reportEvents (s : State) (i : Fin 24) (seen : List (Fin 32)) : List (EventKind × Option Nat × BitVec 16) :=
  (seen.filter (reportStale s i)).map fun j => (.subStale, some j.val, reportCause s.roster[i])

/-- The subscriptions after the report to those of a list. -/
def reportedSubs (s : State) (i : Fin 24) (seen : List (Fin 32)) : Vector Subscription 32 :=
  Vector.ofFn fun j => if j ∈ seen ∧ reportStale s i j = true then wentStale s.subs[j] else s.subs[j]

/-- One of them. -/
theorem reportedSubs_get (s : State) (i : Fin 24) (seen : List (Fin 32)) (k : Fin 32) : (reportedSubs s i seen)[k]
    = if k ∈ seen ∧ reportStale s i k = true then wentStale s.subs[k] else s.subs[k] := by
  simp [reportedSubs]

/-- A subscription told after others. -/
theorem reportedSubs_snoc (s : State) (i : Fin 24) (seen : List (Fin 32)) (j : Fin 32) (new : j ∉ seen) :
    reportedSubs s i (seen ++ [j])
      = if reportStale s i j then upd (reportedSubs s i seen) j wentStale else reportedSubs s i seen := by
  have one (k : Fin 32) : (reportedSubs s i (seen ++ [j]))[k]
      = (if reportStale s i j then upd (reportedSubs s i seen) j wentStale else reportedSubs s i seen)[k] := by
    have mem : k ∈ seen ++ [j] ↔ k ∈ seen ∨ k = j := by simp
    rw [reportedSubs_get]
    simp only [mem]
    by_cases turns : reportStale s i j = true
    · rw [if_pos turns, upd_get_if, reportedSubs_get]
      by_cases here : k = j
      · subst here
        rw [if_pos ⟨.inr rfl, turns⟩, if_pos rfl, if_neg fun h => new h.1]
      · simp only [here, or_false, if_false]
    · rw [if_neg turns, reportedSubs_get]
      refine if_congr ⟨fun ⟨told, stale⟩ => ⟨told.resolve_right fun e => turns (e ▸ stale), stale⟩, fun h => ⟨.inl h.1, h.2⟩⟩
        rfl rfl
  exact Vector.ext fun k lt => one ⟨k, lt⟩

/-- A list names an index, or leaves it out. -/
theorem any_index (list : List Announcement) (k : Fin 16) :
    (list.any fun x => x.index == k) = !(list.all fun a => decide (a.index ≠ k)) := by
  induction list with
  | nil => rfl
  | cons a rest ih =>
    rw [List.any_cons, List.all_cons, ih, Bool.not_and]
    by_cases same : a.index = k <;> simp [same]

/-- The re-judging of one subscription. -/
theorem rejudge_eq (i : Fin 24) (s : State) (j : Fin 32) : rejudge (peerAddress i) s j =
    if reportStale s i j then raise .subStale (some j.val) (reportCause s.roster[i]) (updSub j wentStale s) else s := by
  have entry : peerEntry s (peerAddress i) = some s.roster[i] := peerEntry_address s i
  by_cases follows : subscribedTo s i j = true
  · have live : s.subs[j].state = .live ∧ s.subs[j].publisher = peerAddress i := of_decide_eq_true follows
    simp only [rejudge, if_pos live, entry, reportStale, follows, Bool.true_and, leavesOut, reportCause, any_index]
    generalize s.roster[i] = e
    by_cases present : e.state = .present
    · simp only [present, ne_eq, not_true_eq_false, decide_false, Bool.false_or, if_false, if_true]
      cases e.pubs.all fun a => decide (¬ a.index = s.subs[j].index) <;> rfl
    · simp only [present, ne_eq, not_false_eq_true, decide_true, Bool.true_or, if_true, if_false]
      rfl
  · have other : ¬ (s.subs[j].state = .live ∧ s.subs[j].publisher = peerAddress i) := fun h => follows (decide_eq_true h)
    rw [rejudge, if_neg other, reportStale, Bool.eq_false_iff.2 follows]
    rfl

/-- The report to the subscriptions of a list. -/
theorem report_foldl (s : State) (i : Fin 24) (seen : List (Fin 32)) (once : seen.Nodup) :
    seen.foldl (rejudge (peerAddress i)) s
      = raised (reportEvents s i seen) { s with subs := reportedSubs s i seen } := by
  induction seen using List.reverseRecOn with
  | nil =>
    have same : reportedSubs s i [] = s.subs := by
      ext k lt; simp [reportedSubs]
    rw [same]
    rfl
  | append_singleton seen j ih =>
    rw [List.nodup_append] at once
    obtain ⟨once, -, apart⟩ := once
    have new : j ∉ seen := fun mem => apart j mem j (List.mem_singleton_self j) rfl
    rw [List.foldl_append, ih once]
    let y : State := { s with subs := reportedSubs s i seen }
    show rejudge (peerAddress i) (raised (reportEvents s i seen) y) j = _
    have mine : y.subs[j] = s.subs[j] := by simp [y, reportedSubs, new]
    have tables : (raised (reportEvents s i seen) y).roster = s.roster ∧ (raised (reportEvents s i seen) y).subs = y.subs := by
      rw [raised_frame]; exact ⟨rfl, rfl⟩
    have stale : reportStale (raised (reportEvents s i seen) y) i j = reportStale s i j := by
      simp only [reportStale, subscribedTo, tables.1, tables.2, mine]
    rw [rejudge_eq, stale, tables.1, updSub_raised]
    by_cases turns : reportStale s i j = true
    · have subs : updSub j wentStale y = { s with subs := reportedSubs s i (seen ++ [j]) } := by
        rw [reportedSubs_snoc s i seen j new, if_pos turns]; rfl
      have events : reportEvents s i (seen ++ [j])
          = reportEvents s i seen ++ [(.subStale, some j.val, reportCause s.roster[i])] := by
        simp [reportEvents, List.filter_append, turns]
      rw [if_pos turns, subs, events, raised_append]
      rfl
    · have subs : reportedSubs s i (seen ++ [j]) = reportedSubs s i seen := by
        rw [reportedSubs_snoc s i seen j new, if_neg turns]
      have events : reportEvents s i (seen ++ [j]) = reportEvents s i seen := by
        simp [reportEvents, List.filter_append, turns]
      rw [if_neg turns, subs, events]

/-- A report to all the subscriptions. -/
theorem changeReport_eq (s : State) (i : Fin 24) : changeReport (peerAddress i) s =
    raised (reportEvents s i (List.finRange 32)) { s with subs := reportedSubs s i (List.finRange 32) } :=
  report_foldl s i _ (List.nodup_finRange 32)

/-! ### A PRESENCE of a peer (R88 to R92) -/

/-- The entry that a PRESENCE leaves. -/
def presenceEntry (p : Presence) (epoch : Epoch32) (e : RosterEntry) : RosterEntry :=
  { state := if p.fresh && decide (e.state ≠ .absent) then .present else if e.state = .absent then .seen else .present
    grade := p.grade, eligible := p.eligible, timebase := p.timebase, believed := p.believed, hostAlive := p.hostAlive
    pubs := p.pubs, missed := 0, heard := true, lastPresence := epoch, marked := e.marked }

/-- The events that the roster raises for it. -/
def presenceEvents (i : Fin 24) (p : Presence) (e : RosterEntry) : List (EventKind × Option Nat × BitVec 16) :=
  let fresh := p.fresh && decide (e.state ≠ .absent)
  (if fresh then [(.peerFresh, some (i.val + 1), BitVec.ofNat 16 e.state.code)]
    else if e.state = .absent ∨ e.state = .silent ∨ e.state = .retired
      then [(.peerNew, some (i.val + 1), BitVec.ofNat 16 e.state.code)] else [])
  ++ (if (fresh = true ∨ e.hostAlive = true) ∧ p.hostAlive = false
      then [(.peerHostSilent, some (i.val + 1), 0)] else [])

/-- The subscriptions after the notice of a new incarnation (R90, R137). -/
def incarnated (fresh : Bool) (i : Fin 24) (subs : Vector Subscription 32) : Vector Subscription 32 :=
  if fresh then updAll subs fun x => if x.publisher = i.val + 1 then { x with last := none } else x else subs

/-- A PRESENCE of a peer before its change report. -/
def presenceTaken (i : Fin 24) (p : Presence) (s : State) : State :=
  { s with
    roster := s.roster.set i (presenceEntry p (epoch32 s.timebase) s.roster[i])
    subs := incarnated (p.fresh && decide (s.roster[i].state ≠ .absent)) i s.subs }

/-- PEER_NEW as one event or none. -/
theorem raisePeerNew_eq (a : Nat) (before : PeerState) (s : State) : raisePeerNew a before s
    = raised (if before = .absent ∨ before = .silent ∨ before = .retired
        then [(.peerNew, some a, BitVec.ofNat 16 before.code)] else []) s := by
  cases before <;> rfl

/-- The notice of a new incarnation is not told to the host. -/
theorem newIncarnation_raised (i : Fin 24) (es : List (EventKind × Option Nat × BitVec 16)) (s : State) :
    newIncarnation (i.val + 1) (raised es s) = raised es { s with subs := incarnated true i s.subs } := by
  have tables : newIncarnation (i.val + 1) (raised es s)
      = { raised es s with roster := s.roster, subs := incarnated true i s.subs } := by
    rw [raised_frame]; rfl
  rw [tables, raised_tables]

/-- An event that is raised when a condition holds. -/
theorem raised_if (c : Prop) [Decidable c] (k : EventKind) (n : Option Nat) (d : BitVec 16) (s : State) :
    raised (if c then [(k, n, d)] else []) s = if c then raise k n d s else s := by
  split_ifs <;> rfl

/-- A PRESENCE of a peer in the order of R92. -/
theorem takePresence_eq {i : Fin 24} {p : Presence} {s : State} (sender : p.sender = i.val + 1) :
    takePresence p s
      = changeReport (i.val + 1) (raised (presenceEvents i p s.roster[i]) (presenceTaken i p s)) := by
  have named : peerIx p.sender = some i := by rw [sender, peerIx, dif_pos ⟨by omega, by omega⟩]; rfl
  have known : (s.roster[i].state != .absent) = decide (s.roster[i].state ≠ .absent) := by
    cases s.roster[i].state <;> rfl
  have silent (alive : Bool) : (alive && !p.hostAlive) = true ↔ alive = true ∧ p.hostAlive = false := by simp
  rw [takePresence, named]
  simp only [sender, known, presenceEvents, presenceTaken, raised_append, raised_if]
  refine congrArg _ ?_
  cases fresh : p.fresh && decide (s.roster[i].state ≠ .absent) with
  | true =>
    have entry : updPeer i (fun _ => { storePresence p (epoch32 s.timebase) (RosterEntry.cleared s.roster[i].marked) with
        state := .present }) s
        = { s with roster := s.roster.set i (presenceEntry p (epoch32 s.timebase) s.roster[i]) } := by
      rw [presenceEntry, fresh]; rfl
    have alive : (RosterEntry.cleared s.roster[i].marked).hostAlive = true := rfl
    simp only [if_true, silent, true_or, alive, true_and]
    rw [entry]
    have events := newIncarnation_raised i ((.peerFresh, some (i.val + 1), BitVec.ofNat 16 s.roster[i].state.code)
        :: if p.hostAlive = false then [(.peerHostSilent, some (i.val + 1), 0)] else [])
      { s with roster := s.roster.set i (presenceEntry p (epoch32 s.timebase) s.roster[i]) }
    split_ifs at events ⊢ <;> exact events
  | false =>
    have move : presenceMove s.roster[i].state = if s.roster[i].state = .absent then .seen else .present := by
      cases s.roster[i].state <;> rfl
    have entry : updPeer i (fun _ => { storePresence p (epoch32 s.timebase) s.roster[i] with
        state := presenceMove s.roster[i].state }) s
        = { s with roster := s.roster.set i (presenceEntry p (epoch32 s.timebase) s.roster[i]) } := by
      rw [presenceEntry, fresh, move]; rfl
    simp only [Bool.false_eq_true, if_false, silent, false_or, raisePeerNew_eq]
    rw [entry]
    rfl

/-! ### What the reports leave -/

/-- The subscriptions and the events of a report that comes behind others. -/
theorem changeReport_raised (i : Fin 24) (es : List (EventKind × Option Nat × BitVec 16)) (s : State) :
    changeReport (i.val + 1) (raised es s) = raised (es ++ reportEvents s i (List.finRange 32))
      { s with subs := reportedSubs s i (List.finRange 32) } := by
  have tables : (raised es s).roster = s.roster ∧ (raised es s).subs = s.subs := by rw [raised_frame]; exact ⟨rfl, rfl⟩
  have stale : reportStale (raised es s) i = reportStale s i := by
    funext j
    simp only [reportStale, subscribedTo, tables.1, tables.2]
  have reported : reportedSubs (raised es s) i (List.finRange 32) = reportedSubs s i (List.finRange 32) := by
    rw [reportedSubs, reportedSubs, stale, tables.2]
  have events : reportEvents (raised es s) i (List.finRange 32) = reportEvents s i (List.finRange 32) := by
    rw [reportEvents, reportEvents, stale, tables.1]
  have roster : { raised es s with subs := reportedSubs s i (List.finRange 32) }
      = { raised es s with roster := s.roster, subs := reportedSubs s i (List.finRange 32) } := by
    rw [← tables.1]
  have whole := changeReport_eq (raised es s) i
  rw [reported, events, roster, raised_tables, ← raised_append] at whole
  exact whole

/-- A subscription after the notice of a new incarnation. -/
theorem incarnated_get (fresh : Bool) (i : Fin 24) (subs : Vector Subscription 32) (j : Fin 32) :
    (incarnated fresh i subs)[j]
      = { subs[j] with last := if fresh = true ∧ subs[j].publisher = i.val + 1 then none else subs[j].last } := by
  cases fresh with
  | true =>
    have one : (incarnated true i subs)[j]
        = if subs[j].publisher = i.val + 1 then { subs[j] with last := none } else subs[j] := by
      simp [incarnated, updAll]
    rw [one]
    by_cases own : subs[j].publisher = i.val + 1
    · rw [if_pos own, if_pos ⟨rfl, own⟩]
    · rw [if_neg own, if_neg fun h => own h.2]
  | false => rfl

/-- The subscriptions that a PRESENCE leaves. -/
theorem presenceTaken_reported (i : Fin 24) (p : Presence) (s : State) (stale : Fin 32 → Bool)
    (same : reportStale (presenceTaken i p s) i = stale) :
    reportedSubs (presenceTaken i p s) i (List.finRange 32) = Vector.ofFn fun j => { s.subs[j] with
      last := if (p.fresh && decide (s.roster[i].state ≠ .absent)) = true ∧ s.subs[j].publisher = i.val + 1 then none
        else s.subs[j].last
      state := if stale j then .stale else s.subs[j].state } := by
  have one (j : Fin 32) : (reportedSubs (presenceTaken i p s) i (List.finRange 32))[j] = { s.subs[j] with
      last := if (p.fresh && decide (s.roster[i].state ≠ .absent)) = true ∧ s.subs[j].publisher = i.val + 1 then none
        else s.subs[j].last
      state := if stale j then .stale else s.subs[j].state } := by
    have before : (presenceTaken i p s).subs[j] = _ := incarnated_get _ i s.subs j
    rw [reportedSubs_get, same, before]
    simp only [List.mem_finRange, true_and]
    split_ifs <;> rfl
  refine Vector.ext fun j lt => (one ⟨j, lt⟩).trans ?_
  rw [Vector.getElem_ofFn]

/-- A RETIRE of a peer that is heard of (R95). -/
theorem takeRetire_known {i : Fin 24} {s : State} (succ : Nat)
    (known : s.roster[i].state = .seen ∨ s.roster[i].state = .present ∨ s.roster[i].state = .silent) :
    takeRetire (i.val + 1) succ s
      = changeReport (i.val + 1) (raised [(.peerRetired, some (i.val + 1), BitVec.ofNat 16 succ)]
        { s with roster := s.roster.set i { s.roster[i] with state := .retired, missed := 0, heard := true } }) := by
  have named : peerIx (i.val + 1) = some i := by rw [peerIx, dif_pos ⟨by omega, by omega⟩]; rfl
  rw [takeRetire, named]
  rcases known with e | e | e <;> simp only [e] <;> rfl

/-- A RETIRE of a peer that has retired is heard (R95). -/
theorem takeRetire_retired {i : Fin 24} {s : State} (succ : Nat) (retired : s.roster[i].state = .retired) :
    takeRetire (i.val + 1) succ s = updPeer i (fun e => { e with missed := 0, heard := true }) s := by
  have named : peerIx (i.val + 1) = some i := by rw [peerIx, dif_pos ⟨by omega, by omega⟩]; rfl
  rw [takeRetire, named]
  simp only [retired]

/-- A RETIRE of a peer that is ABSENT changes nothing (R95). -/
theorem takeRetire_absent {i : Fin 24} {s : State} (succ : Nat) (absent : s.roster[i].state = .absent) :
    takeRetire (i.val + 1) succ s = s := by
  have named : peerIx (i.val + 1) = some i := by rw [peerIx, dif_pos ⟨by omega, by omega⟩]; rfl
  rw [takeRetire, named]
  simp only [absent]

/-- Settles O29: the entry, the subscriptions and the events of a PRESENCE and of a RETIRE, with the burst's report. -/
theorem peersAreFollowedByTheirBursts : Obligations.PeersAreFollowedByTheirBursts := by
  intro bytes hand m i heard s q h other e subscribed becomes staleEvents_
  have frame := handsOver_frame h
  have same : heard.station = s.station ∧ heard.roster = s.roster ∧ heard.subs = s.subs ∧ heard.timebase = s.timebase
      ∧ heard.due = s.due := by rw [frame]; exact ⟨rfl, rfl, rfl, rfl, rfl⟩
  obtain ⟨station, roster, subs, timebase, due⟩ := same
  rw [due_of_quiet q] at due
  have row {b : Burst} {es : List (EventKind × Option Nat × BitVec 16)} {f : RosterEntry} {v : Vector Subscription 32}
      (read : readBurst bytes = some b) (sender : b.sender = i.val + 1)
      (taken : handOver m b heard = raised es { heard with roster := s.roster.set i f, subs := v }) :
      exec (.goodBurstReceived bytes hand) s
        = .next (received (i.val + 1) (raised es { heard with roster := s.roster.set i f, subs := v })) := by
    have row := handsOver_received q h read taken (by rw [raised_frame]; exact due)
    rwa [sender] at row
  refine ⟨fun p read sender => ?presence, fun succ read => ?retire⟩
  case presence =>
    intro fresh state stale
    have entry : (presenceTaken i p heard).roster[i] = presenceEntry p (epoch32 s.timebase) e := by
      rw [show (presenceTaken i p heard).roster[i] = _ from Vector.getElem_set_self _, roster, timebase]
    have staleSame : reportStale (presenceTaken i p heard) i = stale := by
      funext j
      have sub : (presenceTaken i p heard).subs[j] = _ := incarnated_get _ i heard.subs j
      rw [reportStale, subscribedTo, entry, sub, subs]
      rfl
    refine row read sender ?_
    have taken : handOver m (.presence p) heard = takePresence p heard :=
      if_neg (by rw [sender, station]; exact other)
    have events : reportEvents (presenceTaken i p heard) i (List.finRange 32)
        = staleEvents_ (if state = .present then 3 else 2) stale := by
      rw [reportEvents, staleSame, entry]
      rfl
    rw [taken, takePresence_eq sender, changeReport_raised, presenceTaken_reported i p heard stale staleSame, events,
      roster, subs]
    simp only [presenceTaken, roster, timebase]
    rfl
  case retire =>
    have taken : handOver m (.retire (i.val + 1) succ) heard = takeRetire (i.val + 1) succ heard :=
      if_neg (by rw [station]; exact other)
    have still : (Vector.ofFn fun j => { s.subs[j] with
        last := if false = true ∧ s.subs[j].publisher = i.val + 1 then none else s.subs[j].last
        state := if (fun _ => false) j = true then .stale else s.subs[j].state }) = heard.subs := by
      rw [subs]
      refine Vector.ext fun j lt => ?_
      rw [Vector.getElem_ofFn]
      rfl
    refine ⟨fun absent => row read rfl ?_, fun retired => row read rfl ?_, fun known => row read rfl ?_⟩
    · rw [taken, takeRetire_absent succ (by rw [roster]; exact absent)]
      have self : s.roster.set i e = heard.roster := by rw [roster]; exact Vector.set_getElem_self i.isLt
      exact congrArg₂ (fun r v => { heard with roster := r, subs := v }) self.symm still.symm
    · rw [taken, takeRetire_retired succ (by rw [roster]; exact retired)]
      have heardOf : upd heard.roster i (fun e => { e with missed := 0, heard := true })
          = s.roster.set i { e with missed := 0, heard := true } := by rw [roster]; rfl
      exact congrArg₂ (fun r v => { heard with roster := r, subs := v }) heardOf still.symm
    · let f : RosterEntry := { e with state := .retired, missed := 0, heard := true }
      let t : State := { heard with roster := s.roster.set i f }
      have entry : t.roster[i] = f := Vector.getElem_set_self _
      have stale : reportStale t i = subscribed := by
        funext j
        have gone : leavesOut f t.subs[j] = true := rfl
        rw [reportStale, entry, gone, Bool.and_true, subscribedTo_congr (s := s) (t := t) subs]
        rfl
      have events : reportEvents t i (List.finRange 32) = staleEvents_ 2 subscribed := by
        rw [reportEvents, stale, entry]
        rfl
      have reported : reportedSubs t i (List.finRange 32) = Vector.ofFn fun j => { s.subs[j] with
          last := if false = true ∧ s.subs[j].publisher = i.val + 1 then none else s.subs[j].last
          state := if subscribed j then .stale else s.subs[j].state } := by
        rw [reportedSubs, stale, show t.subs = s.subs from subs]
        refine Vector.ext fun j lt => ?_
        rw [Vector.getElem_ofFn, Vector.getElem_ofFn]
        simp only [List.mem_finRange, true_and, Bool.false_eq_true, false_and, if_false]
        by_cases sub : subscribed ⟨j, lt⟩ = true
        · simp only [sub, if_true]; rfl
        · simp only [sub]; rfl
      rw [taken, takeRetire_known succ (by rw [roster]; exact known), changeReport_raised, roster]
      show raised _ { t with subs := reportedSubs t i (List.finRange 32) } = _
      rw [reported]
      show raised (_ ++ reportEvents t i (List.finRange 32)) _ = _
      rw [events]
      rfl

end Sys2Proof.Machine
end

section
/-! PROOF. The ends of a reception, and the burst that waits. -/

namespace Sys2Proof.Machine
open Sys2Proof.Claims

/-! ### A hand-over leaves the receive buffers alone (R53) -/

theorem takePresence_cable (p : Presence) (s : State) : (takePresence p s).cable = s.cable := by
  cases named : peerIx p.sender with
  | none => rw [takePresence, named]
  | some i =>
    have sender : p.sender = i.val + 1 := by
      unfold peerIx at named
      split_ifs at named with range
      cases named
      exact (Nat.sub_add_cancel range.1).symm
    rw [takePresence_eq sender, changeReport_raised, raised_frame]
    rfl

theorem takeRetire_cable (a succ : Nat) (s : State) : (takeRetire a succ s).cable = s.cable := by
  unfold takeRetire
  split
  · rfl
  · split <;> simp

theorem pullArrives_cable (k : Fin 16) (s : State) : (pullArrives k s).cable = s.cable := by
  simp [pullArrives, apply_ite State.cable]

theorem occurIf_cable (c : Bool) (k : OccKind) (x : Subject) (n : Nat) (s : State) :
    (occurIf c k x n s).cable = s.cable := by
  cases c <;> simp [occurIf]

theorem acceptBlock_cable (m : BurstEnd) (j : Fin 32) (b : BlockBurst) (s : State) :
    (acceptBlock m j b s).cable = s.cable := by
  simp only [acceptBlock, occurIf_cable, occur_cable, liveTest_cable, updSub_cable]
  cases s.subs[j].mode <;> simp [apply_ite State.cable]

theorem blockArrives_cable (m : BurstEnd) (b : BlockBurst) (s : State) : (blockArrives m b s).cable = s.cable := by
  unfold blockArrives
  split
  · rfl
  · simp [apply_ite State.cable, duplicateBlock, acceptBlock_cable]

theorem driversLost_buffers (old : StationState) (c : Cable) :
    (driversLost old c).rx0 = c.rx0 ∧ (driversLost old c).rx1 = c.rx1 := by
  unfold driversLost cutCable
  split_ifs
  · cases c.state <;> exact ⟨rfl, rfl⟩
  · exact ⟨rfl, rfl⟩

/-- A change to DUPLICATE, which a burst of the own address can bring, leaves the receive buffers. -/
theorem ownAddressSeen_buffers (s : State) :
    (ownAddressSeen s).cable.rx0 = s.cable.rx0 ∧ (ownAddressSeen s).cable.rx1 = s.cable.rx1 := by
  by_cases h : s.station.state = .listen ∨ s.station.state = .joined ∨ s.station.state = .retiring
      ∨ s.station.state = .silenced
  · rw [ownAddressSeen_conflict h, (duplicate_leaves 6 (by rcases h with e | e | e | e <;> rw [e] <;> rfl)).1]
    exact driversLost_buffers _ _
  · rw [ownAddressSeen_none]
    · exact ⟨rfl, rfl⟩
    · cases e : s.station.state <;> simp [e] at h ⊢

/-- What a burst's owner makes of it leaves the receive buffers. -/
theorem handOver_buffers (m : BurstEnd) (b : Burst) (s : State) :
    (handOver m b s).cable.rx0 = s.cable.rx0 ∧ (handOver m b s).cable.rx1 = s.cable.rx1 := by
  have same {u : State} (h : u.cable = s.cable) : u.cable.rx0 = s.cable.rx0 ∧ u.cable.rx1 = s.cable.rx1 := by
    rw [h]; exact ⟨rfl, rfl⟩
  unfold handOver
  cases b with
  | presence p =>
    dsimp only
    split_ifs
    · exact ownAddressSeen_buffers s
    · exact same (takePresence_cable p s)
  | retire a succ =>
    dsimp only
    split_ifs
    · exact ⟨rfl, rfl⟩
    · exact same (takeRetire_cable a succ s)
  | pull a pub k =>
    dsimp only
    split_ifs
    · exact same (pullArrives_cable k s)
    · exact ⟨rfl, rfl⟩
  | block x =>
    dsimp only
    split_ifs
    · exact ⟨rfl, rfl⟩
    · exact same (blockArrives_cable m x s)

/-- The report of a clean burst leaves the interface. -/
theorem deliver_buffers (m : BurstEnd) (b : Burst) (s : State) :
    (deliver m b s).cable.rx0 = s.cable.rx0 ∧ (deliver m b s).cable.rx1 = s.cable.rx1 := by
  have clean (u : State) : (cleanBurst u).cable = u.cable := by
    unfold cleanBurst markIf mark
    dsimp only
    split_ifs <;> rfl
  rw [deliver, occur_cable, clean]
  exact handOver_buffers m b s

/-! ### The hand-over that completes before the next end (R53) -/

/-- Of two buffers one holds the burst that waits. -/
def WaitsAlone (burst : List Byte) (m : BurstEnd) (c : Cable) : Prop :=
  (c.rx0 = .waiting burst m ∧ ∀ other n, c.rx1 ≠ .waiting other n)
    ∨ (c.rx1 = .waiting burst m ∧ ∀ other n, c.rx0 ≠ .waiting other n)

/-- It is the one to be handed over, and none waits once its buffer is free. -/
theorem WaitsAlone.waitingBurst {burst : List Byte} {m : BurstEnd} {c : Cable} (h : WaitsAlone burst m c) :
    waitingBurst c = some (burst, m) ∧ nothingWaits (freeWaiting c) := by
  rcases h with ⟨first, other⟩ | ⟨second, other⟩
  · obtain ⟨waits, freed⟩ := waitingBurst_first first
    exact ⟨waits, fun b n => by rw [freed]; exact ⟨nofun, other b n⟩⟩
  · obtain ⟨waits, freed⟩ := waitingBurst_second other second
    exact ⟨waits, fun b n => by rw [freed]; exact ⟨other b n, nofun⟩⟩

/-- After the hand-over no burst waits. -/
theorem handWaiting_alone {burst : List Byte} {m : BurstEnd} {s : State} (h : WaitsAlone burst m s.cable) :
    nothingWaits (handWaiting s).cable := by
  obtain ⟨waits, alone⟩ := h.waitingBurst
  rw [handWaiting, waits]
  dsimp only
  split
  · next b _ =>
    obtain ⟨first, second⟩ := deliver_buffers m b (updCable freeWaiting s)
    intro other n
    rw [first, second]
    exact alone other n
  · exact alone

/-- The recovery of a SILENCED station leaves the interface (R83). -/
theorem completeRecovery_cable (s : State) : (completeRecovery s).cable = s.cable := by
  unfold completeRecovery
  split_ifs with full
  · rw [changeStation_recovers s full.1, zeroScore_eq, announceStation_frame]
    rfl
  · rfl

/-- No step but the recovery is due, and the interface is this one. -/
structure OnlyRecovers (c : Cable) (s : State) : Prop where
  due : ∀ d ∈ s.due, d = .recoveryComplete
  cable : s.cable = c

/-- Such a state stays one whatever step is taken. -/
theorem OnlyRecovers.takeDue {c : Cable} {s : State} (h : OnlyRecovers c s) (d : Due) : OnlyRecovers c (takeDue d s) where
  due x m := by
    rcases mem_takeDue d x s m with ⟨was, -⟩ | follows
    · exact h.due x was
    · unfold Machine.takeDue takeDueBy at m
      split_ifs at m with live
      · cases h.due d live
        exact follows.elim
      · exact h.due x m
  cable := by
    unfold Machine.takeDue takeDueBy
    split_ifs with live
    · cases h.due d live
      exact (completeRecovery_cable _).trans h.cable
    · exact h.cable

theorem OnlyRecovers.takeInOrder {c : Cable} {s : State} (h : OnlyRecovers c s) (ds : List Due) :
    OnlyRecovers c (takeInOrder ds s) := by
  induction ds generalizing s with
  | nil => exact h
  | cons d rest ih => exact ih (h.takeDue d)

theorem OnlyRecovers.drawFree {c : Cable} {s : State} (h : OnlyRecovers c s) : OnlyRecovers c (drawFree s).2 :=
  ⟨h.due, h.cable⟩

theorem OnlyRecovers.takeFreely {c : Cable} {s : State} (h : OnlyRecovers c s) (ds : List Due) :
    OnlyRecovers c (takeFreely ds s) := by
  unfold Machine.takeFreely
  dsimp only
  split_ifs
  · exact h.takeInOrder _
  · exact h.drawFree.takeInOrder _

theorem OnlyRecovers.takeSlotTick {c : Cable} {s : State} (h : OnlyRecovers c s) : OnlyRecovers c (takeSlotTick s) :=
  ((h.takeDue _).takeFreely _).takeFreely _

theorem OnlyRecovers.takeEpochBoundary {c : Cable} {s : State} (h : OnlyRecovers c s) (steps : List Due) :
    OnlyRecovers c (takeEpochBoundary steps s) := (h.takeDue _).takeInOrder _

/-- So it does when everything due is taken. -/
theorem OnlyRecovers.settleBy {c : Cable} {s : State} (h : OnlyRecovers c s) (steps : List Due) :
    OnlyRecovers c (settleBy steps s) := by
  have clock := h.takeInOrder clockDues
  unfold Machine.settleBy
  dsimp only
  generalize Machine.takeInOrder clockDues s = u at clock
  split_ifs
  · exact clock.drawFree.takeSlotTick.takeEpochBoundary steps
  · exact (clock.drawFree.takeEpochBoundary steps).takeSlotTick
  · exact clock.takeSlotTick.takeEpochBoundary steps

/-- With no request held, what a hand-over brings leaves the interface as the hand-over left it. -/
theorem settled_handWaiting_cable {s : State} (q : quiet s = true) (free : s.port.held = []) :
    (settled (handWaiting s)).cable = (handWaiting s).cable
      ∧ (settledForBurst (handWaiting s)).cable = (handWaiting s).cable := by
  have goes := goes_handWaiting s
  have only : OnlyRecovers (handWaiting s).cable (handWaiting s) :=
    ⟨fun d m => (goes.due d m).resolve_left (quiet_not_due q d), rfl⟩
  generalize handWaiting s = u at goes only ⊢
  have held : u.port.held = [] := goes.held.trans free
  have served {t : State} (h : t.port.held = []) : serveHeld t = t := if_pos (.inl h)
  have taken (steps : List Due) : (serveHeld (if u.due = [] then u else settleBy steps u)).cable = u.cable := by
    split_ifs
    · rw [served held]
    · rw [served ((keeps_settleBy steps u).held.trans held)]
      exact (only.settleBy steps).cable
  exact ⟨taken boundaryDues, taken stationDues⟩

/-! ### A failed check (R51, R80 to R83) -/

/-- A score that cannot rise stands still. -/
theorem raiseScore_still (n : Nat) {s : State} (still : scoreLimit s.station.state = none) : raiseScore n s = s := by
  simp only [raiseScore, still]

/-- Where the score can rise a failed check counts 1 on it. -/
theorem takeFailed_counts {s : State} (alone : nothingWaits s.cable) (other : s.station.state ≠ .silenced) :
    takeFailed s = occur .rxCheckFault .none 1 (raiseScore 1 { s with cable := receptionEnded s.cable }) := by
  rw [takeFailed, endReception_alone alone, updStation]
  simp only [if_neg other]

/-- In SILENCED it sets the recovery count back. -/
theorem takeFailed_silenced {s : State} (alone : nothingWaits s.cable) (silenced : s.station.state = .silenced) :
    takeFailed s = occur .rxCheckFault .none 1
      { s with cable := receptionEnded s.cable, station := { s.station with recovery := 0 } } := by
  rw [takeFailed, endReception_alone alone, updStation]
  simp only [if_pos silenced]
  exact congrArg _ (raiseScore_still 1 (congrArg scoreLimit silenced))

/-- Where the score stands still it is counted by the monitor alone. -/
theorem takeFailed_uncounted {s : State} (alone : nothingWaits s.cable) (still : scoreLimit s.station.state = none)
    (other : s.station.state ≠ .silenced) :
    takeFailed s = occur .rxCheckFault .none 1 { s with cable := receptionEnded s.cable } := by
  rw [takeFailed_counts alone other]
  exact congrArg _ (raiseScore_still 1 still)

/-- Below 255 the score rises and no more. -/
theorem takeFailed_below {s : State} {limit : Nat} (alone : nothingWaits s.cable)
    (rises : scoreLimit s.station.state = some limit) (below : min limit (s.station.faultScore + 1) < 255) :
    takeFailed s = occur .rxCheckFault .none 1
      (risenTo (min limit (s.station.faultScore + 1)) { s with cable := receptionEnded s.cable }) := by
  have other : s.station.state ≠ .silenced := fun e => by rw [e] at rises; cases rises
  rw [takeFailed_counts alone other]
  refine congrArg _ ((raiseScore_eq (s := { s with cable := receptionEnded s.cable }) 1 rises).trans ?_)
  exact if_neg fun full => absurd full.2 (Nat.ne_of_lt below)

/-- At 255 the station falls silent. -/
theorem takeFailed_fellSilent {s : State} (alone : nothingWaits s.cable) (rises : scoreLimit s.station.state = some 255)
    (full : min 255 (s.station.faultScore + 1) = 255) : FellSilent s (takeFailed s) := by
  have other : s.station.state ≠ .silenced := fun e => by rw [e] at rises; cases rises
  have guard : (driversLost s.station.state (receptionEnded s.cable)).state = .guard := by
    rw [driversLost_state]
    exact ite_self _
  rw [takeFailed_counts alone other]
  exact raiseScore_fellSilent (v := { s with cable := receptionEnded s.cable }) (by decide) rises full rfl rfl rfl rfl rfl
    guard .rxCheckFault .none 1

/-- The score's limit in the states that have the cable in traffic. -/
theorem scoreLimit_member {x : StationState} (h : x = .listen ∨ x = .joined ∨ x = .retiring) : scoreLimit x = some 255 := by
  rcases h with rfl | rfl | rfl <;> rfl

/-! ### The rows of the ends -/

/-- An end of a reception with no burst waiting. -/
theorem receiveFailed_alone {s : State} (ends : receives s.cable.state = true) (alone : nothingWaits s.cable) :
    receiveFailed s = takeFailed s := by
  rw [receiveFailed, handedBefore_none _ _ _ (waitingBurst_none alone)]
  exact if_pos ends

theorem receiveAborted_alone {s : State} (ends : receives s.cable.state = true) (alone : nothingWaits s.cable) :
    receiveAborted s = { s with cable := receptionEnded s.cable } := by
  rw [receiveAborted, handedBefore_none _ _ _ (waitingBurst_none alone)]
  exact (if_pos ends).trans (endReception_alone alone)

/-- Where no reception can end neither row has an effect (R51). -/
theorem ends_nowhere {s : State} (none : receives s.cable.state = false) :
    receiveAborted s = s ∧ receiveFailed s = s := by
  have still : ¬ receives s.cable.state = true := by rw [none]; decide
  rw [receiveAborted, receiveFailed, handedBefore_no_end _ _ _ none]
  exact ⟨if_neg still, if_neg still⟩

/-- A good burst that is kept stays in the buffer it was received in, the other one free. -/
theorem keepBurst_alone (bytes : List Byte) (m : BurstEnd) {c : Cable} (alone : nothingWaits c) :
    keepBurst bytes m c = { c with
      rx0 := if c.rx0 = .empty ∧ c.rx1 ≠ .empty then .empty else .waiting bytes m
      rx1 := if c.rx0 = .empty ∧ c.rx1 ≠ .empty then .waiting bytes m else .empty } := by
  cases first : c.rx0 with
  | waiting b n => exact absurd first (alone b n).1
  | empty | receiving bits =>
    cases other : c.rx1 with
    | waiting b n => exact absurd other (alone b n).2
    | empty | receiving more => simp [keepBurst, discardReception, discarded, first, other]

/-- Its end enters GUARD and ends the hold-off (R51, R60). -/
theorem keepGood_eq (bytes : List Byte) (s : State) : keepGood bytes s = { s with
    cable := { keepBurst bytes (endsNow s.timebase) s.cable with state := .guard, guardCount := 0, holdOff := false } } := rfl

/-- A burst that waits is handed over, and what that brings is taken, before a reception ends (R53). -/
theorem ends_after_handOver {s u : State} {burst : List Byte} {m : BurstEnd} (q : quiet s = true) (free : s.port.held = [])
    (ends : receives s.cable.state = true) (waits : WaitsAlone burst m s.cable) (handed : handWaiting s = u) :
    exec .abortedBurstReceived s = exec .abortedBurstReceived u
      ∧ exec .failedCheckReceived s = exec .failedCheckReceived u
      ∧ ∀ bytes hand, hand ≠ .later → takesBurst s.cable bytes →
        exec (.goodBurstReceived bytes hand) s = exec (.goodBurstReceived bytes hand) u := by
  have some : waitingBurst s.cable ≠ none := by rw [waits.waitingBurst.1]; nofun
  have alone := handWaiting_alone waits
  obtain ⟨cable, cableForBurst⟩ := settled_handWaiting_cable q free
  rw [handed] at alone cable cableForBurst
  have none : waitingBurst (settled u).cable = .none := by rw [cable]; exact waitingBurst_none alone
  have noneForBurst : waitingBurst (settledForBurst u).cable = .none := by
    rw [cableForBurst]; exact waitingBurst_none alone
  refine ⟨(outside_quiet receiveAborted q).trans (congrArg _ ?_), (outside_quiet receiveFailed q).trans (congrArg _ ?_),
    fun bytes hand now takes => (execGoodBurstReceived_quiet bytes hand s q).trans (congrArg _ ?_)⟩
  · rw [outsideRow, receiveAborted, receiveAborted, handedBefore_waiting _ _ _ ends some, handed,
      handedBefore_none _ _ _ none]
  · rw [outsideRow, receiveFailed, receiveFailed, handedBefore_waiting _ _ _ ends some, handed,
      handedBefore_none _ _ _ none]
  · have takes := (endsReceptionOf_iff bytes s.cable).2 takes
    cases hand with
    | later => exact absurd rfl now
    | atEnd | waits =>
      simp only [receiveBurst]
      rw [handedBefore_waiting _ _ _ takes some, handed, handedBefore_none _ _ _ noneForBurst]

/-- Settles O21: the ends of a reception with none waiting, the end that a waiting burst comes before, the PULL of another
publisher, and the rows that tell of nothing. -/
theorem receptionsEndInGuard : Obligations.ReceptionsEndInGuard := by
  intro s q c x freed receiving member limit new crosses failed higher risen counted ends waits
  have receives : receiving ↔ receives c.state = true := (receives_iff c.state).symm
  have failedRow (at_ : ends) : exec .failedCheckReceived s = .next (takeFailed s) :=
    (outside_quiet receiveFailed q).trans (congrArg _ (receiveFailed_alone (receives.1 at_.1) at_.2))
  refine ⟨fun at_ => ?aborted, fun at_ h below => ?below, fun at_ h full => ?silent, fun at_ silenced => ?silenced,
    fun at_ outside duplicate silenced => ?uncounted, fun bytes hand now bad takes alone => ?bad,
    fun bytes b read takes alone => ?waits, fun burst m u free at_ waits handed => ?before,
    fun bytes hand m heard a pub k h read other => ?pull, fun bytes hand now none => ?noEnd, fun bytes none => ?noLate,
    fun none => ?nowhere⟩
  case aborted =>
    exact (outside_quiet receiveAborted q).trans (congrArg _ (receiveAborted_alone (receives.1 at_.1) at_.2))
  case below =>
    rw [failedRow at_]
    have rises : scoreLimit x.state = some limit := by
      rcases h with member | duplicate
      · rw [scoreLimit_member member]
        refine congrArg _ (if_neg fun e => ?_).symm
        rcases member with m | m | m <;> cases m.symm.trans e
      · rw [show limit = 254 from if_pos duplicate, duplicate]
        rfl
    rw [takeFailed_below at_.2 rises below]
    rfl
  case silent =>
    refine ⟨_, failedRow at_, takeFailed_fellSilent at_.2 (scoreLimit_member h) ?_⟩
    have most : limit ≤ 255 := by simp only [limit]; split_ifs <;> omega
    have := full
    simp only [new] at this
    show min 255 (x.faultScore + 1) = 255
    omega
  case silenced => rw [failedRow at_, takeFailed_silenced at_.2 silenced]
  case uncounted =>
    rw [failedRow at_, takeFailed_uncounted at_.2 ?_ silenced]
    revert outside duplicate silenced
    simp only [member]
    cases x.state <;> simp [scoreLimit]
  case bad =>
    have receives_ : receiving := by
      rcases takes with e | e | ⟨e, -⟩
      · exact .inl e
      · exact .inr (.inl e)
      · exact .inr (.inr e)
    rw [failedRow ⟨receives_, alone⟩]
    exact (execGoodBurstReceived_quiet bytes hand s q).trans (congrArg _
      (receiveBurst_bad bytes hand s now bad ((endsReceptionOf_iff _ _).2 takes) (waitingBurst_none alone)))
  case waits =>
    refine (execGoodBurstReceived_quiet bytes .waits s q).trans (congrArg _ ?_)
    rw [receiveBurst_waits bytes b s read ((endsReceptionOf_iff _ _).2 takes) (waitingBurst_none alone)]
    rw [keepGood_eq, keepBurst_alone bytes _ alone]
    rfl
  case before =>
    have late : exec (.goodBurstReceived burst .later) s = .next (handWaiting s) := by
      refine (execGoodBurstReceived_quiet burst .later s q).trans (congrArg _ ?_)
      rw [receiveBurst, takeLate, (WaitsAlone.waitingBurst waits).1]
      exact if_pos rfl
    rw [late] at handed
    exact ends_after_handOver q free (receives.1 at_) waits (Host.Outcome.next.inj handed)
  case pull =>
    have frame := handsOver_frame h
    have same : heard.station = x ∧ heard.due = [] := by rw [frame]; exact ⟨rfl, (due_of_quiet q : s.due = [])⟩
    have taken : handOver m (.pull a pub k) heard = heard :=
      if_neg fun both => other (by rw [both.2, same.1])
    have row := handsOver_received q h read taken same.2
    rw [received] at row
    simp only [same.1, same.2, List.nil_append] at row
    refine ⟨fun awake => ?_, fun silenced few => ?_, fun silenced full => ?_⟩
    · rw [row, if_neg awake]; rfl
    · rw [row, if_pos silenced, if_neg (by omega), Nat.min_eq_right (by omega), ← same.2]; rfl
    · rw [row, if_pos silenced, if_pos full, Nat.min_eq_left (by omega)]; rfl
  case noEnd =>
    refine (execGoodBurstReceived_quiet bytes hand s q).trans (congrArg _ (receiveBurst_no_end bytes hand s now ?_))
    exact Bool.eq_false_iff.2 fun e => none ((endsReceptionOf_iff _ _).1 e)
  case noLate =>
    refine (execGoodBurstReceived_quiet bytes .later s q).trans (congrArg _ (receiveBurst_later_none bytes s fun m e => ?_))
    unfold waitingBurst at e
    split at e
    · next first => cases e; exact (none m).1 first
    · next second => cases e; exact (none m).2 second
    · next second => cases e; exact (none m).2 second
    all_goals cases e
  case nowhere =>
    obtain ⟨aborted, failed⟩ := ends_nowhere (Bool.eq_false_iff.2 fun e => none (receives.2 e))
    exact ⟨(outside_quiet receiveAborted q).trans (congrArg _ aborted),
      (outside_quiet receiveFailed q).trans (congrArg _ failed)⟩

end Sys2Proof.Machine
end

section
/-! PROOF. A received block in its ring. -/

namespace Sys2Proof.Machine
open Sys2Proof.Claims

/-! ### One subscription, the block store and the events of an arrival -/

/-- The state with a subscription and the block store changed, and then these events raised. -/
def arrived (es : List (EventKind × Option Nat × BitVec 16)) (store : List Host.Cell) (j : Fin 32) (y : Subscription)
    (s : State) : State := raised es { s with store := store, subs := s.subs.set j y }

section
variable (es : List (EventKind × Option Nat × BitVec 16)) (store : List Host.Cell) (j : Fin 32) (y : Subscription) (s : State)

/-- What it leaves unchanged. -/
theorem arrived_frame : arrived es store j y s
    = { s with store := store, subs := s.subs.set j y, port := (arrived es store j y s).port } :=
  raised_frame es _

theorem arrived_sub : (arrived es store j y s).subs[j] = y := by
  rw [arrived_frame]
  exact Vector.getElem_set_self _

theorem arrived_announced (publisher : Nat) (index : Fin 16) :
    announced (arrived es store j y s) publisher index = announced s publisher index := by
  rw [arrived_frame]
  rfl

theorem raise_arrived (k : EventKind) (n : Option Nat) (d : BitVec 16) :
    raise k n d (arrived es store j y s) = arrived (es ++ [(k, n, d)]) store j y s := by
  rw [arrived, arrived, raised_append]
  rfl

theorem updSub_arrived (f : Subscription → Subscription) :
    updSub j f (arrived es store j y s) = arrived es store j (f y) s := by
  have one : updSub j f { s with store := store, subs := s.subs.set j y }
      = { s with store := store, subs := s.subs.set j (f y) } := by
    rw [updSub, upd]
    simp
  rw [arrived, updSub_raised, one]
  rfl

theorem store_arrived (new : List Host.Cell) :
    { arrived es store j y s with store := new } = arrived es new j y s := by
  have port := (TellsAlike.raised (s := { s with store := store, subs := s.subs.set j y })
    (t := { s with store := new, subs := s.subs.set j y }) ⟨rfl, rfl⟩ es).port
  rw [arrived, arrived, raised_frame es { s with store := store, subs := s.subs.set j y },
    raised_frame es { s with store := new, subs := s.subs.set j y }, port]

/-- A subscription taken as it is. -/
theorem arrived_self : arrived [] s.store j s.subs[j] s = s := by
  show { s with subs := s.subs.set j s.subs[j] } = s
  rw [show s.subs.set j s.subs[j] = s.subs from Vector.set_getElem_self j.isLt]

/-! ### The steps of an arrival (R131, R132, R136) -/

/-- The LIVE test. -/
theorem liveTest_arrived :
    let lives := (y.state = .waiting ∨ y.state = .stale) ∧ announced s y.publisher y.index = true
    liveTest j (arrived es store j y s)
      = arrived (es ++ if lives then [(.subLive, some j.val, BitVec.ofNat 16 y.state.code)] else []) store j
        { y with state := if lives then .live else y.state } s := by
  intro lives
  rw [liveTest]
  simp only [arrived_sub, arrived_announced]
  by_cases live : lives
  · rw [if_pos live, if_pos live, if_pos live, updSub_arrived, raise_arrived]
  · rw [if_neg live, if_neg live, if_neg live, List.append_nil]

/-- An overrun, where there is one. -/
theorem noteOverrun_arrived (runsOver : Prop) [Decidable runsOver] :
    (if runsOver then noteOverrun j (arrived es store j y s) else arrived es store j y s)
      = arrived (es ++ if runsOver ∧ y.overrunReported = false
          then [(.ringOverrun, some j.val, BitVec.ofNat 16 (min 65535 (y.overruns + 1)))] else []) store j
        { y with overruns := if runsOver then min 65535 (y.overruns + 1) else y.overruns
                 overrunReported := y.overrunReported || decide runsOver } s := by
  by_cases now : runsOver
  · rw [if_pos now, if_pos now, noteOverrun, updSub_arrived]
    simp only [arrived_sub]
    cases reported : y.overrunReported with
    | true => simp [now, satAdd]
    | false =>
      rw [if_neg (by simp), if_pos ⟨now, rfl⟩, updSub_arrived, raise_arrived]
      simp [satAdd, now]
  · simp [now]

/-- A block appended to a ring. -/
theorem appendBlock_arrived (m : BurstEnd) (b : BlockBurst) (missed : Nat) (late : Bool) :
    appendBlock m j b missed late (arrived es store j y s)
      = arrived (es ++ if y.ring = [] then [(.ringReady, some j.val, b.seq)] else [])
        (Memory.writeBytes store (slotAddr (ringSlot j (freeSlot y.ring))) b.payload) j
        { y with ring := y.ring ++ [
          { slot := freeSlot y.ring, seq := b.seq, time := b.time, width := b.width, count := b.count, flags := b.flags,
            arrival := arrivalTicks m, missed := missed, late := late }] } s := by
  have bytes : (arrived es store j y s).store = store := by rw [arrived_frame]
  rw [appendBlock]
  simp only [arrived_sub, bytes]
  rw [store_arrived, updSub_arrived, raise_arrived]
  by_cases empty : y.ring = []
  · simp [empty]
  · simp [empty]

end

/-! ### The free slot of a ring (R131) -/

/-- A ring with fewer than four entries has a slot that none of them holds. -/
theorem freeSlot_free {ring : List RingEntry} (room : ring.length < 4) :
    freeSlot ring < 4 ∧ ∀ r ∈ ring, r.slot ≠ freeSlot ring := by
  have some : ((List.range 4).find? fun k => !(ring.any fun e => e.slot == k)).isSome = true := by
    rw [List.find?_isSome]
    by_contra none
    have all : List.range 4 ⊆ ring.map (·.slot) := fun k lt => by
      by_contra out
      refine none ⟨k, lt, ?_⟩
      simp only [Bool.not_eq_true', List.any_eq_false, beq_iff_eq]
      exact fun e mem same => out (List.mem_map.2 ⟨e, mem, same⟩)
    have := (List.nodup_range.subperm all).length_le
    simp at this
    omega
  obtain ⟨k, found⟩ := Option.isSome_iff_exists.1 some
  have free := List.find?_some found
  have low := List.mem_of_find?_eq_some found
  rw [freeSlot, found]
  refine ⟨List.mem_range.1 low, fun r mem same => ?_⟩
  simp only [Bool.not_eq_true', List.any_eq_false, beq_iff_eq] at free
  exact free r mem same

/-- The slot chosen is one of the subscription's four also where none is free. -/
theorem freeSlot_lt (ring : List RingEntry) : freeSlot ring < 4 := by
  rw [freeSlot]
  cases found : (List.range 4).find? fun k => !(ring.any fun e => e.slot == k) with
  | none => decide
  | some k => exact List.mem_range.1 (List.mem_of_find?_eq_some found)

/-! ### LATE and MISSED (R129, R130) -/

/-- A block is LATE when its age is not a negative one and above the threshold. -/
theorem isLate_eq (m : BurstEnd) (x : Subscription) (b : BlockBurst) :
    let synced := fun z : TimebaseState => z = .track ∨ z = .locked ∨ z = .source
    let age := (m.ticks.setWidth 48 - b.time).toNat
    isLate m x b = decide (x.lateThreshold ≠ 0 ∧ synced b.flags.capture ∧ synced m.state ∧ age < 2 ^ 47
      ∧ x.lateThreshold < age) := by
  intro synced age
  have sync (z : TimebaseState) : synchronised z = true ↔ synced z := by cases z <;> simp [synchronised, synced]
  have latency : x.lateThreshold < latency (arrivalTicks m) b.time ↔ age < 2 ^ 47 ∧ x.lateThreshold < age := by
    have negative := BitVec.msb_eq_decide (arrivalTicks m - b.time)
    rw [Machine.latency, negative]
    show x.lateThreshold < (if decide (2 ^ 47 ≤ age) = true then 0 else age) ↔ _
    by_cases high : 2 ^ 47 ≤ age
    · rw [if_pos (decide_eq_true high)]; omega
    · rw [if_neg (by simpa using high)]; omega
  rw [isLate, Bool.eq_iff_iff, decide_eq_true_eq]
  simp only [Bool.and_eq_true, bne_iff_ne, decide_eq_true_eq, sync, latency, and_assoc]

/-! ### Occurrences told in turn (R185) -/

/-- These occurrences of a subscription are told to the monitor in turn. -/
def toldOf (j : Fin 32) (occurrences : List (OccKind × Nat)) (u : State) : State :=
  occurrences.foldl (fun v (kind, amount) => occur kind (.subscription j) amount v) u

theorem toldOf_append (j : Fin 32) (first second : List (OccKind × Nat)) (u : State) :
    toldOf j (first ++ second) u = toldOf j second (toldOf j first u) := List.foldl_append

/-- One that is told when a condition holds. -/
theorem toldOf_if (j : Fin 32) (c : Prop) [Decidable c] (kind : OccKind) (amount : Nat) (u : State) :
    toldOf j (if c then [(kind, amount)] else []) u = occurIf (decide c) kind (.subscription j) amount u := by
  by_cases holds : c
  · simp only [if_pos holds, decide_eq_true holds]; rfl
  · simp only [if_neg holds, decide_eq_false holds]; rfl

/-! ### The arrival of a block (R127 to R133) -/

/-- Events of one subscription, each with its kind and detail. -/
def eventsOf (j : Fin 32) (events : List (EventKind × BitVec 16)) : List (EventKind × Option Nat × BitVec 16) :=
  events.map fun v => (v.1, some j.val, v.2)

theorem raised_eventsOf (j : Fin 32) (events : List (EventKind × BitVec 16)) (u : State) :
    raised (eventsOf j events) u = events.foldl (fun v (kind, detail) => raise kind (some j.val) detail v) u :=
  List.foldl_map

theorem eventsOf_append (j : Fin 32) (first second : List (EventKind × BitVec 16)) :
    eventsOf j (first ++ second) = eventsOf j first ++ eventsOf j second := List.map_append

theorem eventsOf_if (j : Fin 32) (c : Prop) [Decidable c] (k : EventKind) (d : BitVec 16) :
    eventsOf j (if c then [(k, d)] else []) = if c then [(k, some j.val, d)] else [] := by
  split_ifs <;> rfl

/-- The blocks of a ring with another sequence number (R131). -/
def keptRing (seq : Seq) (ring : List RingEntry) : List RingEntry := ring.filter fun r => decide (r.seq ≠ seq)

/-- The ring has an entry of the sequence number when one is not kept. -/
theorem any_seq_iff (seq : Seq) (ring : List RingEntry) :
    (ring.any fun e => e.seq == seq) = true ↔ (keptRing seq ring).length < ring.length := by
  rw [keptRing, List.length_filter_lt_length_iff_exists, List.any_eq_true]
  simp

/-- The ring is full where all four of its blocks are kept (R131). -/
abbrev ringFull (seq : Seq) (x : Subscription) : Prop := (keptRing seq x.ring).length = 4

/-- A block of the ring goes, or the new one has no room: an overrun (R131, R132). -/
abbrev overrunNow (seq : Seq) (x : Subscription) : Prop :=
  ringFull seq x ∨ (keptRing seq x.ring).length < x.ring.length

/-- The new block is stored (R132). -/
abbrev blockStored (seq : Seq) (x : Subscription) : Prop := ¬ (ringFull seq x ∧ x.mode = .keepOldest)

/-- The ring with its room made (R131, R132). -/
def roomMade (seq : Seq) (x : Subscription) : List RingEntry :=
  if ringFull seq x ∧ x.mode = .keepNewest then (keptRing seq x.ring).drop 1 else keptRing seq x.ring

/-- The LIVE test succeeds (R136). -/
abbrev goesLive (s : State) (x : Subscription) : Prop :=
  (x.state = .waiting ∨ x.state = .stale) ∧ announced s x.publisher x.index = true

/-- The entry of a received block in the ring. -/
def ringEntry (m : BurstEnd) (b : BlockBurst) (x : Subscription) : RingEntry :=
  { slot := freeSlot (roomMade b.seq x), seq := b.seq, time := b.time, width := b.width, count := b.count, flags := b.flags,
    arrival := arrivalTicks m, missed := missedOf x.last b.seq, late := isLate m x b }

/-- The events of an accepted block (R185). -/
def acceptEvents (s : State) (b : BlockBurst) (x : Subscription) : List (EventKind × BitVec 16) :=
  (if overrunNow b.seq x ∧ x.overrunReported = false
    then [(EventKind.ringOverrun, BitVec.ofNat 16 (min 65535 (x.overruns + 1)))] else [])
  ++ (if keptRing b.seq x.ring = [] then [(EventKind.ringReady, b.seq)] else [])
  ++ (if goesLive s x then [(EventKind.subLive, BitVec.ofNat 16 x.state.code)] else [])

/-- Its occurrences. -/
def acceptOccurrences (m : BurstEnd) (b : BlockBurst) (x : Subscription) : List (OccKind × Nat) :=
  [(OccKind.blockAccepted, 1)]
    ++ (if 0 < missedOf x.last b.seq then [(OccKind.blockMissed, missedOf x.last b.seq)] else [])
    ++ (if isLate m x b then [(OccKind.blockLate, 1)] else [])
    ++ (if overrunNow b.seq x then [(OccKind.ringOverrun, 1)] else [])

/-- The subscription that it leaves. -/
def acceptedSub (s : State) (m : BurstEnd) (b : BlockBurst) (x : Subscription) : Subscription :=
  { x with
    last := some b.seq
    ring := if blockStored b.seq x then roomMade b.seq x ++ [ringEntry m b x] else roomMade b.seq x
    lates := if isLate m x b then min 65535 (x.lates + 1) else x.lates
    overruns := if overrunNow b.seq x then min 65535 (x.overruns + 1) else x.overruns
    overrunReported := x.overrunReported || decide (overrunNow b.seq x)
    state := if goesLive s x then .live else x.state }

/-- The block store that it leaves. -/
def acceptedStore (store : List Host.Cell) (j : Fin 32) (b : BlockBurst) (x : Subscription) : List Host.Cell :=
  if blockStored b.seq x then
    Memory.writeBytes store (slotAddr (ringSlot j (freeSlot (roomMade b.seq x)))) b.payload
  else store

/-- Two overruns do not come together in a ring of at most four. -/
theorem overrun_once {seq : Seq} {x : Subscription} (fits : x.ring.length ≤ 4) (act : State → State) (u : State) :
    (if ringFull seq x then act (if (keptRing seq x.ring).length < x.ring.length then act u else u)
      else if (keptRing seq x.ring).length < x.ring.length then act u else u)
      = if overrunNow seq x then act u else u := by
  have atMost : (keptRing seq x.ring).length ≤ x.ring.length := List.length_filter_le ..
  by_cases full : ringFull seq x
  · have same : ¬ (keptRing seq x.ring).length < x.ring.length := fun less => by
      have : (keptRing seq x.ring).length = 4 := full
      omega
    rw [if_pos full, if_pos (show overrunNow seq x from .inl full), if_neg same]
  · rw [if_neg full]
    exact if_congr (or_iff_right full).symm rfl rfl

/-- The occurrence of an overrun likewise. -/
theorem occurIf_once {seq : Seq} {x : Subscription} (fits : x.ring.length ≤ 4) (k : OccKind) (y : Subject) (n : Nat) (u : State) :
    occurIf (decide (ringFull seq x)) k y n (occurIf (decide ((keptRing seq x.ring).length < x.ring.length)) k y n u)
      = occurIf (decide (overrunNow seq x)) k y n u := by
  have once := overrun_once (seq := seq) fits (occur k y n) u
  simp only [occurIf, decide_eq_true_eq]
  exact once

section
variable (es : List (EventKind × Option Nat × BitVec 16)) (store : List Host.Cell) (j : Fin 32) (m : BurstEnd)
  (b : BlockBurst) (x y : Subscription) (s : State)

/-- The ring write of an accepted block, with the RING_READY that it may bring (R124, R131, R132). -/
def ringWritten : State :=
  arrived (es ++ if keptRing b.seq x.ring = [] then [(.ringReady, some j.val, b.seq)] else []) (acceptedStore store j b x) j
    { y with ring := if blockStored b.seq x then roomMade b.seq x ++ [ringEntry m b x] else roomMade b.seq x } s

variable {x y}

/-- A full ring that keeps its oldest blocks takes none. -/
theorem ringWritten_none (ring : y.ring = keptRing b.seq x.ring) (full : ringFull b.seq x) (mode : x.mode = .keepOldest) :
    arrived es store j y s = ringWritten es store j m b x y s := by
  have some : keptRing b.seq x.ring ≠ [] := fun none => by rw [ringFull, none] at full; cases full
  have none : ¬ blockStored b.seq x := fun h => h ⟨full, mode⟩
  have room : roomMade b.seq x = y.ring := by
    rw [ring, roomMade, if_neg fun both => by rw [mode] at both; cases both.2]
  rw [ringWritten, acceptedStore, if_neg some, if_neg none, if_neg none, room, List.append_nil]

/-- A full ring that keeps the newest ones loses its oldest for it. -/
theorem ringWritten_newest (ring : y.ring = keptRing b.seq x.ring) (full : ringFull b.seq x) (mode : x.mode = .keepNewest) :
    appendBlock m j b (missedOf x.last b.seq) (isLate m x b)
      (updSub j (fun x => { x with ring := x.ring.drop 1 }) (arrived es store j y s)) = ringWritten es store j m b x y s := by
  have some : keptRing b.seq x.ring ≠ [] := fun none => by rw [ringFull, none] at full; cases full
  have kept : blockStored b.seq x := fun h => by rw [mode] at h; cases h.2
  have room : roomMade b.seq x = y.ring.drop 1 := by rw [ring, roomMade, if_pos ⟨full, mode⟩]
  have left : y.ring.drop 1 ≠ [] := fun none => by
    have := congrArg List.length none
    rw [ring, List.length_drop, full] at this
    cases this
  rw [updSub_arrived, appendBlock_arrived, ringWritten, acceptedStore, if_neg some, if_neg left, if_pos kept, if_pos kept,
    ringEntry, room]

/-- A ring with room takes it. -/
theorem ringWritten_room (ring : y.ring = keptRing b.seq x.ring) (room : ¬ ringFull b.seq x) :
    appendBlock m j b (missedOf x.last b.seq) (isLate m x b) (arrived es store j y s)
      = ringWritten es store j m b x y s := by
  have kept : blockStored b.seq x := fun h => room h.1
  have room : roomMade b.seq x = y.ring := by rw [ring, roomMade, if_neg fun both => room both.1]
  rw [appendBlock_arrived, ringWritten, acceptedStore, if_pos kept, if_pos kept, ringEntry, room, ring]

end

/-- An accepted block: its subscription, its place in the block store, its events and its occurrences. -/
theorem acceptBlock_arrived (m : BurstEnd) (j : Fin 32) (b : BlockBurst) (x : Subscription) (store : List Host.Cell)
    (s : State) (fits : x.ring.length ≤ 4) : acceptBlock m j b (arrived [] store j x s)
      = toldOf j (acceptOccurrences m b x)
        (arrived (eventsOf j (acceptEvents s b x)) (acceptedStore store j b x) j (acceptedSub s m b x) s) := by
  have again : (x.ring.any fun e => e.seq == b.seq) = decide ((keptRing b.seq x.ring).length < x.ring.length) := by
    rw [Bool.eq_iff_iff, decide_eq_true_eq]
    exact any_seq_iff b.seq x.ring
  have kept : (x.ring.filter fun e => !(e.seq == b.seq)) = keptRing b.seq x.ring :=
    congrArg (x.ring.filter ·) (funext fun e => (decide_not (p := e.seq = b.seq)).symm)
  have full : decide (4 ≤ (keptRing b.seq x.ring).length) = decide (ringFull b.seq x) := by
    have atMost : (keptRing b.seq x.ring).length ≤ x.ring.length := List.length_filter_le ..
    exact decide_eq_decide.2 (by unfold ringFull; omega)
  let marked : Subscription := { x with
    lates := if isLate m x b then satAdd x.lates 1 65535 else x.lates, ring := keptRing b.seq x.ring }
  let noted : Subscription := { marked with
    overruns := if overrunNow b.seq x then min 65535 (x.overruns + 1) else x.overruns
    overrunReported := x.overrunReported || decide (overrunNow b.seq x) }
  let told := if overrunNow b.seq x ∧ x.overrunReported = false
    then [(EventKind.ringOverrun, some j.val, BitVec.ofNat 16 (min 65535 (x.overruns + 1)))] else []
  have written : liveTest j (updSub j (fun x => { x with last := some b.seq }) (ringWritten told store j m b x noted s))
      = arrived (eventsOf j (acceptEvents s b x)) (acceptedStore store j b x) j (acceptedSub s m b x) s := by
    rw [ringWritten, updSub_arrived, liveTest_arrived, acceptEvents, eventsOf_append, eventsOf_append, eventsOf_if,
      eventsOf_if, eventsOf_if]
    rfl
  have occurrences (u : State) : toldOf j (acceptOccurrences m b x) u
      = occurIf (decide (overrunNow b.seq x)) .ringOverrun (.subscription j) 1 (occurIf (isLate m x b) .blockLate
        (.subscription j) 1 (occurIf (decide (0 < missedOf x.last b.seq)) .blockMissed (.subscription j)
        (missedOf x.last b.seq) (occur .blockAccepted (.subscription j) 1 u))) := by
    rw [acceptOccurrences, toldOf_append, toldOf_append, toldOf_append, toldOf_if, toldOf_if, toldOf_if, Bool.decide_eq_true]
    rfl
  have noting : (if overrunNow b.seq x then noteOverrun j (arrived [] store j marked s) else arrived [] store j marked s)
      = arrived told store j noted s := noteOverrun_arrived ..
  rw [occurrences, ← written, acceptBlock]
  simp only [arrived_sub, again, kept, full, occurIf_once fits, decide_eq_true_eq]
  rw [updSub_arrived, overrun_once fits (noteOverrun j), noting]
  by_cases isFull : ringFull b.seq x
  · rw [if_pos isFull]
    have either : x.mode = .keepOldest ∨ x.mode = .keepNewest := by cases x.mode <;> simp
    rcases either with mode | mode <;> simp only [mode]
    · rw [ringWritten_none told store j m b s rfl isFull mode]
    · rw [ringWritten_newest told store j m b s rfl isFull mode]
  · rw [if_neg isFull, ringWritten_room told store j m b s rfl isFull]

/-- A ring in which the block is stored has room for it. -/
theorem roomMade_length {seq : Seq} {x : Subscription} (fits : x.ring.length ≤ 4) (stored : blockStored seq x) :
    (roomMade seq x).length < 4 := by
  have atMost : (keptRing seq x.ring).length ≤ x.ring.length := List.length_filter_le ..
  by_cases full : ringFull seq x
  · have newest : x.mode = .keepNewest := by
      cases mode : x.mode with
      | keepOldest => exact absurd ⟨full, mode⟩ stored
      | keepNewest => rfl
    rw [roomMade, if_pos ⟨full, newest⟩, List.length_drop, full]
    decide
  · rw [roomMade, if_neg fun both => full both.1]
    unfold ringFull at full
    omega

/-- What the block store holds after a stored block, and after one that is not. -/
theorem acceptedStore_reads {store : List Host.Cell} (wf : Memory.wf store = true) (j : Fin 32) (b : BlockBurst)
    (x : Subscription) :
    let start := slotAddr (ringSlot j (freeSlot (roomMade b.seq x)))
    let after := acceptedStore store j b x
    (blockStored b.seq x → Memory.readBytes after start b.payload.length = b.payload
      ∧ ∀ a, a < start ∨ start + b.payload.length ≤ a → Memory.read after a = Memory.read store a)
    ∧ (¬ blockStored b.seq x → after = store) := by
  intro start after
  refine ⟨fun stored => ?_, fun none => if_neg none⟩
  have written : after = Memory.writeBytes store start b.payload := if_pos stored
  rw [written]
  refine ⟨Memory.readBytes_writeBytes start b.payload wf, fun a outside => ?_⟩
  rw [Memory.read_writeBytes start a b.payload wf, if_neg (by omega)]

/-! ### The owner of a BLOCK (R127, R128) -/

/-- The channel's only subscription is the one found. -/
theorem matchSub_only {s : State} {publisher : Nat} {index : Fin 16} {j : Fin 32} (names : namesChannel s publisher index j)
    (only : ∀ h, namesChannel s publisher index h → h = j) : matchSub s publisher index = some j := by
  obtain ⟨h, found⟩ := matchSub_isSome names
  have named := List.find?_some found
  simp only [Bool.and_eq_true, bne_iff_ne, beq_iff_eq] at named
  rw [found, only h ⟨named.1.1, named.1.2, named.2⟩]

/-- The subscription at the arrival of a block on its channel (R127). -/
def renewedSub (m : BurstEnd) (x : Subscription) : Subscription := { x with lastBlock := arrivalEpoch m, pull := none }

/-- A block whose channel has a subscription is a duplicate or accepted (R128). -/
theorem blockArrives_found {m : BurstEnd} {b : BlockBurst} {j : Fin 32} {s : State}
    (found : matchSub s b.publisher b.index = some j) :
    let renewed := arrived [] s.store j (renewedSub m s.subs[j]) s
    blockArrives m b s = if s.subs[j].last = some b.seq then duplicateBlock j renewed else acceptBlock m j b renewed := by
  intro renewed
  have updated : updSub j (renewedSub m) s = renewed := by
    conv_lhs => rw [← arrived_self j s]
    exact updSub_arrived ..
  have last : renewed.subs[j].last = s.subs[j].last := by rw [arrived_sub]; rfl
  rw [← last, ← updated, blockArrives, found]
  rfl

/-- A duplicate is counted, and ends with the LIVE test (R128). -/
theorem duplicateBlock_arrived (store : List Host.Cell) (j : Fin 32) (x : Subscription) (s : State) :
    duplicateBlock j (arrived [] store j x s) = toldOf j [(.blockDuplicate, 1)]
      (arrived (eventsOf j (if goesLive s x then [(.subLive, BitVec.ofNat 16 x.state.code)] else [])) store j
        { x with state := if goesLive s x then .live else x.state
                 duplicates := min 65535 (x.duplicates + 1) } s) := by
  rw [duplicateBlock, updSub_arrived, liveTest_arrived, eventsOf_if]
  rfl

/-- Settles O38: the channel without a subscription, the duplicate, and the accepted block with its place in the ring and in
the block store. -/
theorem blocksArriveInTheirRing : Obligations.BlocksArriveInTheirRing := by
  intro bytes hand m b heard s q h read other names judged
  have row (u : State) (taken : blockArrives m b heard = u) :
      exec (.goodBurstReceived bytes hand) s = .next (judged u) := by
    have frame := handsOver_frame h
    have same : heard.station = s.station ∧ heard.due = s.due := by rw [frame]; exact ⟨rfl, rfl⟩
    have owned : handOver m (.block b) heard = u := (if_neg (by rw [same.1]; exact other)).trans taken
    have due : u.due = [] := by
      rw [← taken, (inert_blockArrives m b heard).due, same.2]
      exact due_of_quiet q
    have row := handsOver_received q h read owned due
    rwa [show (Burst.block b).sender = b.publisher from rfl] at row
  obtain ⟨c, rfl⟩ : ∃ c, heard = { s with cable := c } := ⟨_, handsOver_frame h⟩
  refine ⟨fun none => row _ ?_, fun j named only => ?_⟩
  · rw [blockArrives, matchSub_none (s := { s with cable := c }) none]
  · intro x tells told goesLive_ renewed liveEvent
    have found : matchSub { s with cable := c } b.publisher b.index = some j := matchSub_only named only
    refine ⟨fun last => row _ ?_, fun last sound => ?_⟩
    · rw [blockArrives_found found, if_pos last, duplicateBlock_arrived, arrived, raised_eventsOf]
      rfl
    · intro arrival age synced late missed kept full overrun stored base events occurrences
      let y := renewedSub m x
      have fits : y.ring.length ≤ 4 := sound.1
      have lateSame : isLate m y b = late := isLate_eq m y b
      have missedSame : missedOf y.last b.seq = missed := by
        simp only [missed, missedOf, y, renewedSub]
        cases x.last <;> rfl
      refine ⟨acceptedStore s.store j b y, freeSlot (roomMade b.seq y), row _ ?_, freeSlot_lt _,
        fun stored => (freeSlot_free (roomMade_length fits stored)).2, fun wf => acceptedStore_reads wf j b y⟩
      have occurrencesSame : acceptOccurrences m b y = occurrences := by
        rw [acceptOccurrences, lateSame, missedSame]
        rfl
      rw [blockArrives_found found, if_neg last, acceptBlock_arrived m j b y _ _ fits, arrived, raised_eventsOf,
        occurrencesSame, acceptedSub, ringEntry, lateSame, missedSame]
      rfl

end Sys2Proof.Machine
end

section
/-! PROOF. RESTART: what the blocks count and tell on the entry to OFFLINE is cleared again, and every block holds its own
values. -/

namespace Sys2Proof.Machine
open Sys2Proof.Claims

/-! ### What RESTART clears of the monitor and the host port (R176, R204) -/

/-- The monitor and the host port with all cleared that RESTART clears of them: the counters' values and gates, the frozen
condition, the snapshot, the further count, and the event queue. -/
def cleared (s : State) : Monitor × HostPort := (restartMonitor s.monitor, (emptyEvents s).port)

/-- An event is cleared (R204). -/
theorem cleared_raise (k : EventKind) (n : Option Nat) (d : BitVec 16) (s : State) :
    cleared (raise k n d s) = cleared s := by
  unfold raise
  split <;> rfl

/-- A fold of changes that are cleared is cleared. -/
theorem cleared_foldl {α : Type} (f : State → α → State) (one : ∀ s x, cleared (f s x) = cleared s) (xs : List α)
    (s : State) : cleared (xs.foldl f s) = cleared s :=
  foldl_keeps (fun s t => cleared t = cleared s) f (fun _ => rfl) (fun _ _ _ h g => g.trans h) one xs s

/-- Both sides of a choice. -/
theorem cleared_ite {p : Prop} [Decidable p] {s t u : State} (a : cleared t = cleared s) (b : cleared u = cleared s) :
    cleared (if p then t else u) = cleared s := by
  split
  · exact a
  · exact b

/-- Events are cleared. -/
theorem cleared_raised (es : List (EventKind × Option Nat × BitVec 16)) (s : State) :
    cleared (raised es s) = cleared s :=
  cleared_foldl _ (fun _ _ => cleared_raise _ _ _ _) es s

/-- A change of the monitor is cleared where RESTART makes the same of it. -/
theorem cleared_updMonitor {f : Monitor → Monitor} (same : ∀ m, restartMonitor (f m) = restartMonitor m) (s : State) :
    cleared (updMonitor f s) = cleared s :=
  congrArg (·, (emptyEvents s).port) (same s.monitor)

/-- RESTART clears the values and the gates of the counters (R176). -/
theorem restartMonitor_counters {m : Monitor} {v : Vector Counter 4}
    (same : ∀ i : Fin 4, { v[i] with value := 0, gateOpen := false }
      = ({ m.counters[i] with value := 0, gateOpen := false } : Counter)) :
    restartMonitor { m with counters := v } = restartMonitor m := by
  have counters : updAll v (fun c => { c with value := 0, gateOpen := false })
      = updAll m.counters (fun c => { c with value := 0, gateOpen := false }) :=
    congrArg Vector.ofFn (funext same)
  rw [restartMonitor, counters, restartMonitor]

/-- A counter that is raised is cleared. -/
theorem cleared_countUp (n : Nat) (i : Fin 4) (s : State) : cleared (countUp n i s) = cleared s :=
  cleared_updMonitor (fun m => restartMonitor_counters fun j => by
    rw [upd_get_if]
    split <;> rfl) s

/-- Gates that open are closed. -/
theorem cleared_openGates (s : State) : cleared (openGates s) = cleared s :=
  cleared_updMonitor (fun m => restartMonitor_counters fun j => by
    simp only [Fin.getElem_fin, Vector.getElem_mapFinIdx]
    split <;> rfl) s

/-- The snapshot, the further count, the event and the frozen condition of a notifying overflow are cleared. -/
theorem cleared_notifyOverflow (i : Fin 4) (x : Subject) (s : State) : cleared (notifyOverflow i x s) = cleared s := by
  have noted (further : Monitor → Nat) (snap : Snapshot) : cleared (updMonitor (fun m =>
      if s.monitor.snapshot.isSome then { m with further := further m } else { m with snapshot := some snap }) s)
      = cleared s := cleared_updMonitor (fun m => by split <;> rfl) s
  have froze (t : State) : cleared (updMonitor (fun m => { m with frozen := m.frozen || m.freeze }) t) = cleared t :=
    cleared_updMonitor (fun _ => rfl) t
  exact ((froze _).trans (cleared_raise _ _ _ _)).trans (noted _ _)

/-- An overflow is cleared. -/
theorem cleared_overflow (i : Fin 4) (x : Subject) (s : State) : cleared (overflow i x s) = cleared s :=
  have gates : cleared (if i.val = 0 then openGates s else s) = cleared s := cleared_ite (cleared_openGates s) rfl
  (cleared_ite (cleared_notifyOverflow i x _) rfl).trans gates

/-- An occurrence is cleared. -/
theorem cleared_occur (k : OccKind) (x : Subject) (n : Nat) (s : State) : cleared (occur k x n s) = cleared s :=
  cleared_ite rfl ((cleared_foldl _ (fun t i => cleared_overflow i x t) _ _).trans
    (cleared_foldl _ (fun t i => cleared_countUp n i t) _ s))

/-! ### What the other blocks tell on the entry to OFFLINE is cleared -/

/-- The occurrence of a merging enqueue is cleared. -/
theorem cleared_enqueue (k : EntryKind) (s : State) : cleared (enqueue k s) = cleared s := by
  refine cleared_ite (cleared_ite ?_ rfl) rfl
  split
  · exact cleared_occur _ _ _ s
  · rfl

/-- What a pull that is served tells is cleared. -/
theorem cleared_servePull (k : Fin 16) (s : State) : cleared (servePull k s) = cleared s :=
  cleared_ite (cleared_enqueue _ (updPub k (fun p => { p with pullPending := false }) s)) rfl

/-- What a commit tells is cleared. -/
theorem cleared_makeCommit (k : Fin 16) (s : State) : cleared (makeCommit k s) = cleared s := by
  have noted (block : Block) (t : State) : cleared (match block.gap with
      | some g => raise .sourceGap (some k.val) (BitVec.ofNat 16 g) t
      | none => t) = cleared t := by
    split
    · exact cleared_raise _ _ _ t
    · rfl
  exact (cleared_ite (cleared_servePull k _) rfl).trans (noted (commitBlock s k) (updPub k _ s))

/-- What the end of a bound burst tells is cleared. -/
theorem cleared_endBinding (sent : Bool) (s : State) : cleared (endBinding sent s) = cleared s := by
  unfold endBinding
  split
  · rfl
  · next k bound =>
    have released : cleared (updCable (fun c => { c with binding := none }) (if sent ∧ s.pubs[k].state ≠ .unused
        then updPub k (fun p => { p with isNew := false }) s else s)) = cleared s := by split <;> rfl
    exact (cleared_ite (cleared_makeCommit k _) rfl).trans released

/-- What the loss of the drivers tells is cleared. -/
theorem cleared_leaveDrivers (s : State) : cleared (leaveDrivers s) = cleared s := by
  have cut : cleared (cutBurst s) = cleared s := by
    unfold cutBurst
    cases s.cable.state with
    | claiming | sending | aborting => exact cleared_endBinding false s
    | off | guard | idle | receiving => rfl
  exact cut

/-- What a departure tells is cleared. -/
theorem cleared_departed (new : StationState) (cause : Nat) (s : State) : cleared (departed new cause s) = cleared s := by
  have announced : cleared (announceStation new cause s) = cleared s :=
    cleared_raise _ _ _ (updStation (fun x => { x with state := new }) s)
  have left : cleared (if driversOn s.station.state && !driversOn new then leaveDrivers (announceStation new cause s)
      else announceStation new cause s) = cleared s :=
    cleared_ite ((cleared_leaveDrivers _).trans announced) announced
  exact cleared_ite left left

/-- What states seen alike hold is cleared alike. -/
theorem SeenAlike.cleared {s t : State} (h : SeenAlike s t) : cleared t = cleared s := by
  simp only [Machine.cleared, emptyEvents, h.monitor, h.port]

/-- What the receivers tell as they go off is cleared. -/
theorem cleared_receiversGoOff (s : State) : cleared (receiversGoOff s) = cleared s :=
  (receiversGoOff_seen (SeenAlike.refl s)).cleared.trans (cleared_raised _ s)

/-- CAUTION_OFF is cleared. -/
theorem cleared_zeroScore (s : State) : cleared (zeroScore s) = cleared s := by
  unfold zeroScore
  exact cleared_ite (cleared_raise _ _ _ _) rfl

/-- HANDOVER_FAIL is cleared. -/
theorem cleared_restartSelector (s : State) : cleared (restartSelector s) = cleared s :=
  (failHandover_seen (SeenAlike.refl s) 5).cleared.trans (cleared_raised _ s)

/-! ### The entry to OFFLINE (R22, R65, R85) -/

/-- A change to OFFLINE in its parts. -/
theorem changeStation_offline (cause : Nat) (s : State) :
    changeStation .offline cause s = zeroScore (receiversGoOff (departed .offline cause s)) := rfl

/-- What it tells is cleared. -/
theorem cleared_changeStation_offline (cause : Nat) (s : State) : cleared (changeStation .offline cause s) = cleared s := by
  rw [changeStation_offline, cleared_zeroScore, cleared_receiversGoOff, cleared_departed]

/-- What it leaves. -/
theorem changeStation_offline_frame (cause : Nat) (s : State) :
    let v := changeStation .offline cause s
    v = { s with
      pubs := v.pubs, monitor := v.monitor, port := v.port
      txQueue := if driversOn s.station.state then [] else s.txQueue
      cable := interfaceOff (driversLost s.station.state s.cable)
      timebase := v.timebase
      selector := { selectorOff s with countdown := if s.station.state = .joined then none else s.selector.countdown }
      station := { driverFieldsLost s.station with state := .offline, faultScore := 0, caution := false } } := by
  intro v
  have changed : v = zeroScore (receiversGoOff (departed .offline cause s)) := changeStation_offline cause s
  have left := departed_frame (new := .offline) rfl cause s
  rw [zeroScore_eq, receiversGoOff_frame] at changed
  generalize departed .offline cause s = d at left changed
  generalize v = v at changed ⊢
  have selector := selectorOff_countdown (s := s) (u := d) (by rw [left]) (by rw [left])
  rw [changed, selector, left]

/-- The receiver-off entry of a change to OFFLINE (R22). -/
theorem changeStation_offline_timebase (cause : Nat) (s : State) :
    ReceiversOff s.timebase (changeStation .offline cause s).timebase := by
  have off := receiverOff_timebase (departed .offline cause s)
  have same : (departed .offline cause s).timebase = s.timebase := by rw [departed_frame rfl]
  rw [same] at off
  rw [changeStation_offline, zeroScore_eq, receiversGoOff_frame]
  exact off

/-! ### RESTART (R85) -/

/-- The selector after RESTART (R28). -/
def restartedSelector (x : Selector) : Selector :=
  { x with countdown := none, record := none, release := false, firstDrive := none, driving := none }

/-- The selector's part of RESTART. -/
theorem restartSelector_frame (s : State) :
    restartSelector s = { s with selector := restartedSelector s.selector, port := (restartSelector s).port } := by
  unfold restartSelector updSelector
  rw [failHandover_frame, failHandover_selector]
  rfl

/-- The station controller after RESTART (R85). -/
def restartedStation (x : Station) : Station :=
  { x with
    state := .offline, faultScore := 0, caution := false, settle := 0, listen := 0, retireTimer := 0, clash := 0
    recovery := 0, lapse := 0, retireSent := false, freshPending := false, hostAlive := true }

/-- A state with every block as RESTART leaves it, but for the timebase unit (R23, R28, R44, R54, R85, R87, R104, R124,
R144, R145, R162, R170, R176, R204). -/
def restarted (t : Timebase) (s : State) : State :=
  { s with
    timebase := t, selector := restartedSelector s.selector
    cable := { Cable.reset with holdOffDeadline := s.cable.holdOffDeadline }, txQueue := []
    station := restartedStation s.station, roster := Vector.replicate 24 (RosterEntry.cleared false)
    pubs := Vector.ofFn fun k => Publication.cleared k.val false, partials := Vector.replicate 16 Partial.cleared
    fifo := [], portRejects := 0, unknownPulls := 0, subs := Vector.replicate 32 (Subscription.cleared false)
    engines := Vector.replicate 4 Engine.reset, gens := Vector.replicate 2 Generator.reset
    compares := Vector.replicate 4 Compare.reset, monitor := restartMonitor s.monitor
    port := { s.port with events := [], lost := false } }

/-- RESTART after the entry to OFFLINE: every block's own values. -/
def clearBlocks (s : State) : State :=
  emptyEvents (updMonitor restartMonitor (restartUnits (restartSubscriptions (restartPublications (restartRoster
    (restartCable (restartStation s)))))))

/-- RESTART is the selector's part, the entry to OFFLINE and every block's own values. -/
theorem restart_parts (s : State) : restart s = clearBlocks (changeStation .offline 14 (restartSelector s)) := rfl

/-- The selector and the station's state have theirs from before. -/
theorem clearBlocks_own (s : State) :
    clearBlocks s = { restarted s.timebase s with selector := s.selector, station := (restartStation s).station } := by
  simp only [restarted, clearBlocks, emptyEvents, updMonitor, restartUnits, restartSubscriptions, restartPublications,
    restartRoster, restartCable, updCable, restartStation, updStation]

/-- The timebase unit has no values of its own to clear. -/
theorem clearBlocks_timebase (s : State) : (clearBlocks s).timebase = s.timebase := by rw [clearBlocks_own, restarted]

/-- RESTART's receiver-off entry (R22, R23). -/
theorem restart_timebase (s : State) : ReceiversOff s.timebase (restart s).timebase := by
  have off := changeStation_offline_timebase 14 (restartSelector s)
  have same : (restartSelector s).timebase = s.timebase := by rw [restartSelector_frame]
  rw [same] at off
  rwa [restart_parts, clearBlocks_timebase]

/-- The entry to OFFLINE leaves nothing in the selector that RESTART has not cleared. -/
theorem offline_selector {x : Selector} {s : State} (h : s.selector = restartedSelector x) (joined : Prop)
    [Decidable joined] :
    { selectorOff s with countdown := if joined then none else s.selector.countdown } = restartedSelector x := by
  unfold selectorOff
  rw [h]
  split_ifs <;> rfl

/-- The station controller's own values, whatever the entry to OFFLINE has cleared. -/
theorem offline_station {x : Station} {s : State}
    (h : s.station = { driverFieldsLost x with state := .offline, faultScore := 0, caution := false }) :
    (restartStation s).station = restartedStation x := by
  unfold restartStation updStation driverFieldsLost at *
  rw [h]
  split_ifs <;> rfl

/-- The loss of the drivers keeps the deadline of a hold-off. -/
theorem driversLost_deadline (old : StationState) (c : Cable) :
    (driversLost old c).holdOffDeadline = c.holdOffDeadline := by
  unfold driversLost cutCable
  split
  · cases c.state <;> rfl
  · rfl

/-- After an entry to OFFLINE that leaves only what RESTART clears, every block is as RESTART leaves it. -/
theorem clearBlocks_eq {s v : State} (same : cleared v = cleared s)
    (station : (restartStation v).station = restartedStation s.station)
    (deadline : v.cable.holdOffDeadline = s.cable.holdOffDeadline)
    (rest : v = { s with
      timebase := v.timebase, selector := restartedSelector s.selector, cable := v.cable, txQueue := v.txQueue
      station := v.station, pubs := v.pubs, monitor := v.monitor, port := v.port }) :
    clearBlocks v = restarted v.timebase s := by
  obtain ⟨monitor, port⟩ := Prod.mk.inj same
  simp only [emptyEvents] at port
  rw [clearBlocks_own, restarted, monitor, port, station, deadline, rest]
  rfl

/-- What RESTART leaves of every block. -/
theorem restart_eq (s : State) : restart s = restarted (restart s).timebase s := by
  have same : cleared (changeStation .offline 14 (restartSelector s)) = cleared s := by
    rw [cleared_changeStation_offline, cleared_restartSelector]
  have frame := changeStation_offline_frame 14 (restartSelector s)
  have selector := offline_selector (s := restartSelector s) (x := s.selector) (by rw [restartSelector_frame])
    ((restartSelector s).station.state = .joined)
  rw [restart_parts, clearBlocks_timebase]
  generalize changeStation .offline 14 (restartSelector s) = v at same frame
  rw [selector, restartSelector_frame s] at frame
  refine clearBlocks_eq same (offline_station (by rw [frame])) ?_ (by rw [frame])
  rw [frame]
  exact driversLost_deadline s.station.state s.cable

/-- Settles O27: the entry to OFFLINE, and then every block's own values. -/
theorem restartClearsEveryBlock : Obligations.RestartClearsEveryBlock := by
  intro s r
  have off := restart_timebase (setTransaction .waiting s)
  have act : replyOf (.restart []) (setTransaction .waiting s) = .taken []
      (setTransaction .waiting (restarted (restart (setTransaction .waiting s)).timebase s)) :=
    (checked_ok (fits := exactly 0) restartAct (body := []) (setTransaction .waiting s) rfl (by simp)).trans
      (congrArg (Reply.taken []) (restart_eq (setTransaction .waiting s)))
  refine ⟨_, taken_of_reply rfl r rfl act, rfl, off, rfl, rfl, rfl, fun i => ?roster, fun k => ?pubs, fun k => ?partials,
    rfl, rfl, rfl, rfl, fun j => ?subs, rfl, fun e => ?engines, fun g => ?gens, fun k => ?compares, fun i => ?counters,
    rfl, rfl, rfl, rfl, rfl, rfl, rfl, r.1⟩
  case pubs => exact Vector.getElem_ofFn _
  case counters => exact updAll_get _ i _
  all_goals exact Vector.getElem_replicate _

end Sys2Proof.Machine
end

section
/-! PROOF. The interval check of one entry and of all 24, with its events. -/

namespace Sys2Proof.Machine
open Sys2Proof.Claims

/-! ### Subscriptions that turn STALE (R138) -/

/-- The subscriptions of a table, of which some turn STALE. -/
def turnedStale (stale : Fin 32 → Bool) (subs : Vector Subscription 32) : Vector Subscription 32 :=
  Vector.ofFn fun j => { subs[j] with state := if stale j then .stale else subs[j].state }

/-- A subscription of such a table. -/
theorem turnedStale_get (stale : Fin 32 → Bool) (subs : Vector Subscription 32) (j : Fin 32) :
    (turnedStale stale subs)[j] = if stale j then wentStale subs[j] else subs[j] := by
  have one : (turnedStale stale subs)[j] = { subs[j] with state := if stale j then .stale else subs[j].state } :=
    Vector.getElem_ofFn _
  rw [one]
  split <;> rfl

/-- A table with these subscriptions is that table. -/
theorem turnedStale_eq {stale : Fin 32 → Bool} {subs v : Vector Subscription 32}
    (h : ∀ j : Fin 32, v[j] = if stale j then wentStale subs[j] else subs[j]) : v = turnedStale stale subs :=
  Vector.ext fun j lt => (h ⟨j, lt⟩).trans (turnedStale_get stale subs ⟨j, lt⟩).symm

/-! ### The check of one entry (R93) -/

/-- The last miss of a PRESENT entry is its third. -/
theorem LastMiss.third {e : RosterEntry} (last : LastMiss e) (present : e.state = .present) : 3 ≤ e.missed + 1 := by
  simpa [LastMiss, present] using last

/-- The check changes the state of an entry exactly at the last miss of a peer not heard. -/
theorem agedPeer_moves_iff (e : RosterEntry) : e.state ≠ (agedPeer e).state ↔ e.heard = false ∧ LastMiss e := by
  by_cases absent : e.state = .absent
  · simp [agedPeer, LastMiss, absent]
  cases heard : e.heard with
  | true => simp [agedPeer, absent, heard]
  | false =>
    simp only [true_and]
    by_cases last : LastMiss e
    · refine iff_of_true ?_ last
      by_cases present : e.state = .present
      · rw [agedPeer_silenced present heard (last.third present), present]
        nofun
      · rw [agedPeer_cleared absent heard last present]
        exact absent
    · rw [agedPeer_missed absent heard last]
      exact iff_of_false (fun moved => moved rfl) last

/-- The roster's own event for an entry that the check changes. -/
def rosterEvents (i : Fin 24) (e : RosterEntry) : List (EventKind × Option Nat × BitVec 16) :=
  if e.state = .present ∧ (agedPeer e).state = .silent then [(.peerSilent, some (i.val + 1), 1)]
  else if (e.state = .silent ∨ e.state = .retired) ∧ (agedPeer e).state = .absent then
    [(.peerGone, some (i.val + 1), BitVec.ofNat 16 e.state.code)]
  else []

/-- The events of a check: the roster's own, then those of the change report. -/
theorem ageEvents_eq (s : State) (i : Fin 24) : ageEvents s i
    = rosterEvents i s.roster[i] ++ if ageReports s i then staleEvents s i (List.finRange 32) else [] := rfl

/-- An entry that stays in its state has no event. -/
theorem rosterEvents_kept {i : Fin 24} {e : RosterEntry} (kept : (agedPeer e).state = e.state) :
    rosterEvents i e = [] := by
  rw [rosterEvents, kept]
  cases e.state <;> rfl

/-- The check of an entry that stays in its state. -/
theorem checkPeer_kept {s : State} {i : Fin 24} (kept : ageReports s i = false) :
    checkPeer s i = updPeer i agedPeer s := by
  have same := mt (agedPeer_moves_iff s.roster[i]).2 (of_decide_eq_false kept)
  unfold checkPeer
  dsimp only
  by_cases absent : s.roster[i].state = .absent
  · rw [if_pos absent]
    exact (updPeer_self (f := agedPeer) (if_pos absent)).symm
  rw [if_neg absent]
  cases heard : s.roster[i].heard with
  | true => exact updPeer_congr ((if_neg absent).trans (if_pos heard)).symm
  | false =>
    have last : ¬ LastMiss s.roster[i] := fun last => same ⟨heard, last⟩
    have counted : updPeer i (fun e => { e with missed := e.missed + 1 }) s = updPeer i agedPeer s :=
      updPeer_congr (agedPeer_missed absent heard last).symm
    simp only [LastMiss, not_or, not_and] at last
    obtain ⟨seen, present, lost⟩ := last
    simp only [counted, Bool.false_eq_true, if_false]
    split
    next e => exact if_neg (seen e)
    next e => exact if_neg (present e)
    next e => exact if_neg (lost (.inl e))
    next e => exact if_neg (lost (.inr e))
    next => rfl

/-- The last miss of a peer, as it is counted and then acted on. -/
theorem updPeer_aged {s : State} {i : Fin 24} {f : RosterEntry → RosterEntry}
    (aged : agedPeer s.roster[i] = f (missed s.roster[i])) :
    updPeer i f (updPeer i missed s) = updPeer i agedPeer s := by
  have both : upd (upd s.roster i missed) i f = upd s.roster i agedPeer :=
    (upd_upd s.roster i missed f).trans (upd_congr aged.symm)
  simp only [updPeer, both]

/-- The check of an entry whose state it changes: the roster's event, then the change report (R97). -/
theorem checkPeer_moved {s : State} {i : Fin 24} (moved : ageReports s i = true) :
    checkPeer s i = changeReport (i.val + 1) (raised (rosterEvents i s.roster[i]) (updPeer i agedPeer s)) := by
  obtain ⟨heard, last⟩ := (agedPeer_moves_iff s.roster[i]).1 (of_decide_eq_true moved)
  have known : s.roster[i].state ≠ .absent := by
    rcases last with ⟨e, -⟩ | ⟨e, -⟩ | ⟨e | e, -⟩ <;> rw [e] <;> nofun
  have row : checkPeer s i = _ := (if_neg known).trans (if_neg (by rw [heard]; nofun))
  rw [row, rosterEvents]
  by_cases present : s.roster[i].state = .present
  · have count := last.third present
    have aged := agedPeer_silenced present heard count
    simp only [present, if_pos count, aged, and_self, if_true]
    exact congrArg (fun u => changeReport _ (raise _ _ _ u)) (updPeer_aged aged)
  · have aged := agedPeer_cleared known heard last present
    have cleared : clearPeer i (updPeer i missed s) = updPeer i agedPeer s :=
      updPeer_aged (f := fun e => .cleared e.marked) aged
    rw [← cleared, aged]
    rcases last with ⟨e, count⟩ | ⟨e, -⟩ | ⟨e | e, count⟩
    · simp only [e, if_pos count]; rfl
    · exact absurd e present
    · simp only [e, if_pos count]; rfl
    · simp only [e, if_pos count]; rfl

/-- `s` with one entry aged, and the subscriptions to the peer STALE when that changes its state. -/
def agedOne (s : State) (i : Fin 24) : State :=
  { s with
    roster := upd s.roster i agedPeer
    subs := turnedStale (fun j => ageReports s i && subscribedTo s i j) s.subs }

/-- The check of one entry, with its events. -/
theorem checkPeer_eq (s : State) (i : Fin 24) : checkPeer s i = raised (ageEvents s i) (agedOne s i) := by
  cases moved : ageReports s i with
  | false =>
    have none : ageEvents s i = [] := by
      have kept : (agedPeer s.roster[i]).state = s.roster[i].state := (not_not.1 (of_decide_eq_false moved)).symm
      rw [ageEvents_eq, rosterEvents_kept kept, moved]
      rfl
    have still : s.subs = turnedStale (fun j => false && subscribedTo s i j) s.subs := turnedStale_eq fun _ => rfl
    rw [checkPeer_kept moved, none, agedOne, moved, ← still]
    rfl
  | true =>
    let t := updPeer i agedPeer s
    have gone : t.roster[i].state ≠ .present := by
      rw [updPeer_get, if_pos rfl]
      exact agedPeer_moved (of_decide_eq_true moved)
    have stale : reportStale t i = subscribedTo s i := by
      funext j
      rw [reportStale, leavesOut, decide_eq_true gone, Bool.true_or, Bool.and_true]
      rfl
    have events : ageEvents s i = rosterEvents i s.roster[i] ++ reportEvents t i (List.finRange 32) := by
      rw [ageEvents_eq, moved, reportEvents, stale, reportCause, if_neg gone]
      rfl
    have subs : reportedSubs t i (List.finRange 32) = turnedStale (fun j => true && subscribedTo s i j) s.subs :=
      turnedStale_eq fun j => by
        rw [reportedSubs_get, stale]
        simp only [List.mem_finRange, true_and, Bool.true_and]
        rfl
    rw [checkPeer_moved moved, changeReport_raised, events, agedOne, moved, ← subs]
    rfl

/-! ### The check of all entries (R93) -/

/-- The roster with the entries of a list aged. -/
def agedRoster (s : State) (seen : List (Fin 24)) : Vector RosterEntry 24 :=
  Vector.ofFn fun i => if i ∈ seen then agedPeer s.roster[i] else s.roster[i]

/-- The subscriptions, STALE where they follow an entry of a list that changed its state. -/
def agedSubs (s : State) (seen : List (Fin 24)) : Vector Subscription 32 :=
  turnedStale (fun j => seen.any fun i => ageReports s i && subscribedTo s i j) s.subs

/-- `s` after the check of the entries of a list, but for the events. -/
def agedPeers (s : State) (seen : List (Fin 24)) : State :=
  { s with roster := agedRoster s seen, subs := agedSubs s seen }

/-- An aged roster's entry. -/
theorem agedRoster_get (s : State) (seen : List (Fin 24)) (i : Fin 24) :
    (agedRoster s seen)[i] = if i ∈ seen then agedPeer s.roster[i] else s.roster[i] :=
  Vector.getElem_ofFn _

/-- The roster with all entries aged. -/
theorem agedRoster_all (s : State) : agedRoster s (List.finRange 24) = s.roster.map agedPeer :=
  Vector.ext fun k lt => by simp [agedRoster]

/-- A subscription after the check. -/
theorem agedSubs_get (s : State) (seen : List (Fin 24)) (j : Fin 32) : (agedSubs s seen)[j]
    = if seen.any fun i => ageReports s i && subscribedTo s i j then wentStale s.subs[j] else s.subs[j] :=
  turnedStale_get _ s.subs j

/-- Its two tables are all in which it differs from `s`. -/
theorem agedPeers_with (s : State) (seen : List (Fin 24)) (roster : Vector RosterEntry 24)
    (subs : Vector Subscription 32) :
    { agedPeers s seen with roster := roster, subs := subs } = { s with roster := roster, subs := subs } := by
  simp only [agedPeers]

/-- No entry checked changes nothing. -/
theorem agedPeers_nil (s : State) : agedPeers s [] = s := by
  have roster : agedRoster s [] = s.roster := Vector.ext fun k lt => by simp [agedRoster]
  have subs : s.subs = agedSubs s [] := turnedStale_eq fun _ => rfl
  rw [agedPeers, roster, ← subs]

/-- An entry not reached yet. -/
theorem agedPeers_new {s : State} {seen : List (Fin 24)} {i : Fin 24} (new : i ∉ seen) :
    (agedPeers s seen).roster[i] = s.roster[i] := (agedRoster_get s seen i).trans (if_neg new)

/-- The entries checked before another one leave the subscriptions to that one alone. -/
theorem agedPeers_follows {s : State} {seen : List (Fin 24)} {i : Fin 24} (new : i ∉ seen) (j : Fin 32) :
    subscribedTo (agedPeers s seen) i j = subscribedTo s i j := by
  have sub : (agedPeers s seen).subs[j] = _ := agedSubs_get s seen j
  rw [subscribedTo, sub]
  split
  · next hit =>
    obtain ⟨k, mem, told⟩ := List.any_eq_true.1 hit
    have other : s.subs[j].publisher ≠ i.val + 1 := by
      intro own
      have follows := (of_decide_eq_true (Bool.and_eq_true_iff.1 told).2).2
      exact new ((Fin.ext (by omega) : i = k) ▸ mem)
    simp only [subscribedTo, wentStale, other, and_false]
  · rfl

/-- The check reads an entry, and who follows the peer. -/
theorem ageEvents_congr {s t : State} {i : Fin 24} (entry : t.roster[i] = s.roster[i])
    (follows : ∀ j, subscribedTo t i j = subscribedTo s i j) : ageEvents t i = ageEvents s i := by
  have stale : subscribedTo t i = subscribedTo s i := funext follows
  rw [ageEvents, ageReports, entry, stale]
  rfl

/-- One more entry is aged. -/
theorem agedOne_agedPeers {s : State} {seen : List (Fin 24)} {i : Fin 24} (new : i ∉ seen) :
    agedOne (agedPeers s seen) i = agedPeers s (seen ++ [i]) := by
  let y := agedPeers s seen
  have reports : ageReports y i = ageReports s i := by rw [ageReports, agedPeers_new new]; rfl
  have follows : ∀ j, subscribedTo y i j = subscribedTo s i j := agedPeers_follows new
  have roster (k : Fin 24) : (upd y.roster i agedPeer)[k] = (agedRoster s (seen ++ [i]))[k] := by
    have before : y.roster[k] = _ := agedRoster_get s seen k
    have member : k ∈ seen ++ [i] ↔ k ∈ seen ∨ k = i := by simp
    rw [upd_get_if, before, agedRoster_get]
    by_cases here : k = i
    · rw [if_pos here, if_pos (member.2 (.inr here)), if_neg (here ▸ new)]
    · simp only [here, member, or_false, if_false]
  have subs (j : Fin 32) : (agedSubs s (seen ++ [i]))[j]
      = if ageReports y i && subscribedTo y i j then wentStale y.subs[j] else y.subs[j] := by
    have before : y.subs[j] = _ := agedSubs_get s seen j
    rw [agedSubs_get, before, reports, follows, List.any_append]
    cases seen.any fun i => ageReports s i && subscribedTo s i j <;> simp [wentStale]
  have table : upd y.roster i agedPeer = agedRoster s (seen ++ [i]) := Vector.ext fun k lt => roster ⟨k, lt⟩
  have whole : agedOne y i = { s with
      roster := upd y.roster i agedPeer
      subs := turnedStale (fun j => ageReports y i && subscribedTo y i j) y.subs } := agedPeers_with s seen _ _
  rw [whole, table, ← turnedStale_eq subs, agedPeers]

/-- The check of an entry behind events. -/
theorem checkPeer_raised (es : List (EventKind × Option Nat × BitVec 16)) (s : State) (i : Fin 24) :
    checkPeer (raised es s) i = raised (es ++ ageEvents s i) (agedOne s i) := by
  have roster : (raised es s).roster = s.roster := by rw [raised_frame]
  have subs : (raised es s).subs = s.subs := by rw [raised_frame]
  have entry : (raised es s).roster[i] = s.roster[i] := by rw [roster]
  have follows (j : Fin 32) : subscribedTo (raised es s) i j = subscribedTo s i j := subscribedTo_congr subs
  have aged : agedOne (raised es s) i = raised es (agedOne s i) := by
    simp only [agedOne, ageReports, follows, roster, subs]
    exact raised_tables es s _ _
  rw [checkPeer_eq, ageEvents_congr entry follows, aged, raised_append]

/-- The check of the entries of a list, one after the other. -/
theorem checkPeer_foldl (s : State) (seen : List (Fin 24)) (once : seen.Nodup) :
    seen.foldl checkPeer s = raised (seen.flatMap (ageEvents s)) (agedPeers s seen) := by
  induction seen using List.reverseRecOn with
  | nil => exact (agedPeers_nil s).symm
  | append_singleton seen i ih =>
    rw [List.nodup_append] at once
    obtain ⟨once, -, apart⟩ := once
    have new : i ∉ seen := fun mem => apart i mem i (List.mem_singleton_self i) rfl
    have events : ageEvents (agedPeers s seen) i = ageEvents s i :=
      ageEvents_congr (agedPeers_new new) (agedPeers_follows new)
    rw [List.foldl_append, ih once, List.flatMap_append, List.flatMap_singleton, ← events, ← agedOne_agedPeers new]
    exact checkPeer_raised _ _ i

/-- Settles O30: the check of an entry by its cases, and of all 24 by induction over the entries checked. -/
theorem intervalChecksAgeUnheardPeers : Obligations.IntervalChecksAgeUnheardPeers := by
  intro s aged
  refine ⟨checkPeer_eq s, ?_⟩
  show intervalCheck s = raised _ { s with roster := s.roster.map agedPeer, subs := agedSubs s (List.finRange 24) }
  rw [← agedRoster_all]
  exact checkPeer_foldl s _ (List.nodup_finRange 24)

end Sys2Proof.Machine
end

section
/-! PROOF. What the elementary changes and the operations of the blocks keep of the memories, the event queue, the FIFO, the
held requests and the loops. -/

namespace Sys2Proof.Machine
open Sys2Proof.Claims

/-! ### Changes that keep the memories canonical and the queues and loops in bounds -/

/-- A change keeps both memories canonical, and the event queue, the FIFO, the held requests and the loops in their bounds,
each for itself. -/
structure Bounds (s t : State) : Prop where
  memories : CanonicalMemories s → CanonicalMemories t
  events : BoundedEvents s → BoundedEvents t
  fifo : FifoFits s → FifoFits t
  held : HoldersBounded s → HoldersBounded t
  loops : LoopsClosed s → LoopsClosed t

/-- The parts of the state of which these invariants speak. -/
def boundParts (s : State) :
    List Host.Cell × List (Nat × SchedEntry) × List FifoItem × Vector Engine 4 × HostPort :=
  (s.store, s.schedule, s.fifo, s.engines, s.port)

theorem Bounds.refl (s : State) : Bounds s s := ⟨id, id, id, id, id⟩

theorem Bounds.trans {s t u : State} (h : Bounds s t) (g : Bounds t u) : Bounds s u :=
  ⟨g.memories ∘ h.memories, g.events ∘ h.events, g.fifo ∘ h.fifo, g.held ∘ h.held, g.loops ∘ h.loops⟩

/-- A change of the other parts keeps everything. -/
theorem Bounds.same {s t : State} (h : boundParts t = boundParts s) : Bounds s t := by
  simp only [boundParts, Prod.mk.injEq] at h
  obtain ⟨store, schedule, fifo, engines, port⟩ := h
  constructor
  · rw [CanonicalMemories, CanonicalMemories, store, schedule]; exact id
  · rw [BoundedEvents, BoundedEvents, port]; exact id
  · rw [FifoFits, FifoFits, fifo]; exact id
  · rw [HoldersBounded, HoldersBounded, port]; exact id
  · rw [LoopsClosed, LoopsClosed, engines]; exact id

/-- A change that comes after one of the other parts. -/
theorem Bounds.of_same {s t u : State} (g : Bounds t u) (h : boundParts t = boundParts s) : Bounds s u :=
  (Bounds.same h).trans g

/-- A change that comes after another. -/
theorem Bounds.after {s t u : State} (g : Bounds t u) (h : Bounds s t) : Bounds s u := h.trans g

theorem bounds_updPub (k : Fin 16) (f : Publication → Publication) (s : State) : Bounds s (updPub k f s) := .same rfl
theorem bounds_updPartial (k : Fin 16) (f : Partial → Partial) (s : State) : Bounds s (updPartial k f s) := .same rfl
theorem bounds_updSub (j : Fin 32) (f : Subscription → Subscription) (s : State) : Bounds s (updSub j f s) := .same rfl
theorem bounds_updPeer (i : Fin 24) (f : RosterEntry → RosterEntry) (s : State) : Bounds s (updPeer i f s) := .same rfl
theorem bounds_updGen (g : Fin 2) (f : Generator → Generator) (s : State) : Bounds s (updGen g f s) := .same rfl
theorem bounds_updCompare (k : Fin 4) (f : Compare → Compare) (s : State) : Bounds s (updCompare k f s) := .same rfl
theorem bounds_updStation (f : Station → Station) (s : State) : Bounds s (updStation f s) := .same rfl
theorem bounds_updSelector (f : Selector → Selector) (s : State) : Bounds s (updSelector f s) := .same rfl
theorem bounds_updCable (f : Cable → Cable) (s : State) : Bounds s (updCable f s) := .same rfl
theorem bounds_updTimebase (f : Timebase → Timebase) (s : State) : Bounds s (updTimebase f s) := .same rfl
theorem bounds_updMonitor (f : Monitor → Monitor) (s : State) : Bounds s (updMonitor f s) := .same rfl

/-- A change of the port alone that adds neither an event nor a held request beyond the bounds. -/
theorem Bounds.port {s : State} (p : HostPort) (events : s.port.events.length ≤ 32 → p.events.length ≤ 32)
    (held : s.port.held.length ≤ 2 → p.held.length ≤ 2) : Bounds s { s with port := p } := ⟨id, events, id, held, id⟩

/-- Both sides of a choice. -/
theorem Bounds.ite {p : Prop} [Decidable p] {s t u : State} (a : p → Bounds s t) (b : ¬ p → Bounds s u) :
    Bounds s (if p then t else u) := by
  split
  · exact a ‹_›
  · exact b ‹_›

/-- A fold of such changes is one. -/
theorem Bounds.foldl {α : Type} (f : State → α → State) (one : ∀ s x, Bounds s (f s x)) (xs : List α) (s : State) :
    Bounds s (xs.foldl f s) :=
  foldl_keeps Bounds f Bounds.refl (fun _ _ _ => Bounds.trans) one xs s

/-- An event (R198). -/
theorem bounds_raise (k : EventKind) (n : Option Nat) (d : BitVec 16) (s : State) : Bounds s (raise k n d s) := by
  have events := raise_bounded k n d s
  have held := raise_held k n d s
  rw [raise_frame k n d s]
  exact .port _ events fun h => held ▸ h


theorem bounds_mark (d : Due) (s : State) : Bounds s (mark d s) := .ite (fun _ => .refl s) fun _ => .same rfl

theorem bounds_markIf (c : Bool) (d : Due) (s : State) : Bounds s (markIf c d s) :=
  .ite (fun _ => bounds_mark d s) fun _ => .refl s

theorem bounds_overflow (i : Fin 4) (x : Subject) (s : State) : Bounds s (overflow i x s) := by
  have notified (t : State) : Bounds t (notifyOverflow i x t) := by
    unfold notifyOverflow
    exact (bounds_updMonitor _ _).after ((bounds_raise _ _ _ _).after (bounds_updMonitor _ t))
  have told (t : State) : Bounds t (if t.monitor.counters[i].notify then notifyOverflow i x t else t) :=
    .ite (fun _ => notified t) fun _ => .refl t
  unfold overflow
  by_cases first : i.val = 0
  · simp only [if_pos first]
    exact (told (openGates s)).of_same rfl
  · simp only [if_neg first]
    exact told s

/-- An occurrence. -/
theorem bounds_occur (k : OccKind) (x : Subject) (n : Nat) (s : State) : Bounds s (occur k x n s) := by
  unfold occur
  refine .ite (fun _ => .refl s) fun _ => ?_
  exact (Bounds.foldl (fun t i => countUp n i t) (fun t i => .same rfl) _ s).trans
    (Bounds.foldl (fun t i => overflow i x t) (fun t i => bounds_overflow i x t) _ _)

/-- An enqueue (R55). -/
theorem bounds_enqueue (k : EntryKind) (s : State) : Bounds s (enqueue k s) := by
  refine .ite (fun _ => .ite (fun _ => ?_) fun _ => .same rfl) fun _ => .refl s
  cases k with
  | block k => exact bounds_occur _ _ _ s
  | _ => exact .refl s

/-- A timebase state is entered (R24). -/
theorem bounds_enterTimebase (new : TimebaseState) (f : Timebase → Timebase) (s : State) :
    Bounds s (enterTimebase new f s) :=
  .ite (fun _ => .same rfl) fun _ => (bounds_raise _ _ _ _).of_same rfl

theorem bounds_failHandover (cause : Nat) (s : State) : Bounds s (failHandover cause s) := by
  unfold failHandover
  split
  · exact .refl s
  · exact (bounds_raise _ _ _ _).of_same rfl

/-- One engine changes, and its loop stays closed. -/
theorem bounds_updEngine (e : Fin 4) (f : Engine → Engine) (s : State)
    (closed : (s.engines[e].loopStart = none → s.engines[e].loopCount = 0) →
      (f s.engines[e]).loopStart = none → (f s.engines[e]).loopCount = 0) : Bounds s (updEngine e f s) := by
  refine ⟨id, id, id, id, fun all i => ?_⟩
  rw [updEngine_engines, upd_get_if]
  split
  · next same => exact same ▸ closed (all e)
  · exact all i

/-- Bytes are written to the block store. -/
theorem bounds_writeBytes (a : Nat) (bytes : List Byte) (s : State) :
    Bounds s { s with store := Memory.writeBytes s.store a bytes } :=
  ⟨fun m => ⟨Memory.writeBytes_wf a bytes m.1, m.2⟩, id, id, id, id⟩

/-! ### Publications and the sample port -/

theorem bounds_servePull (k : Fin 16) (s : State) : Bounds s (servePull k s) :=
  .ite (fun _ => (bounds_enqueue _ _).after (bounds_updPub k _ s)) fun _ => .refl s

theorem bounds_makeCommit (k : Fin 16) (s : State) : Bounds s (makeCommit k s) := by
  have served (t : State) : Bounds t (if t.pubs[k].state = .active then servePull k t else t) :=
    .ite (fun _ => bounds_servePull k t) fun _ => .refl t
  unfold makeCommit
  dsimp only
  refine .trans ?_ (served _)
  cases (commitBlock s k).gap with
  | none => exact .same rfl
  | some g => exact (bounds_raise _ _ _ _).of_same rfl

theorem bounds_askCommit (k : Fin 16) (s : State) : Bounds s (askCommit k s) :=
  .ite (fun _ => .same rfl) fun _ => bounds_makeCommit k s

theorem bounds_endBinding (sent : Bool) (s : State) : Bounds s (endBinding sent s) := by
  unfold endBinding
  split
  · exact .refl s
  · next k _ =>
    have told : Bounds s (if sent = true ∧ s.pubs[k].state ≠ .unused then
        updPub k (fun p => { p with isNew := false }) s else s) := .ite (fun _ => bounds_updPub _ _ s) fun _ => .refl s
    have completed (t : State) : Bounds t (completeCommit k t) := .ite (fun _ => bounds_makeCommit _ t) fun _ => .refl t
    exact (completed _).after ((bounds_updCable _ _).after told)

theorem bounds_offerEmit (k : Fin 16) (s : State) : Bounds s (offerEmit k s) := by
  have skip : Bounds s (skipEmit k s) := bounds_occur _ _ _ s
  exact .ite (fun _ => skip) fun _ => .ite (fun _ => skip) fun _ => .ite (fun _ => skip) fun _ =>
    .ite (fun _ => bounds_enqueue _ s) fun _ => .ite (fun _ => skip) fun _ => bounds_enqueue _ s

theorem bounds_pullArrives (k : Fin 16) (s : State) : Bounds s (pullArrives k s) :=
  .ite (fun _ => .same rfl) fun _ => .ite (fun _ => .refl s) fun _ =>
    .ite (fun _ => .same rfl) fun _ => .ite (fun _ => .refl s) fun _ => bounds_enqueue _ s

/-- The FIFO takes an item only where it has room for its words (R108). -/
theorem bounds_offerItem (item : FifoItem) (s : State) : Bounds s (offerItem item s) := by
  refine .ite (fun room => ⟨id, id, fun _ => ?_, id, id⟩) fun _ => .ite (fun _ => .same rfl) fun _ => .same rfl
  simpa [FifoFits, fifoWords] using room

theorem bounds_strobe (k : Fin 16) (word : BitVec 16) (s : State) : Bounds s (strobe k word s) := by
  unfold strobe
  dsimp only
  refine .ite (fun _ => .ite (fun _ => .same rfl) fun _ => ?_) fun _ => bounds_offerItem _ s
  split
  · exact .same rfl
  · exact (bounds_offerItem _ _).after (bounds_updPartial k _ s)

theorem bounds_appendSample (k : Fin 16) (bytes : List Byte) (stamp : Stamp) (s : State) :
    Bounds s (appendSample k bytes stamp s) := by
  have appended (f : Publication → Publication) (a : Nat) :
      Bounds s (updPub k f { s with store := Memory.writeBytes s.store a bytes }) :=
    (bounds_updPub k f _).after (bounds_writeBytes a bytes s)
  exact .ite (fun _ => (appended _ _).trans (bounds_askCommit k _)) fun _ => appended _ _

theorem bounds_judgeItem (item : FifoItem) (s : State) : Bounds s (judgeItem item s) :=
  .ite (fun _ => .same rfl) fun _ => .ite (fun _ => .same rfl) fun _ =>
    .ite (fun _ => .same rfl) fun _ => bounds_appendSample _ _ _ s

theorem bounds_drainOne (s : State) : Bounds s (drainOne s) := by
  unfold drainOne
  split
  · exact .refl s
  · next item rest h =>
    have taken : Bounds s { s with fifo := rest } := by
      refine ⟨id, id, fun fits => ?_, id, id⟩
      have words : fifoWords s.fifo = item.words + fifoWords rest := by simp [h, fifoWords]
      have fits : fifoWords s.fifo ≤ 64 := fits
      show fifoWords rest ≤ 64
      omega
    exact taken.trans (bounds_judgeItem item _)

theorem bounds_drainWaiting (s : State) : Bounds s (drainWaiting s) :=
  .foldl (fun t _ => drainOne t) (fun t _ => bounds_drainOne t) _ s

/-! ### Engines and compares -/

/-- The end of a loop, and the steps back to its start, keep a loop count without a start at 0 (R145, R151). -/
theorem engineLoop_closed (x : Engine) (closed : x.loopStart = none → x.loopCount = 0) :
    (engineLoop x).loopStart = none → (engineLoop x).loopCount = 0 := by
  unfold engineLoop
  cases start : x.loopStart with
  | none => exact fun _ => closed start
  | some a =>
    dsimp only
    split
    · exact nofun
    · exact fun _ => Nat.eq_zero_of_not_pos ‹_›

theorem engineHold_loop (n : BitVec 16) (x : Engine) :
    (engineHold n x).loopStart = x.loopStart ∧ (engineHold n x).loopCount = x.loopCount := by
  unfold engineHold; split <;> exact ⟨rfl, rfl⟩

theorem bounds_takeEntry (e : Fin 4) (s : State) : Bounds s (takeEntry e s) := by
  have advanced : Bounds s (updEngine e advance s) := bounds_updEngine e _ s id
  unfold takeEntry
  split
  · exact advanced.trans (bounds_offerEmit _ _)
  · next n _ =>
    obtain ⟨start, count⟩ := engineHold_loop n s.engines[e]
    exact bounds_updEngine e _ s (by rw [start, count]; exact id)
  · exact bounds_updEngine e _ s fun _ => nofun
  · exact bounds_updEngine e _ s (engineLoop_closed _)
  · exact (bounds_raise _ _ _ _).after advanced
  · exact bounds_updEngine e _ s id
  · exact (bounds_raise _ _ _ _).after (bounds_updEngine e _ s id)

theorem bounds_engineTick (e : Fin 4) (s : State) : Bounds s (engineTick e s) := by
  unfold engineTick
  split
  · exact bounds_takeEntry e s
  · exact (bounds_updEngine e (fun x => { x with run := .run }) s id).trans (bounds_takeEntry e _)
  · exact .refl s
  · exact .refl s

theorem bounds_endHold (e : Fin 4) (s : State) : Bounds s (endHold e s) :=
  bounds_updEngine e _ s (by split <;> exact id)

theorem bounds_tickEngine (s : State) (e : Fin 4) : Bounds s (tickEngine s e) := by
  have counted : Bounds s (updEngine e countHold s) :=
    bounds_updEngine e _ s (by unfold countHold; split <;> exact id)
  unfold tickEngine
  dsimp only
  split
  · exact .refl s
  · exact bounds_mark _ s
  · exact bounds_markIf _ _ s
  · exact counted.trans (bounds_markIf _ _ _)

theorem bounds_slotWork (s : State) : Bounds s (slotWork s) :=
  ((bounds_occur _ _ _ s).trans (.foldl tickCompare (fun t _ => bounds_markIf _ _ t) _ _)).trans
    (.foldl tickEngine bounds_tickEngine _ _)

theorem bounds_takeCompare (k : Fin 4) (s : State) : Bounds s (takeCompare k s) := by
  have start (e : Fin 4) (t : State) : Bounds t (deliverStart e t) :=
    .ite (fun _ => (bounds_updEngine e (fun x => { x with hold := 0, prescaleCount := 0, run := .run, resume := .run })
      t id).trans (bounds_mark _ _)) fun _ => .refl t
  have fired : Bounds s (raise .compareFired (some k.val) (lateness s.timebase s.compares[k])
      (updCompare k (fun x => { x with state := .fired }) s)) := (bounds_raise _ _ _ _).of_same rfl
  refine .ite (fun _ => ?_) fun _ => .refl s
  unfold fireCompare
  dsimp only
  split
  · exact fired
  · exact fired.trans (start _ _)

/-! ### Subscriptions and the roster -/

theorem bounds_becomeStale (j : Fin 32) (c : Nat) (s : State) : Bounds s (becomeStale j c s) :=
  (bounds_raise _ _ _ _).after (bounds_updSub j _ s)

theorem bounds_changeReport (a : Nat) (s : State) : Bounds s (changeReport a s) := by
  refine .foldl (rejudge a) (fun t j => ?_) _ s
  refine .ite (fun _ => ?_) fun _ => .refl t
  split
  · exact .ite (fun _ => bounds_becomeStale j 2 t) fun _ => .ite (fun _ => .refl t) fun _ => bounds_becomeStale j 3 t
  · exact .refl t

theorem bounds_liveTest (j : Fin 32) (s : State) : Bounds s (liveTest j s) :=
  .ite (fun _ => (bounds_raise _ _ _ _).of_same rfl) fun _ => .refl s

theorem bounds_noteOverrun (j : Fin 32) (s : State) : Bounds s (noteOverrun j s) :=
  .ite (fun _ => .same rfl) fun _ => (bounds_raise _ _ _ _).of_same rfl

theorem bounds_appendBlock (m : BurstEnd) (j : Fin 32) (b : BlockBurst) (missed : Nat) (late : Bool) (s : State) :
    Bounds s (appendBlock m j b missed late s) :=
  .ite (fun _ => (bounds_raise _ _ _ _).after ((bounds_updSub j _ _).after (bounds_writeBytes _ _ s))) fun _ =>
    (bounds_updSub j _ _).after (bounds_writeBytes _ _ s)

theorem bounds_occurIf (c : Bool) (k : OccKind) (x : Subject) (n : Nat) (s : State) : Bounds s (occurIf c k x n s) :=
  .ite (fun _ => bounds_occur k x n s) fun _ => .refl s

theorem bounds_acceptBlock (m : BurstEnd) (j : Fin 32) (b : BlockBurst) (s : State) : Bounds s (acceptBlock m j b s) := by
  have overrun (c : Bool) (t : State) : Bounds t (if c = true then noteOverrun j t else t) :=
    .ite (fun _ => bounds_noteOverrun j t) fun _ => .refl t
  unfold acceptBlock
  dsimp only
  refine (bounds_occurIf _ _ _ _ _).after ((bounds_occurIf _ _ _ _ _).after ((bounds_occurIf _ _ _ _ _).after
    ((bounds_occurIf _ _ _ _ _).after ((bounds_occur _ _ _ _).after ?_))))
  refine (bounds_liveTest j _).after ((bounds_updSub j _ _).after ?_)
  refine .after (.ite (fun _ => ?_) fun _ => bounds_appendBlock _ _ _ _ _ _)
    ((overrun _ _).after ((overrun _ _).after (bounds_updSub j _ s)))
  cases s.subs[j].mode with
  | keepOldest => exact .refl _
  | keepNewest => exact (bounds_appendBlock _ _ _ _ _ _).after (bounds_updSub j _ _)

theorem bounds_blockArrives (m : BurstEnd) (b : BlockBurst) (s : State) : Bounds s (blockArrives m b s) := by
  have duplicate (j : Fin 32) (t : State) : Bounds t (duplicateBlock j t) :=
    (bounds_occur _ _ _ _).after ((bounds_liveTest j _).after (bounds_updSub j _ t))
  unfold blockArrives
  split
  · exact .refl s
  · exact .ite (fun _ => (duplicate _ _).after (bounds_updSub _ _ s)) fun _ =>
      (bounds_acceptBlock m _ b _).after (bounds_updSub _ _ s)

theorem bounds_takeStale (j : Fin 32) (s : State) : Bounds s (takeStale j s) :=
  .ite (fun _ => bounds_becomeStale j 1 s) fun _ => .refl s

theorem bounds_takePullDeadline (j : Fin 32) (s : State) : Bounds s (takePullDeadline j s) := by
  refine .ite (fun _ => ?_) fun _ => .refl s
  split
  · exact .ite (fun _ => (bounds_updSub j _ _).after (bounds_enqueue _ s)) fun _ =>
      (bounds_raise _ _ _ _).after (bounds_updSub j _ s)
  · exact .refl s

theorem bounds_takePresence (p : Presence) (s : State) : Bounds s (takePresence p s) := by
  have incarnation (t : State) : Bounds t (newIncarnation p.sender t) := by
    unfold newIncarnation
    generalize updAll t.subs _ = subs
    exact .same rfl
  have incarnate (c : Bool) (t : State) : Bounds t (if c = true then newIncarnation p.sender t else t) :=
    .ite (fun _ => incarnation t) fun _ => .refl t
  have silent (c : Bool) (t : State) : Bounds t (if c = true then raise .peerHostSilent (some p.sender) 0 t else t) :=
    .ite (fun _ => bounds_raise _ _ _ t) fun _ => .refl t
  have new (before : PeerState) (t : State) : Bounds t (raisePeerNew p.sender before t) := by
    cases before with
    | seen => exact .refl t
    | present => exact .refl t
    | _ => exact bounds_raise _ _ _ t
  have appear (c : Bool) (before : PeerState) (t : State) : Bounds t (if c = true then
      raise .peerFresh (some p.sender) (BitVec.ofNat 16 before.code) t else raisePeerNew p.sender before t) :=
    .ite (fun _ => bounds_raise _ _ _ t) fun _ => new before t
  unfold takePresence
  split
  · exact .refl s
  · exact (bounds_changeReport _ _).after ((incarnate _ _).after ((silent _ _).after ((appear _ _ _).after
      (bounds_updPeer _ _ s))))

/-- An entry changed, an event, and the change report (R97). -/
theorem bounds_reported (i : Fin 24) (f : RosterEntry → RosterEntry) (k : EventKind) (d : BitVec 16) (a : Nat) (s : State) :
    Bounds s (changeReport a (raise k (some a) d (updPeer i f s))) :=
  (bounds_changeReport _ _).after ((bounds_raise _ _ _ _).after (bounds_updPeer i f s))

theorem bounds_takeRetire (sender succ : Nat) (s : State) : Bounds s (takeRetire sender succ s) := by
  unfold takeRetire
  split
  · exact .refl s
  · split
    · exact .refl s
    · exact .same rfl
    · exact bounds_reported _ _ _ _ _ s
    · exact bounds_reported _ _ _ _ _ s
    · exact bounds_reported _ _ _ _ _ s

theorem bounds_checkPeer (s : State) (i : Fin 24) : Bounds s (checkPeer s i) := by
  have missed : Bounds s (updPeer i (fun e => { e with missed := e.missed + 1 }) s) := .same rfl
  refine .ite (fun _ => .refl s) fun _ => .ite (fun _ => .same rfl) fun _ => ?_
  split
  · exact .ite (fun _ => (bounds_changeReport _ _).after ((bounds_updPeer i _ _).after missed)) fun _ => missed
  · exact .ite (fun _ => (bounds_reported _ _ _ _ _ _).after missed) fun _ => missed
  · exact .ite (fun _ => (bounds_reported _ _ _ _ _ _).after missed) fun _ => missed
  · exact .ite (fun _ => (bounds_reported _ _ _ _ _ _).after missed) fun _ => missed
  · exact missed

theorem bounds_losePeer (s : State) (i : Fin 24) : Bounds s (losePeer s i) := by
  unfold losePeer
  split
  · exact .refl s
  · exact .same rfl
  · exact bounds_reported _ _ _ _ _ s
  · exact bounds_reported _ _ _ _ _ s
  · exact bounds_reported _ _ _ _ _ s

theorem bounds_intervalCheck (s : State) : Bounds s (intervalCheck s) := .foldl checkPeer bounds_checkPeer _ s

theorem bounds_cableLost (s : State) : Bounds s (cableLost s) := .foldl losePeer bounds_losePeer _ s

/-! ### The timebase unit and the source selector -/

theorem bounds_phaseStep (e : Int) (s : State) : Bounds s (phaseStep e s) := by
  rw [phaseStep_parts]
  exact .same rfl

/-- A marker that steps rack time: the step, PHASE_STEP, the timebase state entered, the occurrence (R10, R24, R185). -/
theorem bounds_steppedMarker (source : Nat) (e : Int) (new : TimebaseState) (f : Timebase → Timebase) (s : State) :
    Bounds s (countPhaseStep source (enterTimebase new f (raisePhaseStep source e (phaseStep e s)))) :=
  (bounds_occur _ _ _ _).after ((bounds_enterTimebase _ _ _).after ((bounds_raise _ _ _ _).after (bounds_phaseStep e s)))

theorem bounds_lockCheck (source : Nat) (e : Int) (s : State) : Bounds s (lockCheck source e s) := by
  unfold lockCheck
  dsimp only
  split
  · exact (bounds_markIf _ _ _).after (bounds_updTimebase _ s)
  · exact .ite (fun _ => .refl s) fun _ => (bounds_enterTimebase _ _ _).after (bounds_raise _ _ _ s)
  all_goals exact .refl s

theorem bounds_takeMarker (m : MarkerFields) (capture : Nat) (s : State) : Bounds s (takeMarker m capture s) := by
  have acquire (e : Int) (t : State) : Bounds t (markerInAcquire e t) :=
    (bounds_markIf _ _ _).after ((bounds_updTimebase _ _).after ((bounds_phaseStep _ _).after (bounds_updTimebase _ t)))
  have track (e : Int) (t : State) : Bounds t (markerInTrack m.source e t) :=
    .ite (fun _ => bounds_steppedMarker _ _ _ _ t) fun _ => (bounds_lockCheck _ _ _).after (bounds_updTimebase _ t)
  have holdover (e : Int) (t : State) : Bounds t (markerInHoldover m.source e t) :=
    .ite (fun _ => bounds_steppedMarker _ _ _ _ t) fun _ => bounds_enterTimebase _ _ t
  unfold takeMarker
  dsimp only
  split
  · exact (bounds_steppedMarker _ _ _ _ _).of_same rfl
  · exact (acquire _ _).of_same rfl
  · exact (track _ _).of_same rfl
  · exact (track _ _).of_same rfl
  · exact (holdover _ _).of_same rfl
  · exact .refl s

theorem bounds_markerComplete (word : BitVec 64) (s : State) : Bounds s (markerComplete word s) := by
  unfold markerComplete
  split
  · exact .refl s
  · refine .ite (fun _ => .same rfl) fun _ => ?_
    split
    · exact bounds_takeMarker _ _ s
    · exact .same rfl

theorem bounds_captureEdge (s : State) : Bounds s (captureEdge s) := .ite (fun _ => .same rfl) fun _ => .refl s

theorem bounds_completeAcquisition (s : State) : Bounds s (completeAcquisition s) :=
  .ite (fun _ => bounds_enterTimebase _ _ s) fun _ => .refl s

theorem bounds_achieveLock (s : State) : Bounds s (achieveLock s) :=
  .ite (fun _ => bounds_enterTimebase _ _ s) fun _ => .refl s

theorem bounds_abandonAcquisition (s : State) : Bounds s (abandonAcquisition s) :=
  .ite (fun _ => bounds_enterTimebase _ _ s) fun _ => .refl s

theorem bounds_holdOver (s : State) : Bounds s (holdOver s) :=
  .ite (fun _ => bounds_enterTimebase _ _ s) fun _ => .refl s

theorem bounds_endWindow (s : State) : Bounds s (endWindow s) := by
  have missed : Bounds s (missWindow s) :=
    (bounds_occur _ _ _ _).after ((bounds_markIf _ _ _).after ((bounds_markIf _ _ _).after (bounds_updTimebase _ s)))
  unfold endWindow
  refine (bounds_updTimebase _ _).after ?_
  exact .ite (fun _ => bounds_updTimebase _ s) fun _ => .ite (fun _ => .refl s) fun _ => missed

theorem bounds_sourceToHoldover (s : State) : Bounds s (sourceToHoldover s) := bounds_enterTimebase _ _ s

theorem bounds_searchBetter (n : Nat) (s : State) : Bounds s (searchBetter n s) := by
  unfold searchBetter
  split
  · exact .ite (fun _ => (bounds_raise _ _ _ _).of_same rfl) fun _ => .refl s
  · exact .refl s

theorem bounds_searchAny (epoch : Nat) (s : State) : Bounds s (searchAny epoch s) := by
  unfold searchAny
  split
  · exact (bounds_raise _ _ _ _).of_same rfl
  · exact .same rfl

theorem bounds_recheckTarget (h : Handover) (s : State) : Bounds s (recheckTarget h s) := by
  unfold recheckTarget
  split
  · exact bounds_failHandover _ s
  · exact .refl s

theorem bounds_expireClaim (s : State) : Bounds s (expireClaim s) :=
  .ite (fun _ => (bounds_enterTimebase _ _ _).after (bounds_updSelector _ s)) fun _ => .refl s

theorem bounds_takeOver (s : State) : Bounds s (takeOver s) :=
  .ite (fun _ => .ite (fun _ => (bounds_updSelector _ _).after (bounds_enterTimebase _ _ s)) fun _ =>
    bounds_updTimebase _ s) fun _ => .refl s

/-! ### The station controller -/

theorem bounds_cutBurst (s : State) : Bounds s (cutBurst s) := by
  have cut : Bounds s (enterGuard (updCable (fun c => { c with claim := none, flight := none }) (endBinding false s))) :=
    (bounds_updCable _ _).after ((bounds_updCable _ _).after (bounds_endBinding false s))
  unfold cutBurst
  split
  · exact cut
  · exact cut
  · exact cut
  all_goals exact .refl s

theorem bounds_receiverOff (s : State) : Bounds s (receiverOff s) := by
  unfold receiverOff
  split
  · exact (bounds_enterTimebase _ _ _).after ((bounds_updSelector _ _).after (bounds_failHandover 5 s))
  all_goals exact bounds_enterTimebase _ _ s

theorem bounds_zeroScore (s : State) : Bounds s (zeroScore s) :=
  .ite (fun _ => (bounds_raise _ _ _ _).of_same rfl) fun _ => .same rfl

theorem bounds_entryEffects (old new : StationState) (s : State) : Bounds s (entryEffects old new s) := by
  cases new with
  | offline => exact bounds_zeroScore s
  | isolated =>
    have lost : Bounds s (cableLost (updStation (fun x => { x with listen := 0, recovery := 0 }) (zeroScore s))) :=
      (bounds_cableLost _).after ((bounds_updStation _ _).after (bounds_zeroScore s))
    cases old with
    | listen => exact lost
    | joined => exact lost
    | silenced => exact lost
    | _ => exact bounds_zeroScore s
  | settling => exact .same rfl
  | listen => exact .ite (fun _ => (bounds_zeroScore _).after (bounds_updStation _ s)) fun _ => bounds_updStation _ s
  | joined => exact .refl s
  | retiring => exact .refl s
  | detached => exact (bounds_zeroScore s).trans (.same rfl)
  | duplicate => exact (bounds_zeroScore s).trans (.same rfl)
  | silenced => exact .same rfl

/-- A change of station state (R65). -/
theorem bounds_changeStation (new : StationState) (cause : Nat) (s : State) : Bounds s (changeStation new cause s) := by
  have leaves (t : State) : Bounds t (leaveDrivers t) := (bounds_cutBurst t).trans (.same rfl)
  have departs : Bounds s (departed new cause s) := by
    have told : Bounds s (announceStation new cause s) := (bounds_raise _ _ _ _).after (bounds_updStation _ s)
    have left : Bounds s (if driversOn s.station.state && !driversOn new then leaveDrivers (announceStation new cause s)
        else announceStation new cause s) := .ite (fun _ => (leaves _).after told) fun _ => told
    exact .ite (fun _ => (bounds_updSelector _ _).after left) fun _ => left
  have receivers (t : State) : Bounds t (followReceivers s.station.state new t) :=
    .ite (fun _ => (bounds_updCable _ _).after (bounds_receiverOff t)) fun _ => .ite (fun _ => .same rfl) fun _ => .refl t
  have role (t : State) : Bounds t (loseRole t) :=
    .ite (fun _ => (bounds_sourceToHoldover _).after ((bounds_updSelector _ _).after (bounds_failHandover 5 t)))
      fun _ => .refl t
  have follows (t : State) : Bounds t (followed s.station.state new t) :=
    .ite (fun _ => (role _).after (receivers t)) fun _ => receivers t
  rw [changeStation_parts]
  exact (bounds_entryEffects _ _ _).after ((follows _).after departs)

theorem bounds_setFresh (s : State) : Bounds s (setFresh s) := (bounds_enqueue _ _).after (bounds_updStation _ s)

theorem bounds_checkRetired (s : State) : Bounds s (checkRetired s) :=
  .ite (fun _ => bounds_changeStation _ _ s) fun _ => .refl s

theorem bounds_raiseScore (amount : Nat) (s : State) : Bounds s (raiseScore amount s) := by
  unfold raiseScore
  split
  · exact .refl s
  · have scored (c : Bool) (f : Station → Station) (d : BitVec 16) :
        Bounds s (if c = true then raise .cautionOn none d (updStation f s) else updStation f s) :=
      .ite (fun _ => (bounds_raise _ _ _ _).of_same rfl) fun _ => .same rfl
    exact .ite (fun _ => (bounds_changeStation _ _ _).after (scored _ _ _)) fun _ => scored _ _ _

theorem bounds_lowerScore (s : State) : Bounds s (lowerScore s) :=
  .ite (fun _ => (bounds_raise _ _ _ _).of_same rfl) fun _ => .same rfl

theorem bounds_rejoin (s : State) : Bounds s (rejoin s) := by
  have selector (t : State) : Bounds t (selectorRejoin t) := (bounds_updSelector _ _).after (bounds_failHandover 6 t)
  have withdrawn (k : EntryKind) (t : State) : Bounds t (removeEntry k t) := .same rfl
  have back := (withdrawn .retire _).after ((bounds_updStation (fun x => { x with retireTimer := 0, retireSent := false })
    _).after ((selector _).after (bounds_changeStation .joined 1 s)))
  exact .ite (fun _ => (bounds_setFresh _).after back) fun _ => back

theorem bounds_joinRack (s : State) : Bounds s (joinRack s) :=
  .ite (fun _ => bounds_changeStation _ _ s) fun _ => bounds_changeStation _ _ s

theorem bounds_beginRetirement (s : State) : Bounds s (beginRetirement s) := by
  have search (t : State) : Bounds t (retiringSearch t) := .ite (fun _ => bounds_searchAny _ t) fun _ => .refl t
  have purged (t : State) : Bounds t (purgeData t) := .same rfl
  exact (bounds_checkRetired _).after ((search _).after ((bounds_updStation _ _).after ((bounds_enqueue _ _).after
    ((purged _).after (bounds_changeStation _ _ s)))))

/-- RESTART empties the FIFO and the event queue, and its engines have no loop (R85, R104, R145, R204). -/
theorem bounds_restart (s : State) : Bounds s (restart s) := by
  have cable (t : State) : Bounds t (restartCable t) := .same rfl
  have roster (t : State) : Bounds t (restartRoster t) := .same rfl
  have publications (t : State) : Bounds t (restartPublications t) :=
    ⟨id, id, fun _ => Nat.zero_le (64 : Nat), id, id⟩
  have subscriptions (t : State) : Bounds t (restartSubscriptions t) := .same rfl
  have units (t : State) : Bounds t (restartUnits t) := by
    refine ⟨id, id, id, id, fun _ e => ?_⟩
    show (Vector.replicate 4 Engine.reset)[e].loopStart = none → (Vector.replicate 4 Engine.reset)[e].loopCount = 0
    simp [Engine.reset]
  have events (t : State) : Bounds t (emptyEvents t) := .port _ (fun _ => Nat.zero_le 32) id
  unfold restart
  refine (events _).after ((bounds_updMonitor _ _).after ((units _).after ((subscriptions _).after
    ((publications _).after ((roster _).after ((cable _).after ((bounds_updStation _ _).after ?_)))))))
  exact (bounds_changeStation _ _ _).after ((bounds_updSelector _ _).after (bounds_failHandover 5 s))

theorem bounds_completeListen (s : State) : Bounds s (completeListen s) :=
  .ite (fun _ => (bounds_setFresh _).after ((bounds_updStation _ _).after (bounds_changeStation _ _ s))) fun _ => .refl s

theorem bounds_timeOutRetire (s : State) : Bounds s (timeOutRetire s) :=
  .ite (fun _ => bounds_changeStation _ _ s) fun _ => .refl s

theorem bounds_lapseService (s : State) : Bounds s (lapseService s) :=
  .ite (fun _ => (bounds_raise _ _ _ _).of_same rfl) fun _ => .refl s

theorem bounds_completeSettle (s : State) : Bounds s (completeSettle s) :=
  .ite (fun _ => bounds_changeStation _ _ s) fun _ => .refl s

theorem bounds_completeRecovery (s : State) : Bounds s (completeRecovery s) :=
  .ite (fun _ => bounds_changeStation _ _ s) fun _ => .refl s

theorem bounds_expireHoldOff (s : State) : Bounds s (expireHoldOff s) := .ite (fun _ => .same rfl) fun _ => .refl s

theorem bounds_endMarkerWord (s : State) : Bounds s (endMarkerWord s) := by
  unfold endMarkerWord
  split
  · exact .same rfl
  · exact .refl s

theorem bounds_countRetire (s : State) : Bounds s (countRetire s) :=
  .ite (fun _ => (bounds_markIf _ _ _).after (bounds_updStation _ s)) fun _ => .refl s

theorem bounds_completeHandover (s : State) : Bounds s (completeHandover s) := by
  have track (t : State) : Bounds t (sourceToTrack t) := (bounds_enterTimebase _ _ _).of_same rfl
  have left : Bounds s (leaveSource s) := by
    unfold leaveSource
    split
    · exact .ite (fun _ => (bounds_checkRetired _).after (track s)) fun _ => .refl s
    · exact .refl s
  exact left.trans (bounds_countRetire _)

theorem bounds_clash (cause : ClashCause) (s : State) : Bounds s (clash cause s) :=
  .ite (fun _ => (bounds_checkRetired _).after ((bounds_sourceToHoldover _).after ((bounds_updSelector _ _).after
    ((bounds_updSelector _ _).after ((bounds_failHandover 4 _).after (bounds_raise _ _ _ s)))))) fun _ => .refl s

theorem bounds_faultStation (kind : EntryKind) (s : State) : Bounds s (faultStation kind s) :=
  .ite (fun _ => .ite (fun _ => (bounds_changeStation _ _ _).after (bounds_updStation _ s)) fun _ =>
    (bounds_raiseScore 8 _).after (bounds_updStation _ s)) fun _ => bounds_raiseScore 8 s

theorem bounds_riseSense (s : State) : Bounds s (riseSense s) := by
  refine .ite (fun _ => .refl s) fun _ => ?_
  split
  · exact (bounds_changeStation _ _ _).of_same rfl
  all_goals exact .same rfl

theorem bounds_dropSense (s : State) : Bounds s (dropSense s) := by
  refine .ite (fun _ => ?_) fun _ => .refl s
  split
  · exact .same rfl
  · exact (bounds_changeStation _ _ _).of_same rfl
  · exact (bounds_changeStation _ _ _).of_same rfl
  · exact (bounds_changeStation _ _ _).of_same rfl
  · exact (bounds_changeStation _ _ _).of_same rfl
  all_goals exact .same rfl

end Sys2Proof.Machine
end

section
/-! PROOF. Every step keeps the memories canonical, and the event queue, the FIFO, the held requests and the loops in their
bounds. -/

namespace Sys2Proof.Machine
open Sys2Proof.Claims

/-! ### Received bursts, and the interface's own claims and bursts -/

theorem bounds_ownAddressSeen (s : State) : Bounds s (ownAddressSeen s) := by
  have change := bounds_changeStation .duplicate 6 s
  unfold ownAddressSeen
  split
  · exact change
  · exact change
  · exact change
  · exact change
  all_goals exact .refl s

theorem bounds_handOver (m : BurstEnd) (b : Burst) (s : State) : Bounds s (handOver m b s) := by
  cases b with
  | presence p => exact .ite (fun _ => bounds_ownAddressSeen s) fun _ => bounds_takePresence p s
  | retire a succ => exact .ite (fun _ => .refl s) fun _ => bounds_takeRetire a succ s
  | pull a pub k => exact .ite (fun _ => bounds_pullArrives k s) fun _ => .refl s
  | block x => exact .ite (fun _ => .refl s) fun _ => bounds_blockArrives m x s

theorem bounds_deliver (m : BurstEnd) (b : Burst) (s : State) : Bounds s (deliver m b s) := by
  have clean (t : State) : Bounds t (cleanBurst t) :=
    .ite (fun _ => (bounds_markIf _ _ _).after (bounds_updStation _ t)) fun _ => .refl t
  exact (bounds_occur _ _ _ _).after ((clean _).after (bounds_handOver m b s))

theorem bounds_handWaiting (s : State) : Bounds s (handWaiting s) := by
  have free : Bounds s (updCable freeWaiting s) := bounds_updCable _ s
  unfold handWaiting
  split
  · dsimp only
    split
    · exact (bounds_deliver _ _ _).after free
    · exact free
  · exact .refl s

theorem bounds_endReception (s : State) : Bounds s (endReception s) := .same rfl

theorem bounds_takeFailed (s : State) : Bounds s (takeFailed s) :=
  (bounds_occur _ _ _ _).after ((bounds_raiseScore 1 _).after ((bounds_updStation _ _).after (bounds_endReception s)))

theorem bounds_endBurst (bytes : List Byte) (waits : Bool) (s : State) : Bounds s (endBurst bytes waits s) := by
  refine .ite (fun _ => ?_) fun _ => .refl s
  split
  · exact .ite (fun _ => .same rfl) fun _ => (bounds_deliver _ _ _).of_same rfl
  · exact bounds_takeFailed s

theorem bounds_takeLate (bytes : List Byte) (s : State) : Bounds s (takeLate bytes s) := by
  unfold takeLate
  split
  · exact .ite (fun _ => bounds_handWaiting s) fun _ => .refl s
  · exact .refl s

theorem bounds_startClaim (s : State) : Bounds s (startClaim s) := by
  unfold startClaim
  split
  · exact .same rfl
  · exact .refl s

theorem bounds_loseClaim (bit : Fin 9) (s : State) : Bounds s (loseClaim bit s) := by
  have lost (f : Cable → Cable) (x : Subject) : Bounds s (occur .claimLost x 1 (updCable f s)) :=
    (bounds_occur _ _ _ _).after (bounds_updCable f s)
  unfold loseClaim
  split
  · refine .ite (fun _ => ?_) fun _ => .refl s
    split
    · exact lost _ _
    · exact (bounds_handWaiting _).after (lost _ _)
  · exact .refl s

theorem bounds_startBurst (s : State) : Bounds s (startBurst s) := by
  unfold startBurst
  split
  · refine .ite (fun _ => .ite (fun _ => .same rfl) fun _ => ?_) fun _ => .refl s
    split
    · exact .same rfl
    · exact .same rfl
  · exact .refl s

theorem bounds_reportSent (f : Flight) (s : State) : Bounds s (reportSent f s) := by
  have retire : Bounds s (retireReported s) := by
    unfold retireReported
    split
    · exact (bounds_checkRetired _).after (bounds_updStation _ s)
    · exact bounds_setFresh s
    · exact .refl s
  unfold reportSent
  split
  · exact .same rfl
  · exact retire
  · exact .refl s
  · exact bounds_endBinding true s

theorem bounds_finishBurst (s : State) : Bounds s (finishBurst s) := by
  have dropped (f : Flight) (t : State) : Bounds t (dropSent f t) := .ite (fun _ => .refl t) fun _ => .same rfl
  unfold finishBurst
  split
  · exact .ite (fun _ => (bounds_reportSent _ _).after ((bounds_occur _ _ _ _).after ((bounds_lowerScore _).after
      ((dropped _ _).of_same rfl)))) fun _ => .refl s
  · exact .refl s

theorem bounds_transmitFault (s : State) : Bounds s (transmitFault s) := by
  unfold transmitFault
  split
  · exact (bounds_occur _ _ _ _).after ((bounds_faultStation _ _).after ((bounds_endBinding false _).after
      (bounds_updCable _ s)))
  · exact .refl s

/-! ### The epoch boundary, and the steps that fall due -/

theorem bounds_sourceChecks (n : Nat) (s : State) : Bounds s (sourceChecks n s) := by
  unfold sourceChecks
  split
  · exact .ite (fun _ => bounds_mark _ s) fun _ => bounds_recheckTarget _ s
  · split
    · exact .ite (fun _ => bounds_searchBetter n s) fun _ => .refl s
    · exact .ite (fun _ => .refl s) fun _ => (bounds_checkRetired _).after (bounds_searchAny _ s)
    · exact .refl s

theorem bounds_claimTest (s : State) : Bounds s (claimTest s) := by
  refine .ite (fun _ => ?_) fun _ => .same rfl
  split
  · exact .same rfl
  · exact (bounds_markIf _ _ _).after (bounds_updSelector _ s)

theorem bounds_selectorBoundary (n : Nat) (s : State) : Bounds s (selectorBoundary n s) := by
  have marker (t : State) : Bounds t (sourceMarker n t) := .ite (fun _ => .same rfl) fun _ => .refl t
  have source : Bounds s (if s.timebase.state = .source then sourceMarker n (sourceChecks n s) else s) :=
    .ite (fun _ => (marker _).after (bounds_sourceChecks n s)) fun _ => .refl s
  exact (bounds_markIf _ _ _).after ((bounds_claimTest _).after source)

theorem bounds_controllerBoundary (n : Nat) (s : State) : Bounds s (controllerBoundary n s) := by
  have listen : Bounds s (countListen s) :=
    .ite (fun _ => (bounds_markIf _ _ _).after (bounds_updStation _ s)) fun _ => .refl s
  have presence (t : State) : Bounds t (schedulePresence t) := .ite (fun _ => bounds_enqueue _ t) fun _ => .refl t
  have service (t : State) : Bounds t (serviceCheck t) :=
    .ite (fun _ => (bounds_markIf _ _ _).after (bounds_updStation _ t)) fun _ => .refl t
  exact .ite (fun _ => (service _).after ((presence _).after listen)) fun _ => listen

theorem bounds_markWhere {α : Type} (units : List α) (c : State → α → Bool) (d : α → Due) (s : State) :
    Bounds s (markWhere units c d s) := .foldl _ (fun t _ => bounds_markIf _ _ t) units s

theorem bounds_boundaryWork (first : Bool) (s : State) : Bounds s (boundaryWork first s) := by
  have roster (n : Nat) (t : State) : Bounds t (rosterBoundary n t) :=
    .ite (fun _ => bounds_intervalCheck t) fun _ => .refl t
  have both (n : Nat) (t : State) : Bounds t
      (if first then selectorBoundary n (rosterBoundary n t) else rosterBoundary n (selectorBoundary n t)) :=
    .ite (fun _ => (bounds_selectorBoundary n _).after (roster n t)) fun _ =>
      (roster n _).after (bounds_selectorBoundary n t)
  have retire (t : State) : Bounds t (retireBoundary t) := .ite (fun _ => .refl t) fun _ => bounds_countRetire t
  exact (bounds_markWhere _ _ _ _).after ((bounds_markWhere _ _ _ _).after ((bounds_markWhere _ _ _ _).after
    ((retire _).after ((both _ _).after (bounds_controllerBoundary _ s)))))

theorem bounds_drawFree (s : State) : Bounds s (drawFree s).2 := .same rfl

theorem bounds_freeBoundaryWork (s : State) : Bounds s (freeBoundaryWork s) :=
  .ite (fun _ => (bounds_boundaryWork _ _).after (bounds_drawFree s)) fun _ => bounds_boundaryWork _ s

theorem bounds_perform (d : Due) (s : State) : Bounds s (perform d s) := by
  cases d with
  | settleComplete => exact bounds_completeSettle s
  | markerWordSent => exact bounds_endMarkerWord s
  | holdOffExpiry => exact bounds_expireHoldOff s
  | generatorWrap g => exact bounds_updGen g _ s
  | highTimeEnd g => exact bounds_updGen g _ s
  | markerWindowEnd => exact bounds_endWindow s
  | acquisitionAbandoned => exact bounds_abandonAcquisition s
  | timebaseHoldover => exact bounds_holdOver s
  | acquisitionComplete => exact bounds_completeAcquisition s
  | lockAchieved => exact bounds_achieveLock s
  | recoveryComplete => exact bounds_completeRecovery s
  | slotTick => exact bounds_slotWork s
  | compareFired k => exact bounds_takeCompare k s
  | engine e => exact bounds_engineTick e s
  | holdEnd e => exact bounds_endHold e s
  | epochBoundary => exact bounds_freeBoundaryWork s
  | handoverComplete => exact bounds_completeHandover s
  | handoverTakeover => exact bounds_takeOver s
  | claimExpiry => exact bounds_expireClaim s
  | listenComplete => exact bounds_completeListen s
  | retireTimeout => exact bounds_timeOutRetire s
  | serviceLapsed => exact bounds_lapseService s
  | staleTimeout j => exact bounds_takeStale j s
  | pullDeadline j => exact bounds_takePullDeadline j s
  | generatorStart g => exact bounds_updGen g _ s

theorem bounds_takeDueBy (d : Due) (act : State → State) (keeps : ∀ t, Bounds t (act t)) (s : State) :
    Bounds s (takeDueBy d act s) := .ite (fun _ => (keeps _).of_same rfl) fun _ => .refl s

theorem bounds_takeDue (d : Due) (s : State) : Bounds s (takeDue d s) := bounds_takeDueBy d _ (bounds_perform d) s

theorem bounds_takeInOrder (ds : List Due) (s : State) : Bounds s (takeInOrder ds s) :=
  .foldl _ (fun t d => bounds_takeDue d t) ds s

theorem bounds_takeFreely (ds : List Due) (s : State) : Bounds s (takeFreely ds s) :=
  .ite (fun _ => bounds_takeInOrder _ s) fun _ => (bounds_takeInOrder _ _).after (bounds_drawFree s)

theorem bounds_takeSlotTick (s : State) : Bounds s (takeSlotTick s) :=
  (bounds_takeFreely _ _).after ((bounds_takeFreely _ _).after (bounds_takeDue _ s))

theorem bounds_takeEpochBoundary (steps : List Due) (s : State) : Bounds s (takeEpochBoundary steps s) :=
  (bounds_takeInOrder _ _).after (bounds_takeDue _ s)

theorem bounds_settleBy (steps : List Due) (s : State) : Bounds s (settleBy steps s) := by
  unfold settleBy
  dsimp only
  refine .after (.ite (fun _ => .ite (fun _ => ?_) fun _ => ?_) fun _ => ?_) (bounds_takeInOrder clockDues s)
  · exact (bounds_takeEpochBoundary _ _).after ((bounds_takeSlotTick _).after (bounds_drawFree _))
  · exact (bounds_takeSlotTick _).after ((bounds_takeEpochBoundary _ _).after (bounds_drawFree _))
  · exact (bounds_takeEpochBoundary _ _).after (bounds_takeSlotTick _)

theorem bounds_dueTaken (s : State) : Bounds s (dueTaken s) := .ite (fun _ => .refl s) fun _ => bounds_settleBy _ s

/-! ### Requests -/

/-- What a reply leaves stays in bounds. -/
def BoundedReply (s : State) (r : Reply) : Prop := Bounds s (r.effect s)

theorem boundedReply_refused (s : State) (status : Status) : BoundedReply s (.refused status) := .refl s

theorem BoundedReply.ite {s : State} {p : Prop} [Decidable p] {q r : Reply} (a : p → BoundedReply s q)
    (b : ¬ p → BoundedReply s r) : BoundedReply s (if p then q else r) := by
  split
  · exact a ‹_›
  · exact b ‹_›

theorem boundedReply_checked (fits : List Byte → Bool) (act : List Byte → State → Reply) (body : List Byte) (s : State)
    (h : BoundedReply s (act body s)) : BoundedReply s (checked fits act body s) :=
  .ite (fun _ => boundedReply_refused s .range) fun _ => h

theorem boundedReply_withPub (body : List Byte) (s : State) (act : Fin 16 → Reply) (h : ∀ k, BoundedReply s (act k)) :
    BoundedReply s (withPub body s act) := by
  unfold withPub
  split
  · exact boundedReply_refused s .range
  · exact .ite (fun _ => boundedReply_refused s .unused) fun _ => h _

theorem boundedReply_withSub (body : List Byte) (s : State) (act : Fin 32 → Reply) (h : ∀ j, BoundedReply s (act j)) :
    BoundedReply s (withSub body s act) := by
  unfold withSub
  split
  · exact boundedReply_refused s .range
  · exact .ite (fun _ => boundedReply_refused s .unused) fun _ => h _

theorem boundedReply_withGen (body : List Byte) (s : State) (act : Generator → Generator) :
    BoundedReply s (withGen body s act) := by
  unfold withGen
  split
  · exact boundedReply_refused s .range
  · exact bounds_updGen _ act s

/-- A request to an engine that keeps its loop closed (R155 to R159). -/
theorem boundedReply_withEngine (body : List Byte) (s : State) (ok : Bool) (act : Engine → Engine)
    (closed : ∀ x : Engine, (x.loopStart = none → x.loopCount = 0) →
      (act x).loopStart = none → (act x).loopCount = 0) : BoundedReply s (withEngine body s ok act) := by
  unfold withEngine
  split
  · exact boundedReply_refused s .range
  · exact .ite (fun _ => bounds_updEngine _ act s (closed _)) fun _ => boundedReply_refused s .range

theorem boundedReply_join (body : List Byte) (s : State) : BoundedReply s (joinAct body s) := by
  have racks : BoundedReply s (if s.station.startFault then .refused .state else .taken [] (joinRack s)) :=
    .ite (fun _ => boundedReply_refused s .state) fun _ => bounds_joinRack s
  unfold joinAct
  split
  · exact racks
  · exact racks
  · exact bounds_rejoin s
  all_goals exact boundedReply_refused s .state

theorem boundedReply_retire (body : List Byte) (s : State) : BoundedReply s (retireAct body s) := by
  have detaches : BoundedReply s (.taken [] (changeStation .detached 8 s)) := bounds_changeStation .detached 8 s
  unfold retireAct
  split
  · exact bounds_beginRetirement s
  · exact detaches
  · exact detaches
  · exact detaches
  · exact detaches
  · exact detaches
  all_goals exact boundedReply_refused s .state

theorem bounds_unpublishEntry (k : Fin 16) (s : State) : Bounds s (unpublishEntry k s) := .same rfl

theorem boundedReply_publish (body : List Byte) (s : State) : BoundedReply s (publishAct body s) := by
  have published (k : Fin 16) (feed : Feed) (width : Width) (policy : EmitPolicy) :
      Bounds s (publishAt k feed width policy body s) := by
    have free : Bounds s (if s.pubs[k].state = .unused then s else unpublishEntry k s) :=
      .ite (fun _ => .refl s) fun _ => bounds_unpublishEntry k s
    exact (bounds_updPartial _ _ _).after ((bounds_updPub _ _ _).after free)
  unfold publishAct
  split
  · exact .ite (fun _ => boundedReply_refused s .busy) fun _ => published _ _ _ _
  · exact boundedReply_refused s .range

theorem boundedReply_release (body : List Byte) (s : State) : BoundedReply s (releaseAct body s) := by
  refine boundedReply_withPub body s _ fun k => ?_
  have active : Bounds s (updPub k (fun p => { p with state := .active }) s) := bounds_updPub _ _ s
  exact Bounds.ite (fun _ => .ite (fun _ => (bounds_servePull k _).after active) fun _ => active) fun _ => .refl s

theorem boundedReply_fill (body : List Byte) (s : State) : BoundedReply s (fillAct body s) := by
  refine boundedReply_withPub body s _ fun k => ?_
  have opened : Bounds s (openFill k body s) := .ite (fun _ => .refl s) fun _ => bounds_updPub _ _ s
  refine .ite (fun _ => boundedReply_refused s .state) fun _ => .ite (fun _ => boundedReply_refused s .busy) fun _ => ?_
  exact (bounds_updPub _ _ _).after ((bounds_writeBytes _ _ _).after opened)

theorem boundedReply_commit (body : List Byte) (s : State) : BoundedReply s (commitAct body s) := by
  refine boundedReply_withPub body s _ fun k => ?_
  have discarded : Bounds s (discardHigh k s) := .ite (fun _ => .same rfl) fun _ => .refl s
  exact .ite (fun _ => boundedReply_refused s .busy) fun _ => .ite (fun _ => boundedReply_refused s .empty) fun _ =>
    (bounds_askCommit k _).after discarded

theorem boundedReply_subscribe (body : List Byte) (s : State) : BoundedReply s (subscribeAct body s) := by
  unfold subscribeAct
  split
  · split
    · exact boundedReply_refused s .exists_
    · split
      · exact boundedReply_refused s .full
      · exact bounds_updSub _ _ s
  · exact boundedReply_refused s .range

theorem boundedReply_take (body : List Byte) (s : State) : BoundedReply s (takeAct body s) := by
  refine boundedReply_withSub body s _ fun j => ?_
  split
  · exact boundedReply_refused s .empty
  · exact bounds_updSub j _ s

theorem boundedReply_pull (body : List Byte) (s : State) : BoundedReply s (pullAct body s) :=
  boundedReply_withSub body s _ fun j =>
    .ite (fun _ => (bounds_updSub j _ _).after (bounds_enqueue _ s)) fun _ => boundedReply_refused s .state

theorem boundedReply_loadList (body : List Byte) (s : State) : BoundedReply s (loadListAct body s) := by
  refine .ite (fun _ => boundedReply_refused s .range) fun _ => ?_
  split
  · exact boundedReply_refused s .range
  · exact ⟨fun m => ⟨m.1, schedWrite_wf _ _ m.2⟩, id, id, id, id⟩

theorem boundedReply_compareSet (body : List Byte) (s : State) : BoundedReply s (compareSetAct body s) := by
  unfold compareSetAct
  split
  · exact bounds_updCompare _ _ s
  · exact boundedReply_refused s .range

theorem boundedReply_compareCancel (body : List Byte) (s : State) : BoundedReply s (compareCancelAct body s) := by
  unfold compareCancelAct
  split
  · exact boundedReply_refused s .range
  · exact bounds_updCompare _ _ s

theorem bounds_setMark (subject : Subject) (value : Bool) (s : State) : Bounds s (setMark subject value s) := by
  cases subject with
  | none => exact .refl s
  | peer a =>
    unfold setMark
    dsimp only
    split
    · exact bounds_updPeer _ _ s
    · exact .refl s
  | publication k => exact bounds_updPub k _ s
  | subscription j => exact bounds_updSub j _ s

theorem boundedReply_mark (body : List Byte) (s : State) : BoundedReply s (markAct body s) := by
  unfold markAct
  split
  · exact boundedReply_refused s .range
  · exact bounds_setMark _ _ s

theorem boundedReply_readRoster (body : List Byte) (s : State) : BoundedReply s (readRosterAct body s) := by
  refine .ite (fun _ => .refl s) fun _ => .ite (fun _ => boundedReply_refused s .range) fun _ => ?_
  split
  · exact .refl s
  · exact boundedReply_refused s .range

/-- READ_EVENTS removes events (R201). -/
theorem boundedReply_readEvents (body : List Byte) (s : State) : BoundedReply s (readEventsAct body s) := by
  refine .ite (fun _ => ?_) fun _ => boundedReply_refused s .range
  exact .port _ (fun h => (List.drop_sublist _ _).length_le.trans h) id

/-- Every reply leaves the memories canonical and the queues and loops in bounds. -/
theorem boundedReply_replyOf (i : Instr) (s : State) : BoundedReply s (replyOf i s) := by
  have whole {f : List Byte → Bool} {act : List Byte → State → Reply} {b : List Byte}
      (h : BoundedReply s (act b s)) : BoundedReply s (checked f act b s) := boundedReply_checked f act b s h
  cases i with
  | setup b =>
    exact whole (.ite (fun _ => (Bounds.same rfl : Bounds s (applySetup (setupSettings b) (field b 16 1) s))) fun _ =>
      boundedReply_refused s .state)
  | join b => exact whole (boundedReply_join b s)
  | retire b => exact whole (boundedReply_retire b s)
  | restart b => exact whole (bounds_restart s)
  | service b => exact whole (.same rfl : Bounds s (serve s))
  | status b => exact whole (Bounds.refl s)
  | publish b => exact whole (boundedReply_publish b s)
  | unpublish b => exact whole (boundedReply_withPub b s _ fun k => bounds_unpublishEntry k s)
  | hold b => exact whole (boundedReply_withPub b s _ fun k => bounds_updPub k _ s)
  | release b => exact whole (boundedReply_release b s)
  | fill b =>
    exact boundedReply_checked (fun b => decide (8 ≤ b.length ∧ b.length ≤ 1536)) _ b s (boundedReply_fill b s)
  | commit b => exact whole (boundedReply_commit b s)
  | subscribe b => exact whole (boundedReply_subscribe b s)
  | unsubscribe b => exact whole (boundedReply_withSub b s _ fun j => .same rfl)
  | take b => exact whole (boundedReply_take b s)
  | pull b => exact whole (boundedReply_pull b s)
  | loadList b =>
    exact boundedReply_checked (fun b => decide (2 ≤ b.length ∧ (b.length - 2) % 3 = 0 ∧ b.length ≤ 770)) _ b s
      (boundedReply_loadList b s)
  | readPublication b =>
    refine whole ?_
    unfold readPublicationAct
    split
    · exact boundedReply_refused s .range
    · exact Bounds.refl s
  | readSubscription b =>
    refine whole ?_
    unfold readSubscriptionAct
    split
    · exact boundedReply_refused s .range
    · exact Bounds.refl s
  | engineStart b =>
    exact whole (boundedReply_withEngine b s _ _ fun x closed => by unfold startEngine; split <;> exact closed)
  | engineStop b =>
    exact whole (boundedReply_withEngine b s _ _ fun x closed => by unfold stopEngine; split <;> exact closed)
  | enginePoint b => exact whole (boundedReply_withEngine b s _ _ fun _ _ _ => rfl)
  | enginePrescale b => exact whole (boundedReply_withEngine b s _ _ fun _ closed => closed)
  | clockSet b => exact whole (boundedReply_withGen b s _)
  | clockArm b => exact whole (boundedReply_withGen b s _)
  | clockOff b => exact whole (boundedReply_withGen b s _)
  | compareSet b => exact whole (boundedReply_compareSet b s)
  | compareCancel b => exact whole (boundedReply_compareCancel b s)
  | monitorSet b =>
    exact whole (.ite (fun _ => bounds_updMonitor _ s) fun _ => boundedReply_refused s .range)
  | monitorRead b => exact whole (Bounds.ite (fun _ => bounds_updMonitor _ s) fun _ => .refl s)
  | mark b => exact whole (boundedReply_mark b s)
  | readRoster b => exact whole (boundedReply_readRoster b s)
  | readTimebase b => exact whole (Bounds.refl s)
  | readEvents b => exact whole (boundedReply_readEvents b s)
  | _ => exact boundedReply_refused s .unknown

/-! ### Responses and the held requests -/

theorem bounds_setTransaction (t : Transaction) (s : State) : Bounds s (setTransaction t s) := .port _ id id

theorem bounds_answer (s : State) (r : Reply) (h : BoundedReply s r) : Bounds s (answer s r) := by
  obtain ⟨t, e⟩ := answer_effect s r
  rw [e]
  exact (bounds_setTransaction t _).after h

theorem bounds_placeWaiting (s : State) : Bounds s (placeWaiting s) :=
  .ite (fun _ => (bounds_takeDue _ _).after (bounds_handWaiting s)) fun _ => .refl s

theorem bounds_grantStore (i : Instr) (s : State) : Bounds s (grantStore i s) :=
  .ite (fun _ => (bounds_drainWaiting _).after (bounds_placeWaiting s)) fun _ => .refl s

theorem bounds_handleAll (is : List Instr) (s : State) : Bounds s (handleAll is s) := by
  induction is generalizing s with
  | nil => exact .refl s
  | cons i rest ih =>
    cases rest with
    | nil => exact (bounds_answer _ _ (boundedReply_replyOf i _)).after (bounds_grantStore i s)
    | cons j rest => exact (ih _).after (.after (boundedReply_replyOf i _) (bounds_grantStore i s))

theorem bounds_handleNow (i : Instr) (s : State) : Bounds s (handleNow i s) :=
  (bounds_answer _ _ (boundedReply_replyOf i _)).after ((bounds_setTransaction _ _).after (bounds_grantStore i s))

theorem bounds_serveHeld (s : State) : Bounds s (serveHeld s) :=
  .ite (fun _ => .refl s) fun _ => (bounds_handleAll _ _).after (.port _ id fun _ => Nat.zero_le 2)

theorem bounds_settled (s : State) : Bounds s (settled s) := (bounds_serveHeld _).after (bounds_dueTaken s)

theorem bounds_settledForBurst (s : State) : Bounds s (settledForBurst s) :=
  (bounds_serveHeld _).after (.ite (fun _ => .refl s) fun _ => bounds_settleBy _ s)

/-! ### The local clock -/

theorem bounds_countPeriods (k : Nat) (s : State) : Bounds s (countPeriods k s) := by
  unfold countPeriods
  exact (bounds_updSelector _ _).after (.ite (fun _ => bounds_updStation _ s) fun _ => .refl s)

theorem bounds_clockPeriod (s : State) : Bounds s (clockPeriod s) := by
  have generator (t : State) (g : Fin 2) : Bounds t (clockGenerator t g) :=
    .ite (fun _ => .ite (fun _ => bounds_mark _ t) fun _ => .ite (fun _ => bounds_updGen g _ t) fun _ =>
      bounds_markIf _ _ t) fun _ => .refl t
  exact (bounds_markIf _ _ _).after ((bounds_markIf _ _ _).after ((bounds_markIf _ _ _).after
    ((Bounds.foldl clockGenerator generator _ _).after ((bounds_markIf _ _ _).after ((bounds_markIf _ _ _).after
      ((bounds_markIf _ _ _).after ((bounds_countPeriods 1 _).after (bounds_updTimebase _ s))))))))

theorem bounds_runUntil (d : Due) (comes : State → Bool) (fuel : Nat) (s : State) :
    Bounds s (runUntil d comes fuel s) := by
  induction fuel generalizing s with
  | zero => exact .refl s
  | succ fuel ih =>
    have passes (t : State) : Bounds t (clockPeriod (skipQuiet t)) :=
      (bounds_clockPeriod _).after ((bounds_countPeriods _ _).after (bounds_updTimebase _ t))
    have passed := (passes _).after (bounds_settled s)
    exact .ite (fun _ => .ite (fun _ => passed) fun _ => (ih _).after passed) fun _ => bounds_settled s

/-! ### The rows -/

theorem bounds_clockRow (d : Due) (comes : State → Bool) (fuel : Nat) (act : State → State)
    (keeps : ∀ t, Bounds t (act t)) (s : State) : Bounds s (clockRow d comes fuel act s) :=
  (bounds_takeDueBy d act keeps _).after (.ite (fun _ => .refl s) fun _ => bounds_runUntil d comes fuel s)

theorem bounds_dueRow (d : Due) (is : State → Bool) (s : State) : Bounds s (dueRow d is s) :=
  .ite (fun _ => bounds_takeDue d s) fun _ => bounds_settled s

theorem bounds_outsideRow (act : State → State) (keeps : ∀ t, Bounds t (act t)) (s : State) :
    Bounds s (outsideRow act s) := (keeps _).after (bounds_settled s)

theorem bounds_drainRow (s : State) : Bounds s (drainRow s) :=
  .after (.ite (fun _ => bounds_serveHeld _) fun _ => (bounds_drainOne _).after (bounds_placeWaiting _))
    (bounds_dueTaken s)

/-- A request takes a holder only where fewer than two are held (R191). -/
theorem bounds_takeRecord (i : Instr) (s : State) : Bounds s (takeRecord i s) := by
  have holds (t : State) (room : t.port.held.length < 2) : Bounds t (holdRequest i t) :=
    (bounds_setTransaction _ _).after (.port _ id fun _ => by simpa using room)
  refine .ite (fun none => .ite (fun _ => .ite (fun _ => ?_) fun _ => ?_) fun _ => ?_) fun _ => .ite (holds s) fun _ => ?_
  · exact (bounds_handleNow i _).after (bounds_drawFree s)
  · exact (holds _ (by show s.port.held.length < 2; simp [none])).after (bounds_drawFree s)
  · exact bounds_handleNow i s
  · exact bounds_setTransaction _ s

theorem bounds_requestRow (i : Instr) (s : State) : Bounds s (requestRow i s) :=
  (bounds_takeRecord i _).after (bounds_settled s)

theorem bounds_engineRow (e : Fin 4) (is : State → Bool) (s : State) : Bounds s (engineRow e is s) :=
  (bounds_dueRow _ _ _).after (bounds_takeFreely _ s)

theorem bounds_subRow (d : Fin 32 → Due) (j : Fin 32) (s : State) : Bounds s (subRow d j s) :=
  .ite (fun _ => bounds_takeInOrder _ s) fun _ => bounds_settled s

theorem bounds_handedBefore (settle : State → State) (settles : ∀ t, Bounds t (settle t)) (ends : Cable → Bool)
    (s : State) : Bounds s (handedBefore settle ends s) :=
  .ite (fun _ => (settles _).after (bounds_handWaiting s)) fun _ => .refl s

theorem bounds_receiveBurst (bytes : List Byte) (hand : HandOver) (s : State) :
    Bounds s (receiveBurst bytes hand s) := by
  have before := bounds_handedBefore settledForBurst bounds_settledForBurst (endsReceptionOf bytes) s
  cases hand with
  | atEnd => exact (bounds_endBurst bytes false _).after before
  | waits => exact (bounds_endBurst bytes true _).after before
  | later => exact bounds_takeLate bytes s

theorem bounds_receiveFailed (s : State) : Bounds s (receiveFailed s) := by
  have before := bounds_handedBefore settled bounds_settled (fun c => receives c.state) s
  exact .ite (fun _ => (bounds_takeFailed _).after before) fun _ => before

theorem bounds_receiveAborted (s : State) : Bounds s (receiveAborted s) := by
  have before := bounds_handedBefore settled bounds_settled (fun c => receives c.state) s
  exact .ite (fun _ => (bounds_endReception _).after before) fun _ => before

theorem bounds_discardRecord (cause : DiscardCause) (s : State) : Bounds s (discardRecord cause s) := by
  cases cause with
  | cut => exact bounds_setTransaction _ s
  | third => exact .ite (fun _ => .refl s) fun _ => bounds_setTransaction _ s

theorem bounds_abandonResponse (sent : Nat) (s : State) : Bounds s (abandonResponse sent s) := by
  unfold abandonResponse
  split
  · exact bounds_setTransaction _ s
  · exact bounds_setTransaction _ s
  · exact bounds_setTransaction _ s
  all_goals exact .refl s

/-- Power-on reset puts the part into a state that has them all. -/
theorem bounds_powerOn (pins : Pins) (ssn : Bool) (s : State) :
    Bounds s { State.powerOn pins ssn with freeCount := s.freeCount, pending := s.pending } := by
  obtain ⟨memories, events, fifo, held, loops, -⟩ := powerOn_invariants pins ssn
  exact ⟨fun _ => memories, fun _ => events, fun _ => fifo, fun _ => held, fun _ => loops⟩

/-! ### Every command -/

/-- What a row leaves stays in bounds. -/
def BoundedRow (i : Instr) (s : State) : Prop := ∃ t, exec i s = .next t ∧ Bounds s t

section
variable {i : Instr} {s : State}

theorem boundedRow_outside (act : State → State) (row : exec i s = .next (outsideRow act s))
    (keeps : ∀ t, Bounds t (act t)) : BoundedRow i s := ⟨_, row, bounds_outsideRow act keeps s⟩

theorem boundedRow_due (d : Due) (is : State → Bool) (row : exec i s = .next (dueRow d is s)) : BoundedRow i s :=
  ⟨_, row, bounds_dueRow d is s⟩

theorem boundedRow_engine (e : Fin 4) (is : State → Bool) (row : exec i s = .next (engineRow e is s)) :
    BoundedRow i s := ⟨_, row, bounds_engineRow e is s⟩

theorem boundedRow_clock (d : Due) (comes : State → Bool) (fuel : Nat) (act : State → State)
    (row : exec i s = .next (clockRow d comes fuel act s)) (keeps : ∀ t, Bounds t (act t)) : BoundedRow i s :=
  ⟨_, row, bounds_clockRow d comes fuel act keeps s⟩

theorem boundedRow_request (row : exec i s = .next (requestRow i s)) : BoundedRow i s := ⟨_, row, bounds_requestRow i s⟩

end

/-- Every command keeps them. -/
theorem exec_bounds (i : Instr) (s : State) : BoundedRow i s := by
  cases i with
  | powerOnReset pins ssn => exact ⟨_, rfl, bounds_powerOn pins ssn s⟩
  | slotTick => exact boundedRow_clock _ _ _ _ rfl bounds_slotWork
  | epochBoundary first => exact boundedRow_clock _ _ _ _ rfl (bounds_boundaryWork first)
  | markerWindowEnd => exact boundedRow_clock _ _ _ _ rfl bounds_endWindow
  | holdOffExpiry => exact boundedRow_clock _ _ _ _ rfl bounds_expireHoldOff
  | settleComplete => exact boundedRow_clock _ _ _ _ rfl bounds_completeSettle
  | generatorWrap g => exact boundedRow_clock _ _ _ _ rfl fun t => bounds_updGen g _ t
  | highTimeEnd g => exact boundedRow_clock _ _ _ _ rfl fun t => bounds_updGen g _ t
  | markerWordSent => exact boundedRow_clock _ _ _ _ rfl bounds_endMarkerWord
  | acquisitionAbandoned => exact boundedRow_due _ _ rfl
  | timebaseHoldover => exact boundedRow_due _ _ rfl
  | acquisitionComplete => exact boundedRow_due _ _ rfl
  | lockAchieved => exact boundedRow_due _ _ rfl
  | claimExpiry => exact boundedRow_due _ _ rfl
  | handoverComplete => exact boundedRow_due _ _ rfl
  | handoverTakeover => exact boundedRow_due _ _ rfl
  | recoveryComplete => exact boundedRow_due _ _ rfl
  | listenComplete => exact boundedRow_due _ _ rfl
  | retireTimeout => exact ⟨_, rfl, (bounds_dueRow _ _ _).after (bounds_takeDue _ s)⟩
  | serviceLapsed => exact boundedRow_due _ _ rfl
  | holdEnd e => exact boundedRow_due _ _ rfl
  | generatorStart g => exact boundedRow_due _ _ rfl
  | compareFired k => exact boundedRow_due _ _ rfl
  | staleTimeout j => exact ⟨_, rfl, bounds_subRow _ j s⟩
  | pullDeadline j => exact ⟨_, rfl, bounds_subRow _ j s⟩
  | scheduleEmit e => exact boundedRow_engine e _ rfl
  | scheduleHold e => exact boundedRow_engine e _ rfl
  | scheduleRepeat e => exact boundedRow_engine e _ rfl
  | scheduleLoop e => exact boundedRow_engine e _ rfl
  | scheduleNotify e => exact boundedRow_engine e _ rfl
  | scheduleAlign e => exact boundedRow_engine e _ rfl
  | alignComplete e => exact boundedRow_engine e _ rfl
  | scheduleHalt e => exact boundedRow_engine e _ rfl
  | markerCapture => exact boundedRow_outside _ rfl bounds_captureEdge
  | validMarker word => exact boundedRow_outside _ rfl (bounds_markerComplete word)
  | markerNotReceived => exact boundedRow_outside _ rfl (bounds_updTimebase _)
  | refokChange level => exact boundedRow_outside _ rfl fun t => .same rfl
  | markerClash cause => exact boundedRow_outside _ rfl (bounds_clash cause)
  | guardComplete => exact boundedRow_outside _ rfl fun t => .ite (fun _ => .same rfl) fun _ => .refl t
  | guardRestart => exact boundedRow_outside _ rfl fun t => .ite (fun _ => .same rfl) fun _ => .refl t
  | startBitSeen => exact boundedRow_outside _ rfl fun t => .ite (fun _ => .same rfl) fun _ => .refl t
  | claimStart => exact boundedRow_outside _ rfl bounds_startClaim
  | claimLost bit => exact boundedRow_outside _ rfl (bounds_loseClaim bit)
  | burstStart => exact boundedRow_outside _ rfl bounds_startBurst
  | burstSent => exact boundedRow_outside _ rfl bounds_finishBurst
  | txFault => exact boundedRow_outside _ rfl bounds_transmitFault
  | abortPatternEnd => exact boundedRow_outside _ rfl fun t => .ite (fun _ => .same rfl) fun _ => .refl t
  | failedCheckReceived => exact boundedRow_outside _ rfl bounds_receiveFailed
  | abortedBurstReceived => exact boundedRow_outside _ rfl bounds_receiveAborted
  | senseRise => exact boundedRow_outside _ rfl bounds_riseSense
  | senseDrop => exact boundedRow_outside _ rfl bounds_dropSense
  | sampleStrobe tag word => exact boundedRow_outside _ rfl (bounds_strobe _ word)
  | recordDiscarded cause => exact boundedRow_outside _ rfl (bounds_discardRecord cause)
  | responseAbandoned sent => exact boundedRow_outside _ rfl (bounds_abandonResponse sent)
  | goodBurstReceived bytes hand => exact ⟨_, rfl, (bounds_receiveBurst bytes hand _).after (bounds_settledForBurst s)⟩
  | drainSample => exact ⟨_, rfl, bounds_drainRow s⟩
  | unknownRequest kind body => exact ⟨_, rfl, .ite (fun _ => bounds_settled s) fun _ => bounds_requestRow _ s⟩
  | _ => exact boundedRow_request rfl

/-- So does every step. -/
theorem step_bounds (s t : State) (h : step s = .next t) : Bounds s t := by
  unfold step at h
  split at h
  · cases h
    exact (bounds_clockPeriod _).after (bounds_settled s)
  · next c rest _ =>
    obtain ⟨u, e, bounds⟩ := exec_bounds c { s with pending := rest }
    cases e.symm.trans h
    exact bounds.of_same rfl

/-- Settles O39. -/
theorem canonicalMemoriesAreKept : Obligations.CanonicalMemoriesAreKept :=
  fun s t memories next => (step_bounds s t next).memories memories

/-- Settles O40. -/
theorem boundsOfQueuesAndLoopsAreKept : Obligations.BoundsOfQueuesAndLoopsAreKept := by
  intro s t events fifo held loops next
  have kept := step_bounds s t next
  exact ⟨kept.events events, kept.fifo fifo, kept.held held, kept.loops loops⟩

end Sys2Proof.Machine
end

section
/-! PROOF. Commits: pending while the ready buffer is in flight, and otherwise made at once. -/

namespace Sys2Proof.Machine
open Sys2Proof.Claims

/-! ### A commit that is made (R113) -/

/-- The entry of publication `k` after a commit (R113): the fill is the ready block, the slots exchange roles. -/
def committedEntry (k : Fin 16) (s : State) : Publication :=
  let p := s.pubs[k]
  { p with
    readySlot := p.fillSlot, fillSlot := p.readySlot, ready := some (commitBlock s k), isNew := true,
    nextSeq := p.nextSeq + 1, fillCount := 0, gap := 0, fillOpen := false, commitPending := false }

/-- The entry is committed, and the gap that the block records is told (R113, R114). -/
def committed (k : Fin 16) (s : State) : State :=
  let u := { s with pubs := s.pubs.set k (committedEntry k s) }
  if s.pubs[k].gap = 0 then u else raise .sourceGap (some k.val) (BitVec.ofNat 16 s.pubs[k].gap) u

theorem committed_pubs (k : Fin 16) (s : State) : (committed k s).pubs = s.pubs.set k (committedEntry k s) := by
  unfold committed
  dsimp only
  split
  · rfl
  · exact raise_pubs _ _ _ _

/-- The committed entry. -/
theorem committed_entry (k : Fin 16) (s : State) : (committed k s).pubs[k] = committedEntry k s := by
  have set : (s.pubs.set k (committedEntry k s))[k] = committedEntry k s := Vector.getElem_set_self _
  exact (congrArg (·[k]) (committed_pubs k s)).trans set

/-- A commit changes the entry and tells the gap, and in ACTIVE then serves a pull (R113, R122). -/
theorem makeCommit_eq (k : Fin 16) (s : State) : makeCommit k s
    = if s.pubs[k].state = .active then servePull k (committed k s) else committed k s := by
  have made : makeCommit k s
      = if (committed k s).pubs[k].state = .active then servePull k (committed k s) else committed k s := by
    unfold makeCommit committed
    dsimp only
    rw [show (commitBlock s k).gap = if s.pubs[k].gap = 0 then none else some s.pubs[k].gap from rfl]
    by_cases none : s.pubs[k].gap = 0
    · simp only [if_pos none]; rfl
    · simp only [if_neg none]; rfl
  rw [made, committed_entry]
  rfl

/-- A commit with no pull to serve. -/
theorem makeCommit_unserved {k : Fin 16} {s : State}
    (idle : s.pubs[k].state ≠ .active ∨ s.pubs[k].pullPending = false) : makeCommit k s = committed k s := by
  rw [makeCommit_eq]
  rcases idle with other | none
  · exact if_neg other
  · have stays : servePull k (committed k s) = committed k s :=
      if_neg (by rw [committed_entry]; exact ne_true_of_eq_false none)
    rw [stays, ite_self]

/-- A commit in ACTIVE that serves a pull (R122). -/
theorem makeCommit_serves {k : Fin 16} {s : State} (active : s.pubs[k].state = .active)
    (pending : s.pubs[k].pullPending = true) : makeCommit k s = enqueue (.block k)
      { committed k s with pubs := s.pubs.set k { committedEntry k s with pullPending := false } } := by
  have waits : (committed k s).pubs[k].pullPending = true := by rw [committed_entry]; exact pending
  have cleared : updPub k (fun p => { p with pullPending := false }) (committed k s)
      = { committed k s with pubs := s.pubs.set k { committedEntry k s with pullPending := false } } := by
    unfold updPub upd
    rw [committed_entry, committed_pubs, Vector.set_set]
  rw [makeCommit_eq, if_pos active, servePull, if_pos waits, cleared]

/-- NEW of the block before makes no difference to a commit, nor the binding, once it is released. -/
theorem makeCommit_unsent (k : Fin 16) (s : State) :
    makeCommit k (updPub k (fun p => { p with isNew := false }) s) = makeCommit k s := by
  let t := updPub k (fun p => { p with isNew := false }) s
  have was : t.pubs[k] = { s.pubs[k] with isNew := false } := upd_get ..
  have entry : committedEntry k t = committedEntry k s := by
    simp only [committedEntry, commitBlock, was]
    rfl
  have same : committed k t = committed k s := by
    unfold committed
    rw [entry, was]
    simp only [t, updPub, upd, Vector.set_set]
  rw [makeCommit_eq, makeCommit_eq, was, same]

/-! ### The end of the burst that a commit waits for (R117) -/

/-- The end of a bound burst for whose buffer a commit waits: the binding is released, and the commit made. -/
theorem endBinding_commits {sent : Bool} {s : State} {k : Fin 16} (bound : s.cable.binding = some k)
    (waits : s.pubs[k].commitPending = true) :
    endBinding sent s = askCommit k { s with cable := { s.cable with binding := none } } := by
  let free (t : State) := updCable (fun c => { c with binding := none }) t
  have ended : endBinding sent s = completeCommit k (free (if sent ∧ s.pubs[k].state ≠ .unused then
      updPub k (fun p => { p with isNew := false }) s else s)) := by simp only [endBinding, bound]; rfl
  have asked : askCommit k (free s) = makeCommit k (free s) := if_neg nofun
  refine ended.trans (.trans ?_ asked.symm)
  split
  · have pending : (free (updPub k (fun p => { p with isNew := false }) s)).pubs[k].commitPending = true := by
      rw [show (free (updPub k _ s)).pubs[k] = _ from upd_get ..]
      exact waits
    exact (if_pos pending).trans (makeCommit_unsent k (free s))
  · exact if_pos waits

/-- With no commit waiting: NEW is cleared of a block that was sent, of an entry in use. -/
theorem endBinding_uncommitted {sent : Bool} {s : State} {k : Fin 16} (bound : s.cable.binding = some k)
    (free : s.pubs[k].commitPending = false) : endBinding sent s = { s with
      cable := { s.cable with binding := none }
      pubs := s.pubs.set k { s.pubs[k] with
        isNew := s.pubs[k].isNew && !(sent && decide (s.pubs[k].state ≠ .unused)) } } := by
  have same : s.pubs.set k s.pubs[k] = s.pubs := Vector.set_getElem_self _
  cases sent with
  | false =>
    have ended : endBinding false s = completeCommit k (updCable (fun c => { c with binding := none }) s) := by
      simp only [endBinding, bound, Bool.false_eq_true, false_and, if_false]
    simp only [Bool.false_and, Bool.not_false, Bool.and_true, same]
    exact ended.trans (if_neg (ne_true_of_eq_false free))
  | true =>
    by_cases unused : s.pubs[k].state = .unused
    · have stays : (true && decide (s.pubs[k].state ≠ .unused)) = false := by rw [unused]; rfl
      simp only [stays, Bool.not_false, Bool.and_true, same]
      exact endBinding_unused bound unused free
    · have clears : (true && decide (s.pubs[k].state ≠ .unused)) = true := by rw [decide_eq_true unused]; rfl
      simp only [clears, Bool.not_true, Bool.and_false]
      exact endBinding_sent bound unused free

/-- Settles O32. -/
theorem commitsMakeTheFillTheReadyBlock : Obligations.CommitsMakeTheFillTheReadyBlock := by
  intro k s p y u v w
  have made (free : s.cable.binding ≠ some k) : askCommit k s = makeCommit k s := if_neg free
  refine ⟨fun bound => if_pos bound, fun free idle => (made free).trans (makeCommit_unserved idle),
    fun free active pending => (made free).trans (makeCommit_serves active pending), fun sent bound => ?_⟩
  exact ⟨endBinding_commits bound, endBinding_uncommitted bound⟩

end Sys2Proof.Machine
end

section
/-! PROOF. Samples: the strobes that fill the FIFO, and the drain that judges and appends. -/

namespace Sys2Proof.Machine
open Sys2Proof.Claims

/-! ### Bytes written to the block store -/

/-- Bytes written from `a` on are read back, and the bytes outside of them stay. -/
theorem written_reads {m : List Host.Cell} (a : Nat) (bs : List Byte) (wf : Memory.wf m = true) :
    Memory.readBytes (Memory.writeBytes m a bs) a bs.length = bs
      ∧ ∀ b, b < a ∨ a + bs.length ≤ b → Memory.read (Memory.writeBytes m a bs) b = Memory.read m b :=
  ⟨Memory.readBytes_writeBytes a bs wf, fun b out =>
    (Memory.read_writeBytes a b bs wf).trans (if_neg (by omega))⟩

/-! ### The sample port (R107, R108) -/

/-- An item is offered to the FIFO: there is room for its words, or it is dropped and counted once. -/
theorem offerItem_eq (item : FifoItem) (s : State) : offerItem item s
    = if (s.fifo.map fun x => if x.second = none then 1 else 2).sum + item.words ≤ 64 then
        { s with fifo := s.fifo ++ [item] }
      else if s.pubs[item.tag].state ≠ .unused ∧ s.pubs[item.tag].feed = .portFed then
        { s with
          pubs := s.pubs.set item.tag { s.pubs[item.tag] with gap := min 65535 (s.pubs[item.tag].gap + 1) } }
      else { s with portRejects := min 65535 (s.portRejects + 1) } := by
  rw [← fifoWords_eq]
  rfl

theorem paired_iff (p : Publication) : paired p = true ↔ p.state ≠ .unused ∧ p.feed = .portFed ∧ p.width ≠ .w16 := by
  simp [paired, and_assoc]

/-- The stamp of a word strobed now. -/
def strobeStamp (s : State) : Stamp := { time := ticks48 s.timebase, capture := s.timebase.state }

theorem strobe_single {k : Fin 16} {s : State} (word : BitVec 16) (single : ¬ paired s.pubs[k] = true) :
    strobe k word s = offerItem { tag := k, first := word, second := none, stamp := strobeStamp s } s :=
  if_neg single

/-- The low word of a sample whose high word was discarded. -/
theorem strobe_void {k : Fin 16} {s : State} (word : BitVec 16) (pairs : paired s.pubs[k] = true)
    (void : s.partials[k].voidLow = true) :
    strobe k word s = { s with partials := s.partials.set k { s.partials[k] with voidLow := false } } :=
  (if_pos pairs).trans (if_pos void)

theorem strobe_high {k : Fin 16} {s : State} (word : BitVec 16) (pairs : paired s.pubs[k] = true)
    (void : s.partials[k].voidLow = false) (first : s.partials[k].high = none) :
    strobe k word s
      = { s with partials := s.partials.set k { s.partials[k] with high := some (word, strobeStamp s) } } := by
  refine (if_pos pairs).trans ((if_neg (ne_true_of_eq_false void)).trans ?_)
  rw [first]
  rfl

theorem strobe_low {k : Fin 16} {s : State} {high : BitVec 16} {stamp : Stamp} (word : BitVec 16)
    (pairs : paired s.pubs[k] = true) (void : s.partials[k].voidLow = false)
    (second : s.partials[k].high = some (high, stamp)) :
    strobe k word s = offerItem { tag := k, first := high, second := some word, stamp := stamp }
      { s with partials := s.partials.set k { s.partials[k] with high := none } } := by
  refine (if_pos pairs).trans ((if_neg (ne_true_of_eq_false void)).trans ?_)
  rw [second]
  rfl

/-! ### The drain (R109, R110) -/

/-- The words of the item fit the width of the entry. -/
def Fits (p : Publication) (item : FifoItem) : Prop := p.width = .w16 ↔ item.second = none

theorem judgeItem_unfit {item : FifoItem} {s : State}
    (unfit : s.pubs[item.tag].state = .unused ∨ s.pubs[item.tag].feed = .requestFed ∨ ¬ Fits s.pubs[item.tag] item) :
    judgeItem item s = countReject s := by
  unfold judgeItem
  by_cases other : s.pubs[item.tag].state = .unused ∨ s.pubs[item.tag].feed = .requestFed
  · exact if_pos other
  · have misfit : ¬ Fits s.pubs[item.tag] item := by tauto
    have wrong : (item.second.isNone = true ∧ s.pubs[item.tag].width ≠ .w16)
        ∨ (item.second.isSome = true ∧ s.pubs[item.tag].width = .w16) := by
      cases two : item.second <;> simpa [Fits, two] using misfit
    exact (if_neg other).trans (if_pos wrong)

/-- An item that is not rejected is lost while a commit waits, and otherwise appended. -/
theorem judgeItem_fit {item : FifoItem} {s : State} (used : s.pubs[item.tag].state ≠ .unused)
    (fed : s.pubs[item.tag].feed = .portFed) (fits : Fits s.pubs[item.tag] item) :
    judgeItem item s = if s.pubs[item.tag].commitPending then countGap item.tag s
      else appendSample item.tag (sampleBytes s.pubs[item.tag].width item) item.stamp s := by
  have portFed : ¬ (s.pubs[item.tag].state = .unused ∨ s.pubs[item.tag].feed = .requestFed) := by
    rw [fed]; simpa using used
  have right : ¬ ((item.second.isNone = true ∧ s.pubs[item.tag].width ≠ .w16)
      ∨ (item.second.isSome = true ∧ s.pubs[item.tag].width = .w16)) := by
    cases two : item.second <;> simpa [Fits, two] using fits
  exact (if_neg portFed).trans (if_neg right)

/-- The entry of publication `p` after a sample with this stamp is appended (R110). -/
def appendedEntry (p : Publication) (stamp : Stamp) : Publication :=
  { p with
    fillCount := p.fillCount + 1
    fillTime := if p.fillCount = 0 then stamp.time else p.fillTime
    fillCapture := if p.fillCount = 0 then stamp.capture else p.fillCapture }

theorem appendSample_eq (k : Fin 16) (bytes : List Byte) (stamp : Stamp) (s : State) :
    appendSample k bytes stamp s =
      let v := { s with
        store := Memory.writeBytes s.store (fillAddr s.pubs[k]) bytes
        pubs := s.pubs.set k (appendedEntry s.pubs[k] stamp) }
      if s.pubs[k].fillCount + 1 < s.pubs[k].samples then v else askCommit k v := by
  have entry : (if s.pubs[k].fillCount = 0 then
      { s.pubs[k] with fillCount := 1, fillTime := stamp.time, fillCapture := stamp.capture }
      else { s.pubs[k] with fillCount := s.pubs[k].fillCount + 1 }) = appendedEntry s.pubs[k] stamp := by
    unfold appendedEntry
    split
    · next first => simp only [first]
    · rfl
  simp only [appendSample, updPub, upd]
  rw [entry]
  by_cases more : s.pubs[k].fillCount + 1 < s.pubs[k].samples
  · rw [if_pos more, if_neg (by omega)]
  · rw [if_neg more, if_pos (by omega)]

/-- The two bytes of a word, the high one first. -/
theorem beBytes_word (x : BitVec 16) : beBytes 2 x.toNat = [x.extractLsb' 8 8, x.extractLsb' 0 8] := by
  have high : BitVec.ofNat 8 (x.toNat / 256) = x.extractLsb' 8 8 :=
    BitVec.eq_of_toNat_eq (by simp [Nat.shiftRight_eq_div_pow])
  have low : BitVec.ofNat 8 x.toNat = x.extractLsb' 0 8 := BitVec.eq_of_toNat_eq (by simp)
  simp [beBytes, high, low]

/-- The bytes of an item that fits, in the packing of R102. -/
theorem sampleBytes_packed {p : Publication} {item : FifoItem} (fits : Fits p item) :
    sampleBytes p.width item = (match p.width, item.second with
      | .w24, some low => [item.first.extractLsb' 8 8, item.first.extractLsb' 0 8, low.extractLsb' 0 8]
      | .w32, some low =>
        [item.first.extractLsb' 8 8, item.first.extractLsb' 0 8, low.extractLsb' 8 8, low.extractLsb' 0 8]
      | _, _ => [item.first.extractLsb' 8 8, item.first.extractLsb' 0 8]) := by
  have lowByte (x : BitVec 16) : x.setWidth 8 = x.extractLsb' 0 8 := BitVec.eq_of_toNat_eq (by simp)
  unfold Fits at fits
  cases width : p.width <;> cases two : item.second <;>
    simp [width, two, sampleBytes, beBytes_word, lowByte] at fits ⊢

theorem sampleBytes_length (width : Width) (item : FifoItem) : (sampleBytes width item).length = width.bytes := by
  cases width <;> rfl

/-- At a grant of the drain in a settled state the oldest item is judged, after a block that waits has been written
into its ring (R103, R109). -/
theorem exec_drainSample {item : FifoItem} {rest : List FifoItem} {s : State} (d : s.due = [])
    (h : s.fifo = item :: rest) :
    exec .drainSample s = .next (judgeItem item { placeWaiting s with fifo := rest }) := by
  obtain ⟨-, -, fifo, -⟩ := placeWaiting_keepsPorts s
  have row : drainRow s = drainOne (placeWaiting s) := drainRow_item s d (by simp [h])
  have one : drainOne (placeWaiting s) = judgeItem item { placeWaiting s with fifo := rest } := by
    rw [drainOne, fifo, h]
  exact congrArg _ (row.trans one)

/-- Settles O31. -/
theorem samplesAreStrobedAndDrained : Obligations.SamplesAreStrobedAndDrained := by
  constructor
  · intro k word s quiet p q stamp pairs room offered held
    have row : exec (.sampleStrobe (.ofFin k) word) s = .next (strobe k word s) := outside_quiet (strobe k word) quiet
    have pairs_iff : paired p = true ↔ pairs := paired_iff p
    rw [row]
    refine ⟨fun single => congrArg _ ?_, fun pair void => congrArg _ ?_, fun pair void none => congrArg _ ?_,
      fun first st pair void some => congrArg _ ?_⟩
    · exact (strobe_single word (mt pairs_iff.1 single)).trans (offerItem_eq _ s)
    · exact strobe_void word (pairs_iff.2 pair) void
    · exact strobe_high word (pairs_iff.2 pair) void none
    · exact (strobe_low word (pairs_iff.2 pair) void some).trans (offerItem_eq _ _)
  · intro item rest s due waits k p w u fits bytes at_ y
    obtain ⟨-, -, -, pubs, -, rejects, -⟩ := placeWaiting_keepsPorts s
    have entry : u.pubs[k] = p := congrArg (·[k]) pubs
    rw [exec_drainSample due waits]
    refine ⟨fun unfit => congrArg _ ?_, fun used fed fit => ⟨fun pending => congrArg _ ?_, fun free => ?_⟩⟩
    · rw [judgeItem_unfit (by rw [entry]; exact unfit), countReject]
      exact congrArg (fun n => { u with portRejects := min 65535 (n + 1) }) rejects
    · rw [judgeItem_fit (by rw [entry]; exact used) (by rw [entry]; exact fed) (by rw [entry]; exact fit), entry,
        if_pos pending, countGap, updPub, upd, entry]
      exact congrArg (fun v : Vector Publication 16 =>
        { u with pubs := v.set k { p with gap := min 65535 (p.gap + 1) } }) pubs
    · have packed : sampleBytes p.width item = bytes := sampleBytes_packed fit
      have size : bytes.length = p.width.bytes := packed ▸ sampleBytes_length p.width item
      have where_ : fillAddr p = at_ := by simp only [at_, size]; rfl
      refine ⟨Memory.writeBytes w.store at_ bytes, congrArg _ ?_, written_reads at_ bytes⟩
      rw [judgeItem_fit (by rw [entry]; exact used) (by rw [entry]; exact fed) (by rw [entry]; exact fit), entry,
        if_neg (ne_true_of_eq_false free), appendSample_eq, entry, packed, where_]
      exact congrArg (fun v : Vector Publication 16 =>
        let v := { u with store := Memory.writeBytes w.store at_ bytes, pubs := v.set k y }
        if p.fillCount + 1 < p.samples then v else askCommit k v) pubs

end Sys2Proof.Machine
end

section
/-! PROOF. What is done without regard to the port's transaction and holders: events, occurrences, commits, the drain
and the ring write of a block that waits. -/

namespace Sys2Proof.Machine
open Sys2Proof.Claims

/-! ### The transaction and the holders -/

/-- `s` with this transaction and these held requests. -/
def atPort (x : Transaction) (is : List Instr) (s : State) : State :=
  { s with port := { s.port with transaction := x, held := is } }

/-- What `op` does makes no difference to the transaction and the holders, nor they to what it does. -/
def Blind (op : State → State) : Prop := ∀ x is s, op (atPort x is s) = atPort x is (op s)

/-- So it leaves them. -/
theorem Blind.transaction {op : State → State} (h : Blind op) (s : State) :
    (op s).port.transaction = s.port.transaction :=
  congrArg (·.port.transaction) (h s.port.transaction s.port.held s)

theorem Blind.held {op : State → State} (h : Blind op) (s : State) : (op s).port.held = s.port.held :=
  congrArg (·.port.held) (h s.port.transaction s.port.held s)

theorem blind_id : Blind fun s => s := fun _ _ _ => rfl

theorem Blind.comp {f g : State → State} (hf : Blind f) (hg : Blind g) : Blind fun s => f (g s) := fun x is s =>
  (congrArg f (hg x is s)).trans (hf x is (g s))

theorem Blind.ite {c : State → Prop} [DecidablePred c] {f g : State → State} (same : ∀ x is s, c (atPort x is s) ↔ c s)
    (hf : Blind f) (hg : Blind g) : Blind fun s => if c s then f s else g s := fun x is s => by
  dsimp only
  rw [hf x is s, hg x is s]
  exact (if_congr (same x is s) rfl rfl).trans (apply_ite (atPort x is) _ _ _).symm

theorem Blind.foldl {α : Type} {f : State → α → State} (h : ∀ a, Blind fun s => f s a) (as : List α) :
    Blind fun s => as.foldl f s := fun x is _ => List.foldl_hom (atPort x is) fun t a => h a x is t

/-! ### Events and occurrences -/

theorem blind_raise (k : EventKind) (n : Option Nat) (d : BitVec 16) : Blind (raise k n d) := fun x is s => by
  unfold raise atPort
  dsimp only
  split <;> rfl

theorem blind_notifyOverflow (i : Fin 4) (y : Subject) : Blind (notifyOverflow i y) := by
  have changed (f : Monitor → Monitor) : Blind (updMonitor f) := fun _ _ _ => rfl
  intro x is s
  unfold notifyOverflow
  exact (changed _).comp ((blind_raise _ _ _).comp (changed _)) x is s

theorem blind_overflow (i : Fin 4) (y : Subject) : Blind (overflow i y) := by
  have opened : Blind fun s => if i.val = 0 then openGates s else s :=
    .ite (fun _ _ _ => .rfl) (fun _ _ _ => rfl) blind_id
  have notified : Blind fun s => if s.monitor.counters[i].notify then notifyOverflow i y s else s :=
    .ite (fun _ _ _ => .rfl) (blind_notifyOverflow i y) blind_id
  exact notified.comp opened

theorem blind_occur (k : OccKind) (y : Subject) (n : Nat) : Blind (occur k y n) := by
  have counted (is : List (Fin 4)) : Blind fun s => is.foldl (fun t i => countUp n i t) s :=
    .foldl (fun _ _ _ _ => rfl) is
  have overflows (is : List (Fin 4)) : Blind fun s => is.foldl (fun t i => overflow i y t) s :=
    .foldl (fun i => blind_overflow i y) is
  refine .ite (fun _ _ _ => .rfl) blind_id fun x is s => ?_
  let counting := (List.finRange 4).filter fun i => counts s k y i
  have spill : Blind fun t => (counting.filter fun i => decide (s.monitor.counters[i].value < 2147483648
      ∧ 2147483648 ≤ t.monitor.counters[i].value)).foldl (fun t i => overflow i y t) t :=
    fun x is t => overflows _ x is t
  exact spill.comp (counted counting) x is s

theorem blind_occurIf (c : Bool) (k : OccKind) (y : Subject) (n : Nat) : Blind (occurIf c k y n) :=
  .ite (fun _ _ _ => .rfl) (blind_occur k y n) blind_id

/-! ### The queue and the publications -/

theorem blind_updPub (k : Fin 16) (f : Publication → Publication) : Blind (updPub k f) := fun _ _ _ => rfl

theorem blind_enqueue (k : EntryKind) : Blind (enqueue k) := by
  have merged : Blind fun s => match k with
      | .block k => occur .emitMerged (.publication k) 1 s
      | _ => s := by
    cases k with
    | block k => exact blind_occur _ _ _
    | presence | retire | pull j => exact blind_id
  exact .ite (fun _ _ _ => .rfl) (.ite (fun _ _ _ => .rfl) merged fun _ _ _ => rfl) blind_id

theorem blind_servePull (k : Fin 16) : Blind (servePull k) :=
  .ite (fun _ _ _ => .rfl) ((blind_enqueue _).comp (blind_updPub k _)) blind_id

theorem blind_makeCommit (k : Fin 16) : Blind (makeCommit k) := by
  have told : Blind (committed k) := .ite (fun _ _ _ => .rfl) (fun _ _ _ => rfl)
    fun x is s => blind_raise .sourceGap (some k.val) (BitVec.ofNat 16 s.pubs[k].gap) x is
      { s with pubs := s.pubs.set k (committedEntry k s) }
  intro x is s
  rw [makeCommit_eq, makeCommit_eq]
  exact Blind.ite (c := fun s => s.pubs[k].state = .active) (fun _ _ _ => .rfl) ((blind_servePull k).comp told) told
    x is s

theorem blind_askCommit (k : Fin 16) : Blind (askCommit k) :=
  .ite (fun _ _ _ => .rfl) (blind_updPub k _) (blind_makeCommit k)

/-! ### The drain -/

theorem blind_appendSample (k : Fin 16) (bytes : List Byte) (stamp : Stamp) : Blind (appendSample k bytes stamp) := by
  let added (s : State) : State := { s with
    store := Memory.writeBytes s.store (fillAddr s.pubs[k]) bytes
    pubs := s.pubs.set k (appendedEntry s.pubs[k] stamp) }
  have add : Blind added := fun _ _ _ => rfl
  intro x is s
  rw [appendSample_eq, appendSample_eq]
  exact Blind.ite (c := fun s => s.pubs[k].fillCount + 1 < s.pubs[k].samples) (fun _ _ _ => .rfl) add
    ((blind_askCommit k).comp add) x is s

theorem blind_judgeItem (item : FifoItem) : Blind (judgeItem item) := by
  refine .ite (fun _ _ _ => .rfl) (fun _ _ _ => rfl) (.ite (fun _ _ _ => .rfl) (fun _ _ _ => rfl)
    (.ite (fun _ _ _ => .rfl) (blind_updPub _ _) ?_))
  exact fun x is s => blind_appendSample item.tag (sampleBytes s.pubs[item.tag].width item) item.stamp x is s

theorem blind_drainOne : Blind drainOne := by
  intro x is s
  unfold drainOne
  show (match s.fifo with
    | [] => atPort x is s
    | item :: rest => judgeItem item { atPort x is s with fifo := rest }) = _
  cases s.fifo with
  | nil => rfl
  | cons item rest => exact blind_judgeItem item x is { s with fifo := rest }

theorem blind_drainWaiting : Blind drainWaiting := fun x is s =>
  Blind.foldl (f := fun t _ => drainOne t) (fun _ => blind_drainOne) s.fifo x is s

/-! ### The ring write of a block that waits -/

theorem blind_updSub (j : Fin 32) (f : Subscription → Subscription) : Blind (updSub j f) := fun _ _ _ => rfl

theorem blind_liveTest (j : Fin 32) : Blind (liveTest j) :=
  .ite (fun _ _ _ => .rfl)
    (fun x is s => (blind_raise _ _ _).comp (blind_updSub j _) x is s) blind_id

theorem blind_noteOverrun (j : Fin 32) : Blind (noteOverrun j) := by
  have told : Blind fun s => if s.subs[j].overrunReported then s else
      raise .ringOverrun (some j.val) (BitVec.ofNat 16 s.subs[j].overruns)
        (updSub j (fun x => { x with overrunReported := true }) s) :=
    .ite (fun _ _ _ => .rfl) blind_id
      fun x is s => (blind_raise _ _ _).comp (blind_updSub j _) x is s
  exact told.comp (blind_updSub j _)

theorem blind_appendBlock (m : BurstEnd) (j : Fin 32) (b : BlockBurst) (missed : Nat) (late : Bool) :
    Blind (appendBlock m j b missed late) := by
  have placed (ring : List RingEntry) (entry : RingEntry) (at_ : Nat) : Blind fun s =>
      updSub j (fun x => { x with ring := ring ++ [entry] })
        { s with store := Memory.writeBytes s.store at_ b.payload } := fun _ _ _ => rfl
  exact .ite (fun _ _ _ => .rfl) (fun x is s => (blind_raise _ _ _).comp (placed _ _ _) x is s) fun _ _ _ => rfl

theorem blind_acceptBlock (m : BurstEnd) (j : Fin 32) (b : BlockBurst) : Blind (acceptBlock m j b) := by
  have overrun (c : Bool) : Blind fun s => if c then noteOverrun j s else s :=
    .ite (fun _ _ _ => .rfl) (blind_noteOverrun j) blind_id
  have placed (full late : Bool) (missed : Nat) (mode : RingMode) : Blind fun s => if full then
        match mode with
        | .keepOldest => s
        | .keepNewest => appendBlock m j b missed late (updSub j (fun x => { x with ring := x.ring.drop 1 }) s)
      else appendBlock m j b missed late s := by
    refine .ite (fun _ _ _ => .rfl) ?_ (blind_appendBlock m j b missed late)
    cases mode with
    | keepOldest => exact blind_id
    | keepNewest => exact (blind_appendBlock m j b missed late).comp (blind_updSub j _)
  exact fun x is s => (blind_occurIf _ _ _ _).comp ((blind_occurIf _ _ _ _).comp ((blind_occurIf _ _ _ _).comp
    ((blind_occurIf _ _ _ _).comp ((blind_occur _ _ _).comp ((blind_liveTest j).comp ((blind_updSub j _).comp
      ((placed _ _ _ _).comp ((overrun _).comp ((overrun _).comp (blind_updSub j _)))))))))) x is s

theorem blind_blockArrives (m : BurstEnd) (b : BlockBurst) : Blind (blockArrives m b) := by
  have duplicate (j : Fin 32) : Blind (duplicateBlock j) :=
    (blind_occur _ _ _).comp ((blind_liveTest j).comp (blind_updSub j _))
  have judged (j : Fin 32) : Blind fun s =>
      if s.subs[j].last = some b.seq then duplicateBlock j s else acceptBlock m j b s :=
    .ite (fun _ _ _ => .rfl) (duplicate j) (blind_acceptBlock m j b)
  intro x is s
  unfold blockArrives
  show (match matchSub s b.publisher b.index with | none => _ | some j => _) = _
  cases matchSub s b.publisher b.index with
  | none => rfl
  | some j => exact (judged j).comp (blind_updSub j _) x is s

/-- The hand-over of a block (R52, R60, R127). -/
theorem blind_deliverBlock (m : BurstEnd) (b : BlockBurst) : Blind (deliver m (.block b)) := by
  have marked (c : Bool) (d : Due) : Blind (markIf c d) :=
    .ite (fun _ _ _ => .rfl) (.ite (fun _ _ _ => .rfl) blind_id fun _ _ _ => rfl) blind_id
  have scored : Blind fun s => updStation (fun x => { x with recovery := min 32 (x.recovery + 1) }) s :=
    fun _ _ _ => rfl
  have recovered : Blind fun s => markIf (decide (32 ≤ s.station.recovery)) .recoveryComplete s :=
    fun x is s => marked (decide (32 ≤ s.station.recovery)) .recoveryComplete x is s
  have clean : Blind cleanBurst := .ite (fun _ _ _ => .rfl) (recovered.comp scored) blind_id
  have hand : Blind (handOver m (.block b)) := .ite (fun _ _ _ => .rfl) blind_id (blind_blockArrives m b)
  exact (blind_occur _ _ _).comp (clean.comp hand)

/-- A SILENCED station that recovers goes to LISTEN with its score at zero (R83). -/
theorem completeRecovery_eq (s : State) : completeRecovery s
    = if s.station.state = .silenced ∧ 32 ≤ s.station.recovery then
        zeroScore (updStation (fun x => { x with listen := 0 }) (announceStation .listen 13 s))
      else s :=
  if_ctx_congr .rfl (fun h => changeStation_recovers s h.1) fun _ => rfl

theorem blind_completeRecovery : Blind completeRecovery := by
  have changed (f : Station → Station) : Blind (updStation f) := fun _ _ _ => rfl
  have zeroed : Blind zeroScore := .ite (c := fun s => s.station.caution = true) (fun _ _ _ => .rfl)
    (fun x is s => (blind_raise _ _ _).comp (changed _) x is s) (changed _)
  have announced : Blind (announceStation .listen 13) :=
    fun x is s => (blind_raise _ _ _).comp (changed _) x is s
  intro x is s
  rw [completeRecovery_eq, completeRecovery_eq]
  exact Blind.ite (c := fun s => s.station.state = .silenced ∧ 32 ≤ s.station.recovery) (fun _ _ _ => .rfl)
    (zeroed.comp ((changed _).comp announced)) blind_id x is s

/-- A block waits for its ring in one of the receive buffers. -/
theorem ringWriteWaits_block {s : State} (w : ringWriteWaits s = true) : ∃ bytes m b,
    waitingBurst s.cable = some (bytes, m) ∧ readBurst bytes = some (.block b) ∧ placesBlock b s = true := by
  unfold ringWriteWaits at w
  split at w
  · next b found =>
    obtain ⟨⟨bytes, m⟩, waits, reads⟩ := Option.bind_eq_some_iff.1 found
    exact ⟨bytes, m, b, waits, reads, w⟩
  all_goals exact absurd w nofun

theorem handWaiting_block {s : State} {bytes : List Byte} {m : BurstEnd} {b : BlockBurst}
    (waits : waitingBurst s.cable = some (bytes, m)) (reads : readBurst bytes = some (.block b)) :
    handWaiting s = deliver m (.block b) (updCable freeWaiting s) := by
  simp only [handWaiting, waits, reads]

theorem blind_placeWaiting : Blind placeWaiting := by
  have taken (t u : State) (x : Transaction) (is : List Instr) (e : t = atPort x is u) :
      takeDue .recoveryComplete t = atPort x is (takeDue .recoveryComplete u) := e ▸
    Blind.ite (c := fun s => Due.recoveryComplete ∈ s.due) (fun _ _ _ => .rfl)
      (blind_completeRecovery.comp (g := clearDue .recoveryComplete) fun _ _ _ => rfl) blind_id x is u
  intro x is s
  by_cases w : ringWriteWaits s = true
  · obtain ⟨bytes, m, b, waits, reads, -⟩ := ringWriteWaits_block w
    rw [placeWaiting_waits s w, placeWaiting_waits (atPort x is s) w, handWaiting_block waits reads,
      handWaiting_block (s := atPort x is s) waits reads]
    exact taken _ _ x is (blind_deliverBlock m b x is (updCable freeWaiting s))
  · exact (if_neg w).trans (congrArg (atPort x is) (if_neg w).symm)

end Sys2Proof.Machine
end

section
/-! PROOF. What the drain leaves, and a request that is granted the block store behind it. -/

namespace Sys2Proof.Machine
open Sys2Proof.Claims

/-! ### What the drain leaves (R109, R110) -/

/-- `t` is `s` but for the sample port, the store, publications that are fed from the port, the queue, the monitor and
events. -/
structure Drained (s t : State) : Prop where
  frame : t = { s with
    pubs := t.pubs, fifo := t.fifo, portRejects := t.portRejects, store := t.store, txQueue := t.txQueue
    monitor := t.monitor, port := t.port }
  fed : ∀ k : Fin 16, s.pubs[k].feed = .requestFed → t.pubs[k] = s.pubs[k]

theorem Drained.refl (s : State) : Drained s s := ⟨rfl, fun _ _ => rfl⟩

theorem Drained.trans {s t u : State} (a : Drained s t) (b : Drained t u) : Drained s u where
  frame := b.frame.trans (congrArg (fun x : State => { x with
    pubs := u.pubs, fifo := u.fifo, portRejects := u.portRejects, store := u.store, txQueue := u.txQueue
    monitor := u.monitor, port := u.port }) a.frame)
  fed k fed := (b.fed k (by rw [a.fed k fed]; exact fed)).trans (a.fed k fed)

theorem Drained.timebase {s t : State} (h : Drained s t) : t.timebase = s.timebase := by rw [h.frame]

theorem Drained.cable {s t : State} (h : Drained s t) : t.cable = s.cable := by rw [h.frame]

theorem Drained.subs {s t : State} (h : Drained s t) : t.subs = s.subs := by rw [h.frame]

theorem Drained.due {s t : State} (h : Drained s t) : t.due = s.due := by rw [h.frame]

theorem askCommit_frame (k : Fin 16) (s : State) : askCommit k s = { s with
    pubs := (askCommit k s).pubs, txQueue := (askCommit k s).txQueue, monitor := (askCommit k s).monitor
    port := (askCommit k s).port } := by
  unfold askCommit
  split
  · rfl
  · exact makeCommit_frame k s

/-- A commit leaves every other publication. -/
theorem askCommit_other {k j : Fin 16} (ne : j ≠ k) (s : State) : (askCommit k s).pubs[j] = s.pubs[j] := by
  have updated (f : Publication → Publication) (t : State) : (updPub k f t).pubs[j] = t.pubs[j] :=
    upd_get_ne _ k j f ne
  have told : (committed k s).pubs[j] = s.pubs[j] :=
    (congrArg (·[j]) (committed_pubs k s)).trans (updated (fun _ => committedEntry k s) s)
  have served (t : State) : (servePull k t).pubs[j] = t.pubs[j] := by
    unfold servePull
    split
    · exact (congrArg (·[j]) (enqueue_pubs _ _)).trans (updated _ t)
    · rfl
  unfold askCommit
  split
  · exact updated _ s
  · rw [makeCommit_eq]
    split
    · exact (served _).trans told
    · exact told

theorem drained_judgeItem (item : FifoItem) (s : State) : Drained s (judgeItem item s) where
  frame := by
    unfold judgeItem
    dsimp only
    split
    · rfl
    · split
      · rfl
      · split
        · rfl
        · rw [appendSample_eq]
          dsimp only
          split
          · rfl
          · rw [askCommit_frame]
  fed k fed := by
    by_cases own : k = item.tag
    · subst own
      rw [judgeItem_unfit (.inr (.inl fed))]
      rfl
    · unfold judgeItem
      dsimp only
      split
      · rfl
      · split
        · rfl
        · split
          · exact upd_get_ne _ _ _ _ own
          · rw [appendSample_eq]
            have set : (s.pubs.set item.tag (appendedEntry s.pubs[item.tag] item.stamp))[k] = s.pubs[k] :=
              upd_get_ne s.pubs item.tag k (fun _ => appendedEntry s.pubs[item.tag] item.stamp) own
            dsimp only
            split
            · exact set
            · exact (askCommit_other own _).trans set

theorem drained_drainOne (s : State) : Drained s (drainOne s) := by
  unfold drainOne
  split
  · exact .refl s
  · next item rest _ =>
    have taken : Drained s { s with fifo := rest } := ⟨rfl, fun _ _ => rfl⟩
    exact taken.trans (drained_judgeItem item _)

theorem drained_drainWaiting (s : State) : Drained s (drainWaiting s) :=
  foldl_keeps Drained _ .refl (fun _ _ _ => .trans) (fun t _ => drained_drainOne t) s.fifo s

/-- The drain empties the FIFO. -/
theorem drainWaiting_fifo (s : State) : (drainWaiting s).fifo = [] := by
  suffices empties : ∀ (n : Nat) (s : State), s.fifo.length = n → (drainWaiting s).fifo = [] from empties _ s rfl
  intro n
  induction n with
  | zero =>
    intro s none
    have empty : s.fifo = [] := List.length_eq_zero_iff.1 none
    rwa [drainWaiting_none s empty]
  | succ n ih =>
    intro s more
    have some : s.fifo ≠ [] := fun e => by simp [e] at more
    rw [drainWaiting_item s some]
    exact ih (drainOne s) (by rw [drainOne_fifo, List.length_tail, more]; rfl)

/-! ### The state at a grant to the host port (R103) -/

/-- The state that a request finds at its grant: the cable side and the drain came before it. -/
def granted (s : State) : State := drainWaiting (placeWaiting s)

theorem blind_granted : Blind granted := blind_drainWaiting.comp blind_placeWaiting

theorem placeWaiting_fifo (s : State) : (placeWaiting s).fifo = s.fifo := by
  obtain ⟨-, -, fifo, -⟩ := placeWaiting_keepsPorts s
  exact fifo

theorem placeWaiting_binding (s : State) : (placeWaiting s).cable.binding = s.cable.binding := by
  obtain ⟨-, -, -, -, -, -, -, -, -, -, binding⟩ := placeWaiting_keepsPorts s
  exact binding

/-- The drain leaves the binding. -/
theorem Drained.binding {s t : State} (h : Drained (placeWaiting s) t) : t.cable.binding = s.cable.binding :=
  (congrArg Cable.binding h.cable).trans (placeWaiting_binding s)

/-- Rack time and the publications that are fed by requests stay. -/
theorem granted_keeps (s : State) : (granted s).timebase = s.timebase
    ∧ ∀ k : Fin 16, s.pubs[k].feed = .requestFed → (granted s).pubs[k] = s.pubs[k] := by
  obtain ⟨-, -, -, pubs, -, -, -, -, -, timebase, -⟩ := placeWaiting_keepsPorts s
  have drained := drained_drainWaiting (placeWaiting s)
  refine ⟨drained.timebase.trans timebase, fun k fed => ?_⟩
  have same : (placeWaiting s).pubs[k] = s.pubs[k] := congrArg (·[k]) pubs
  exact (drained.fed k (by rw [same]; exact fed)).trans same

/-- A request that is taken at its grant, where nothing is due, no request is held, and the store is free. -/
theorem taken_granted {c : Instr} {s t : State} {body : List Byte} (row : exec c s = .next (requestRow c s))
    (r : Ready s) (free : s.cable.binding = none) (n : needsStore c s = true)
    (reply : replyOf c (setTransaction .waiting (granted s)) = .taken body (setTransaction .waiting t)) :
    Taken c s body t := by
  obtain ⟨due, held⟩ := r
  have idle : storeBusy s = false := by rw [storeBusy, free]; rfl
  rw [Taken, row, requestRow_now c s due held idle, handleNow, grantStore_access c s n, answerNow, ← granted, reply,
    answer, respond_waiting _ _ _ rfl]
  rfl

end Sys2Proof.Machine
end

section
/-! PROOF. FILL and COMMIT. -/

namespace Sys2Proof.Machine
open Sys2Proof.Claims

/-! ### Requests that are refused, whatever the transaction -/

theorem needsStore_refused {c : Instr} {s : State} {status : Status} (reply : replyOf c s = .refused status) :
    needsStore c s = false := by
  unfold needsStore
  rw [reply]
  cases c <;> rfl

/-- A request is refused that would be refused in any transaction. -/
theorem refused_of_replies {c : Instr} {s : State} {status : Status} (row : exec c s = .next (requestRow c s))
    (r : Ready s) (reply : ∀ x, replyOf c (setTransaction x s) = .refused status) : RefusedWith c s status :=
  refused_of_reply row r (needsStore_refused (reply s.port.transaction)) (reply .waiting)

theorem Blind.setTransaction {op : State → State} (h : Blind op) (x : Transaction) (s : State) :
    op (setTransaction x s) = Machine.setTransaction x (op s) := by
  refine (h x s.port.held s).trans ?_
  rw [← h.held s]
  rfl

/-! ### FILL (R111) -/

/-- The samples of these bytes that publication `p` accepts. -/
def acceptedSamples (p : Publication) (samples : List Byte) : Nat :=
  min (p.samples - p.fillCount) (samples.length / p.width.bytes)

theorem acceptedSamples_le (p : Publication) (samples : List Byte) :
    acceptedSamples p samples * p.width.bytes ≤ samples.length :=
  (Nat.mul_le_mul_right _ (Nat.min_le_right _ _)).trans (Nat.div_mul_le_self _ _)

/-- The state after a FILL of publication `k` with this stamp: the fill is open, and the samples appended that it
accepts. -/
def filled (k : Fin 16) (time : Ticks48) (capture : TimebaseState) (samples : List Byte) (s : State) : State :=
  let p := s.pubs[k]
  let n := acceptedSamples p samples
  { s with
    store := Memory.writeBytes s.store (fillAddr p) (samples.take (n * p.width.bytes))
    pubs := s.pubs.set k { p with
      fillOpen := true, fillCount := p.fillCount + n
      fillTime := if p.fillOpen then p.fillTime else time
      fillCapture := if p.fillOpen then p.fillCapture else capture } }

theorem fillSamples_openFill (k : Fin 16) (body samples : List Byte) (s : State) :
    fillSamples k samples (openFill k body s)
      = (acceptedSamples s.pubs[k] samples, filled k (fillStamp body s.timebase) s.timebase.state samples s) := by
  unfold openFill filled
  by_cases open_ : s.pubs[k].fillOpen = true
  · rw [if_pos open_]
    simp only [fillSamples, updPub, upd, acceptedSamples, if_pos open_]
    rw [← open_]
  · rw [if_neg open_]
    have entry (f : Publication → Publication) : (updPub k f s).pubs[k] = f s.pubs[k] := upd_get ..
    simp only [fillSamples, entry, if_neg open_]
    simp only [updPub, upd_upd]
    rfl

/-- A FILL of a publication that is in use, fed by requests, with no commit pending. -/
theorem fillAct_eq {k : Fin 16} {body : List Byte} {s : State} (number : pubOf body = some k) :
    fillAct body s = if s.pubs[k].state = .unused then .refused .unused
      else if s.pubs[k].feed = .portFed then .refused .state
      else if s.pubs[k].commitPending then .refused .busy
      else .taken (beBytes 2 (acceptedSamples s.pubs[k] (body.drop 8)))
        (filled k (fillStamp body s.timebase) s.timebase.state (body.drop 8) s) := by
  rw [fillAct, withPub, number]
  simp only [fillSamples_openFill]

theorem fill_reply {body : List Byte} (long : 8 ≤ body.length) (short : body.length ≤ 1536) (s : State) :
    replyOf (.fill body) s = fillAct body s :=
  let fits (b : List Byte) : Bool := decide (8 ≤ b.length ∧ b.length ≤ 1536)
  checked_ok (fits := fits) fillAct s (decide_eq_true ⟨long, short⟩) short

/-- A FILL makes accesses to the block store when it is taken with a sample (R103). -/
theorem needsStore_fill {body : List Byte} {s t : State} {n : Nat}
    (reply : replyOf (.fill body) s = .taken (beBytes 2 n) t) (small : n < 65536) :
    needsStore (.fill body) s = decide (n ≠ 0) := by
  have value : field (beBytes 2 n) 0 2 = n := by
    have read := field_middle [] (beBytes 2 n) []
    rw [List.append_nil, beNat_beBytes, length_beBytes] at read
    exact read.trans (Nat.mod_eq_of_lt small)
  simp only [needsStore, reply, value]
  by_cases zero : n = 0 <;> simp [zero]

/-! ### COMMIT (R115) -/

theorem commitAct_eq (k : Fin 16) (s : State) : replyOf (.commit [BitVec.ofNat 8 k.val]) s
    = if s.pubs[k].state = .unused then .refused .unused
      else if s.pubs[k].commitPending then .refused .busy
      else if s.pubs[k].fillCount = 0 then .refused .empty
      else .taken (flagOf ((askCommit k (discardHigh k s)).pubs[k].commitPending == Config.commitFlagMeansPending))
        (askCommit k (discardHigh k s)) :=
  withPub_byte k s _

/-- A commit is pending after it is asked for exactly when the burst of the publication is in flight (R112). -/
theorem askCommit_pending (k : Fin 16) (s : State) :
    (askCommit k s).pubs[k].commitPending = decide (s.cable.binding = some k) := by
  unfold askCommit
  by_cases bound : s.cable.binding = some k
  · rw [if_pos bound, decide_eq_true bound]
    exact congrArg Publication.commitPending (upd_get s.pubs k _)
  · have served (t : State) : (servePull k t).pubs[k].commitPending = t.pubs[k].commitPending := by
      unfold servePull
      split
      · let served := updPub k (fun p => { p with pullPending := false }) t
        have entry := (congrArg (·[k]) (enqueue_pubs (.block k) served)).trans (upd_get t.pubs k _)
        exact (congrArg Publication.commitPending entry :)
      · rfl
    have made : (committed k s).pubs[k].commitPending = false := by rw [committed_entry]; rfl
    rw [if_neg bound, decide_eq_false bound, makeCommit_eq]
    split
    · exact (served _).trans made
    · exact made

theorem blind_discardHigh (k : Fin 16) : Blind (discardHigh k) := .ite (fun _ _ _ => .rfl) (fun _ _ _ => rfl) blind_id

/-- The binding is not touched when a half sample is discarded. -/
theorem discardHigh_binding (k : Fin 16) (s : State) : (discardHigh k s).cable = s.cable := by
  unfold discardHigh
  split <;> rfl

/-- Settles O34. -/
theorem fillAndCommitRequests : Obligations.FillAndCommitRequests := by
  intro k flag t0 t1 t2 t3 t4 t5 samples s r length n fill p q accepted at_ time
  let body (m : Byte) : List Byte := [m, flag, t0, t1, t2, t3, t4, t5] ++ samples
  have reply (m : Byte) (u : State) : replyOf (fill m) u = fillAct (body m) u := by
    have bytes : (body m).length = 8 + samples.length := List.length_append
    exact fill_reply (body := body m) (by omega) (by omega) u
  have number : pubOf (body n) = some k := unitIx_byte k (by decide)
  have fills (x : Transaction) := reply n (setTransaction x s)
  have commits (x : Transaction) := commitAct_eq k (setTransaction x s)
  refine ⟨fun m high => ?range, fun unused => ?unused, fun used fed => ?portFed, fun used fed pending => ?pending,
    fun free used fed idle => ?fills, fun used pending => ?busy, fun used idle empty => ?empty,
    fun used idle some => ?commits⟩
  case range =>
    have none : pubOf (body m) = none := unitIx_none m high
    refine ⟨refused_of_replies rfl r fun x => (reply m _).trans ?_,
      refused_of_replies rfl r fun x => withPub_none m _ _ high⟩
    rw [fillAct, withPub, none]
  case unused =>
    exact ⟨refused_of_replies rfl r fun x => (fills x).trans ((fillAct_eq number).trans (if_pos unused)),
      refused_of_replies rfl r fun x => (commits x).trans (if_pos unused)⟩
  case portFed =>
    exact refused_of_replies rfl r fun x =>
      (fills x).trans ((fillAct_eq number).trans ((if_neg used).trans (if_pos fed)))
  case pending =>
    have other : p.feed ≠ .portFed := by rw [fed]; decide
    exact refused_of_replies rfl r fun x =>
      (fills x).trans ((fillAct_eq number).trans ((if_neg used).trans ((if_neg other).trans (if_pos pending))))
  case fills =>
    have other : p.feed ≠ .portFed := by rw [fed]; decide
    have taken (u : State) (same : u.pubs[k] = p) : replyOf (fill n) u
        = .taken (beBytes 2 accepted) (filled k (fillStamp (body n) u.timebase) u.timebase.state samples u) := by
      refine (reply n u).trans ((fillAct_eq number).trans ?_)
      rw [same, if_neg used, if_neg other, if_neg (ne_true_of_eq_false idle)]
      rfl
    have bound : accepted * p.width.bytes ≤ samples.length := acceptedSamples_le p samples
    have size : (samples.take (accepted * p.width.bytes)).length = accepted * p.width.bytes := by
      rw [List.length_take, Nat.min_eq_left bound]
    have small : accepted < 65536 := by
      have width : 1 ≤ p.width.bytes := by cases p.width <;> decide
      have := Nat.le_mul_of_pos_right accepted width
      omega
    have needs : needsStore (fill n) s = decide (accepted ≠ 0) := needsStore_fill (taken s rfl) small
    intro d
    refine ⟨Memory.writeBytes d.store at_ (samples.take (accepted * p.width.bytes)), ?_, fun wf => ?_⟩
    · by_cases zero : accepted = 0
      · rw [show d = s from if_pos zero]
        exact taken_of_reply rfl r (needs.trans (by simp [zero])) (taken _ rfl)
      · obtain ⟨timebase, pubs⟩ := granted_keeps s
        have entry : (granted s).pubs[k] = p := pubs k fed
        rw [show d = granted s from if_neg zero]
        refine taken_granted rfl r (free.resolve_right zero) (needs.trans (by simp [zero])) ?_
        let w := setTransaction .waiting (granted s)
        refine (taken w entry).trans (congrArg (Reply.taken _) ?_)
        rw [show w.timebase = s.timebase from timebase, filled, show w.pubs[k] = p from entry]
        rfl
    · have written := written_reads at_ (samples.take (accepted * p.width.bytes)) wf
      rwa [size] at written
  case busy => exact refused_of_replies rfl r fun x => (commits x).trans ((if_neg used).trans (if_pos pending))
  case empty =>
    exact refused_of_replies rfl r fun x => (commits x).trans
      ((if_neg used).trans ((if_neg (ne_true_of_eq_false idle)).trans (if_pos empty)))
  case commits =>
    intro u pends
    have discarded : discardHigh k s = u := if_congr (by rw [Option.isSome_iff_ne_none]) rfl rfl
    have act : Blind fun s => askCommit k (discardHigh k s) := (blind_askCommit k).comp (blind_discardHigh k)
    have whole : askCommit k (discardHigh k (setTransaction .waiting s)) = setTransaction .waiting (askCommit k u) := by
      rw [act.setTransaction .waiting s, discarded]
    have flagged : (askCommit k u).pubs[k].commitPending = pends := by
      rw [askCommit_pending, ← discarded, discardHigh_binding]
    refine taken_of_reply rfl r rfl ((commits .waiting).trans ?_)
    refine (if_neg used).trans ((if_neg (ne_true_of_eq_false idle)).trans ((if_neg some).trans ?_))
    rw [whole, show (setTransaction .waiting (askCommit k u)).pubs[k].commitPending = pends from flagged]
    simp [flagOf, flagByte]

end Sys2Proof.Machine
end

section
/-! PROOF. TAKE and PULL. -/

namespace Sys2Proof.Machine
open Sys2Proof.Claims

/-! ### The ring write of a block that waits leaves the subscriptions in use -/

/-- Every subscription in use stays in use. -/
def KeepsSubs (s t : State) : Prop := ∀ j : Fin 32, s.subs[j].state ≠ .unused → t.subs[j].state ≠ .unused

theorem KeepsSubs.refl (s : State) : KeepsSubs s s := fun _ => id

theorem KeepsSubs.trans {s t u : State} (a : KeepsSubs s t) (b : KeepsSubs t u) : KeepsSubs s u :=
  fun j used => b j (a j used)

theorem KeepsSubs.same {s t : State} (h : t.subs = s.subs) : KeepsSubs s t := fun _ used => by rwa [h]

theorem KeepsSubs.ite {s t u : State} {c : Prop} [Decidable c] (h : c → KeepsSubs s t) (h' : ¬ c → KeepsSubs s u) :
    KeepsSubs s (if c then t else u) := by
  split
  · next yes => exact h yes
  · next no => exact h' no

theorem keepsSubs_updSub {f : Subscription → Subscription} (keeps : ∀ x, x.state ≠ .unused → (f x).state ≠ .unused)
    (i : Fin 32) (s : State) : KeepsSubs s (updSub i f s) := by
  intro j used
  rw [show (updSub i f s).subs[j] = _ from upd_get_if s.subs i j f]
  split
  · exact keeps _ used
  · exact used

theorem keepsSubs_liveTest (j : Fin 32) (s : State) : KeepsSubs s (liveTest j s) := by
  have live : KeepsSubs s (updSub j (fun x => { x with state := .live }) s) :=
    keepsSubs_updSub (fun _ _ => SubState.noConfusion) j s
  exact .ite (fun _ => live.trans (.same (raise_subs _ _ _ _))) fun _ => .refl s

theorem keepsSubs_noteOverrun (j : Fin 32) (s : State) : KeepsSubs s (noteOverrun j s) := by
  have counted := keepsSubs_updSub (f := fun x => { x with overruns := satAdd x.overruns 1 65535 }) (fun _ => id) j s
  unfold noteOverrun
  exact counted.trans (.ite (fun _ => .refl _) fun _ =>
    (keepsSubs_updSub (f := fun x => { x with overrunReported := true }) (fun _ => id) j _).trans
      (.same (raise_subs _ _ _ _)))

theorem keepsSubs_appendBlock (m : BurstEnd) (j : Fin 32) (b : BlockBurst) (missed : Nat) (late : Bool) (s : State) :
    KeepsSubs s (appendBlock m j b missed late s) := by
  have placed (ring : List RingEntry) (store : List Host.Cell) :
      KeepsSubs s (updSub j (fun x => { x with ring := ring }) { s with store := store }) :=
    keepsSubs_updSub (f := fun x => { x with ring := ring }) (fun _ => id) j s
  unfold appendBlock
  exact .ite (fun _ => (placed _ _).trans (.same (raise_subs _ _ _ _))) fun _ => placed _ _

theorem keepsSubs_acceptBlock (m : BurstEnd) (j : Fin 32) (b : BlockBurst) (s : State) :
    KeepsSubs s (acceptBlock m j b s) := by
  have overrun (c : Bool) (t : State) : KeepsSubs t (if c then noteOverrun j t else t) :=
    .ite (fun _ => keepsSubs_noteOverrun j t) fun _ => .refl t
  have placed (full late : Bool) (missed : Nat) (mode : RingMode) (t : State) : KeepsSubs t (if full then
        match mode with
        | .keepOldest => t
        | .keepNewest => appendBlock m j b missed late (updSub j (fun x => { x with ring := x.ring.drop 1 }) t)
      else appendBlock m j b missed late t) := by
    refine .ite (fun _ => ?_) fun _ => keepsSubs_appendBlock m j b missed late t
    cases mode with
    | keepOldest => exact .refl t
    | keepNewest =>
      exact (keepsSubs_updSub (f := fun x => { x with ring := x.ring.drop 1 }) (fun _ => id) j t).trans
        (keepsSubs_appendBlock m j b missed late _)
  have told (c : Bool) (k : OccKind) (n : Nat) (t : State) : KeepsSubs t (occurIf c k (.subscription j) n t) :=
    .ite (fun _ => .same (occur_subs _ _ _ _)) fun _ => .refl t
  have counted := keepsSubs_updSub (f := fun x => { x with
    lates := if isLate m s.subs[j] b then satAdd x.lates 1 65535 else x.lates
    ring := s.subs[j].ring.filter fun e => !(e.seq == b.seq) }) (fun _ => id) j s
  have last (t : State) := keepsSubs_updSub (f := fun x => { x with last := some b.seq }) (fun _ => id) j t
  unfold acceptBlock
  refine .trans ?_ (((((KeepsSubs.same (occur_subs _ _ _ _)).trans (told _ _ _ _)).trans (told _ _ _ _)).trans
    (told _ _ _ _)).trans (told _ _ _ _))
  exact ((((counted.trans (overrun _ _)).trans (overrun _ _)).trans (placed _ _ _ _ _)).trans (last _)).trans
    (keepsSubs_liveTest j _)

theorem keepsSubs_blockArrives (m : BurstEnd) (b : BlockBurst) (s : State) : KeepsSubs s (blockArrives m b s) := by
  unfold blockArrives
  split
  · exact .refl s
  · next j _ =>
    have seen := keepsSubs_updSub (f := fun x => { x with lastBlock := arrivalEpoch m, pull := none }) (fun _ => id) j s
    have counted (t : State) :=
      keepsSubs_updSub (f := fun x => { x with duplicates := satAdd x.duplicates 1 65535 }) (fun _ => id) j t
    exact seen.trans (.ite
      (fun _ => ((counted _).trans (keepsSubs_liveTest j _)).trans (.same (occur_subs _ _ _ _)))
      fun _ => keepsSubs_acceptBlock m j b _)

theorem keepsSubs_placeWaiting (s : State) : KeepsSubs s (placeWaiting s) := by
  by_cases w : ringWriteWaits s = true
  · obtain ⟨bytes, m, b, waits, reads, -⟩ := ringWriteWaits_block w
    have clean (t : State) : KeepsSubs t (cleanBurst t) := by
      unfold cleanBurst markIf mark
      exact .ite (fun _ => .same (by dsimp only; split_ifs <;> rfl)) fun _ => .refl t
    have hand (t : State) : KeepsSubs t (handOver m (.block b) t) :=
      .ite (fun _ => .refl t) fun _ => keepsSubs_blockArrives m b t
    have recover (t : State) : KeepsSubs t (takeDue .recoveryComplete t) := by
      refine .ite (fun _ => .trans (t := clearDue .recoveryComplete t) (.same rfl) ?_) fun _ => .refl t
      show KeepsSubs _ (completeRecovery _)
      rw [completeRecovery_eq, announceStation_frame]
      exact .ite (fun _ => .same (by rw [zeroScore_eq]; rfl)) fun _ => .refl _
    rw [placeWaiting_waits s w, handWaiting_block waits reads, deliver]
    have freed : KeepsSubs s (updCable freeWaiting s) := .same rfl
    exact (((freed.trans (hand _)).trans (clean _)).trans (.same (occur_subs _ _ _ _))).trans (recover _)
  · rw [placeWaiting_none s (Bool.eq_false_iff.2 w)]
    exact .refl s

/-! ### The records of a TAKE (R134, R212) -/

/-- What stands behind a record does not change its fields. -/
theorem field_append (record behind : List Byte) {start n : Nat} (inside : start + n ≤ record.length) :
    field (record ++ behind) start n = field record start n := by
  rw [field, fieldBytes, List.drop_append_of_le_length (by omega),
    List.take_append_of_le_length (by rw [List.length_drop]; omega)]
  rfl

/-- A byte of a record is its field of one byte. -/
theorem byteAt_toNat (record : List Byte) {i : Nat} (inside : i < record.length) :
    (byteAt record i).toNat = field record i 1 := by
  rw [field, fieldBytes, List.drop_eq_getElem_cons inside, byteAt, List.getD_eq_getElem _ _ inside,
    List.take_succ_cons, List.take_zero, beNat_cons]
  simp [beNat]

/-- The fields in front of the payload of a TAKE response: those of the ring entry, and how many blocks remain. -/
def takeFields (e : RingEntry) (remain : Nat) : List (Nat × Nat) :=
  [(2, e.seq.toNat), (6, e.time.toNat), (1, e.width.code), (2, e.count), (1, e.flags.byte.toNat),
    (2, e.flags.gap.getD 0), (6, e.arrival.toNat), (1, e.missed), (1, flagValue e.late), (1, remain)]

theorem length_takeFields (e : RingEntry) (remain : Nat) : (laid (takeFields e remain)).length = 23 := by
  simp [takeFields]

theorem takeBytes_laid (s : State) (j : Fin 32) (e : RingEntry) : takeBytes s j e
    = laid (takeFields e (s.subs[j].ring.length - 1)) ++ payloadAt s (ringSlot j e.slot) e.width e.count := by
  have flags : [e.flags.byte] = beBytes 1 e.flags.byte.toNat := by simp [beBytes]
  rw [takeBytes, ringBytes, flagOf_eq, byteOf_eq, byteOf_eq, byteOf_eq, flags]
  simp only [takeFields, laid_cons, laid_nil, List.append_assoc, List.append_nil]

/-- The fields of a TAKE response, read from it. -/
theorem takeFields_read {e : RingEntry} {remain : Nat} (payload : List Byte) (count : e.count < 65536)
    (missed : e.missed ≤ 255) (few : remain ≤ 3) (gap : ∀ g, e.flags.gap = some g → g < 65536) :
    let body := laid (takeFields e remain) ++ payload
    field body 0 2 = e.seq.toNat ∧ field body 2 6 = e.time.toNat ∧ (byteAt body 8).toNat = e.width.code
      ∧ field body 9 2 = e.count ∧ byteAt body 11 = e.flags.byte ∧ field body 12 2 = e.flags.gap.getD 0
      ∧ field body 14 6 = e.arrival.toNat ∧ (byteAt body 20).toNat = e.missed
      ∧ byteAt body 21 = (if e.late then 1 else 0) ∧ (byteAt body 22).toNat = remain ∧ body.drop 23 = payload := by
  intro body
  have long : (laid (takeFields e remain)).length = 23 := length_takeFields e remain
  have reads {i n v : Nat} (h : field (laid (takeFields e remain)) i n = v % 256 ^ n) (inside : i + n ≤ 23)
      (small : v < 256 ^ n) : field body i n = v :=
    (field_append _ payload (by omega)).trans (h.trans (Nat.mod_eq_of_lt small))
  have byte {i v : Nat} (h : field (laid (takeFields e remain)) i 1 = v % 256 ^ 1) (inside : i + 1 ≤ 23)
      (small : v < 256) : (byteAt body i).toNat = v :=
    (byteAt_toNat _ (by rw [List.length_append]; omega)).trans (reads h inside small)
  have code : e.width.code < 256 := by cases e.width <;> decide
  have told : e.flags.gap.getD 0 < 256 ^ 2 := by
    cases found : e.flags.gap with
    | none => decide
    | some g => exact gap g found
  have late : flagValue e.late = (if e.late then (1 : Byte) else 0).toNat := by cases e.late <;> rfl
  have flag : flagValue e.late < 256 := late ▸ BitVec.isLt _
  obtain ⟨seq_, time_, width_, count_, flags_, gap_, arrival_, missed_, late_, remain_, -⟩ :=
    laidOut_laid (takeFields e remain)
  exact ⟨reads seq_ (by decide) e.seq.isLt, reads time_ (by decide) e.time.isLt, byte width_ (by decide) code,
    reads count_ (by decide) count, BitVec.eq_of_toNat_eq (byte flags_ (by decide) e.flags.byte.isLt),
    reads gap_ (by decide) told, reads arrival_ (by decide) e.arrival.isLt,
    byte missed_ (by decide) (Nat.lt_succ_of_le missed),
    BitVec.eq_of_toNat_eq ((byte late_ (by decide) flag).trans late), byte remain_ (by decide) (by omega),
    List.drop_left' long⟩

/-! ### TAKE (R134) -/

/-- A request to a subscription that must not be UNUSED. -/
theorem withSub_none (m : Byte) (s : State) (act : Fin 32 → Reply) (high : 31 < m.toNat) :
    withSub [m] s act = .refused .range := by
  rw [withSub, subOf, unitIx_none m (by omega)]

theorem withSub_byte (j : Fin 32) (s : State) (act : Fin 32 → Reply) :
    withSub [BitVec.ofNat 8 j.val] s act = if s.subs[j].state = .unused then .refused .unused else act j := by
  rw [withSub, subOf, unitIx_byte j (by decide)]

theorem take_empty {j : Fin 32} {s : State} (used : s.subs[j].state ≠ .unused) (empty : s.subs[j].ring = []) :
    replyOf (.take [BitVec.ofNat 8 j.val]) s = .refused .empty := by
  refine (withSub_byte j s _).trans ((if_neg used).trans ?_)
  rw [empty]

theorem take_oldest {j : Fin 32} {s : State} {e : RingEntry} {rest : List RingEntry} (used : s.subs[j].state ≠ .unused)
    (ring : s.subs[j].ring = e :: rest) : replyOf (.take [BitVec.ofNat 8 j.val]) s = .taken (takeBytes s j e)
      { s with subs := s.subs.set j { s.subs[j] with
          ring := rest, overrunReported := s.subs[j].overrunReported && decide (rest ≠ []) } } := by
  have left : dropOldest s.subs[j] = { s.subs[j] with
      ring := rest, overrunReported := s.subs[j].overrunReported && decide (rest ≠ []) } := by
    rw [dropOldest, ring]
    cases rest <;> rfl
  refine (withSub_byte j s _).trans ((if_neg used).trans ?_)
  rw [ring, ← left]
  rfl

/-- A TAKE of a block needs the block store (R103). -/
theorem needsStore_take {j : Fin 32} {s : State} (used : s.subs[j].state ≠ .unused) (ring : s.subs[j].ring ≠ []) :
    needsStore (.take [BitVec.ofNat 8 j.val]) s = true := by
  obtain ⟨e, rest, found⟩ := List.exists_cons_of_ne_nil ring
  simp only [needsStore, take_oldest used found]

/-! ### PULL (R140) -/

theorem pull_reply (j : Fin 32) (s : State) : replyOf (.pull [BitVec.ofNat 8 j.val]) s
    = if s.subs[j].state = .unused then .refused .unused
      else if s.station.state = .joined then
        .taken (flagOf (s.subs[j].pull.isSome == Config.pullFlagMeansPending))
          (updSub j (beginPull (epoch32 s.timebase)) (enqueue (.pull j) s))
      else .refused .state :=
  withSub_byte j s _

theorem beginPull_eq (epoch : Epoch32) (x : Subscription) :
    beginPull epoch x = { x with pull := some (x.pull.getD { tries := 1, deadline := epoch + 4 }) } := by
  unfold beginPull
  cases pending : x.pull with
  | none => rfl
  | some p => exact (if_pos rfl).trans (by rw [Option.getD_some, ← pending])

/-- Settles O36. -/
theorem takeAndPullRequests : Obligations.TakeAndPullRequests := by
  intro j s r n x
  have pulls (t : Transaction) := pull_reply j (setTransaction t s)
  refine ⟨fun m high => ?range, fun unused => ?unused, fun used empty => ?empty, ?takes, fun used other => ?state,
    fun used joined => ?pulls⟩
  case range =>
    exact ⟨refused_of_replies rfl r fun t => withSub_none m _ _ high,
      refused_of_replies rfl r fun t => withSub_none m _ _ high⟩
  case unused =>
    exact ⟨refused_of_replies rfl r fun t => (withSub_byte j _ _).trans (if_pos unused),
      refused_of_replies rfl r fun t => (pulls t).trans (if_pos unused)⟩
  case empty => exact refused_of_replies rfl r fun t => take_empty (s := setTransaction t s) used empty
  case takes =>
    intro e rest free used some w y ring count missed more gap d
    have subs : d.subs = w.subs := (drained_drainWaiting w).subs
    have entry : d.subs[j] = y := congrArg (·[j]) subs
    have used' : y.state ≠ .unused := keepsSubs_placeWaiting s j used
    let v := setTransaction .waiting d
    have entry' : v.subs[j] = y := entry
    have reply := take_oldest (entry' ▸ used') (entry' ▸ ring)
    have remain : v.subs[j].ring.length - 1 = rest.length := by rw [entry', ring]; rfl
    rw [takeBytes_laid, remain, entry'] at reply
    exact ⟨_, taken_granted rfl r free (needsStore_take used some) reply,
      takeFields_read _ count missed more gap⟩
  case state =>
    exact refused_of_replies rfl r fun t => (pulls t).trans ((if_neg used).trans (if_neg other))
  case pulls =>
    intro begun
    refine taken_of_reply rfl r rfl ((pulls .waiting).trans ((if_neg used).trans ((if_pos joined).trans ?_)))
    have flag : flagOf (x.pull.isSome == Config.pullFlagMeansPending)
        = [if x.pull.isSome = Config.pullFlagMeansPending then 1 else 0] := by simp [flagOf, flagByte]
    have subs : (enqueue (.pull j) s).subs = s.subs := enqueue_subs _ _
    rw [(blind_enqueue (.pull j)).setTransaction .waiting s]
    refine congrArg₂ Reply.taken flag ?_
    show updSub j (beginPull (epoch32 s.timebase)) (setTransaction .waiting (enqueue (.pull j) s)) = _
    simp only [updSub, upd, setTransaction_subs, subs, beginPull_eq]
    rfl

end Sys2Proof.Machine
end

section
/-! PROOF. The grants of the block store: the block that waits for its ring, the drain, and what they leave. -/

namespace Sys2Proof.Machine
open Sys2Proof.Claims

/-! ### The block that waits for its ring (R103) -/

/-- The burst that waits in a buffer is the one that is handed over next. -/
theorem waitingBurst_iff (c : Cable) (bytes : List Byte) : waitsIn c bytes ↔ ∃ m, waitingBurst c = some (bytes, m) := by
  constructor
  · rintro (⟨m, first⟩ | ⟨other, m, second⟩)
    · exact ⟨m, (waitingBurst_first first).1⟩
    · exact ⟨m, (waitingBurst_second other second).1⟩
  · rintro ⟨m, waits⟩
    cases first : c.rx0 with
    | waiting b n =>
      rw [(waitingBurst_first first).1] at waits
      cases waits
      exact .inl ⟨m, first⟩
    | empty | receiving bits =>
      have other (b : List Byte) (n : BurstEnd) : c.rx0 ≠ .waiting b n := by rw [first]; exact nofun
      cases second : c.rx1 with
      | waiting b n =>
        rw [(waitingBurst_second other second).1] at waits
        cases waits
        exact .inr ⟨other, m, second⟩
      | empty | receiving bits =>
        rw [waitingBurst, first, second] at waits
        cases waits

/-- Subscription `x` has room in its ring for this block, or makes it, and the block is no duplicate (R128, R131,
R132). -/
def TakesBlock (x : Subscription) (b : BlockBurst) : Prop :=
  x.last ≠ some b.seq ∧ (x.mode = .keepNewest ∨ (x.ring.filter fun e => decide (e.seq ≠ b.seq)).length < 4)

/-- A block has to be written into a ring: the first subscription that names its channel takes it. -/
theorem placesBlock_iff (b : BlockBurst) (s : State) : placesBlock b s = true ↔ b.publisher ≠ s.station.own
    ∧ ∃ j, matchSub s b.publisher b.index = some j ∧ TakesBlock s.subs[j] b := by
  have kept (ring : List RingEntry) :
      (ring.filter fun e => !(e.seq == b.seq)) = ring.filter fun e => decide (e.seq ≠ b.seq) :=
    congrArg (List.filter · ring) (funext fun e => by by_cases same : e.seq = b.seq <;> simp [same])
  unfold placesBlock TakesBlock
  cases matchSub s b.publisher b.index with
  | none => simp
  | some j => simp [kept]

/-- With distinct channels a block waits for its ring exactly when the cable side asks for the write. -/
theorem waitsForItsRing_iff {s : State} (distinct : ChannelsDistinct s) (bytes : List Byte) : WaitsForItsRing s bytes ↔
    ∃ m b, waitingBurst s.cable = some (bytes, m) ∧ readBurst bytes = some (.block b) ∧ placesBlock b s = true := by
  constructor
  · rintro ⟨waits, b, j, reads, other, used, publisher, index, takes⟩
    obtain ⟨m, first⟩ := (waitingBurst_iff _ _).1 waits
    have found : matchSub s b.publisher b.index = some j :=
      matchSub_only ⟨used, publisher, index⟩ fun h ⟨used', publisher', index'⟩ =>
        distinct.1 h j used' used (publisher'.trans publisher.symm) (index'.trans index.symm)
    exact ⟨m, b, first, reads, (placesBlock_iff b s).2 ⟨other, j, found, takes⟩⟩
  · rintro ⟨m, b, first, reads, places⟩
    obtain ⟨other, j, found, takes⟩ := (placesBlock_iff b s).1 places
    have named := List.find?_some found
    simp only [Bool.and_eq_true, bne_iff_ne, beq_iff_eq] at named
    exact ⟨(waitingBurst_iff _ _).2 ⟨m, first⟩, b, j, reads, other, named.1.1, named.1.2, named.2, takes⟩

theorem ringWriteWaits_of {s : State} {bytes : List Byte} {m : BurstEnd} {b : BlockBurst}
    (waits : waitingBurst s.cable = some (bytes, m)) (reads : readBurst bytes = some (.block b))
    (places : placesBlock b s = true) : ringWriteWaits s = true := by
  simp only [ringWriteWaits, waits, Option.bind_some, reads, places]

/-! ### The hand-over and what it brings -/

/-- Where nothing but a recovery is due, taking what is due is taking it. -/
theorem settleBy_recovers {s : State} (only : ∀ d ∈ s.due, d = .recoveryComplete) (steps : List Due) :
    settleBy steps s = takeDue .recoveryComplete s := by
  let t := takeDue .recoveryComplete s
  have none (d : Due) : d ∉ t.due := fun m =>
    (mem_takeDue .recoveryComplete d s m).elim (fun ⟨was, other⟩ => other (only d was)) fun follows => follows.elim
  have first : takeDue .settleComplete s = s := if_neg fun m => Due.noConfusion (only _ m)
  have clock : takeInOrder clockDues s = t := by
    unfold clockDues
    rw [takeInOrder, List.foldl_cons, List.foldl_cons, first]
    exact takeInOrder_none _ t fun d _ => none d
  have ticks : takeSlotTick t = t := by
    unfold takeSlotTick takeCompares
    rw [takeDue, takeDueBy, if_neg (none _), takeFreely_none _ t fun d _ => none d]
    exact takeFreely_none _ t fun d _ => none d
  have boundary : takeEpochBoundary steps t = t := by
    rw [takeEpochBoundary, takeDue, takeDueBy, if_neg (none _)]
    exact takeInOrder_none _ t fun d _ => none d
  unfold settleBy
  dsimp only
  rw [clock, if_neg fun both => none _ both.1, ticks, boundary]

/-- With nothing due and no request held, what a hand-over brings is a recovery at most. -/
theorem settled_handWaiting {s : State} (r : Ready s) :
    settled (handWaiting s) = takeDue .recoveryComplete (handWaiting s) := by
  obtain ⟨due, held⟩ := r
  have goes := goes_handWaiting s
  have only (d : Due) (m : d ∈ (handWaiting s).due) : d = .recoveryComplete :=
    (goes.due d m).resolve_left (by rw [due]; exact List.not_mem_nil)
  have taken : dueTaken (handWaiting s) = takeDue .recoveryComplete (handWaiting s) := by
    unfold dueTaken
    split
    · next none => exact (if_neg (by rw [none]; exact List.not_mem_nil)).symm
    · exact settleBy_recovers only boundaryDues
  have none : (dueTaken (handWaiting s)).port.held = [] := (keeps_dueTaken _).held.trans (goes.held.trans held)
  rw [settled, serveHeld_none _ none, taken]

/-! ### What is left to wait at a grant -/

/-- Once the block that waits has been written into its ring none waits, whatever is drained since. -/
theorem ringWriteWaits_placed {s t : State} (one : OneWaits s.cable) (drained : Drained (placeWaiting s) t) :
    ringWriteWaits t = false := by
  have same : ringWriteWaits t = ringWriteWaits (placeWaiting s) := by
    rw [drained.frame]
    rfl
  rw [same]
  by_cases w : ringWriteWaits s = true
  · obtain ⟨bytes, m, b, waits, reads, -⟩ := ringWriteWaits_block w
    have alone : WaitsAlone bytes m s.cable := by
      rcases (waitingBurst_iff s.cable bytes).2 ⟨m, waits⟩ with ⟨n, first⟩ | ⟨other, n, second⟩
      · have e := (waitingBurst_first first).1.symm.trans waits
        cases e
        exact .inl ⟨first, fun a l second => one bytes m a l ⟨first, second⟩⟩
      · have e := (waitingBurst_second other second).1.symm.trans waits
        cases e
        exact .inr ⟨second, other⟩
    have recovered : (takeDue .recoveryComplete (handWaiting s)).cable = (handWaiting s).cable := by
      unfold takeDue takeDueBy
      split
      · exact completeRecovery_cable _
      · rfl
    rw [placeWaiting_waits s w]
    exact ringWriteWaits_none _ (by rw [recovered]; exact waitingBurst_none (handWaiting_alone alone))
  · have none : ringWriteWaits s = false := Bool.eq_false_iff.2 w
    rwa [placeWaiting_none s none]

/-- A grant finds nothing due where nothing was. -/
theorem due_placed {s t : State} (due : s.due = []) (drained : Drained (placeWaiting s) t) : t.due = [] := by
  rw [drained.due]
  exact List.eq_nil_iff_forall_not_mem.2 fun d m =>
    ((still_placeWaiting s).due d m).elim (by rw [due]; exact List.not_mem_nil) id

end Sys2Proof.Machine
end

section
/-! PROOF. Requests that wait for the block store, and how they are handled. -/

namespace Sys2Proof.Machine
open Sys2Proof.Claims

/-! ### The row of a request -/

theorem exec_isRequest {c : Instr} (request : isRequest c) (s : State) : exec c s = .next (requestRow c s) := by
  by_cases known : (requestBody c).isSome = true
  · exact exec_requestRow c s known
  · cases c with
    | unknownRequest kind body =>
      have undefined : definedKind kind = false := by
        refine decide_eq_false fun both => ?_
        rcases request with rfl | high
        · exact absurd both.1 (by decide)
        · omega
      show Host.Outcome.next (if definedKind kind then settled s else requestRow (.unknownRequest kind body) s) = _
      rw [undefined]
      rfl
    | _ => exact absurd request known

/-- Behind one or two held requests, while a burst holds the block store. -/
theorem exec_behind {c : Instr} {s : State} (request : isRequest c) (due : s.due = []) (bound : s.cable.binding ≠ none)
    (waits : s.port.held ≠ []) :
    exec c s = .next (if s.port.held.length < 2 then holdRequest c s else setTransaction .filler s) := by
  have busy : storeBusy s = true := Option.isSome_iff_ne_none.2 bound
  rw [exec_isRequest request, requestRow_behind c s due waits busy]

/-- A request that waits is handled in its own transaction as one that comes now. -/
theorem handleNow_waiting (c : Instr) {s : State} (waiting : s.port.transaction = .waiting) :
    handleNow c s = handleOne c s := by
  have kept : (grantStore c s).port.transaction = .waiting := by
    unfold grantStore
    split
    · exact (blind_granted.transaction s).trans waiting
    · exact waiting
  have same : setTransaction .waiting (grantStore c s) = grantStore c s := by
    rw [← kept]
    rfl
  rw [handleNow, same, handleOne]

/-- A request that comes while nothing is due, none is held and the store is free, in a transaction that waits. -/
theorem exec_waiting {c : Instr} {s : State} (request : isRequest c) (r : Ready s) (free : s.cable.binding = none)
    (waiting : s.port.transaction = .waiting) : exec c s = .next (handleOne c s) := by
  have idle : storeBusy s = false := by rw [storeBusy, free]; rfl
  rw [exec_isRequest request, requestRow_now c s r.1 r.2 idle, handleNow_waiting c waiting]

/-! ### A burst that holds the block store (R103) -/

/-- What a reply leaves, with the interface as it is in `x`. -/
def onCable (x : Cable) : Reply → Reply
  | .refused status => .refused status
  | .taken body t => .taken body { t with cable := x }

theorem answer_onCable (x : Cable) (s : State) (r : Reply) :
    answer { s with cable := x } (onCable x r) = { answer s r with cable := x } := by
  have responds (status : Status) (body : List Byte) (t : State) :
      respond status body { t with cable := x } = { respond status body t with cable := x } := by
    unfold respond
    cases t.port.transaction <;> rfl
  cases r with
  | refused status => exact responds status [] s
  | taken body t => exact responds .ok body t

theorem take_onCable (x : Cable) (j : Fin 32) (s : State) : replyOf (.take [BitVec.ofNat 8 j.val]) { s with cable := x }
    = onCable x (replyOf (.take [BitVec.ofNat 8 j.val]) s) := by
  have named (t : State) : replyOf (.take [BitVec.ofNat 8 j.val]) t = _ := withSub_byte j t _
  rw [named, named]
  dsimp only
  split_ifs
  · rfl
  · cases s.subs[j].ring <;> rfl

theorem fill_onCable (x : Cable) {k : Fin 16} {body : List Byte} (number : pubOf body = some k) (long : 8 ≤ body.length)
    (short : body.length ≤ 1536) (s : State) :
    replyOf (.fill body) { s with cable := x } = onCable x (replyOf (.fill body) s) := by
  have named (t : State) := (fill_reply long short t).trans (fillAct_eq number)
  rw [named, named]
  dsimp only
  split_ifs <;> rfl

/-- A FILL of a sample that the publication has room for needs the block store (R103). -/
theorem needsStore_fillSample {k : Fin 16} {body : List Byte} {s : State} (number : pubOf body = some k)
    (used : s.pubs[k].state ≠ .unused) (fed : s.pubs[k].feed = .requestFed) (idle : s.pubs[k].commitPending = false)
    (long : 8 + s.pubs[k].width.bytes ≤ body.length) (short : body.length ≤ 1536)
    (room : s.pubs[k].fillCount < s.pubs[k].samples) : needsStore (.fill body) s = true := by
  let n := acceptedSamples s.pubs[k] (body.drop 8)
  have other : s.pubs[k].feed ≠ .portFed := by rw [fed]; decide
  have reply := (fill_reply (by omega) short s).trans (fillAct_eq number)
  rw [if_neg used, if_neg other, if_neg (ne_true_of_eq_false idle)] at reply
  have samples : (body.drop 8).length = body.length - 8 := List.length_drop
  have width : 1 ≤ s.pubs[k].width.bytes := by cases s.pubs[k].width <;> decide
  have accepted : 1 ≤ n := le_min (by omega) ((Nat.one_le_div_iff width).2 (by omega))
  have few : n * s.pubs[k].width.bytes ≤ (body.drop 8).length := acceptedSamples_le s.pubs[k] (body.drop 8)
  have small : n < 65536 := by
    have := Nat.le_mul_of_pos_right n width
    omega
  exact (needsStore_fill reply small).trans (decide_eq_true (Nat.ne_of_gt accepted))

/-- While a burst holds the block store a request that needs it is held, or granted between the burst's reads: it is
then handled as once the store is free, the interface apart. -/
theorem exec_bound {c : Instr} {s : State} {b : Fin 16} (known : (requestBody c).isSome = true) (r : Ready s)
    (bound : s.cable.binding = some b) (one : OneWaits s.cable)
    (needs : ∀ n, needsStore c { s with freeCount := n } = true)
    (apart : ∀ x u, replyOf c { u with cable := x } = onCable x (replyOf c u)) :
    let u := { s with freeCount := s.freeCount + 1 }
    let d := granted u
    exec c s = .next { u with port := { u.port with transaction := .waiting, held := [c] } }
      ∨ ∃ t, exec c { d with cable := { d.cable with binding := none } } = .next t
        ∧ exec c s = .next { t with cable := d.cable } := by
  intro u d
  obtain ⟨due, held⟩ := r
  have busy : storeBusy s = true := by rw [storeBusy, bound]; rfl
  have row : exec c s = .next (if (drawFree s).1 % 2 = 0 then handleNow c u else holdRequest c u) := by
    rw [exec_requestRow c s known, requestRow, settled_quiet s (quiet_ready s due held), takeRecord, if_pos held,
      if_pos ⟨busy, needs s.freeCount⟩]
    rfl
  by_cases now_ : (drawFree s).1 % 2 = 0
  · refine .inr ?_
    let free : State := { d with cable := { d.cable with binding := none } }
    have drained : Drained (placeWaiting u) d := drained_drainWaiting _
    have none : d.due = [] := due_placed (s := u) due drained
    have placed : ringWriteWaits d = false := ringWriteWaits_placed (s := u) one drained
    have whole : exec c free = .next (answerNow c (setTransaction .waiting free)) := by
      rw [exec_requestRow c free known, requestRow_now c free none ((blind_granted.held u).trans held) rfl, handleNow,
        grantStore_none c free placed (drainWaiting_fifo _)]
    have now : handleNow c u = answerNow c (setTransaction .waiting d) := by
      rw [handleNow, grantStore_access c u (needs _)]
      rfl
    have same : answerNow c (setTransaction .waiting d)
        = { answerNow c (setTransaction .waiting free) with cable := d.cable } := by
      let v := setTransaction .waiting free
      have back := answer_onCable d.cable v (replyOf c v)
      rw [← apart d.cable v] at back
      exact back
    exact ⟨_, whole, by rw [row, if_pos now_, now, same]⟩
  · refine .inl ?_
    rw [row, if_neg now_, holdRequest, show u.port.held = [] from held]
    rfl

/-! ### The requests that were held (R191, R192) -/

/-- A TAKE of a block that was held, at its grant: the block is out of the ring. -/
theorem held_take {j : Fin 32} {e : RingEntry} {rest : List RingEntry} {s : State} (used : s.subs[j].state ≠ .unused)
    (blocks : s.subs[j].ring ≠ []) (ring : (placeWaiting s).subs[j].ring = e :: rest) :
    let w := placeWaiting s
    let d := drainWaiting w
    let ask := Instr.take [BitVec.ofNat 8 j.val]
    grantStore ask s = d ∧ replyOf ask d = .taken (takeBytes d j e) { d with
      subs := d.subs.set j { w.subs[j] with
        ring := rest, overrunReported := w.subs[j].overrunReported && decide (rest ≠ []) } } := by
  intro w d ask
  have entry : d.subs[j] = w.subs[j] := congrArg (·[j]) (drained_drainWaiting w).subs
  have reply := take_oldest (s := d) (entry ▸ keepsSubs_placeWaiting s j used) (entry ▸ ring)
  rw [entry] at reply
  exact ⟨grantStore_access ask s (needsStore_take used blocks), reply⟩

/-- A grant of the drain while a TAKE is held makes no difference to the TAKE, which comes behind the drain anyway
(R103). -/
theorem drained_before_take {j : Fin 32} {e : RingEntry} {rest : List RingEntry} {s : State} (due : s.due = [])
    (free : s.cable.binding = none) (one : OneWaits s.cable) (used : s.subs[j].state ≠ .unused)
    (blocks : s.subs[j].ring ≠ [])
    (ring : (placeWaiting { s with port := { s.port with held := [] } }).subs[j].ring = e :: rest)
    (held : s.port.held = [.take [BitVec.ofNat 8 j.val]]) (items : s.fifo ≠ []) :
    ∃ t, exec .drainSample s = .next t ∧ settled s = settled t := by
  let ask := Instr.take [BitVec.ofNat 8 j.val]
  let s0 : State := { s with port := { s.port with held := [] } }
  let w := placeWaiting s0
  let t := drainOne (placeWaiting s)
  have blind : Blind fun u => drainOne (placeWaiting u) := blind_drainOne.comp blind_placeWaiting
  have once : Drained w (drainOne w) := drained_drainOne w
  have idle : storeBusy s = false := by rw [storeBusy, free]; rfl
  have before : settled s = answerNow ask (drainWaiting w) := by
    rw [settled, dueTaken_none s due, serveHeld_one ask s held idle, handleOne,
      (held_take (s := s0) used blocks ring).1]
  have after : settled t = handleOne ask (drainOne w) := by
    have none : t.due = [] := due_placed due (drained_drainOne _)
    have kept : t.cable.binding = s.cable.binding := (drained_drainOne _).binding
    have idle' : storeBusy t = false := by rw [storeBusy, kept, free]; rfl
    have left : { t with port := { t.port with held := [] } } = drainOne w := by
      refine Eq.trans ?_ (blind s.port.transaction [] s).symm
      rw [← blind.transaction s]
      rfl
    rw [settled, dueTaken_none t none, serveHeld_one ask t ((blind.held s).trans held) idle', left]
  have grants : grantStore ask (drainOne w) = drainWaiting w := by
    have entry : (drainOne w).subs[j] = w.subs[j] := congrArg (·[j]) once.subs
    have waits : w.fifo ≠ [] := placeWaiting_fifo s0 ▸ items
    rw [grantStore_access ask _ (needsStore_take (entry ▸ keepsSubs_placeWaiting s0 j used)
      (by rw [entry, ring]; exact nofun)), placeWaiting_none _ (ringWriteWaits_placed (s := s0) one once),
      ← drainWaiting_item w waits]
  exact ⟨t, congrArg Host.Outcome.next (drainRow_item s due items), by rw [before, after, handleOne, grants]⟩

/-- Settles O57. -/
theorem requestsWaitForTheBlockStore : Obligations.RequestsWaitForTheBlockStore := by
  refine ⟨fun s => ⟨drainWaiting_none s, fun due items => ?drain⟩, fun s distinct => ⟨fun none => ?unplaced,
    fun bytes waits r => ?placed⟩, fun c b k s r bound one ask => ?bound,
    fun c first s request due bound held => ?second, fun c first second s request due bound held => ?third,
    fun n s q ff => ?leaves, fun c s request due free held waiting => ?served,
    fun j e rest s due free one used blocks => ?serves⟩
  case drain =>
    have waits : (placeWaiting s).fifo ≠ [] := placeWaiting_fifo s ▸ items
    exact ⟨drainOne (placeWaiting s), congrArg Host.Outcome.next (drainRow_item s due items), drainWaiting_item _ waits,
      (blind_drainOne.comp blind_placeWaiting).held s⟩
  case unplaced =>
    refine placeWaiting_none s (Bool.eq_false_iff.2 fun w => ?_)
    obtain ⟨bytes, m, b, waits, reads, places⟩ := ringWriteWaits_block w
    exact none bytes ((waitsForItsRing_iff distinct bytes).2 ⟨m, b, waits, reads, places⟩)
  case placed =>
    obtain ⟨m, b, first, reads, places⟩ := (waitsForItsRing_iff distinct bytes).1 waits
    have q : quiet s = true := quiet_ready s r.1 r.2
    refine ⟨handWaiting s, ?_, ?_⟩
    · refine (execGoodBurstReceived_quiet bytes .later s q).trans (congrArg _ ?_)
      rw [receiveBurst_later bytes m (.block b) s first reads, handWaiting_block first reads]
    · rw [settled_handWaiting r, placeWaiting_waits s (ringWriteWaits_of first reads places)]
  case bound =>
    rcases ask with ⟨j, e, rest, rfl, used, ring⟩ | ⟨tail, rfl, long, short, used, fed, idle, room⟩
    · have blocks : s.subs[j].ring ≠ [] := by rw [ring]; exact nofun
      exact exec_bound rfl r bound one (fun n => needsStore_take (s := { s with freeCount := n }) used blocks)
        fun x u => take_onCable x j u
    · let body : List Byte := BitVec.ofNat 8 k.val :: tail
      have number : pubOf body = some k := unitIx_byte k (by decide)
      have bytes : body.length = tail.length + 1 := rfl
      have sample : 8 + s.pubs[k].width.bytes ≤ body.length := by omega
      have short' : body.length ≤ 1536 := by omega
      exact exec_bound rfl r bound one
        (fun n => needsStore_fillSample (s := { s with freeCount := n }) number used fed idle sample short' room)
        fun x u => fill_onCable x number (by omega) short' u
  case second =>
    rw [exec_behind request due bound (by rw [held]; exact nofun), held]
    show Host.Outcome.next (holdRequest c s) = _
    rw [holdRequest, held]
    rfl
  case third =>
    have busy : storeBusy s = true := Option.isSome_iff_ne_none.2 bound
    have q : quiet s = true := by simp [quiet, due, busy]
    refine ⟨?_, (outside_quiet (discardRecord .third) q).trans ?_, fun i => rfl⟩
    · rw [exec_behind request due bound (by rw [held]; exact nofun), held]
      rfl
    · rw [discardRecord, held]
      rfl
  case leaves =>
    refine ⟨fun i => ?_, (outside_quiet (abandonResponse n) q).trans (congrArg _ ?_)⟩
    · rcases ff with e | e <;> rw [sentByte, e]
    · rcases ff with e | e <;> rw [abandonResponse, e] <;> rfl
  case served =>
    have idle : storeBusy s = false := by rw [storeBusy, free]; rfl
    rw [exec_waiting (s := { s with port := { s.port with held := [] } }) request ⟨due, rfl⟩ free waiting, settled,
      dueTaken_none s due, serveHeld_one c s held idle]
  case serves =>
    intro ask w ring d taken
    have idle : storeBusy s = false := by rw [storeBusy, free]; rfl
    let s0 : State := { s with port := { s.port with held := [] } }
    have served : settled s = serveHeld s := by rw [settled, dueTaken_none s due]
    have drained : Drained w d := drained_drainWaiting w
    obtain ⟨grants, reply⟩ := held_take (s := s0) used blocks ring
    refine ⟨fun sent held left => ?_, fun c request held waiting => ?_, fun held items => ?_⟩
    · have closed : taken.port.transaction ≠ .waiting := by
        rw [show taken.port.transaction = s.port.transaction from blind_granted.transaction s0, left]
        exact nofun
      rw [served, serveHeld_one ask s held idle, handleOne, answerNow, grants, reply]
      exact respond_left _ _ taken closed
    · have effect : handleLeft ask s0 = taken := by
        unfold handleLeft
        dsimp only
        rw [grants, reply]
        rfl
      have free' : taken.cable.binding = none := (Drained.binding (s := s0) drained).trans free
      rw [served, serveHeld_two ask c s held idle, effect]
      have none : d.due = [] := due_placed (s := s0) due drained
      exact exec_waiting request ⟨none, blind_granted.held s0⟩ free' ((blind_granted.transaction s0).trans waiting)
    · exact drained_before_take due free one used blocks ring held items

end Sys2Proof.Machine
end
